-- ==== Sys2Proof/Word.lean ====
section
/-! DEFINITION. The machine's words, halfwords, bytes and register numbers (spec/00_scope.md R7, R9; spec/20_memory.md R82). -/

namespace Sys2Proof

/-- A 32-bit word: register contents, addresses while they are computed, instruction words (R7, R9). -/
abbrev Word := BitVec 32

/-- A byte of memory (R82). -/
abbrev Byte := BitVec 8

/-- A 4-bit register number, 0 to 15 (R31, R138). -/
abbrev Reg := BitVec 4

end Sys2Proof
end

