-- ==== Sys2Proof/Syntax.lean ====
section
/-! DEFINITION. The instructions: one constructor of `Instr` for each row of spec/opcode_table.json, in the table's order,
with the row's fields as arguments (spec/30_encoding.md R122 to R147). -/

namespace Sys2Proof

/-- The fifteen conditions an instruction may carry; 1111 (NV) is reserved and is no condition here (R171, R172). -/
inductive Cond where
  | eq | ne | hs | lo | mi | pl | vs | vc | hi | ls | ge | lt | gt | le | al
deriving DecidableEq, Repr

/-- The sixteen data-processing operations, in the order of their opcode numbers (R139). -/
inductive DpOp where
  | and | eor | sub | rsb | add | adc | sbc | rsc | tst | teq | cmp | cmn | orr | mov | bic | mvn
deriving DecidableEq, Repr

/-- The four shift types of a shifted register; ROR by immediate 0 is RRX (R142). -/
inductive ShiftType where
  | lsl | lsr | asr | ror
deriving DecidableEq, Repr

/-- The second operand of a data-processing instruction (R141, R142). -/
inductive Operand2 where
  /-- An 8-bit constant rotated right by twice `rot` (R141). -/
  | imm (rot : BitVec 4) (imm8 : BitVec 8)
  /-- A register shifted by a 5-bit immediate amount (R226). -/
  | shiftImm (amount : BitVec 5) (ty : ShiftType) (rm : Reg)
  /-- A register shifted by the bottom byte of `rs` (R227). -/
  | shiftReg (rs : Reg) (ty : ShiftType) (rm : Reg)
deriving DecidableEq, Repr

/-- An ARM instruction: one constructor per row of spec/opcode_table.json. `c` is the condition, `sf` the S bit of a
data-processing or multiply row, `u`, `p`, `w` the U, P, W bits of a transfer. -/
inductive Instr where
  /-- AND, operand2 immediate (R196). -/
  | andImm (c : Cond) (rn rd : Reg) (sf : Bool) (rot : BitVec 4) (imm8 : BitVec 8)
  /-- AND, operand2 register shifted by immediate (R196). -/
  | andShiftImm (c : Cond) (rn rd : Reg) (sf : Bool) (amount : BitVec 5) (ty : ShiftType) (rm : Reg)
  /-- AND, operand2 register shifted by register (R196). -/
  | andShiftReg (c : Cond) (rn rd : Reg) (sf : Bool) (rs : Reg) (ty : ShiftType) (rm : Reg)
  /-- EOR, operand2 immediate (R197). -/
  | eorImm (c : Cond) (rn rd : Reg) (sf : Bool) (rot : BitVec 4) (imm8 : BitVec 8)
  /-- EOR, operand2 register shifted by immediate (R197). -/
  | eorShiftImm (c : Cond) (rn rd : Reg) (sf : Bool) (amount : BitVec 5) (ty : ShiftType) (rm : Reg)
  /-- EOR, operand2 register shifted by register (R197). -/
  | eorShiftReg (c : Cond) (rn rd : Reg) (sf : Bool) (rs : Reg) (ty : ShiftType) (rm : Reg)
  /-- SUB, operand2 immediate (R198). -/
  | subImm (c : Cond) (rn rd : Reg) (sf : Bool) (rot : BitVec 4) (imm8 : BitVec 8)
  /-- SUB, operand2 register shifted by immediate (R198). -/
  | subShiftImm (c : Cond) (rn rd : Reg) (sf : Bool) (amount : BitVec 5) (ty : ShiftType) (rm : Reg)
  /-- SUB, operand2 register shifted by register (R198). -/
  | subShiftReg (c : Cond) (rn rd : Reg) (sf : Bool) (rs : Reg) (ty : ShiftType) (rm : Reg)
  /-- RSB, operand2 immediate (R199). -/
  | rsbImm (c : Cond) (rn rd : Reg) (sf : Bool) (rot : BitVec 4) (imm8 : BitVec 8)
  /-- RSB, operand2 register shifted by immediate (R199). -/
  | rsbShiftImm (c : Cond) (rn rd : Reg) (sf : Bool) (amount : BitVec 5) (ty : ShiftType) (rm : Reg)
  /-- RSB, operand2 register shifted by register (R199). -/
  | rsbShiftReg (c : Cond) (rn rd : Reg) (sf : Bool) (rs : Reg) (ty : ShiftType) (rm : Reg)
  /-- ADD, operand2 immediate (R200). -/
  | addImm (c : Cond) (rn rd : Reg) (sf : Bool) (rot : BitVec 4) (imm8 : BitVec 8)
  /-- ADD, operand2 register shifted by immediate (R200). -/
  | addShiftImm (c : Cond) (rn rd : Reg) (sf : Bool) (amount : BitVec 5) (ty : ShiftType) (rm : Reg)
  /-- ADD, operand2 register shifted by register (R200). -/
  | addShiftReg (c : Cond) (rn rd : Reg) (sf : Bool) (rs : Reg) (ty : ShiftType) (rm : Reg)
  /-- ADC, operand2 immediate (R201). -/
  | adcImm (c : Cond) (rn rd : Reg) (sf : Bool) (rot : BitVec 4) (imm8 : BitVec 8)
  /-- ADC, operand2 register shifted by immediate (R201). -/
  | adcShiftImm (c : Cond) (rn rd : Reg) (sf : Bool) (amount : BitVec 5) (ty : ShiftType) (rm : Reg)
  /-- ADC, operand2 register shifted by register (R201). -/
  | adcShiftReg (c : Cond) (rn rd : Reg) (sf : Bool) (rs : Reg) (ty : ShiftType) (rm : Reg)
  /-- SBC, operand2 immediate (R202). -/
  | sbcImm (c : Cond) (rn rd : Reg) (sf : Bool) (rot : BitVec 4) (imm8 : BitVec 8)
  /-- SBC, operand2 register shifted by immediate (R202). -/
  | sbcShiftImm (c : Cond) (rn rd : Reg) (sf : Bool) (amount : BitVec 5) (ty : ShiftType) (rm : Reg)
  /-- SBC, operand2 register shifted by register (R202). -/
  | sbcShiftReg (c : Cond) (rn rd : Reg) (sf : Bool) (rs : Reg) (ty : ShiftType) (rm : Reg)
  /-- RSC, operand2 immediate (R203). -/
  | rscImm (c : Cond) (rn rd : Reg) (sf : Bool) (rot : BitVec 4) (imm8 : BitVec 8)
  /-- RSC, operand2 register shifted by immediate (R203). -/
  | rscShiftImm (c : Cond) (rn rd : Reg) (sf : Bool) (amount : BitVec 5) (ty : ShiftType) (rm : Reg)
  /-- RSC, operand2 register shifted by register (R203). -/
  | rscShiftReg (c : Cond) (rn rd : Reg) (sf : Bool) (rs : Reg) (ty : ShiftType) (rm : Reg)
  /-- TST, operand2 immediate (R204). -/
  | tstImm (c : Cond) (rn rd : Reg) (rot : BitVec 4) (imm8 : BitVec 8)
  /-- TST, operand2 register shifted by immediate (R204). -/
  | tstShiftImm (c : Cond) (rn rd : Reg) (amount : BitVec 5) (ty : ShiftType) (rm : Reg)
  /-- TST, operand2 register shifted by register (R204). -/
  | tstShiftReg (c : Cond) (rn rd rs : Reg) (ty : ShiftType) (rm : Reg)
  /-- TEQ, operand2 immediate (R205). -/
  | teqImm (c : Cond) (rn rd : Reg) (rot : BitVec 4) (imm8 : BitVec 8)
  /-- TEQ, operand2 register shifted by immediate (R205). -/
  | teqShiftImm (c : Cond) (rn rd : Reg) (amount : BitVec 5) (ty : ShiftType) (rm : Reg)
  /-- TEQ, operand2 register shifted by register (R205). -/
  | teqShiftReg (c : Cond) (rn rd rs : Reg) (ty : ShiftType) (rm : Reg)
  /-- CMP, operand2 immediate (R206). -/
  | cmpImm (c : Cond) (rn rd : Reg) (rot : BitVec 4) (imm8 : BitVec 8)
  /-- CMP, operand2 register shifted by immediate (R206). -/
  | cmpShiftImm (c : Cond) (rn rd : Reg) (amount : BitVec 5) (ty : ShiftType) (rm : Reg)
  /-- CMP, operand2 register shifted by register (R206). -/
  | cmpShiftReg (c : Cond) (rn rd rs : Reg) (ty : ShiftType) (rm : Reg)
  /-- CMN, operand2 immediate (R207). -/
  | cmnImm (c : Cond) (rn rd : Reg) (rot : BitVec 4) (imm8 : BitVec 8)
  /-- CMN, operand2 register shifted by immediate (R207). -/
  | cmnShiftImm (c : Cond) (rn rd : Reg) (amount : BitVec 5) (ty : ShiftType) (rm : Reg)
  /-- CMN, operand2 register shifted by register (R207). -/
  | cmnShiftReg (c : Cond) (rn rd rs : Reg) (ty : ShiftType) (rm : Reg)
  /-- ORR, operand2 immediate (R208). -/
  | orrImm (c : Cond) (rn rd : Reg) (sf : Bool) (rot : BitVec 4) (imm8 : BitVec 8)
  /-- ORR, operand2 register shifted by immediate (R208). -/
  | orrShiftImm (c : Cond) (rn rd : Reg) (sf : Bool) (amount : BitVec 5) (ty : ShiftType) (rm : Reg)
  /-- ORR, operand2 register shifted by register (R208). -/
  | orrShiftReg (c : Cond) (rn rd : Reg) (sf : Bool) (rs : Reg) (ty : ShiftType) (rm : Reg)
  /-- MOV, operand2 immediate (R209). -/
  | movImm (c : Cond) (rn rd : Reg) (sf : Bool) (rot : BitVec 4) (imm8 : BitVec 8)
  /-- MOV, operand2 register shifted by immediate (R209). -/
  | movShiftImm (c : Cond) (rn rd : Reg) (sf : Bool) (amount : BitVec 5) (ty : ShiftType) (rm : Reg)
  /-- MOV, operand2 register shifted by register (R209). -/
  | movShiftReg (c : Cond) (rn rd : Reg) (sf : Bool) (rs : Reg) (ty : ShiftType) (rm : Reg)
  /-- BIC, operand2 immediate (R210). -/
  | bicImm (c : Cond) (rn rd : Reg) (sf : Bool) (rot : BitVec 4) (imm8 : BitVec 8)
  /-- BIC, operand2 register shifted by immediate (R210). -/
  | bicShiftImm (c : Cond) (rn rd : Reg) (sf : Bool) (amount : BitVec 5) (ty : ShiftType) (rm : Reg)
  /-- BIC, operand2 register shifted by register (R210). -/
  | bicShiftReg (c : Cond) (rn rd : Reg) (sf : Bool) (rs : Reg) (ty : ShiftType) (rm : Reg)
  /-- MVN, operand2 immediate (R211). -/
  | mvnImm (c : Cond) (rn rd : Reg) (sf : Bool) (rot : BitVec 4) (imm8 : BitVec 8)
  /-- MVN, operand2 register shifted by immediate (R211). -/
  | mvnShiftImm (c : Cond) (rn rd : Reg) (sf : Bool) (amount : BitVec 5) (ty : ShiftType) (rm : Reg)
  /-- MVN, operand2 register shifted by register (R211). -/
  | mvnShiftReg (c : Cond) (rn rd : Reg) (sf : Bool) (rs : Reg) (ty : ShiftType) (rm : Reg)
  /-- MRS, `r` selects the SPSR (R331). -/
  | mrs (c : Cond) (r : Bool) (rd : Reg)
  /-- MSR, register operand (R332). -/
  | msrReg (c : Cond) (r : Bool) (fmask : BitVec 4) (rm : Reg)
  /-- MSR, immediate operand (R333). -/
  | msrImm (c : Cond) (r : Bool) (fmask rot : BitVec 4) (imm8 : BitVec 8)
  /-- BX (R183). -/
  | bx (c : Cond) (rn : Reg)
  /-- MUL, the Rn field is not used (R240). -/
  | mul (c : Cond) (sf : Bool) (rd rn rs rm : Reg)
  /-- MLA (R241). -/
  | mla (c : Cond) (sf : Bool) (rd rn rs rm : Reg)
  /-- UMULL (R244). -/
  | umull (c : Cond) (sf : Bool) (rdHi rdLo rs rm : Reg)
  /-- UMLAL (R245). -/
  | umlal (c : Cond) (sf : Bool) (rdHi rdLo rs rm : Reg)
  /-- SMULL (R246). -/
  | smull (c : Cond) (sf : Bool) (rdHi rdLo rs rm : Reg)
  /-- SMLAL (R247). -/
  | smlal (c : Cond) (sf : Bool) (rdHi rdLo rs rm : Reg)
  /-- SWP (R310). -/
  | swp (c : Cond) (rn rd rm : Reg)
  /-- SWPB (R311). -/
  | swpb (c : Cond) (rn rd rm : Reg)
  /-- STRH, immediate offset (R274). -/
  | strhImm (c : Cond) (p u w : Bool) (rn rd : Reg) (offHi offLo : BitVec 4)
  /-- STRH, register offset (R274). -/
  | strhReg (c : Cond) (p u w : Bool) (rn rd rm : Reg)
  /-- LDRH, immediate offset (R273). -/
  | ldrhImm (c : Cond) (p u w : Bool) (rn rd : Reg) (offHi offLo : BitVec 4)
  /-- LDRH, register offset (R273). -/
  | ldrhReg (c : Cond) (p u w : Bool) (rn rd rm : Reg)
  /-- LDRSB, immediate offset (R275). -/
  | ldrsbImm (c : Cond) (p u w : Bool) (rn rd : Reg) (offHi offLo : BitVec 4)
  /-- LDRSB, register offset (R275). -/
  | ldrsbReg (c : Cond) (p u w : Bool) (rn rd rm : Reg)
  /-- LDRSH, immediate offset (R276). -/
  | ldrshImm (c : Cond) (p u w : Bool) (rn rd : Reg) (offHi offLo : BitVec 4)
  /-- LDRSH, register offset (R276). -/
  | ldrshReg (c : Cond) (p u w : Bool) (rn rd rm : Reg)
  /-- STR, immediate offset, P = 1 (R265). -/
  | strImmPre (c : Cond) (u : Bool) (rn rd : Reg) (offset : BitVec 12) (w : Bool)
  /-- STR, immediate offset, P = 0, W = 0 (R265). -/
  | strImmPost (c : Cond) (u : Bool) (rn rd : Reg) (offset : BitVec 12)
  /-- STRT, immediate offset, P = 0, W = 1 (R269). -/
  | strtImm (c : Cond) (u : Bool) (rn rd : Reg) (offset : BitVec 12)
  /-- STR, register offset, P = 1 (R265). -/
  | strRegPre (c : Cond) (u : Bool) (rn rd : Reg) (amount : BitVec 5) (ty : ShiftType) (rm : Reg) (w : Bool)
  /-- STR, register offset, P = 0, W = 0 (R265). -/
  | strRegPost (c : Cond) (u : Bool) (rn rd : Reg) (amount : BitVec 5) (ty : ShiftType) (rm : Reg)
  /-- STRT, register offset, P = 0, W = 1 (R269). -/
  | strtReg (c : Cond) (u : Bool) (rn rd : Reg) (amount : BitVec 5) (ty : ShiftType) (rm : Reg)
  /-- LDR, immediate offset, P = 1 (R264). -/
  | ldrImmPre (c : Cond) (u : Bool) (rn rd : Reg) (offset : BitVec 12) (w : Bool)
  /-- LDR, immediate offset, P = 0, W = 0 (R264). -/
  | ldrImmPost (c : Cond) (u : Bool) (rn rd : Reg) (offset : BitVec 12)
  /-- LDRT, immediate offset, P = 0, W = 1 (R268). -/
  | ldrtImm (c : Cond) (u : Bool) (rn rd : Reg) (offset : BitVec 12)
  /-- LDR, register offset, P = 1 (R264). -/
  | ldrRegPre (c : Cond) (u : Bool) (rn rd : Reg) (amount : BitVec 5) (ty : ShiftType) (rm : Reg) (w : Bool)
  /-- LDR, register offset, P = 0, W = 0 (R264). -/
  | ldrRegPost (c : Cond) (u : Bool) (rn rd : Reg) (amount : BitVec 5) (ty : ShiftType) (rm : Reg)
  /-- LDRT, register offset, P = 0, W = 1 (R268). -/
  | ldrtReg (c : Cond) (u : Bool) (rn rd : Reg) (amount : BitVec 5) (ty : ShiftType) (rm : Reg)
  /-- STRB, immediate offset, P = 1 (R267). -/
  | strbImmPre (c : Cond) (u : Bool) (rn rd : Reg) (offset : BitVec 12) (w : Bool)
  /-- STRB, immediate offset, P = 0, W = 0 (R267). -/
  | strbImmPost (c : Cond) (u : Bool) (rn rd : Reg) (offset : BitVec 12)
  /-- STRBT, immediate offset, P = 0, W = 1 (R271). -/
  | strbtImm (c : Cond) (u : Bool) (rn rd : Reg) (offset : BitVec 12)
  /-- STRB, register offset, P = 1 (R267). -/
  | strbRegPre (c : Cond) (u : Bool) (rn rd : Reg) (amount : BitVec 5) (ty : ShiftType) (rm : Reg) (w : Bool)
  /-- STRB, register offset, P = 0, W = 0 (R267). -/
  | strbRegPost (c : Cond) (u : Bool) (rn rd : Reg) (amount : BitVec 5) (ty : ShiftType) (rm : Reg)
  /-- STRBT, register offset, P = 0, W = 1 (R271). -/
  | strbtReg (c : Cond) (u : Bool) (rn rd : Reg) (amount : BitVec 5) (ty : ShiftType) (rm : Reg)
  /-- LDRB, immediate offset, P = 1 (R266). -/
  | ldrbImmPre (c : Cond) (u : Bool) (rn rd : Reg) (offset : BitVec 12) (w : Bool)
  /-- LDRB, immediate offset, P = 0, W = 0 (R266). -/
  | ldrbImmPost (c : Cond) (u : Bool) (rn rd : Reg) (offset : BitVec 12)
  /-- LDRBT, immediate offset, P = 0, W = 1 (R270). -/
  | ldrbtImm (c : Cond) (u : Bool) (rn rd : Reg) (offset : BitVec 12)
  /-- LDRB, register offset, P = 1 (R266). -/
  | ldrbRegPre (c : Cond) (u : Bool) (rn rd : Reg) (amount : BitVec 5) (ty : ShiftType) (rm : Reg) (w : Bool)
  /-- LDRB, register offset, P = 0, W = 0 (R266). -/
  | ldrbRegPost (c : Cond) (u : Bool) (rn rd : Reg) (amount : BitVec 5) (ty : ShiftType) (rm : Reg)
  /-- LDRBT, register offset, P = 0, W = 1 (R270). -/
  | ldrbtReg (c : Cond) (u : Bool) (rn rd : Reg) (amount : BitVec 5) (ty : ShiftType) (rm : Reg)
  /-- UNDEFINED, bits 27:25 = 011 and bit 4 = 1; `hi` is bits 24:5, `lo` bits 3:0 (R340). -/
  | undefined (c : Cond) (hi : BitVec 20) (lo : BitVec 4)
  /-- LDM, `sb` is the S bit (`^`) (R293). -/
  | ldm (c : Cond) (p u sb w : Bool) (rn : Reg) (list : BitVec 16)
  /-- STM, `sb` is the S bit (`^`) (R294). -/
  | stm (c : Cond) (p u sb w : Bool) (rn : Reg) (list : BitVec 16)
  /-- B (R180). -/
  | b (c : Cond) (offset : BitVec 24)
  /-- BL (R181). -/
  | bl (c : Cond) (offset : BitVec 24)
  /-- LDC (R336). -/
  | ldc (c : Cond) (p u n w : Bool) (rn : Reg) (crd cpnum : BitVec 4) (offset : BitVec 8)
  /-- STC (R337). -/
  | stc (c : Cond) (p u n w : Bool) (rn : Reg) (crd cpnum : BitVec 4) (offset : BitVec 8)
  /-- CDP (R335). -/
  | cdp (c : Cond) (op1 crn crd cpnum : BitVec 4) (op2 : BitVec 3) (crm : BitVec 4)
  /-- MCR (R338). -/
  | mcr (c : Cond) (op1 : BitVec 3) (crn : BitVec 4) (rd : Reg) (cpnum : BitVec 4) (op2 : BitVec 3) (crm : BitVec 4)
  /-- MRC (R339). -/
  | mrc (c : Cond) (op1 : BitVec 3) (crn : BitVec 4) (rd : Reg) (cpnum : BitVec 4) (op2 : BitVec 3) (crm : BitVec 4)
  /-- SWI (R320). -/
  | swi (c : Cond) (number : BitVec 24)
deriving DecidableEq, Repr

end Sys2Proof
end

