-- ==== Sys2Proof/Decode.lean ====
section
/-! DEFINITION. The decoder, after the tree of spec/30_encoding.md R137, and the encoder, after the formats R122 to R135;
`decodeTableWord` for the opcode table's words. -/

namespace Sys2Proof

/-- Why bytes are no instruction: the reserved condition 1111 (R149, U1), a word that matches no row (R148, U28; its
condition is kept), or fewer than four bytes (R120). -/
inductive DecodeError where
  | reservedCondition
  | noRow (c : Cond)
  | tooShort
deriving DecidableEq, Repr

/-! ## Codes of the small fields -/

/-- The condition of bits 31:28; 1111 is reserved (R171, R172). -/
def Cond.ofBits (b : BitVec 4) : Option Cond :=
  if b = 0 then some .eq else if b = 1 then some .ne else if b = 2 then some .hs else if b = 3 then some .lo
  else if b = 4 then some .mi else if b = 5 then some .pl else if b = 6 then some .vs else if b = 7 then some .vc
  else if b = 8 then some .hi else if b = 9 then some .ls else if b = 10 then some .ge else if b = 11 then some .lt
  else if b = 12 then some .gt else if b = 13 then some .le else if b = 14 then some .al else none

/-- The code of a condition (R171). -/
def Cond.bits : Cond → BitVec 4
  | .eq => 0 | .ne => 1 | .hs => 2 | .lo => 3 | .mi => 4 | .pl => 5 | .vs => 6 | .vc => 7
  | .hi => 8 | .ls => 9 | .ge => 10 | .lt => 11 | .gt => 12 | .le => 13 | .al => 14

/-- The operation of the Opcode field (R139). -/
def DpOp.ofBits (b : BitVec 4) : DpOp :=
  if b = 0 then .and else if b = 1 then .eor else if b = 2 then .sub else if b = 3 then .rsb
  else if b = 4 then .add else if b = 5 then .adc else if b = 6 then .sbc else if b = 7 then .rsc
  else if b = 8 then .tst else if b = 9 then .teq else if b = 10 then .cmp else if b = 11 then .cmn
  else if b = 12 then .orr else if b = 13 then .mov else if b = 14 then .bic else .mvn

/-- The Opcode of an operation (R139). -/
def DpOp.bits : DpOp → BitVec 4
  | .and => 0 | .eor => 1 | .sub => 2 | .rsb => 3 | .add => 4 | .adc => 5 | .sbc => 6 | .rsc => 7
  | .tst => 8 | .teq => 9 | .cmp => 10 | .cmn => 11 | .orr => 12 | .mov => 13 | .bic => 14 | .mvn => 15

/-- The operation only compares: it writes no register (R140, R204 to R207). -/
def DpOp.compares : DpOp → Bool
  | .tst | .teq | .cmp | .cmn => true
  | _ => false

/-- The shift type of bits 6:5 (R142). -/
def ShiftType.ofBits (b : BitVec 2) : ShiftType :=
  if b = 0 then .lsl else if b = 1 then .lsr else if b = 2 then .asr else .ror

/-- The code of a shift type (R142). -/
def ShiftType.bits : ShiftType → BitVec 2
  | .lsl => 0 | .lsr => 1 | .asr => 2 | .ror => 3

/-! ## Which row an instruction comes from -/

/-- The row of a data-processing operation with an immediate operand; a comparison has no S field. -/
def dpImm (op : DpOp) (c : Cond) (rn rd : Reg) (sf : Bool) (rot : BitVec 4) (imm8 : BitVec 8) : Instr :=
  match op with
  | .and => .andImm c rn rd sf rot imm8
  | .eor => .eorImm c rn rd sf rot imm8
  | .sub => .subImm c rn rd sf rot imm8
  | .rsb => .rsbImm c rn rd sf rot imm8
  | .add => .addImm c rn rd sf rot imm8
  | .adc => .adcImm c rn rd sf rot imm8
  | .sbc => .sbcImm c rn rd sf rot imm8
  | .rsc => .rscImm c rn rd sf rot imm8
  | .tst => .tstImm c rn rd rot imm8
  | .teq => .teqImm c rn rd rot imm8
  | .cmp => .cmpImm c rn rd rot imm8
  | .cmn => .cmnImm c rn rd rot imm8
  | .orr => .orrImm c rn rd sf rot imm8
  | .mov => .movImm c rn rd sf rot imm8
  | .bic => .bicImm c rn rd sf rot imm8
  | .mvn => .mvnImm c rn rd sf rot imm8

/-- The row of a data-processing operation with a register shifted by an immediate. -/
def dpShiftImm (op : DpOp) (c : Cond) (rn rd : Reg) (sf : Bool) (amount : BitVec 5) (ty : ShiftType) (rm : Reg) : Instr :=
  match op with
  | .and => .andShiftImm c rn rd sf amount ty rm
  | .eor => .eorShiftImm c rn rd sf amount ty rm
  | .sub => .subShiftImm c rn rd sf amount ty rm
  | .rsb => .rsbShiftImm c rn rd sf amount ty rm
  | .add => .addShiftImm c rn rd sf amount ty rm
  | .adc => .adcShiftImm c rn rd sf amount ty rm
  | .sbc => .sbcShiftImm c rn rd sf amount ty rm
  | .rsc => .rscShiftImm c rn rd sf amount ty rm
  | .tst => .tstShiftImm c rn rd amount ty rm
  | .teq => .teqShiftImm c rn rd amount ty rm
  | .cmp => .cmpShiftImm c rn rd amount ty rm
  | .cmn => .cmnShiftImm c rn rd amount ty rm
  | .orr => .orrShiftImm c rn rd sf amount ty rm
  | .mov => .movShiftImm c rn rd sf amount ty rm
  | .bic => .bicShiftImm c rn rd sf amount ty rm
  | .mvn => .mvnShiftImm c rn rd sf amount ty rm

/-- The row of a data-processing operation with a register shifted by a register. -/
def dpShiftReg (op : DpOp) (c : Cond) (rn rd : Reg) (sf : Bool) (rs : Reg) (ty : ShiftType) (rm : Reg) : Instr :=
  match op with
  | .and => .andShiftReg c rn rd sf rs ty rm
  | .eor => .eorShiftReg c rn rd sf rs ty rm
  | .sub => .subShiftReg c rn rd sf rs ty rm
  | .rsb => .rsbShiftReg c rn rd sf rs ty rm
  | .add => .addShiftReg c rn rd sf rs ty rm
  | .adc => .adcShiftReg c rn rd sf rs ty rm
  | .sbc => .sbcShiftReg c rn rd sf rs ty rm
  | .rsc => .rscShiftReg c rn rd sf rs ty rm
  | .tst => .tstShiftReg c rn rd rs ty rm
  | .teq => .teqShiftReg c rn rd rs ty rm
  | .cmp => .cmpShiftReg c rn rd rs ty rm
  | .cmn => .cmnShiftReg c rn rd rs ty rm
  | .orr => .orrShiftReg c rn rd sf rs ty rm
  | .mov => .movShiftReg c rn rd sf rs ty rm
  | .bic => .bicShiftReg c rn rd sf rs ty rm
  | .mvn => .mvnShiftReg c rn rd sf rs ty rm

/-- The data-processing instruction with operation `op` and second operand `o` (R122). -/
def dpInstr (op : DpOp) (c : Cond) (rn rd : Reg) (sf : Bool) : Operand2 → Instr
  | .imm rot imm8 => dpImm op c rn rd sf rot imm8
  | .shiftImm amount ty rm => dpShiftImm op c rn rd sf amount ty rm
  | .shiftReg rs ty rm => dpShiftReg op c rn rd sf rs ty rm

/-- The word and byte row of this form for the L and B bits. -/
def lsImmPre : Bool → Bool → Cond → Bool → Reg → Reg → BitVec 12 → Bool → Instr
  | false, false => .strImmPre
  | true, false => .ldrImmPre
  | false, true => .strbImmPre
  | true, true => .ldrbImmPre

/-- The word and byte row of this form for the L and B bits. -/
def lsImmPost : Bool → Bool → Cond → Bool → Reg → Reg → BitVec 12 → Instr
  | false, false => .strImmPost
  | true, false => .ldrImmPost
  | false, true => .strbImmPost
  | true, true => .ldrbImmPost

/-- The word and byte row of this form for the L and B bits. -/
def lsImmT : Bool → Bool → Cond → Bool → Reg → Reg → BitVec 12 → Instr
  | false, false => .strtImm
  | true, false => .ldrtImm
  | false, true => .strbtImm
  | true, true => .ldrbtImm

/-- The word and byte row of this form for the L and B bits. -/
def lsRegPre : Bool → Bool → Cond → Bool → Reg → Reg → BitVec 5 → ShiftType → Reg → Bool → Instr
  | false, false => .strRegPre
  | true, false => .ldrRegPre
  | false, true => .strbRegPre
  | true, true => .ldrbRegPre

/-- The word and byte row of this form for the L and B bits. -/
def lsRegPost : Bool → Bool → Cond → Bool → Reg → Reg → BitVec 5 → ShiftType → Reg → Instr
  | false, false => .strRegPost
  | true, false => .ldrRegPost
  | false, true => .strbRegPost
  | true, true => .ldrbRegPost

/-- The word and byte row of this form for the L and B bits. -/
def lsRegT : Bool → Bool → Cond → Bool → Reg → Reg → BitVec 5 → ShiftType → Reg → Instr
  | false, false => .strtReg
  | true, false => .ldrtReg
  | false, true => .strbtReg
  | true, true => .ldrbtReg

/-! ## Decoding -/

/-- `field w lo len` is `w[lo+len-1 : lo]` (R9). -/
def field (w : Word) (lo len : Nat) : BitVec len := w.extractLsb' lo len

/-- The flag bit `w[i]` (R9). -/
def flag (w : Word) (i : Nat) : Bool := w.getLsbD i

/-- The words of format DP with Opcode 10xx and S = 0 and a register operand: MRS, MSR, BX, else no row (R137, R140). -/
def decodePsrReg (c : Cond) (w : Word) : Option Instr :=
  if field w 20 2 = 0 then
    if field w 16 4 = 15 ∧ field w 0 12 = 0 then some (.mrs c (flag w 22) (field w 12 4)) else none
  else if field w 12 4 = 15 ∧ field w 4 8 = 0 then some (.msrReg c (flag w 22) (field w 16 4) (field w 0 4))
  else if field w 20 8 = 18 ∧ field w 4 16 = 0xFFF1 then some (.bx c (field w 0 4))
  else none

/-- Format DP with a register operand, w[27:25] = 000 and not (w[7] = 1 and w[4] = 1) (R137). -/
def decodeDpReg (c : Cond) (w : Word) : Option Instr :=
  let op := DpOp.ofBits (field w 21 4)
  if op.compares && !flag w 20 then decodePsrReg c w
  else if flag w 4 then
    some (dpShiftReg op c (field w 16 4) (field w 12 4) (flag w 20) (field w 8 4) (.ofBits (field w 5 2)) (field w 0 4))
  else
    some (dpShiftImm op c (field w 16 4) (field w 12 4) (flag w 20) (field w 7 5) (.ofBits (field w 5 2)) (field w 0 4))

/-- Format DP with an immediate operand, or MSR immediate (R137, R140). -/
def decodeDpImm (c : Cond) (w : Word) : Option Instr :=
  let op := DpOp.ofBits (field w 21 4)
  if op.compares && !flag w 20 then
    if field w 20 2 = 2 ∧ field w 12 4 = 15 then
      some (.msrImm c (flag w 22) (field w 16 4) (field w 8 4) (field w 0 8))
    else none
  else some (dpImm op c (field w 16 4) (field w 12 4) (flag w 20) (field w 8 4) (field w 0 8))

/-- The multiply and swap formats: w[27:25] = 000 and w[7:4] = 1001 (R123, R124, R125, R137). -/
def decodeMulSwp (c : Cond) (w : Word) : Option Instr :=
  if field w 22 3 = 0 then
    some ((if flag w 21 then Instr.mla else Instr.mul) c (flag w 20) (field w 16 4) (field w 12 4) (field w 8 4) (field w 0 4))
  else if field w 23 2 = 1 then
    some ((if flag w 22 then (if flag w 21 then Instr.smlal else Instr.smull)
      else (if flag w 21 then Instr.umlal else Instr.umull)) c (flag w 20) (field w 16 4) (field w 12 4) (field w 8 4) (field w 0 4))
  else if field w 23 2 = 2 ∧ field w 20 2 = 0 ∧ field w 8 4 = 0 then
    some ((if flag w 22 then Instr.swpb else Instr.swp) c (field w 16 4) (field w 12 4) (field w 0 4))
  else none

/-- The halfword and signed transfers: w[27:25] = 000, w[7] = w[4] = 1 and w[6:5] not 00; the L, S, H table (R128, R129, R146). -/
def decodeHalf (c : Cond) (w : Word) : Option Instr :=
  let p := flag w 24; let u := flag w 23; let wb := flag w 21
  let rn := field w 16 4; let rd := field w 12 4
  if flag w 22 then
    if flag w 20 then
      if field w 5 2 = 1 then some (.ldrhImm c p u wb rn rd (field w 8 4) (field w 0 4))
      else if field w 5 2 = 2 then some (.ldrsbImm c p u wb rn rd (field w 8 4) (field w 0 4))
      else some (.ldrshImm c p u wb rn rd (field w 8 4) (field w 0 4))
    else if field w 5 2 = 1 then some (.strhImm c p u wb rn rd (field w 8 4) (field w 0 4)) else none
  else if field w 8 4 = 0 then
    if flag w 20 then
      if field w 5 2 = 1 then some (.ldrhReg c p u wb rn rd (field w 0 4))
      else if field w 5 2 = 2 then some (.ldrsbReg c p u wb rn rd (field w 0 4))
      else some (.ldrshReg c p u wb rn rd (field w 0 4))
    else if field w 5 2 = 1 then some (.strhReg c p u wb rn rd (field w 0 4)) else none
  else none

/-- Format LS with an immediate offset (R126, R144, R145). -/
def decodeLsImm (c : Cond) (w : Word) : Instr :=
  if flag w 24 then
    lsImmPre (flag w 20) (flag w 22) c (flag w 23) (field w 16 4) (field w 12 4) (field w 0 12) (flag w 21)
  else if flag w 21 then
    lsImmT (flag w 20) (flag w 22) c (flag w 23) (field w 16 4) (field w 12 4) (field w 0 12)
  else lsImmPost (flag w 20) (flag w 22) c (flag w 23) (field w 16 4) (field w 12 4) (field w 0 12)

/-- Format LS with a register offset, or the undefined instruction space (R126, R144, R145, R147). -/
def decodeLsReg (c : Cond) (w : Word) : Instr :=
  let ty := ShiftType.ofBits (field w 5 2)
  if flag w 4 then .undefined c (field w 5 20) (field w 0 4)
  else if flag w 24 then
    lsRegPre (flag w 20) (flag w 22) c (flag w 23) (field w 16 4) (field w 12 4) (field w 7 5) ty (field w 0 4) (flag w 21)
  else if flag w 21 then
    lsRegT (flag w 20) (flag w 22) c (flag w 23) (field w 16 4) (field w 12 4) (field w 7 5) ty (field w 0 4)
  else lsRegPost (flag w 20) (flag w 22) c (flag w 23) (field w 16 4) (field w 12 4) (field w 7 5) ty (field w 0 4)

/-- The coprocessor formats with w[27:24] = 1110 (R133, R134). -/
def decodeCop (c : Cond) (w : Word) : Instr :=
  if flag w 4 then
    (if flag w 20 then Instr.mrc else Instr.mcr) c (field w 21 3) (field w 16 4) (field w 12 4) (field w 8 4) (field w 5 3) (field w 0 4)
  else .cdp c (field w 20 4) (field w 16 4) (field w 12 4) (field w 8 4) (field w 5 3) (field w 0 4)

/-- The row of a word whose condition is `c`, by the tree of R137; `none` where no row matches (R148). -/
def decodeRow (c : Cond) (w : Word) : Option Instr :=
  if field w 25 3 = 0 then
    if flag w 4 && flag w 7 then (if field w 5 2 = 0 then decodeMulSwp c w else decodeHalf c w) else decodeDpReg c w
  else if field w 25 3 = 1 then decodeDpImm c w
  else if field w 25 3 = 2 then some (decodeLsImm c w)
  else if field w 25 3 = 3 then some (decodeLsReg c w)
  else if field w 25 3 = 4 then
    some ((if flag w 20 then Instr.ldm else Instr.stm) c (flag w 24) (flag w 23) (flag w 22) (flag w 21) (field w 16 4) (field w 0 16))
  else if field w 25 3 = 5 then some ((if flag w 24 then Instr.bl else Instr.b) c (field w 0 24))
  else if field w 25 3 = 6 then
    some ((if flag w 20 then Instr.ldc else Instr.stc) c (flag w 24) (flag w 23) (flag w 22) (flag w 21) (field w 16 4)
      (field w 12 4) (field w 8 4) (field w 0 8))
  else if flag w 24 then some (.swi c (field w 0 24))
  else some (decodeCop c w)

/-- The instruction of a word: the reserved condition is refused before any row is looked at (R149), and a word without a row
is refused by name (R148). -/
def decode (w : Word) : Except DecodeError Instr :=
  match Cond.ofBits (field w 28 4) with
  | none => .error .reservedCondition
  | some c =>
    match decodeRow c w with
    | some i => .ok i
    | none => .error (.noRow c)

/-- The word of four bytes at rising addresses, by the byte order (R83, R84). -/
def wordOfBytes (bigEnd : Bool) (b0 b1 b2 b3 : Byte) : Word :=
  if bigEnd then b0 ++ b1 ++ b2 ++ b3 else b3 ++ b2 ++ b1 ++ b0

/-- The four bytes of a word at rising addresses, by the byte order (R83, R84). -/
def bytesOfWord (bigEnd : Bool) (w : Word) : List Byte :=
  let le := [w.extractLsb' 0 8, w.extractLsb' 8 8, w.extractLsb' 16 8, w.extractLsb' 24 8]
  if bigEnd then le.reverse else le

/-- Decoding from a list of bytes: the instruction and the bytes after it. -/
def decodeBytes (bigEnd : Bool) : List Byte → Except DecodeError (Instr × List Byte)
  | b0 :: b1 :: b2 :: b3 :: rest =>
    match decode (wordOfBytes bigEnd b0 b1 b2 b3) with
    | .ok i => .ok (i, rest)
    | .error e => .error e
  | _ => .error .tooShort

/-- An instruction's word of which the opcode table gives `nbits` bits, the bits above them zero. -/
def tableWord (nbits w : Nat) : Word := BitVec.ofNat 32 (w % 2 ^ nbits)

/-- The instruction the decoder reads from a word of the opcode table, laid out as little-endian bytes (D2). -/
def decodeTableWord (nbits w : Nat) : Option Instr :=
  match decodeBytes false (bytesOfWord false (tableWord nbits w)) with
  | .ok (i, _) => some i
  | .error _ => none

/-! ## Encoding -/

/-- A word from its fields, widths and values, the most significant first (R121). -/
def pack (fields : List (Nat × Nat)) : Word :=
  BitVec.ofNat 32 (fields.foldl (fun acc f => acc * 2 ^ f.1 + f.2) 0)

/-- Format DP (R122) with Operand2 after R141 and R142. -/
def encodeDp (c : Cond) (op : DpOp) (sf : Bool) (rn rd : Reg) : Operand2 → Word
  | .imm rot imm8 => pack [(4, c.bits.toNat), (3, 1), (4, op.bits.toNat), (1, sf.toNat), (4, rn.toNat), (4, rd.toNat),
      (4, rot.toNat), (8, imm8.toNat)]
  | .shiftImm amount ty rm => pack [(4, c.bits.toNat), (3, 0), (4, op.bits.toNat), (1, sf.toNat), (4, rn.toNat), (4, rd.toNat),
      (5, amount.toNat), (2, ty.bits.toNat), (1, 0), (4, rm.toNat)]
  | .shiftReg rs ty rm => pack [(4, c.bits.toNat), (3, 0), (4, op.bits.toNat), (1, sf.toNat), (4, rn.toNat), (4, rd.toNat),
      (4, rs.toNat), (1, 0), (2, ty.bits.toNat), (1, 1), (4, rm.toNat)]

/-- Format MUL (R123). -/
def encodeMul (c : Cond) (a sf : Bool) (rd rn rs rm : Reg) : Word :=
  pack [(4, c.bits.toNat), (6, 0), (1, a.toNat), (1, sf.toNat), (4, rd.toNat), (4, rn.toNat), (4, rs.toNat), (4, 9), (4, rm.toNat)]

/-- Format MULL (R124). -/
def encodeMull (c : Cond) (u a sf : Bool) (rdHi rdLo rs rm : Reg) : Word :=
  pack [(4, c.bits.toNat), (5, 1), (1, u.toNat), (1, a.toNat), (1, sf.toNat), (4, rdHi.toNat), (4, rdLo.toNat), (4, rs.toNat),
    (4, 9), (4, rm.toNat)]

/-- Formats LSH-I (`imm`) and LSH-R (R128, R129); `l` is the L bit and `sh` the S and H bits. -/
def encodeHalf (c : Cond) (p u imm w : Bool) (l : Nat) (rn rd : Reg) (sh : Nat) (hi lo : BitVec 4) : Word :=
  pack [(4, c.bits.toNat), (3, 0), (1, p.toNat), (1, u.toNat), (1, imm.toNat), (1, w.toNat), (1, l), (4, rn.toNat), (4, rd.toNat),
    (4, hi.toNat), (1, 1), (2, sh), (1, 1), (4, lo.toNat)]

/-- Format LS with an immediate offset (R126, R144). -/
def encodeLsImm (c : Cond) (p u b w l : Bool) (rn rd : Reg) (offset : BitVec 12) : Word :=
  pack [(4, c.bits.toNat), (3, 2), (1, p.toNat), (1, u.toNat), (1, b.toNat), (1, w.toNat), (1, l.toNat), (4, rn.toNat), (4, rd.toNat),
    (12, offset.toNat)]

/-- Format LS with a register offset (R126, R144). -/
def encodeLsReg (c : Cond) (p u b w l : Bool) (rn rd : Reg) (amount : BitVec 5) (ty : ShiftType) (rm : Reg) : Word :=
  pack [(4, c.bits.toNat), (3, 3), (1, p.toNat), (1, u.toNat), (1, b.toNat), (1, w.toNat), (1, l.toNat), (4, rn.toNat), (4, rd.toNat),
    (5, amount.toNat), (2, ty.bits.toNat), (1, 0), (4, rm.toNat)]

/-- The word of an instruction, from the formats R122 to R135 and the codes R139, R140, R145 to R147. -/
def encode : Instr → Word
  | .andImm c rn rd sf rot imm8 => encodeDp c .and sf rn rd (.imm rot imm8)
  | .andShiftImm c rn rd sf amount ty rm => encodeDp c .and sf rn rd (.shiftImm amount ty rm)
  | .andShiftReg c rn rd sf rs ty rm => encodeDp c .and sf rn rd (.shiftReg rs ty rm)
  | .eorImm c rn rd sf rot imm8 => encodeDp c .eor sf rn rd (.imm rot imm8)
  | .eorShiftImm c rn rd sf amount ty rm => encodeDp c .eor sf rn rd (.shiftImm amount ty rm)
  | .eorShiftReg c rn rd sf rs ty rm => encodeDp c .eor sf rn rd (.shiftReg rs ty rm)
  | .subImm c rn rd sf rot imm8 => encodeDp c .sub sf rn rd (.imm rot imm8)
  | .subShiftImm c rn rd sf amount ty rm => encodeDp c .sub sf rn rd (.shiftImm amount ty rm)
  | .subShiftReg c rn rd sf rs ty rm => encodeDp c .sub sf rn rd (.shiftReg rs ty rm)
  | .rsbImm c rn rd sf rot imm8 => encodeDp c .rsb sf rn rd (.imm rot imm8)
  | .rsbShiftImm c rn rd sf amount ty rm => encodeDp c .rsb sf rn rd (.shiftImm amount ty rm)
  | .rsbShiftReg c rn rd sf rs ty rm => encodeDp c .rsb sf rn rd (.shiftReg rs ty rm)
  | .addImm c rn rd sf rot imm8 => encodeDp c .add sf rn rd (.imm rot imm8)
  | .addShiftImm c rn rd sf amount ty rm => encodeDp c .add sf rn rd (.shiftImm amount ty rm)
  | .addShiftReg c rn rd sf rs ty rm => encodeDp c .add sf rn rd (.shiftReg rs ty rm)
  | .adcImm c rn rd sf rot imm8 => encodeDp c .adc sf rn rd (.imm rot imm8)
  | .adcShiftImm c rn rd sf amount ty rm => encodeDp c .adc sf rn rd (.shiftImm amount ty rm)
  | .adcShiftReg c rn rd sf rs ty rm => encodeDp c .adc sf rn rd (.shiftReg rs ty rm)
  | .sbcImm c rn rd sf rot imm8 => encodeDp c .sbc sf rn rd (.imm rot imm8)
  | .sbcShiftImm c rn rd sf amount ty rm => encodeDp c .sbc sf rn rd (.shiftImm amount ty rm)
  | .sbcShiftReg c rn rd sf rs ty rm => encodeDp c .sbc sf rn rd (.shiftReg rs ty rm)
  | .rscImm c rn rd sf rot imm8 => encodeDp c .rsc sf rn rd (.imm rot imm8)
  | .rscShiftImm c rn rd sf amount ty rm => encodeDp c .rsc sf rn rd (.shiftImm amount ty rm)
  | .rscShiftReg c rn rd sf rs ty rm => encodeDp c .rsc sf rn rd (.shiftReg rs ty rm)
  | .tstImm c rn rd rot imm8 => encodeDp c .tst true rn rd (.imm rot imm8)
  | .tstShiftImm c rn rd amount ty rm => encodeDp c .tst true rn rd (.shiftImm amount ty rm)
  | .tstShiftReg c rn rd rs ty rm => encodeDp c .tst true rn rd (.shiftReg rs ty rm)
  | .teqImm c rn rd rot imm8 => encodeDp c .teq true rn rd (.imm rot imm8)
  | .teqShiftImm c rn rd amount ty rm => encodeDp c .teq true rn rd (.shiftImm amount ty rm)
  | .teqShiftReg c rn rd rs ty rm => encodeDp c .teq true rn rd (.shiftReg rs ty rm)
  | .cmpImm c rn rd rot imm8 => encodeDp c .cmp true rn rd (.imm rot imm8)
  | .cmpShiftImm c rn rd amount ty rm => encodeDp c .cmp true rn rd (.shiftImm amount ty rm)
  | .cmpShiftReg c rn rd rs ty rm => encodeDp c .cmp true rn rd (.shiftReg rs ty rm)
  | .cmnImm c rn rd rot imm8 => encodeDp c .cmn true rn rd (.imm rot imm8)
  | .cmnShiftImm c rn rd amount ty rm => encodeDp c .cmn true rn rd (.shiftImm amount ty rm)
  | .cmnShiftReg c rn rd rs ty rm => encodeDp c .cmn true rn rd (.shiftReg rs ty rm)
  | .orrImm c rn rd sf rot imm8 => encodeDp c .orr sf rn rd (.imm rot imm8)
  | .orrShiftImm c rn rd sf amount ty rm => encodeDp c .orr sf rn rd (.shiftImm amount ty rm)
  | .orrShiftReg c rn rd sf rs ty rm => encodeDp c .orr sf rn rd (.shiftReg rs ty rm)
  | .movImm c rn rd sf rot imm8 => encodeDp c .mov sf rn rd (.imm rot imm8)
  | .movShiftImm c rn rd sf amount ty rm => encodeDp c .mov sf rn rd (.shiftImm amount ty rm)
  | .movShiftReg c rn rd sf rs ty rm => encodeDp c .mov sf rn rd (.shiftReg rs ty rm)
  | .bicImm c rn rd sf rot imm8 => encodeDp c .bic sf rn rd (.imm rot imm8)
  | .bicShiftImm c rn rd sf amount ty rm => encodeDp c .bic sf rn rd (.shiftImm amount ty rm)
  | .bicShiftReg c rn rd sf rs ty rm => encodeDp c .bic sf rn rd (.shiftReg rs ty rm)
  | .mvnImm c rn rd sf rot imm8 => encodeDp c .mvn sf rn rd (.imm rot imm8)
  | .mvnShiftImm c rn rd sf amount ty rm => encodeDp c .mvn sf rn rd (.shiftImm amount ty rm)
  | .mvnShiftReg c rn rd sf rs ty rm => encodeDp c .mvn sf rn rd (.shiftReg rs ty rm)
  | .mrs c r rd => pack [(4, c.bits.toNat), (5, 2), (1, r.toNat), (2, 0), (4, 15), (4, rd.toNat), (12, 0)]
  | .msrReg c r fmask rm => pack [(4, c.bits.toNat), (5, 2), (1, r.toNat), (2, 2), (4, fmask.toNat), (4, 15), (8, 0), (4, rm.toNat)]
  | .msrImm c r fmask rot imm8 => pack [(4, c.bits.toNat), (5, 6), (1, r.toNat), (2, 2), (4, fmask.toNat), (4, 15), (4, rot.toNat), (8, imm8.toNat)]
  | .bx c rn => pack [(4, c.bits.toNat), (8, 18), (12, 4095), (4, 1), (4, rn.toNat)]
  | .mul c sf rd rn rs rm => encodeMul c false sf rd rn rs rm
  | .mla c sf rd rn rs rm => encodeMul c true sf rd rn rs rm
  | .umull c sf rdHi rdLo rs rm => encodeMull c false false sf rdHi rdLo rs rm
  | .umlal c sf rdHi rdLo rs rm => encodeMull c false true sf rdHi rdLo rs rm
  | .smull c sf rdHi rdLo rs rm => encodeMull c true false sf rdHi rdLo rs rm
  | .smlal c sf rdHi rdLo rs rm => encodeMull c true true sf rdHi rdLo rs rm
  | .swp c rn rd rm => pack [(4, c.bits.toNat), (5, 2), (1, 0), (2, 0), (4, rn.toNat), (4, rd.toNat), (8, 9), (4, rm.toNat)]
  | .swpb c rn rd rm => pack [(4, c.bits.toNat), (5, 2), (1, 1), (2, 0), (4, rn.toNat), (4, rd.toNat), (8, 9), (4, rm.toNat)]
  | .strhImm c p u w rn rd offHi offLo => encodeHalf c p u true w 0 rn rd 1 offHi offLo
  | .strhReg c p u w rn rd rm => encodeHalf c p u false w 0 rn rd 1 0 rm
  | .ldrhImm c p u w rn rd offHi offLo => encodeHalf c p u true w 1 rn rd 1 offHi offLo
  | .ldrhReg c p u w rn rd rm => encodeHalf c p u false w 1 rn rd 1 0 rm
  | .ldrsbImm c p u w rn rd offHi offLo => encodeHalf c p u true w 1 rn rd 2 offHi offLo
  | .ldrsbReg c p u w rn rd rm => encodeHalf c p u false w 1 rn rd 2 0 rm
  | .ldrshImm c p u w rn rd offHi offLo => encodeHalf c p u true w 1 rn rd 3 offHi offLo
  | .ldrshReg c p u w rn rd rm => encodeHalf c p u false w 1 rn rd 3 0 rm
  | .strImmPre c u rn rd offset w => encodeLsImm c true u false w false rn rd offset
  | .strImmPost c u rn rd offset => encodeLsImm c false u false false false rn rd offset
  | .strtImm c u rn rd offset => encodeLsImm c false u false true false rn rd offset
  | .strRegPre c u rn rd amount ty rm w => encodeLsReg c true u false w false rn rd amount ty rm
  | .strRegPost c u rn rd amount ty rm => encodeLsReg c false u false false false rn rd amount ty rm
  | .strtReg c u rn rd amount ty rm => encodeLsReg c false u false true false rn rd amount ty rm
  | .ldrImmPre c u rn rd offset w => encodeLsImm c true u false w true rn rd offset
  | .ldrImmPost c u rn rd offset => encodeLsImm c false u false false true rn rd offset
  | .ldrtImm c u rn rd offset => encodeLsImm c false u false true true rn rd offset
  | .ldrRegPre c u rn rd amount ty rm w => encodeLsReg c true u false w true rn rd amount ty rm
  | .ldrRegPost c u rn rd amount ty rm => encodeLsReg c false u false false true rn rd amount ty rm
  | .ldrtReg c u rn rd amount ty rm => encodeLsReg c false u false true true rn rd amount ty rm
  | .strbImmPre c u rn rd offset w => encodeLsImm c true u true w false rn rd offset
  | .strbImmPost c u rn rd offset => encodeLsImm c false u true false false rn rd offset
  | .strbtImm c u rn rd offset => encodeLsImm c false u true true false rn rd offset
  | .strbRegPre c u rn rd amount ty rm w => encodeLsReg c true u true w false rn rd amount ty rm
  | .strbRegPost c u rn rd amount ty rm => encodeLsReg c false u true false false rn rd amount ty rm
  | .strbtReg c u rn rd amount ty rm => encodeLsReg c false u true true false rn rd amount ty rm
  | .ldrbImmPre c u rn rd offset w => encodeLsImm c true u true w true rn rd offset
  | .ldrbImmPost c u rn rd offset => encodeLsImm c false u true false true rn rd offset
  | .ldrbtImm c u rn rd offset => encodeLsImm c false u true true true rn rd offset
  | .ldrbRegPre c u rn rd amount ty rm w => encodeLsReg c true u true w true rn rd amount ty rm
  | .ldrbRegPost c u rn rd amount ty rm => encodeLsReg c false u true false true rn rd amount ty rm
  | .ldrbtReg c u rn rd amount ty rm => encodeLsReg c false u true true true rn rd amount ty rm
  | .undefined c hi lo => pack [(4, c.bits.toNat), (3, 3), (20, hi.toNat), (1, 1), (4, lo.toNat)]
  | .ldm c p u sb w rn list => pack [(4, c.bits.toNat), (3, 4), (1, p.toNat), (1, u.toNat), (1, sb.toNat), (1, w.toNat), (1, 1), (4, rn.toNat), (16, list.toNat)]
  | .stm c p u sb w rn list => pack [(4, c.bits.toNat), (3, 4), (1, p.toNat), (1, u.toNat), (1, sb.toNat), (1, w.toNat), (1, 0), (4, rn.toNat), (16, list.toNat)]
  | .b c offset => pack [(4, c.bits.toNat), (3, 5), (1, 0), (24, offset.toNat)]
  | .bl c offset => pack [(4, c.bits.toNat), (3, 5), (1, 1), (24, offset.toNat)]
  | .ldc c p u n w rn crd cpnum offset => pack [(4, c.bits.toNat), (3, 6), (1, p.toNat), (1, u.toNat), (1, n.toNat), (1, w.toNat), (1, 1), (4, rn.toNat), (4, crd.toNat), (4, cpnum.toNat), (8, offset.toNat)]
  | .stc c p u n w rn crd cpnum offset => pack [(4, c.bits.toNat), (3, 6), (1, p.toNat), (1, u.toNat), (1, n.toNat), (1, w.toNat), (1, 0), (4, rn.toNat), (4, crd.toNat), (4, cpnum.toNat), (8, offset.toNat)]
  | .cdp c op1 crn crd cpnum op2 crm => pack [(4, c.bits.toNat), (4, 14), (4, op1.toNat), (4, crn.toNat), (4, crd.toNat), (4, cpnum.toNat), (3, op2.toNat), (1, 0), (4, crm.toNat)]
  | .mcr c op1 crn rd cpnum op2 crm => pack [(4, c.bits.toNat), (4, 14), (3, op1.toNat), (1, 0), (4, crn.toNat), (4, rd.toNat), (4, cpnum.toNat), (3, op2.toNat), (1, 1), (4, crm.toNat)]
  | .mrc c op1 crn rd cpnum op2 crm => pack [(4, c.bits.toNat), (4, 14), (3, op1.toNat), (1, 1), (4, crn.toNat), (4, rd.toNat), (4, cpnum.toNat), (3, op2.toNat), (1, 1), (4, crm.toNat)]
  | .swi c number => pack [(4, c.bits.toNat), (4, 15), (24, number.toNat)]

end Sys2Proof
end

