-- ==== Sys2Proof/Config.lean ====
section
/-! DEFINITION. What the platform and the implementation fix (spec/00_scope.md R8), and the values the spec leaves open:
opaque constants, about which nothing can be proved (log entries 6 to 12). -/

namespace Sys2Proof.Config

/-- A free bit (`draw`, R10): the flags a multiply leaves meaningless (U22) and the flags after a reset (R58).
The argument is the number of free values drawn before it. Log entries 12 and 14. -/
opaque freeBit : Nat → Bool

/-- A free word: the registers a Data Abort leaves without a usable value (U32) and r14_svc, spsr_svc after a reset (R366).
Log entries 12, 13 and 14. -/
opaque freeWord : Nat → Word

/-- Whether this core stores `cur + 12` for r15; if not it stores `cur + 8` (PC_STORE_OFFSET, U13, D15). Log entry 11. -/
opaque pcStoredPlus12 : Bool

end Sys2Proof.Config

namespace Sys2Proof

/-- The width of one memory access (R92). -/
inductive Width where
  | byte | half | word
deriving DecidableEq, Repr

/-- What an access is for: the `kind` of `AbortOracle` (R96). -/
inductive AccessKind where
  | fetch | read | write
deriving DecidableEq, Repr

/-- One access as the memory system sees it (R96, R97). -/
structure Access where
  addr : Word
  width : Width
  kind : AccessKind
  privileged : Bool
deriving DecidableEq, Repr

/-- One rule of `AbortOracle` (R96): it rejects the accesses whose address lies in `lo .. hi` and which have the kind, width
and privilege given, `none` standing for any. Every oracle is a list of such rules. Log entry 7. -/
structure AbortRule where
  lo : Nat
  hi : Nat
  kind : Option AccessKind
  width : Option Width
  privileged : Option Bool
deriving DecidableEq, Repr

/-- What stands in a region of the `MemMap` that is not ordinary memory (R8, R95). Log entry 6. -/
inductive RegionKind where
  | absent | device
deriving DecidableEq, Repr

/-- A region of the `MemMap`, from byte address `lo` to byte address `hi`. -/
structure Region where
  lo : Nat
  hi : Nat
  kind : RegionKind
deriving DecidableEq, Repr

/-- The parameters of R8 that are fixed for a run: byte order (D2), variant (D1), memory map (D8), abort oracle (D9). -/
structure Platform where
  bigEnd : Bool
  hasV4 : Bool
  hasM : Bool
  hasT : Bool
  memMap : List Region
  abortRules : List AbortRule
deriving DecidableEq, Repr

/-- The values the spec takes: little-endian (D2), `HAS_V4 = HAS_M = HAS_T = true` (D1), ordinary memory everywhere (D8),
no access rejected (D9). -/
def Platform.standard : Platform :=
  { bigEnd := false, hasV4 := true, hasM := true, hasT := true, memMap := [], abortRules := [] }

end Sys2Proof
end

