-- ==== Sys2Proof/Machine/State.lean ====
section
/-! DEFINITION. The machine's state as plain data (spec/10_state.md), the reasons a step can stop, and the state after reset
(spec/10_state.md R58). -/

namespace Sys2Proof.Machine

/-- The seven modes (R46, R372). -/
inductive Mode where
  | user | fiq | irq | supervisor | abort | undef | system
deriving DecidableEq, Repr

/-- The seven exceptions (R350). -/
inductive Exn where
  | reset | undefinedInstruction | softwareInterrupt | prefetchAbort | dataAbort | irq | fiq
deriving DecidableEq, Repr

/-- A program status register: the twelve bits the spec gives it (R45); bits 27:8 are no state (R53). `m` is M[4:0]. -/
structure Psr where
  n : Bool
  z : Bool
  c : Bool
  v : Bool
  i : Bool
  f : Bool
  t : Bool
  m : BitVec 5
deriving DecidableEq, Repr

/-- The names of the thirty general-purpose registers (R32). -/
inductive PhysReg where
  | r0 | r1 | r2 | r3 | r4 | r5 | r6 | r7 | r8 | r9 | r10 | r11 | r12 | r13 | r14
  | r8_fiq | r9_fiq | r10_fiq | r11_fiq | r12_fiq | r13_fiq | r14_fiq
  | r13_svc | r14_svc | r13_abt | r14_abt | r13_irq | r14_irq | r13_undef | r14_undef
deriving DecidableEq, Repr

/-- The thirty general-purpose registers, each under its own name (R32). -/
structure Regs where
  r0 : Word
  r1 : Word
  r2 : Word
  r3 : Word
  r4 : Word
  r5 : Word
  r6 : Word
  r7 : Word
  r8 : Word
  r9 : Word
  r10 : Word
  r11 : Word
  r12 : Word
  r13 : Word
  r14 : Word
  r8_fiq : Word
  r9_fiq : Word
  r10_fiq : Word
  r11_fiq : Word
  r12_fiq : Word
  r13_fiq : Word
  r14_fiq : Word
  r13_svc : Word
  r14_svc : Word
  r13_abt : Word
  r14_abt : Word
  r13_irq : Word
  r14_irq : Word
  r13_undef : Word
  r14_undef : Word
deriving DecidableEq, Repr

/-- The names of the five saved program status registers (R54). -/
inductive SpsrName where
  | fiq | svc | abt | irq | undef
deriving DecidableEq, Repr

/-- The five saved program status registers (R54). -/
structure Spsrs where
  fiq : Psr
  svc : Psr
  abt : Psr
  irq : Psr
  undef : Psr
deriving DecidableEq, Repr

/-- Memory: pairs of a byte address and its byte, in the canonical form `Memory.wf` (R80). -/
abbrev Memory := List Host.Cell

/-- One sample of the three inputs of the core: reset, FIQ and IRQ (R364, R379). -/
structure Pins where
  reset : Bool
  fiq : Bool
  irq : Bool
deriving DecidableEq, Repr

/-- The state of the machine: the spec's registers and memory (R30 to R58), the spec's two memories of the past (`userLdm`, R57(d);
`stored`, R101), the inputs still to come and the platform's parameters (R8), and the model's own counter `drawn`. -/
structure State where
  /-- The general-purpose registers (R32). -/
  regs : Regs
  /-- The address of the next instruction: `cur` while it executes (R40, R42). -/
  pc : Word
  /-- The current program status register (R45). -/
  cpsr : Psr
  /-- The saved program status registers (R54). -/
  spsrs : Spsrs
  /-- Memory (R80). -/
  mem : Memory
  /-- The previous instruction was a user-bank LDM (R57(d), R296, U30). -/
  userLdm : Bool
  /-- The numbers (address / 4) of the words the program has stored to (R101, U34). -/
  stored : List Nat
  /-- The samples of the inputs to come, one per step; all deasserted when the list is empty (R364, D10). -/
  pins : List Pins
  /-- How many free values have been drawn: the model's own field (U22, U32). -/
  drawn : Nat
  /-- The platform's parameters, fixed for a run (R8). -/
  platform : Platform
deriving DecidableEq, Repr

/-- Why the machine stops with a fault. -/
inductive Fault where
  /-- An access or a fetch at an address where the platform's `MemMap` has nothing (R8, D8). Raised by every memory access.
  Safe: no statement says what the hardware does then. -/
  | absentAddress
deriving DecidableEq, Repr

/-- Why an instruction or a state has no meaning: one name for each `refuse(U<n>)` of the spec (R12). All are safe: the model
gives no successor. -/
inductive Refusal where
  /-- The instruction has no meaning in this model yet: `exec`'s refused arms. Safe. -/
  | notModelled (mnemonic : String)
  /-- U1: condition 1111 (R149, R172). Raised by the fetch. Safe. -/
  | reservedCondition
  /-- U3: a long multiply on a core without the long multiplier (R244, R250). Safe. -/
  | noLongMultiplier
  /-- U4: MUL or MLA with Rd = Rm (R242). Safe. -/
  | mulRdIsRm
  /-- U5: MUL or MLA with r15 (R242). Safe. -/
  | mulUsesPc
  /-- U6: r15 as the register of a shift amount (R195, R227). Safe. -/
  | shiftAmountInPc
  /-- U7: LDM or STM with an empty list (R291). Safe. -/
  | emptyRegisterList
  /-- U9: LDM or STM with S = 1 in User or System mode (R296). Safe. -/
  | blockSInUserOrSystem
  /-- U10: a data-processing instruction with S = 1 and Rd = 15 in a mode without an SPSR (R194). Safe. -/
  | returnWithoutSpsr
  /-- U11: r15 as Rn or Rm with a register-specified shift (R195). Safe. -/
  | pcWithRegisterShift
  /-- U12: a pc that is not a multiple of 4 (R43). Raised by every writer of the pc but BX, and by the fetch. Safe. -/
  | pcNotWordAligned
  /-- U14: a transfer that writes its base with Rn = 15 or Rn = Rd (R277). Safe. -/
  | baseWriteClash
  /-- U15: an offset register that is r15, or the base of a transfer that writes its base (R277). Safe. -/
  | offsetRegisterClash
  /-- U16: LDM with write-back and the base in the list, STM with the base in the list and not lowest (R299). Safe. -/
  | baseInList
  /-- U17: LDM or STM with Rn = 15 (R299). Safe. -/
  | blockBaseIsPc
  /-- U18: MRS or MSR of the SPSR in User or System mode (R54). Safe. -/
  | noSpsr
  /-- U19: Thumb state, or an entry to it (R52, R183). Safe. -/
  | thumbState
  /-- U20: a mode field that names no mode (R46). Safe. -/
  | illegalMode
  /-- U21: a word or halfword access that is not aligned (R91). Safe. -/
  | misalignedAccess
  /-- U23: the registers of a long multiply clash or hold r15 (R248). Safe. -/
  | longMultiplyClash
  /-- U24: the registers of SWP or SWPB clash or hold r15 (R313). Safe. -/
  | swapClash
  /-- U25: a halfword transfer with P = 0 and W = 1 (R272). Safe. -/
  | halfwordPostIndexedW
  /-- U28: a word that matches no row, or a row of a variant this core is not (R148, R8). Safe. -/
  | noInstruction
  /-- U29: BX with Rn = 15 or to an ARM address that is not a multiple of 4 (R183). Safe. -/
  | branchExchangeTarget
  /-- U30: a user-bank LDM or STM with write-back (R296). Safe. -/
  | userBankWriteBack
  /-- U30: a banked register named right after a user-bank LDM (R296). Safe. -/
  | bankedAfterUserLdm
  /-- U31: MRS to r15, MSR from r15, or an MSR that changes T (R331, R332). Safe. -/
  | psrTransfer
  /-- U34: the fetch of a word the program has stored to (R101). Safe. -/
  | fetchOfStoredWord
  /-- U35: sequential execution from 0xFFFFFFFC (R44). Safe. -/
  | sequentialWrap
  /-- U36: Rd = 15 in a T form (R277). Safe. -/
  | translatedPc
  /-- U37: Rd = 15 in a byte, halfword or signed transfer (R277). Safe. -/
  | narrowTransferOfPc
  /-- An access to a device of the platform's `MemMap`: what it does is the platform's (R94, D8). Safe. -/
  | deviceAccess
deriving DecidableEq, Repr

/-- The three outcomes of an instruction or a step. -/
abbrev Out := Host.Outcome State Fault Refusal

/-- The bits of a PSR all zero: the value the model names for the SPSRs at reset (log entry 3). -/
def Psr.zero : Psr := { n := false, z := false, c := false, v := false, i := false, f := false, t := false, m := 0 }

/-- The general registers all zero: the value the model names for them at reset (log entry 1). -/
def Regs.zero : Regs :=
  { r0 := 0, r1 := 0, r2 := 0, r3 := 0, r4 := 0, r5 := 0, r6 := 0, r7 := 0,
    r8 := 0, r9 := 0, r10 := 0, r11 := 0, r12 := 0, r13 := 0, r14 := 0,
    r8_fiq := 0, r9_fiq := 0, r10_fiq := 0, r11_fiq := 0, r12_fiq := 0, r13_fiq := 0, r14_fiq := 0,
    r13_svc := 0, r14_svc := 0, r13_abt := 0, r14_abt := 0, r13_irq := 0, r14_irq := 0, r13_undef := 0, r14_undef := 0 }

/-- The state after reset (R58, R400): Supervisor mode, I = F = 1, T = 0, pc = 0; everything R58 gives no value is zero
(log entries 1, 2, 3, 5), no input is asserted (D10) and the platform is the one the spec takes. -/
def State.reset : State :=
  { regs := Regs.zero
    pc := 0
    cpsr := { n := false, z := false, c := false, v := false, i := true, f := true, t := false, m := 0b10011 }
    spsrs := { fiq := Psr.zero, svc := Psr.zero, abt := Psr.zero, irq := Psr.zero, undef := Psr.zero }
    mem := []
    userLdm := false
    stored := []
    pins := []
    drawn := 0
    platform := Platform.standard }

end Sys2Proof.Machine
end

