-- ==== Sys2Proof/Machine/Ops.lean ====
section
/-! DEFINITION. The named operations on modes, registers, status registers and memory (spec/10_state.md, spec/20_memory.md),
what ends an instruction, taking an exception and returning from one (spec/60_exceptions.md). -/

namespace Sys2Proof.Machine

/-! ## Modes (R46, R372) -/

/-- The mode a mode field names; System exists on version 4 only (R46, D1). The numbers are PRESUMED (log entry 27). -/
def Mode.ofBits (hasV4 : Bool) (b : BitVec 5) : Option Mode :=
  if b = 0b10000 then some .user
  else if b = 0b10001 then some .fiq
  else if b = 0b10010 then some .irq
  else if b = 0b10011 then some .supervisor
  else if b = 0b10111 then some .abort
  else if b = 0b11011 then some .undef
  else if b = 0b11111 && hasV4 then some .system
  else none

/-- The number of a mode (R46). -/
def Mode.bits : Mode → BitVec 5
  | .user => 0b10000 | .fiq => 0b10001 | .irq => 0b10010 | .supervisor => 0b10011
  | .abort => 0b10111 | .undef => 0b11011 | .system => 0b11111

/-- Every mode but User is privileged (R372). -/
def Mode.privileged : Mode → Bool
  | .user => false
  | _ => true

/-- The saved status register of a mode; User and System have none (R54). -/
def Mode.spsr : Mode → Option SpsrName
  | .user | .system => none
  | .fiq => some .fiq
  | .irq => some .irq
  | .supervisor => some .svc
  | .abort => some .abt
  | .undef => some .undef

/-- The current mode: the one CPSR.M names (R46). -/
def State.mode (s : State) : Option Mode := Mode.ofBits s.platform.hasV4 s.cpsr.m

/-! ## General registers (R33 to R37) -/

/-- The bank map `phys(m, i)`; number 15 is the pc, which is in no bank (R36). -/
def phys (m : Mode) (i : Reg) : Option PhysReg :=
  match i.toNat with
  | 0 => some .r0 | 1 => some .r1 | 2 => some .r2 | 3 => some .r3
  | 4 => some .r4 | 5 => some .r5 | 6 => some .r6 | 7 => some .r7
  | 8 => some (match m with | .fiq => .r8_fiq | _ => .r8)
  | 9 => some (match m with | .fiq => .r9_fiq | _ => .r9)
  | 10 => some (match m with | .fiq => .r10_fiq | _ => .r10)
  | 11 => some (match m with | .fiq => .r11_fiq | _ => .r11)
  | 12 => some (match m with | .fiq => .r12_fiq | _ => .r12)
  | 13 => some (match m with
    | .user | .system => .r13 | .fiq => .r13_fiq | .supervisor => .r13_svc
    | .abort => .r13_abt | .irq => .r13_irq | .undef => .r13_undef)
  | 14 => some (match m with
    | .user | .system => .r14 | .fiq => .r14_fiq | .supervisor => .r14_svc
    | .abort => .r14_abt | .irq => .r14_irq | .undef => .r14_undef)
  | _ => none

/-- The value of a register by its name. -/
def Regs.get (g : Regs) : PhysReg → Word
  | .r0 => g.r0
  | .r1 => g.r1
  | .r2 => g.r2
  | .r3 => g.r3
  | .r4 => g.r4
  | .r5 => g.r5
  | .r6 => g.r6
  | .r7 => g.r7
  | .r8 => g.r8
  | .r9 => g.r9
  | .r10 => g.r10
  | .r11 => g.r11
  | .r12 => g.r12
  | .r13 => g.r13
  | .r14 => g.r14
  | .r8_fiq => g.r8_fiq
  | .r9_fiq => g.r9_fiq
  | .r10_fiq => g.r10_fiq
  | .r11_fiq => g.r11_fiq
  | .r12_fiq => g.r12_fiq
  | .r13_fiq => g.r13_fiq
  | .r14_fiq => g.r14_fiq
  | .r13_svc => g.r13_svc
  | .r14_svc => g.r14_svc
  | .r13_abt => g.r13_abt
  | .r14_abt => g.r14_abt
  | .r13_irq => g.r13_irq
  | .r14_irq => g.r14_irq
  | .r13_undef => g.r13_undef
  | .r14_undef => g.r14_undef

/-- The registers with one of them changed. -/
def Regs.set (g : Regs) (p : PhysReg) (x : Word) : Regs :=
  match p with
  | .r0 => { g with r0 := x }
  | .r1 => { g with r1 := x }
  | .r2 => { g with r2 := x }
  | .r3 => { g with r3 := x }
  | .r4 => { g with r4 := x }
  | .r5 => { g with r5 := x }
  | .r6 => { g with r6 := x }
  | .r7 => { g with r7 := x }
  | .r8 => { g with r8 := x }
  | .r9 => { g with r9 := x }
  | .r10 => { g with r10 := x }
  | .r11 => { g with r11 := x }
  | .r12 => { g with r12 := x }
  | .r13 => { g with r13 := x }
  | .r14 => { g with r14 := x }
  | .r8_fiq => { g with r8_fiq := x }
  | .r9_fiq => { g with r9_fiq := x }
  | .r10_fiq => { g with r10_fiq := x }
  | .r11_fiq => { g with r11_fiq := x }
  | .r12_fiq => { g with r12_fiq := x }
  | .r13_fiq => { g with r13_fiq := x }
  | .r14_fiq => { g with r14_fiq := x }
  | .r13_svc => { g with r13_svc := x }
  | .r14_svc => { g with r14_svc := x }
  | .r13_abt => { g with r13_abt := x }
  | .r14_abt => { g with r14_abt := x }
  | .r13_irq => { g with r13_irq := x }
  | .r14_irq => { g with r14_irq := x }
  | .r13_undef => { g with r13_undef := x }
  | .r14_undef => { g with r14_undef := x }

/-- `x[i]` read in mode `m`; number 15 reads `cur + 8` (R10, R41). -/
def State.readReg (s : State) (m : Mode) (i : Reg) : Word :=
  match phys m i with
  | some p => s.regs.get p
  | none => s.pc + 8

/-- `x[i] <- v` in mode `m`; number 15 is the pc (R10). -/
def State.setReg (s : State) (m : Mode) (i : Reg) (v : Word) : State :=
  match phys m i with
  | some p => { s with regs := s.regs.set p v }
  | none => { s with pc := v }

/-- Register numbers 8 to 14: the banked ones (R34, R35, R296). -/
def isBanked (i : Reg) : Bool := decide (8 ≤ i.toNat) && decide (i.toNat ≤ 14)

/-! ## Status registers (R45, R53) -/

/-- A saved status register by its name. -/
def Spsrs.get (g : Spsrs) : SpsrName → Psr
  | .fiq => g.fiq | .svc => g.svc | .abt => g.abt | .irq => g.irq | .undef => g.undef

/-- The saved status registers with one of them changed. -/
def Spsrs.set (g : Spsrs) (n : SpsrName) (p : Psr) : Spsrs :=
  match n with
  | .fiq => { g with fiq := p }
  | .svc => { g with svc := p }
  | .abt => { g with abt := p }
  | .irq => { g with irq := p }
  | .undef => { g with undef := p }

/-- A status register as a word: bits 27:8 read as zero (R45, R53). -/
def Psr.toWord (p : Psr) : Word :=
  BitVec.ofBool p.n ++ BitVec.ofBool p.z ++ BitVec.ofBool p.c ++ BitVec.ofBool p.v ++ (0 : BitVec 20)
    ++ BitVec.ofBool p.i ++ BitVec.ofBool p.f ++ BitVec.ofBool p.t ++ p.m

/-- The status register a word stands for: bits 27:8 are ignored (R45, R53). -/
def Psr.ofWord (w : Word) : Psr :=
  { n := flag w 31, z := flag w 30, c := flag w 29, v := flag w 28
    i := flag w 7, f := flag w 6, t := flag w 5, m := field w 0 5 }

/-- The status register a word stands for when the core writes it: a core without the T variant has no T bit (R8, R52), which then
reads as zero, and a write of it is ignored (DESIGN CHOICE, log entry 10). -/
def Psr.written (hasT : Bool) (w : Word) : Psr := { Psr.ofWord w with t := hasT && flag w 5 }

/-! ## Memory (R80 to R89) -/

/-- What an address that is not listed reads as (log entry 5). -/
def unwrittenByte : Byte := 0

/-- The byte at an address: the one read operation of memory. -/
def Memory.get : Memory → Nat → Byte
  | [], _ => unwrittenByte
  | c :: rest, a => if c.1 = a then c.2 else Memory.get rest a

/-- Memory without an entry for `a`. -/
def Memory.remove (m : Memory) (a : Nat) : Memory := m.filter fun c => c.1 != a

/-- A new entry, in the place the order of addresses gives it. -/
def Memory.insert : Memory → Nat → Byte → Memory
  | [], a, v => [(a, v)]
  | c :: rest, a, v => if a < c.1 then (a, v) :: c :: rest else c :: Memory.insert rest a v

/-- The byte at an address written: the one write operation of memory. Writing what an unlisted address reads as removes the
entry. -/
def Memory.set (m : Memory) (a : Nat) (v : Byte) : Memory :=
  if v = unwrittenByte then Memory.remove m a else Memory.insert (Memory.remove m a) a v

/-- The canonical form: addresses strictly rising and inside the space, no entry that an unlisted address would read as. -/
abbrev Memory.wf (m : Memory) : Prop :=
  m.Pairwise (fun c d => c.1 < d.1) ∧ ∀ c ∈ m, c.2 ≠ unwrittenByte ∧ c.1 < 4294967296

/-- How many bytes an access moves (R92). -/
def widthBytes : Width → Nat
  | .byte => 1
  | .half => 2
  | .word => 4

/-- `MemRead` without its checks; addresses are modulo 2^32, a narrow value has zeros above it (R88). -/
def Memory.read (bigEnd : Bool) (m : Memory) (a : Word) : Width → Word
  | .byte => (Memory.get m a.toNat).setWidth 32
  | .half =>
    let b0 := Memory.get m a.toNat
    let b1 := Memory.get m (a + 1).toNat
    (if bigEnd then b0 ++ b1 else b1 ++ b0).setWidth 32
  | .word => wordOfBytes bigEnd (Memory.get m a.toNat) (Memory.get m (a + 1).toNat) (Memory.get m (a + 2).toNat)
      (Memory.get m (a + 3).toNat)

/-- The bytes `MemWrite` stores for a value, at rising addresses (R89). -/
def storedBytes (bigEnd : Bool) (v : Word) : Width → List Byte
  | .byte => [v.extractLsb' 0 8]
  | .half => if bigEnd then [v.extractLsb' 8 8, v.extractLsb' 0 8] else [v.extractLsb' 0 8, v.extractLsb' 8 8]
  | .word => bytesOfWord bigEnd v

/-- Bytes written at rising addresses, modulo 2^32. -/
def Memory.writeBytes : Memory → Word → List Byte → Memory
  | m, _, [] => m
  | m, a, b :: bs => Memory.writeBytes (Memory.set m a.toNat b) (a + 1) bs

/-- `MemWrite` without its checks (R89). -/
def Memory.write (bigEnd : Bool) (m : Memory) (a : Word) (wd : Width) (v : Word) : Memory :=
  Memory.writeBytes m a (storedBytes bigEnd v wd)

/-! ## The memory system's answer (R95 to R97) -/

/-- What the memory system and the memory map say of an access. -/
inductive Verdict where
  | ok | abort | absent | device
deriving DecidableEq, Repr

/-- Whether a rule of the abort oracle rejects an access (R96). -/
def rejects (r : AbortRule) (x : Access) : Bool :=
  decide (r.lo ≤ x.addr.toNat) && decide (x.addr.toNat ≤ r.hi)
    && (match r.kind with | none => true | some k => decide (k = x.kind))
    && (match r.width with | none => true | some w => decide (w = x.width))
    && (match r.privileged with | none => true | some b => b == x.privileged)

/-- Whether a region of the memory map holds a byte of an access. -/
def touches (r : Region) (x : Access) : Bool :=
  decide (r.lo < x.addr.toNat + widthBytes x.width) && decide (x.addr.toNat ≤ r.hi)

/-- The answer to an access: the oracle's rejection first (log entry 25), then the first region of the map it touches. -/
def verdict (p : Platform) (x : Access) : Verdict :=
  if p.abortRules.any fun r => rejects r x then .abort
  else
    match p.memMap.find? fun r => touches r x with
    | none => .ok
    | some r =>
      match r.kind with
      | .absent => .absent
      | .device => .device

/-- The result of an access. -/
inductive MemResult (α : Type) where
  | ok (x : α)
  | abort
  | absent
  | device
deriving DecidableEq, Repr

/-- What follows an access: an abort takes `onAbort`, an absent address faults, a device refuses (log entries 6, 25). -/
def MemResult.andThen {α : Type} (r : MemResult α) (onAbort : Out) (k : α → Out) : Out :=
  match r with
  | .ok x => k x
  | .abort => onAbort
  | .absent => .fault .absentAddress
  | .device => .refused .deviceAccess

/-- `MemRead` (R88, R96). -/
def State.read (s : State) (privileged : Bool) (a : Word) (wd : Width) : MemResult Word :=
  match verdict s.platform { addr := a, width := wd, kind := .read, privileged := privileged } with
  | .ok => .ok (Memory.read s.platform.bigEnd s.mem a wd)
  | .abort => .abort
  | .absent => .absent
  | .device => .device

/-- The words stored to, with one more (R101). -/
def addStored (stored : List Nat) (word : Nat) : List Nat := if word ∈ stored then stored else word :: stored

/-- The state after a write that the memory system accepts (R89, R101). -/
def State.stores (s : State) (a : Word) (wd : Width) (v : Word) : State :=
  { s with mem := Memory.write s.platform.bigEnd s.mem a wd v, stored := addStored s.stored (a.toNat / 4) }

/-- `MemWrite` (R89, R96). -/
def State.write (s : State) (privileged : Bool) (a : Word) (wd : Width) (v : Word) : MemResult State :=
  match verdict s.platform { addr := a, width := wd, kind := .write, privileged := privileged } with
  | .ok => .ok (s.stores a wd v)
  | .abort => .abort
  | .absent => .absent
  | .device => .device

/-- Words read at rising addresses, stopping at the first that is not accepted (R293). -/
def State.readWords (s : State) (privileged : Bool) : Word → Nat → MemResult (List Word)
  | _, 0 => .ok []
  | a, n + 1 =>
    match s.read privileged a .word with
    | .ok v =>
      match State.readWords s privileged (a + 4) n with
      | .ok vs => .ok (v :: vs)
      | r => r
    | .abort => .abort
    | .absent => .absent
    | .device => .device

/-- Words written at rising addresses, stopping at the first that is not accepted: the state with the writes made, and how it
ended (R294, R370). -/
def State.writeWords (privileged : Bool) : State → Word → List Word → State × Verdict
  | s, _, [] => (s, .ok)
  | s, a, v :: vs =>
    match s.write privileged a .word v with
    | .ok s' => State.writeWords privileged s' (a + 4) vs
    | .abort => (s, .abort)
    | .absent => (s, .absent)
    | .device => (s, .device)

/-- The address is aligned for the width (R91). -/
def aligned (wd : Width) (a : Word) : Bool :=
  match wd with
  | .byte => true
  | .half => field a 0 1 == 0
  | .word => field a 0 2 == 0

/-! ## How an instruction ends -/

/-- The next instruction is the one at `cur + 4`, but not past the top of the address space (R42, R44). -/
def advance (s : State) : Out :=
  if s.pc = 0xFFFFFFFC then .refused .sequentialWrap else .next { s with pc := s.pc + 4 }

/-- The pc is written: the value must be a multiple of 4 (R43). -/
def branchTo (v : Word) (s : State) : Out :=
  if field v 0 2 = 0 then .next { s with pc := v } else .refused .pcNotWordAligned

/-- `x[Rd] <- v` as the last thing an instruction does: a branch if Rd is r15 (R10, R42, R43). -/
def writeRd (m : Mode) (rd : Reg) (v : Word) (s : State) : Out :=
  if rd = 15 then branchTo v s else advance (s.setReg m rd v)

/-! ## Exceptions (R350 to R359) -/

/-- The mode an exception enters (R351, R352). -/
def Exn.mode : Exn → Mode
  | .reset | .softwareInterrupt => .supervisor
  | .undefinedInstruction => .undef
  | .prefetchAbort | .dataAbort => .abort
  | .irq => .irq
  | .fiq => .fiq

/-- The vector address of an exception (R351). -/
def Exn.vector : Exn → Word
  | .reset => 0x00 | .undefinedInstruction => 0x04 | .softwareInterrupt => 0x08 | .prefetchAbort => 0x0C
  | .dataAbort => 0x10 | .irq => 0x18 | .fiq => 0x1C

/-- The exceptions that set F as well as I (R357; PRESUMED, log entry 28). -/
def Exn.masksFiq : Exn → Bool
  | .reset | .fiq => true
  | _ => false

/-- The link register an exception saves the return address into: r14 of the mode it enters (R356). -/
def Exn.link : Exn → PhysReg
  | .reset | .softwareInterrupt => .r14_svc
  | .undefinedInstruction => .r14_undef
  | .prefetchAbort | .dataAbort => .r14_abt
  | .irq => .r14_irq
  | .fiq => .r14_fiq

/-- The status register an exception saves the CPSR into: the SPSR of the mode it enters (R356). -/
def Exn.saved : Exn → SpsrName
  | .reset | .softwareInterrupt => .svc
  | .undefinedInstruction => .undef
  | .prefetchAbort | .dataAbort => .abt
  | .irq => .irq
  | .fiq => .fiq

/-- Taking an exception with the return value `ra` (R356, R357): the CPSR is saved, T cleared, the mode entered, I set, F set by
Reset and FIQ; the return value goes to the new mode's r14 and the pc to the vector. N, Z, C and V keep their values. -/
def State.takeException (s : State) (e : Exn) (ra : Word) : State :=
  { s with
    spsrs := s.spsrs.set e.saved s.cpsr
    cpsr := { s.cpsr with t := false, m := e.mode.bits, i := true, f := s.cpsr.f || e.masksFiq }
    regs := s.regs.set e.link ra
    pc := e.vector }

/-- The reset input taken in a run (R366, R58, R400): what the spec gives no value is free (log entry 14). What it does to the bit
'the previous instruction was a user-bank LDM' (R57(d)) the spec does not say; the model clears it, as State.reset has it
(DESIGN CHOICE, log entry 38). -/
def State.takeReset (s : State) : State :=
  { s with
    spsrs := s.spsrs.set Exn.reset.saved (Psr.written s.platform.hasT (Config.freeWord (s.drawn + 1)))
    cpsr := { n := Config.freeBit s.drawn, z := Config.freeBit (s.drawn + 1), c := Config.freeBit (s.drawn + 2),
              v := Config.freeBit (s.drawn + 3), i := true, f := true, t := false, m := Exn.reset.mode.bits }
    regs := s.regs.set Exn.reset.link (Config.freeWord s.drawn)
    pc := Exn.reset.vector
    userLdm := false
    drawn := s.drawn + 4 }

/-- Returning from an exception (R358): CPSR <- SPSR and pc <- `newpc` at once. A mode without an SPSR refuses by the name its
instruction gives; the new pc must be a multiple of 4 (U12), the restored T 0 (U19), the restored mode legal (U20). -/
def State.returnFromException (s : State) (refusal : Refusal) (m : Mode) (newpc : Word) : Out :=
  match m.spsr with
  | none => .refused refusal
  | some n =>
    if field newpc 0 2 ≠ 0 then .refused .pcNotWordAligned
    else if (s.spsrs.get n).t then .refused .thumbState
    else if (Mode.ofBits s.platform.hasV4 (s.spsrs.get n).m).isNone then .refused .illegalMode
    else .next { s with cpsr := s.spsrs.get n, pc := newpc }

/-- A register without a usable value: it holds a free value (U32, D23; log entry 13). -/
def State.freeReg (s : State) (m : Mode) (i : Reg) : State :=
  { s.setReg m i (Config.freeWord s.drawn) with drawn := s.drawn + 1 }

/-- Several registers without a usable value. -/
def State.freeRegs (m : Mode) : State → List Reg → State
  | s, [] => s
  | s, i :: is => State.freeRegs m (s.freeReg m i) is

/-- The Data Abort exception (R370): the return value is `cur + 8`. -/
def State.dataAbort (s : State) : Out := .next (s.takeException .dataAbort (s.pc + 8))

end Sys2Proof.Machine
end

