-- ==== Sys2Proof/Machine/Flags.lean ====
section
/-! DEFINITION. Conditions and conditional execution (spec/40_conditional_execution.md), and every flag computation
(spec/42_data_processing.md R191 to R193, spec/44_multiply.md). -/

namespace Sys2Proof.Machine

/-! ## Conditional execution -/

/-- `ConditionPassed`, with the corrections of C1 and C2 (R171). -/
def condPassed (c : Cond) (p : Psr) : Bool :=
  match c with
  | .eq => p.z
  | .ne => !p.z
  | .hs => p.c
  | .lo => !p.c
  | .mi => p.n
  | .pl => !p.n
  | .vs => p.v
  | .vc => !p.v
  | .hi => p.c && !p.z
  | .ls => !p.c || p.z
  | .ge => p.n == p.v
  | .lt => p.n != p.v
  | .gt => !p.z && p.n == p.v
  | .le => p.z || p.n != p.v
  | .al => true

/-- What every instruction does first. A state with T = 1 or an illegal mode has no meaning (R52, R46). If the condition fails the
instruction only advances (R11). If it passes, the instruction `body` runs in the current mode, unless the instruction before it
was a user-bank LDM and this one names a banked register in `names`, its register fields and list bits (R296; log entry 15). -/
def whenExecuted (c : Cond) (names : List Reg) (s : State) (body : Mode → State → Out) : Out :=
  if s.cpsr.t then .refused .thumbState
  else
    match s.mode with
    | none => .refused .illegalMode
    | some m =>
      if !condPassed c s.cpsr then advance { s with userLdm := false }
      else if s.userLdm && names.any isBanked then .refused .bankedAfterUserLdm
      else body m { s with userLdm := false }

/-! ## Flags -/

/-- What an adder yields: the 32-bit result, the carry and the overflow. -/
structure Sum where
  result : Word
  c : Bool
  v : Bool
deriving DecidableEq, Repr

/-- `AddWithCarry` (R191): the exact unsigned and signed sums, compared with the 32-bit range. -/
def addWithCarry (a b : Word) (cin : Bool) : Sum :=
  let usum := a.toNat + b.toNat + cin.toNat
  let ssum := a.toInt + b.toInt + cin.toNat
  { result := BitVec.ofNat 32 usum
    c := decide (4294967296 ≤ usum)
    v := decide (ssum < -2147483648) || decide (2147483647 < ssum) }

/-- The flags a logical operation writes; V keeps its value (R192). -/
def logicalFlags (old : Psr) (result : Word) (sco : Bool) : Psr :=
  { old with n := result.msb, z := result == 0, c := sco }

/-- The flags an arithmetic operation writes (R193). -/
def arithFlags (old : Psr) (sum : Sum) : Psr :=
  { old with n := sum.result.msb, z := sum.result == 0, c := sum.c, v := sum.v }

/-- The flags MUL and MLA write: C is the given value, V keeps its value (R240, R241). -/
def mulFlags (old : Psr) (result : Word) (c : Bool) : Psr :=
  { old with n := result.msb, z := result == 0, c := c }

/-- The flags a long multiply writes: N and Z from the 64-bit result, C and V the given values (R244). -/
def mullFlags (old : Psr) (result : BitVec 64) (c v : Bool) : Psr :=
  { old with n := result.msb, z := result == 0, c := c, v := v }

end Sys2Proof.Machine
end

