-- ==== Sys2Proof/Machine/Operands.lean ====
section
/-! DEFINITION. Every operand form: the barrel shifter and the second operand (spec/43_barrel_shifter_operand2.md), the addresses of
single transfers (spec/45_load_store_single.md) and of block transfers (spec/46_load_store_multiple.md), and the operand
combinations the spec refuses (spec/93_implementation_defined.md; log entry 22). -/

namespace Sys2Proof.Machine

/-! ## The barrel shifter (R221 to R225) -/

/-- A shifter's output: the value and the carry-out. -/
structure Shifted where
  value : Word
  carry : Bool
deriving DecidableEq, Repr

/-- LSL (R221). `c` is the C flag before the instruction. -/
def shiftLsl (v : Word) (n : Nat) (c : Bool) : Shifted :=
  if n = 0 then ⟨v, c⟩
  else if n < 32 then ⟨v <<< n, v.getLsbD (32 - n)⟩
  else if n = 32 then ⟨0, v.getLsbD 0⟩
  else ⟨0, false⟩

/-- LSR (R222). -/
def shiftLsr (v : Word) (n : Nat) (c : Bool) : Shifted :=
  if n = 0 then ⟨v, c⟩
  else if n < 32 then ⟨v >>> n, v.getLsbD (n - 1)⟩
  else if n = 32 then ⟨0, v.getLsbD 31⟩
  else ⟨0, false⟩

/-- ASR (R223). -/
def shiftAsr (v : Word) (n : Nat) (c : Bool) : Shifted :=
  if n = 0 then ⟨v, c⟩
  else if n < 32 then ⟨v.sshiftRight n, v.getLsbD (n - 1)⟩
  else ⟨if v.getLsbD 31 then 0xFFFFFFFF else 0, v.getLsbD 31⟩

/-- ROR (R224). -/
def shiftRor (v : Word) (n : Nat) (c : Bool) : Shifted :=
  if n = 0 then ⟨v, c⟩
  else if n % 32 = 0 then ⟨v, v.getLsbD 31⟩
  else ⟨v.rotateRight (n % 32), v.getLsbD (n % 32 - 1)⟩

/-- RRX (R225). -/
def shiftRrx (v : Word) (c : Bool) : Shifted :=
  ⟨BitVec.ofBool c ++ v.extractLsb' 1 31, v.getLsbD 0⟩

/-- A shift by an immediate amount: amount 0 is LSL #0, LSR #32, ASR #32 or RRX (R226). -/
def shiftByImm (ty : ShiftType) (v : Word) (amount : BitVec 5) (c : Bool) : Shifted :=
  match ty with
  | .lsl => shiftLsl v amount.toNat c
  | .lsr => shiftLsr v (if amount = 0 then 32 else amount.toNat) c
  | .asr => shiftAsr v (if amount = 0 then 32 else amount.toNat) c
  | .ror => if amount = 0 then shiftRrx v c else shiftRor v amount.toNat c

/-- A shift by a register's bottom byte (R227). -/
def shiftByReg (ty : ShiftType) (v : Word) (n : Nat) (c : Bool) : Shifted :=
  match ty with
  | .lsl => shiftLsl v n c
  | .lsr => shiftLsr v n c
  | .asr => shiftAsr v n c
  | .ror => shiftRor v n c

/-- An 8-bit constant rotated right by twice `rot` (R229). -/
def rotatedImm (rot : BitVec 4) (imm8 : BitVec 8) : Word := (imm8.setWidth 32).rotateRight (2 * rot.toNat)

/-! ## The second operand (R231) -/

/-- `ShifterOperand`: the second operand and the shifter's carry-out (R231). -/
def shifterOperand (s : State) (m : Mode) : Operand2 → Shifted
  | .imm rot imm8 =>
    ⟨rotatedImm rot imm8, if rot = 0 then s.cpsr.c else (rotatedImm rot imm8).getLsbD 31⟩
  | .shiftImm amount ty rm => shiftByImm ty (s.readReg m rm) amount s.cpsr.c
  | .shiftReg rs ty rm => shiftByReg ty (s.readReg m rm) (field (s.readReg m rs) 0 8).toNat s.cpsr.c

/-- The registers a second operand names. -/
def operandRegs : Operand2 → List Reg
  | .imm _ _ => []
  | .shiftImm _ _ rm => [rm]
  | .shiftReg rs _ rm => [rs, rm]

/-- r15 with a register-specified shift: as Rs (U6), as Rm or as an Rn that the operation reads (U11) (R195, R227). -/
def operandRefusal (usesRn : Bool) (rn : Reg) : Operand2 → Option Refusal
  | .shiftReg rs _ rm =>
    if rs = 15 then some .shiftAmountInPc
    else if rm = 15 || (usesRn && rn == 15) then some .pcWithRegisterShift
    else none
  | _ => none

/-! ## Single transfers (R261 to R263, R272, R277) -/

/-- The offset of a single transfer: a constant, or a register shifted by an immediate (R261, R262, R272). -/
inductive Offset where
  | imm (v : Word)
  | reg (amount : BitVec 5) (ty : ShiftType) (rm : Reg)
deriving DecidableEq, Repr

/-- The three index modes (R263). -/
inductive Indexing where
  | offset | preIndexed | postIndexed
deriving DecidableEq, Repr

/-- Index mode of P = 1 (R263). -/
def preIndexing (w : Bool) : Indexing := if w then .preIndexed else .offset

/-- The index mode writes the base register (R263). -/
def writesBase : Indexing → Bool
  | .offset => false
  | _ => true

/-- The value of an offset; the shifter's carry-out is discarded (R261, R262). -/
def offsetValue (s : State) (m : Mode) : Offset → Word
  | .imm v => v
  | .reg amount ty rm => (shiftByImm ty (s.readReg m rm) amount s.cpsr.c).value

/-- The registers an offset names. -/
def offsetRegs : Offset → List Reg
  | .imm _ => []
  | .reg _ _ rm => [rm]

/-- The halfword form's 8-bit offset (R272). -/
def halfOffset (hi lo : BitVec 4) : Offset := .imm ((hi ++ lo).setWidth 32)

/-- `moved`: the base with the offset added (U = 1) or subtracted (R263). -/
def movedBase (s : State) (m : Mode) (u : Bool) (rn : Reg) (off : Offset) : Word :=
  if u then s.readReg m rn + offsetValue s m off else s.readReg m rn - offsetValue s m off

/-- The address of the transfer (R263). -/
def transferAddress (s : State) (m : Mode) (ix : Indexing) (u : Bool) (rn : Reg) (off : Offset) : Word :=
  match ix with
  | .postIndexed => s.readReg m rn
  | _ => movedBase s m u rn off

/-- The base register after the transfer (R263). -/
def updateBase (s : State) (m : Mode) (ix : Indexing) (rn : Reg) (moved : Word) : State :=
  if writesBase ix then s.setReg m rn moved else s

/-- The operand combinations of a single transfer the spec refuses (R277), in the model's order (log entry 23):
U36, U37, U14, U15. -/
def transferRefusal (wd : Width) (translated : Bool) (ix : Indexing) (rn rd : Reg) (off : Offset) : Option Refusal :=
  if translated && rd == 15 then some .translatedPc
  else if wd != .word && rd == 15 then some .narrowTransferOfPc
  else if writesBase ix && (rn == 15 || rn == rd) then some .baseWriteClash
  else
    match off with
    | .imm _ => none
    | .reg _ _ rm => if rm == 15 || (writesBase ix && rm == rn) then some .offsetRegisterClash else none

/-- A loaded value as 32 bits: a signed byte or halfword is sign-extended (R92, R275, R276). -/
def extendLoaded (wd : Width) (signed : Bool) (v : Word) : Word :=
  match wd, signed with
  | .byte, true => (v.extractLsb' 0 8).signExtend 32
  | .half, true => (v.extractLsb' 0 16).signExtend 32
  | _, _ => v

/-- The value stored for a register: r15 stores `cur + 8` or `cur + 12` (R265, R294, U13; log entry 11). -/
def storedValue (s : State) (m : Mode) (rd : Reg) : Word :=
  if rd = 15 then s.pc + (if Config.pcStoredPlus12 then 12 else 8) else s.readReg m rd

/-! ## Block transfers (R291, R292) -/

/-- The register numbers of a list, rising (R291). -/
def listRegs (list : BitVec 16) : List Reg :=
  ((List.range 16).filter fun i => list.getLsbD i).map fun i => BitVec.ofNat 4 i

/-- How many bytes the registers of a list take. -/
def listBytes (list : BitVec 16) : Word := BitVec.ofNat 32 (4 * (listRegs list).length)

/-- The lowest address of the block (R292). -/
def blockStart (p u : Bool) (base : Word) (list : BitVec 16) : Word :=
  match p, u with
  | false, true => base
  | true, true => base + 4
  | false, false => base - listBytes list + 4
  | true, false => base - listBytes list

/-- The base after the transfer (R292, R295). -/
def blockNewBase (u : Bool) (base : Word) (list : BitVec 16) : Word :=
  if u then base + listBytes list else base - listBytes list

/-- The combinations both block transfers refuse, in the order R293 and R294 check them: U7, U17, U21, U16 (`baseClash`), U9, and
U30 (`userBank` with write-back). -/
def blockRefusal (s : State) (m : Mode) (sb w : Bool) (rn : Reg) (list : BitVec 16) (baseClash userBank : Bool) : Option Refusal :=
  if list = 0 then some .emptyRegisterList
  else if rn = 15 then some .blockBaseIsPc
  else if !aligned .word (s.readReg m rn) then some .misalignedAccess
  else if w && baseClash then some .baseInList
  else if sb && m.spsr.isNone then some .blockSInUserOrSystem
  else if userBank && w then some .userBankWriteBack
  else none

/-- Values written to registers, in order; register 15 is the pc (R293). -/
def State.loadRegs (bank : Mode) : State → List (Reg × Word) → State
  | s, [] => s
  | s, x :: xs => State.loadRegs bank (s.setReg bank x.1 x.2) xs

end Sys2Proof.Machine
end

