-- ==== Sys2Proof/Machine/BlockTransfer.lean ====
section
/-! DEFINITION. Block transfers (spec/46_load_store_multiple.md). -/

namespace Sys2Proof.Machine

/-- The registers a block transfer names (R296). -/
def blockRegs (rn : Reg) (list : BitVec 16) : List Reg := rn :: listRegs list

/-- The base of a write-back form after an abort has no usable value (R370). -/
def freeBase (m : Mode) (w : Bool) (rn : Reg) (s : State) : State := if w then s.freeReg m rn else s

/-- `x[Rn] <- newbase` when W = 1 (R295). -/
def blockWriteBack (m : Mode) (w : Bool) (rn : Reg) (newBase : Word) (s : State) : State :=
  if w then s.setReg m rn newBase else s

/-- LDM with S = 1 and r15 not in the list loads the User bank (R296). -/
def loadsUserBank (sb : Bool) (list : BitVec 16) : Bool := sb && !list.getLsbD 15

/-- The end of an LDM: r15 loaded is a branch, with S = 1 an exception return (R293, R296). -/
def finishLoad (sb : Bool) (list : BitVec 16) (m : Mode) (s : State) : Out :=
  if list.getLsbD 15 then
    (if sb then s.returnFromException .blockSInUserOrSystem m s.pc else branchTo s.pc s)
  else advance s

/-- LDM in mode `m` (R293): the words are read, then the registers written in rising order, then the base. After an abort the
registers of the list (but the pc) and a written base have no usable value (R370, U32). -/
def loadBlock (p u sb w : Bool) (rn : Reg) (list : BitVec 16) (m : Mode) (s : State) : Out :=
  let bank := if loadsUserBank sb list then Mode.user else m
  match blockRefusal s m sb w rn list (list.getLsbD rn.toNat) (loadsUserBank sb list) with
  | some r => .refused r
  | none =>
    (s.readWords m.privileged (blockStart p u (s.readReg m rn) list) (listRegs list).length).andThen
      { freeBase m w rn (State.freeRegs bank s ((listRegs list).filter (· != 15))) with
        userLdm := loadsUserBank sb list }.dataAbort
      fun vs =>
        finishLoad sb list m
          { blockWriteBack m w rn (blockNewBase u (s.readReg m rn) list) (State.loadRegs bank s ((listRegs list).zip vs)) with
            userLdm := loadsUserBank sb list }

/-- Some register below the base is in the list, and the base too (R294, U16). -/
def baseNotLowest (rn : Reg) (list : BitVec 16) : Bool :=
  list.getLsbD rn.toNat && (listRegs list).any fun i => decide (i.toNat < rn.toNat)

/-- STM in mode `m` (R294): the values held before the instruction are written, then the base. After an abort the writes made before
it stand, and a written base has no usable value (R370). -/
def storeBlock (p u sb w : Bool) (rn : Reg) (list : BitVec 16) (m : Mode) (s : State) : Out :=
  let bank := if sb then Mode.user else m
  match blockRefusal s m sb w rn list (baseNotLowest rn list) sb with
  | some r => .refused r
  | none =>
    let done := State.writeWords m.privileged s (blockStart p u (s.readReg m rn) list)
      ((listRegs list).map fun i => storedValue s bank i)
    match done.2 with
    | .ok => advance (blockWriteBack m w rn (blockNewBase u (s.readReg m rn) list) done.1)
    | .abort => (freeBase m w rn done.1).dataAbort
    | .absent => .fault .absentAddress
    | .device => .refused .deviceAccess

/-- LDM (R293). -/
def execLdm (c : Cond) (p u sb w : Bool) (rn : Reg) (list : BitVec 16) (s : State) : Out :=
  whenExecuted c (blockRegs rn list) s fun m s => loadBlock p u sb w rn list m s

/-- STM (R294). -/
def execStm (c : Cond) (p u sb w : Bool) (rn : Reg) (list : BitVec 16) (s : State) : Out :=
  whenExecuted c (blockRegs rn list) s fun m s => storeBlock p u sb w rn list m s

end Sys2Proof.Machine
end

