-- ==== Sys2Proof/Machine/Branch.lean ====
section
/-! DEFINITION. Branches (spec/41_branch.md). -/

namespace Sys2Proof.Machine

/-- The target of B and BL: `(cur + 8) + sext_26(Offset : 0b00)`, modulo 2^32 (R143, R180). -/
def branchTarget (pc : Word) (offset : BitVec 24) : Word := pc + 8 + (offset ++ (0 : BitVec 2)).signExtend 32

/-- B (R180). -/
def execB (c : Cond) (offset : BitVec 24) (s : State) : Out :=
  whenExecuted c [] s fun _ s => .next { s with pc := branchTarget s.pc offset }

/-- BL: r14 of the current mode receives `cur + 4` (R181). -/
def execBl (c : Cond) (offset : BitVec 24) (s : State) : Out :=
  whenExecuted c [] s fun m s =>
    .next { s.setReg m 14 (s.pc + 4) with pc := branchTarget s.pc offset }

/-- BX: an ARM-state target only (R183; U19, U29); without the T variant the word is in no row. -/
def execBx (c : Cond) (rn : Reg) (s : State) : Out :=
  whenExecuted c [rn] s fun m s =>
    if !s.platform.hasT then .refused .noInstruction
    else if rn = 15 then .refused .branchExchangeTarget
    else if (s.readReg m rn).getLsbD 0 then .refused .thumbState
    else if (s.readReg m rn).getLsbD 1 then .refused .branchExchangeTarget
    else .next { s with cpsr := { s.cpsr with t := false }, pc := s.readReg m rn }

end Sys2Proof.Machine
end

