-- ==== Sys2Proof/Machine/DataProcessing.lean ====
section
/-! DEFINITION. The data-processing instructions (spec/42_data_processing.md). -/

namespace Sys2Proof.Machine

/-- What the ALU yields: the result, and the status register with the flags the operation writes. -/
structure AluOut where
  result : Word
  flags : Psr
deriving DecidableEq, Repr

/-- A logical operation's output (R192). -/
def logicalOut (old : Psr) (sco : Bool) (result : Word) : AluOut := ⟨result, logicalFlags old result sco⟩

/-- An arithmetic operation's output (R193). -/
def arithOut (old : Psr) (sum : Sum) : AluOut := ⟨sum.result, arithFlags old sum⟩

/-- The sixteen operations (R196 to R211) on the first operand `a` and the second operand `b`, with the status register before the
instruction and the shifter's carry-out. -/
def alu (op : DpOp) (a b : Word) (old : Psr) (sco : Bool) : AluOut :=
  match op with
  | .and => logicalOut old sco (a &&& b)
  | .eor => logicalOut old sco (a ^^^ b)
  | .sub => arithOut old (addWithCarry a (~~~b) true)
  | .rsb => arithOut old (addWithCarry b (~~~a) true)
  | .add => arithOut old (addWithCarry a b false)
  | .adc => arithOut old (addWithCarry a b old.c)
  | .sbc => arithOut old (addWithCarry a (~~~b) old.c)
  | .rsc => arithOut old (addWithCarry b (~~~a) old.c)
  | .tst => logicalOut old sco (a &&& b)
  | .teq => logicalOut old sco (a ^^^ b)
  | .cmp => arithOut old (addWithCarry a (~~~b) true)
  | .cmn => arithOut old (addWithCarry a b false)
  | .orr => logicalOut old sco (a ||| b)
  | .mov => logicalOut old sco b
  | .bic => logicalOut old sco (a &&& ~~~b)
  | .mvn => logicalOut old sco (~~~b)

/-- MOV and MVN do not read Rn (R190, R209, R211). -/
def usesRn : DpOp → Bool
  | .mov | .mvn => false
  | _ => true

/-- The operands read, the operation computed: what the ALU yields in mode `m` (R190). -/
def dpOut (op : DpOp) (rn : Reg) (o : Operand2) (m : Mode) (s : State) : AluOut :=
  alu op (s.readReg m rn) (shifterOperand s m o).value s.cpsr (shifterOperand s m o).carry

/-- Where the result goes: nowhere for a comparison (R204); to Rd, with the flags if S = 1 (R190); with Rd = 15 to the pc, as a branch
if S = 0 and as an exception return if S = 1 (R194). -/
def dpWrite (op : DpOp) (sf : Bool) (rd : Reg) (out : AluOut) (m : Mode) (s : State) : Out :=
  if op.compares then advance { s with cpsr := out.flags }
  else if rd = 15 then
    (if sf then s.returnFromException .returnWithoutSpsr m out.result else branchTo out.result s)
  else if sf then advance ({ s with cpsr := out.flags }.setReg m rd out.result)
  else advance (s.setReg m rd out.result)

/-- A data-processing instruction (R190). The refusals are U6 and U11. -/
def dataProcessing (op : DpOp) (c : Cond) (rn rd : Reg) (sf : Bool) (o : Operand2) (s : State) : Out :=
  whenExecuted c (rn :: rd :: operandRegs o) s fun m s =>
    match operandRefusal (usesRn op) rn o with
    | some r => .refused r
    | none => dpWrite op sf rd (dpOut op rn o m s) m s

/-- AND, operand2 immediate (R196). -/
def execAndImm (c : Cond) (rn rd : Reg) (sf : Bool) (rot : BitVec 4) (imm8 : BitVec 8) (s : State) : Out :=
  dataProcessing .and c rn rd sf (.imm rot imm8) s

/-- AND, operand2 register shifted by immediate (R196). -/
def execAndShiftImm (c : Cond) (rn rd : Reg) (sf : Bool) (amount : BitVec 5) (ty : ShiftType) (rm : Reg) (s : State) : Out :=
  dataProcessing .and c rn rd sf (.shiftImm amount ty rm) s

/-- AND, operand2 register shifted by register (R196). -/
def execAndShiftReg (c : Cond) (rn rd : Reg) (sf : Bool) (rs : Reg) (ty : ShiftType) (rm : Reg) (s : State) : Out :=
  dataProcessing .and c rn rd sf (.shiftReg rs ty rm) s

/-- EOR, operand2 immediate (R197). -/
def execEorImm (c : Cond) (rn rd : Reg) (sf : Bool) (rot : BitVec 4) (imm8 : BitVec 8) (s : State) : Out :=
  dataProcessing .eor c rn rd sf (.imm rot imm8) s

/-- EOR, operand2 register shifted by immediate (R197). -/
def execEorShiftImm (c : Cond) (rn rd : Reg) (sf : Bool) (amount : BitVec 5) (ty : ShiftType) (rm : Reg) (s : State) : Out :=
  dataProcessing .eor c rn rd sf (.shiftImm amount ty rm) s

/-- EOR, operand2 register shifted by register (R197). -/
def execEorShiftReg (c : Cond) (rn rd : Reg) (sf : Bool) (rs : Reg) (ty : ShiftType) (rm : Reg) (s : State) : Out :=
  dataProcessing .eor c rn rd sf (.shiftReg rs ty rm) s

/-- SUB, operand2 immediate (R198). -/
def execSubImm (c : Cond) (rn rd : Reg) (sf : Bool) (rot : BitVec 4) (imm8 : BitVec 8) (s : State) : Out :=
  dataProcessing .sub c rn rd sf (.imm rot imm8) s

/-- SUB, operand2 register shifted by immediate (R198). -/
def execSubShiftImm (c : Cond) (rn rd : Reg) (sf : Bool) (amount : BitVec 5) (ty : ShiftType) (rm : Reg) (s : State) : Out :=
  dataProcessing .sub c rn rd sf (.shiftImm amount ty rm) s

/-- SUB, operand2 register shifted by register (R198). -/
def execSubShiftReg (c : Cond) (rn rd : Reg) (sf : Bool) (rs : Reg) (ty : ShiftType) (rm : Reg) (s : State) : Out :=
  dataProcessing .sub c rn rd sf (.shiftReg rs ty rm) s

/-- RSB, operand2 immediate (R199). -/
def execRsbImm (c : Cond) (rn rd : Reg) (sf : Bool) (rot : BitVec 4) (imm8 : BitVec 8) (s : State) : Out :=
  dataProcessing .rsb c rn rd sf (.imm rot imm8) s

/-- RSB, operand2 register shifted by immediate (R199). -/
def execRsbShiftImm (c : Cond) (rn rd : Reg) (sf : Bool) (amount : BitVec 5) (ty : ShiftType) (rm : Reg) (s : State) : Out :=
  dataProcessing .rsb c rn rd sf (.shiftImm amount ty rm) s

/-- RSB, operand2 register shifted by register (R199). -/
def execRsbShiftReg (c : Cond) (rn rd : Reg) (sf : Bool) (rs : Reg) (ty : ShiftType) (rm : Reg) (s : State) : Out :=
  dataProcessing .rsb c rn rd sf (.shiftReg rs ty rm) s

/-- ADD, operand2 immediate (R200). -/
def execAddImm (c : Cond) (rn rd : Reg) (sf : Bool) (rot : BitVec 4) (imm8 : BitVec 8) (s : State) : Out :=
  dataProcessing .add c rn rd sf (.imm rot imm8) s

/-- ADD, operand2 register shifted by immediate (R200). -/
def execAddShiftImm (c : Cond) (rn rd : Reg) (sf : Bool) (amount : BitVec 5) (ty : ShiftType) (rm : Reg) (s : State) : Out :=
  dataProcessing .add c rn rd sf (.shiftImm amount ty rm) s

/-- ADD, operand2 register shifted by register (R200). -/
def execAddShiftReg (c : Cond) (rn rd : Reg) (sf : Bool) (rs : Reg) (ty : ShiftType) (rm : Reg) (s : State) : Out :=
  dataProcessing .add c rn rd sf (.shiftReg rs ty rm) s

/-- ADC, operand2 immediate (R201). -/
def execAdcImm (c : Cond) (rn rd : Reg) (sf : Bool) (rot : BitVec 4) (imm8 : BitVec 8) (s : State) : Out :=
  dataProcessing .adc c rn rd sf (.imm rot imm8) s

/-- ADC, operand2 register shifted by immediate (R201). -/
def execAdcShiftImm (c : Cond) (rn rd : Reg) (sf : Bool) (amount : BitVec 5) (ty : ShiftType) (rm : Reg) (s : State) : Out :=
  dataProcessing .adc c rn rd sf (.shiftImm amount ty rm) s

/-- ADC, operand2 register shifted by register (R201). -/
def execAdcShiftReg (c : Cond) (rn rd : Reg) (sf : Bool) (rs : Reg) (ty : ShiftType) (rm : Reg) (s : State) : Out :=
  dataProcessing .adc c rn rd sf (.shiftReg rs ty rm) s

/-- SBC, operand2 immediate (R202). -/
def execSbcImm (c : Cond) (rn rd : Reg) (sf : Bool) (rot : BitVec 4) (imm8 : BitVec 8) (s : State) : Out :=
  dataProcessing .sbc c rn rd sf (.imm rot imm8) s

/-- SBC, operand2 register shifted by immediate (R202). -/
def execSbcShiftImm (c : Cond) (rn rd : Reg) (sf : Bool) (amount : BitVec 5) (ty : ShiftType) (rm : Reg) (s : State) : Out :=
  dataProcessing .sbc c rn rd sf (.shiftImm amount ty rm) s

/-- SBC, operand2 register shifted by register (R202). -/
def execSbcShiftReg (c : Cond) (rn rd : Reg) (sf : Bool) (rs : Reg) (ty : ShiftType) (rm : Reg) (s : State) : Out :=
  dataProcessing .sbc c rn rd sf (.shiftReg rs ty rm) s

/-- RSC, operand2 immediate (R203). -/
def execRscImm (c : Cond) (rn rd : Reg) (sf : Bool) (rot : BitVec 4) (imm8 : BitVec 8) (s : State) : Out :=
  dataProcessing .rsc c rn rd sf (.imm rot imm8) s

/-- RSC, operand2 register shifted by immediate (R203). -/
def execRscShiftImm (c : Cond) (rn rd : Reg) (sf : Bool) (amount : BitVec 5) (ty : ShiftType) (rm : Reg) (s : State) : Out :=
  dataProcessing .rsc c rn rd sf (.shiftImm amount ty rm) s

/-- RSC, operand2 register shifted by register (R203). -/
def execRscShiftReg (c : Cond) (rn rd : Reg) (sf : Bool) (rs : Reg) (ty : ShiftType) (rm : Reg) (s : State) : Out :=
  dataProcessing .rsc c rn rd sf (.shiftReg rs ty rm) s

/-- TST, operand2 immediate (R204). -/
def execTstImm (c : Cond) (rn rd : Reg) (rot : BitVec 4) (imm8 : BitVec 8) (s : State) : Out :=
  dataProcessing .tst c rn rd true (.imm rot imm8) s

/-- TST, operand2 register shifted by immediate (R204). -/
def execTstShiftImm (c : Cond) (rn rd : Reg) (amount : BitVec 5) (ty : ShiftType) (rm : Reg) (s : State) : Out :=
  dataProcessing .tst c rn rd true (.shiftImm amount ty rm) s

/-- TST, operand2 register shifted by register (R204). -/
def execTstShiftReg (c : Cond) (rn rd rs : Reg) (ty : ShiftType) (rm : Reg) (s : State) : Out :=
  dataProcessing .tst c rn rd true (.shiftReg rs ty rm) s

/-- TEQ, operand2 immediate (R205). -/
def execTeqImm (c : Cond) (rn rd : Reg) (rot : BitVec 4) (imm8 : BitVec 8) (s : State) : Out :=
  dataProcessing .teq c rn rd true (.imm rot imm8) s

/-- TEQ, operand2 register shifted by immediate (R205). -/
def execTeqShiftImm (c : Cond) (rn rd : Reg) (amount : BitVec 5) (ty : ShiftType) (rm : Reg) (s : State) : Out :=
  dataProcessing .teq c rn rd true (.shiftImm amount ty rm) s

/-- TEQ, operand2 register shifted by register (R205). -/
def execTeqShiftReg (c : Cond) (rn rd rs : Reg) (ty : ShiftType) (rm : Reg) (s : State) : Out :=
  dataProcessing .teq c rn rd true (.shiftReg rs ty rm) s

/-- CMP, operand2 immediate (R206). -/
def execCmpImm (c : Cond) (rn rd : Reg) (rot : BitVec 4) (imm8 : BitVec 8) (s : State) : Out :=
  dataProcessing .cmp c rn rd true (.imm rot imm8) s

/-- CMP, operand2 register shifted by immediate (R206). -/
def execCmpShiftImm (c : Cond) (rn rd : Reg) (amount : BitVec 5) (ty : ShiftType) (rm : Reg) (s : State) : Out :=
  dataProcessing .cmp c rn rd true (.shiftImm amount ty rm) s

/-- CMP, operand2 register shifted by register (R206). -/
def execCmpShiftReg (c : Cond) (rn rd rs : Reg) (ty : ShiftType) (rm : Reg) (s : State) : Out :=
  dataProcessing .cmp c rn rd true (.shiftReg rs ty rm) s

/-- CMN, operand2 immediate (R207). -/
def execCmnImm (c : Cond) (rn rd : Reg) (rot : BitVec 4) (imm8 : BitVec 8) (s : State) : Out :=
  dataProcessing .cmn c rn rd true (.imm rot imm8) s

/-- CMN, operand2 register shifted by immediate (R207). -/
def execCmnShiftImm (c : Cond) (rn rd : Reg) (amount : BitVec 5) (ty : ShiftType) (rm : Reg) (s : State) : Out :=
  dataProcessing .cmn c rn rd true (.shiftImm amount ty rm) s

/-- CMN, operand2 register shifted by register (R207). -/
def execCmnShiftReg (c : Cond) (rn rd rs : Reg) (ty : ShiftType) (rm : Reg) (s : State) : Out :=
  dataProcessing .cmn c rn rd true (.shiftReg rs ty rm) s

/-- ORR, operand2 immediate (R208). -/
def execOrrImm (c : Cond) (rn rd : Reg) (sf : Bool) (rot : BitVec 4) (imm8 : BitVec 8) (s : State) : Out :=
  dataProcessing .orr c rn rd sf (.imm rot imm8) s

/-- ORR, operand2 register shifted by immediate (R208). -/
def execOrrShiftImm (c : Cond) (rn rd : Reg) (sf : Bool) (amount : BitVec 5) (ty : ShiftType) (rm : Reg) (s : State) : Out :=
  dataProcessing .orr c rn rd sf (.shiftImm amount ty rm) s

/-- ORR, operand2 register shifted by register (R208). -/
def execOrrShiftReg (c : Cond) (rn rd : Reg) (sf : Bool) (rs : Reg) (ty : ShiftType) (rm : Reg) (s : State) : Out :=
  dataProcessing .orr c rn rd sf (.shiftReg rs ty rm) s

/-- MOV, operand2 immediate (R209). -/
def execMovImm (c : Cond) (rn rd : Reg) (sf : Bool) (rot : BitVec 4) (imm8 : BitVec 8) (s : State) : Out :=
  dataProcessing .mov c rn rd sf (.imm rot imm8) s

/-- MOV, operand2 register shifted by immediate (R209). -/
def execMovShiftImm (c : Cond) (rn rd : Reg) (sf : Bool) (amount : BitVec 5) (ty : ShiftType) (rm : Reg) (s : State) : Out :=
  dataProcessing .mov c rn rd sf (.shiftImm amount ty rm) s

/-- MOV, operand2 register shifted by register (R209). -/
def execMovShiftReg (c : Cond) (rn rd : Reg) (sf : Bool) (rs : Reg) (ty : ShiftType) (rm : Reg) (s : State) : Out :=
  dataProcessing .mov c rn rd sf (.shiftReg rs ty rm) s

/-- BIC, operand2 immediate (R210). -/
def execBicImm (c : Cond) (rn rd : Reg) (sf : Bool) (rot : BitVec 4) (imm8 : BitVec 8) (s : State) : Out :=
  dataProcessing .bic c rn rd sf (.imm rot imm8) s

/-- BIC, operand2 register shifted by immediate (R210). -/
def execBicShiftImm (c : Cond) (rn rd : Reg) (sf : Bool) (amount : BitVec 5) (ty : ShiftType) (rm : Reg) (s : State) : Out :=
  dataProcessing .bic c rn rd sf (.shiftImm amount ty rm) s

/-- BIC, operand2 register shifted by register (R210). -/
def execBicShiftReg (c : Cond) (rn rd : Reg) (sf : Bool) (rs : Reg) (ty : ShiftType) (rm : Reg) (s : State) : Out :=
  dataProcessing .bic c rn rd sf (.shiftReg rs ty rm) s

/-- MVN, operand2 immediate (R211). -/
def execMvnImm (c : Cond) (rn rd : Reg) (sf : Bool) (rot : BitVec 4) (imm8 : BitVec 8) (s : State) : Out :=
  dataProcessing .mvn c rn rd sf (.imm rot imm8) s

/-- MVN, operand2 register shifted by immediate (R211). -/
def execMvnShiftImm (c : Cond) (rn rd : Reg) (sf : Bool) (amount : BitVec 5) (ty : ShiftType) (rm : Reg) (s : State) : Out :=
  dataProcessing .mvn c rn rd sf (.shiftImm amount ty rm) s

/-- MVN, operand2 register shifted by register (R211). -/
def execMvnShiftReg (c : Cond) (rn rd : Reg) (sf : Bool) (rs : Reg) (ty : ShiftType) (rm : Reg) (s : State) : Out :=
  dataProcessing .mvn c rn rd sf (.shiftReg rs ty rm) s

end Sys2Proof.Machine
end

