-- ==== Sys2Proof/Machine/SingleTransfer.lean ====
section
/-! DEFINITION. Word and byte loads and stores (spec/45_load_store_single.md R264 to R271), and what all single transfers share. -/

namespace Sys2Proof.Machine

/-- A single load (R264, R266, R268, R273, R275, R276): the refused combinations, the alignment, the read, the base, then Rd. A rejected
read leaves Rd alone and the base of a write-back form without a usable value (R370). `privileged` is what the memory system is told. -/
def loadSingle (wd : Width) (signed translated : Bool) (ix : Indexing) (u : Bool) (rn rd : Reg) (off : Offset)
    (m : Mode) (s : State) : Out :=
  match transferRefusal wd translated ix rn rd off with
  | some r => .refused r
  | none =>
    if !aligned wd (transferAddress s m ix u rn off) then .refused .misalignedAccess
    else
      (s.read (m.privileged && !translated) (transferAddress s m ix u rn off) wd).andThen
        (if writesBase ix then (s.freeReg m rn).dataAbort else s.dataAbort)
        fun v => writeRd m rd (extendLoaded wd signed v) (updateBase s m ix rn (movedBase s m u rn off))

/-- A single store (R265, R267, R269, R274): the refused combinations, the alignment, the write, then the base. -/
def storeSingle (wd : Width) (translated : Bool) (ix : Indexing) (u : Bool) (rn rd : Reg) (off : Offset)
    (m : Mode) (s : State) : Out :=
  match transferRefusal wd translated ix rn rd off with
  | some r => .refused r
  | none =>
    if !aligned wd (transferAddress s m ix u rn off) then .refused .misalignedAccess
    else
      (s.write (m.privileged && !translated) (transferAddress s m ix u rn off) wd (storedValue s m rd)).andThen
        (if writesBase ix then (s.freeReg m rn).dataAbort else s.dataAbort)
        fun t => advance (updateBase t m ix rn (movedBase s m u rn off))

/-- The registers a single transfer names. -/
def transferRegs (rn rd : Reg) (off : Offset) : List Reg := rn :: rd :: offsetRegs off

/-- STR, immediate offset, P = 1 (R265). -/
def execStrImmPre (c : Cond) (u : Bool) (rn rd : Reg) (offset : BitVec 12) (w : Bool) (s : State) : Out :=
  whenExecuted c (transferRegs rn rd (.imm (offset.setWidth 32))) s fun m s =>
    storeSingle .word false (preIndexing w) u rn rd (.imm (offset.setWidth 32)) m s

/-- STR, immediate offset, P = 0, W = 0 (R265). -/
def execStrImmPost (c : Cond) (u : Bool) (rn rd : Reg) (offset : BitVec 12) (s : State) : Out :=
  whenExecuted c (transferRegs rn rd (.imm (offset.setWidth 32))) s fun m s =>
    storeSingle .word false .postIndexed u rn rd (.imm (offset.setWidth 32)) m s

/-- STRT, immediate offset, P = 0, W = 1 (R269). -/
def execStrtImm (c : Cond) (u : Bool) (rn rd : Reg) (offset : BitVec 12) (s : State) : Out :=
  whenExecuted c (transferRegs rn rd (.imm (offset.setWidth 32))) s fun m s =>
    storeSingle .word true .postIndexed u rn rd (.imm (offset.setWidth 32)) m s

/-- STR, register offset, P = 1 (R265). -/
def execStrRegPre (c : Cond) (u : Bool) (rn rd : Reg) (amount : BitVec 5) (ty : ShiftType) (rm : Reg) (w : Bool) (s : State) : Out :=
  whenExecuted c (transferRegs rn rd (.reg amount ty rm)) s fun m s =>
    storeSingle .word false (preIndexing w) u rn rd (.reg amount ty rm) m s

/-- STR, register offset, P = 0, W = 0 (R265). -/
def execStrRegPost (c : Cond) (u : Bool) (rn rd : Reg) (amount : BitVec 5) (ty : ShiftType) (rm : Reg) (s : State) : Out :=
  whenExecuted c (transferRegs rn rd (.reg amount ty rm)) s fun m s =>
    storeSingle .word false .postIndexed u rn rd (.reg amount ty rm) m s

/-- STRT, register offset, P = 0, W = 1 (R269). -/
def execStrtReg (c : Cond) (u : Bool) (rn rd : Reg) (amount : BitVec 5) (ty : ShiftType) (rm : Reg) (s : State) : Out :=
  whenExecuted c (transferRegs rn rd (.reg amount ty rm)) s fun m s =>
    storeSingle .word true .postIndexed u rn rd (.reg amount ty rm) m s

/-- LDR, immediate offset, P = 1 (R264). -/
def execLdrImmPre (c : Cond) (u : Bool) (rn rd : Reg) (offset : BitVec 12) (w : Bool) (s : State) : Out :=
  whenExecuted c (transferRegs rn rd (.imm (offset.setWidth 32))) s fun m s =>
    loadSingle .word false false (preIndexing w) u rn rd (.imm (offset.setWidth 32)) m s

/-- LDR, immediate offset, P = 0, W = 0 (R264). -/
def execLdrImmPost (c : Cond) (u : Bool) (rn rd : Reg) (offset : BitVec 12) (s : State) : Out :=
  whenExecuted c (transferRegs rn rd (.imm (offset.setWidth 32))) s fun m s =>
    loadSingle .word false false .postIndexed u rn rd (.imm (offset.setWidth 32)) m s

/-- LDRT, immediate offset, P = 0, W = 1 (R268). -/
def execLdrtImm (c : Cond) (u : Bool) (rn rd : Reg) (offset : BitVec 12) (s : State) : Out :=
  whenExecuted c (transferRegs rn rd (.imm (offset.setWidth 32))) s fun m s =>
    loadSingle .word false true .postIndexed u rn rd (.imm (offset.setWidth 32)) m s

/-- LDR, register offset, P = 1 (R264). -/
def execLdrRegPre (c : Cond) (u : Bool) (rn rd : Reg) (amount : BitVec 5) (ty : ShiftType) (rm : Reg) (w : Bool) (s : State) : Out :=
  whenExecuted c (transferRegs rn rd (.reg amount ty rm)) s fun m s =>
    loadSingle .word false false (preIndexing w) u rn rd (.reg amount ty rm) m s

/-- LDR, register offset, P = 0, W = 0 (R264). -/
def execLdrRegPost (c : Cond) (u : Bool) (rn rd : Reg) (amount : BitVec 5) (ty : ShiftType) (rm : Reg) (s : State) : Out :=
  whenExecuted c (transferRegs rn rd (.reg amount ty rm)) s fun m s =>
    loadSingle .word false false .postIndexed u rn rd (.reg amount ty rm) m s

/-- LDRT, register offset, P = 0, W = 1 (R268). -/
def execLdrtReg (c : Cond) (u : Bool) (rn rd : Reg) (amount : BitVec 5) (ty : ShiftType) (rm : Reg) (s : State) : Out :=
  whenExecuted c (transferRegs rn rd (.reg amount ty rm)) s fun m s =>
    loadSingle .word false true .postIndexed u rn rd (.reg amount ty rm) m s

/-- STRB, immediate offset, P = 1 (R267). -/
def execStrbImmPre (c : Cond) (u : Bool) (rn rd : Reg) (offset : BitVec 12) (w : Bool) (s : State) : Out :=
  whenExecuted c (transferRegs rn rd (.imm (offset.setWidth 32))) s fun m s =>
    storeSingle .byte false (preIndexing w) u rn rd (.imm (offset.setWidth 32)) m s

/-- STRB, immediate offset, P = 0, W = 0 (R267). -/
def execStrbImmPost (c : Cond) (u : Bool) (rn rd : Reg) (offset : BitVec 12) (s : State) : Out :=
  whenExecuted c (transferRegs rn rd (.imm (offset.setWidth 32))) s fun m s =>
    storeSingle .byte false .postIndexed u rn rd (.imm (offset.setWidth 32)) m s

/-- STRBT, immediate offset, P = 0, W = 1 (R271). -/
def execStrbtImm (c : Cond) (u : Bool) (rn rd : Reg) (offset : BitVec 12) (s : State) : Out :=
  whenExecuted c (transferRegs rn rd (.imm (offset.setWidth 32))) s fun m s =>
    storeSingle .byte true .postIndexed u rn rd (.imm (offset.setWidth 32)) m s

/-- STRB, register offset, P = 1 (R267). -/
def execStrbRegPre (c : Cond) (u : Bool) (rn rd : Reg) (amount : BitVec 5) (ty : ShiftType) (rm : Reg) (w : Bool) (s : State) : Out :=
  whenExecuted c (transferRegs rn rd (.reg amount ty rm)) s fun m s =>
    storeSingle .byte false (preIndexing w) u rn rd (.reg amount ty rm) m s

/-- STRB, register offset, P = 0, W = 0 (R267). -/
def execStrbRegPost (c : Cond) (u : Bool) (rn rd : Reg) (amount : BitVec 5) (ty : ShiftType) (rm : Reg) (s : State) : Out :=
  whenExecuted c (transferRegs rn rd (.reg amount ty rm)) s fun m s =>
    storeSingle .byte false .postIndexed u rn rd (.reg amount ty rm) m s

/-- STRBT, register offset, P = 0, W = 1 (R271). -/
def execStrbtReg (c : Cond) (u : Bool) (rn rd : Reg) (amount : BitVec 5) (ty : ShiftType) (rm : Reg) (s : State) : Out :=
  whenExecuted c (transferRegs rn rd (.reg amount ty rm)) s fun m s =>
    storeSingle .byte true .postIndexed u rn rd (.reg amount ty rm) m s

/-- LDRB, immediate offset, P = 1 (R266). -/
def execLdrbImmPre (c : Cond) (u : Bool) (rn rd : Reg) (offset : BitVec 12) (w : Bool) (s : State) : Out :=
  whenExecuted c (transferRegs rn rd (.imm (offset.setWidth 32))) s fun m s =>
    loadSingle .byte false false (preIndexing w) u rn rd (.imm (offset.setWidth 32)) m s

/-- LDRB, immediate offset, P = 0, W = 0 (R266). -/
def execLdrbImmPost (c : Cond) (u : Bool) (rn rd : Reg) (offset : BitVec 12) (s : State) : Out :=
  whenExecuted c (transferRegs rn rd (.imm (offset.setWidth 32))) s fun m s =>
    loadSingle .byte false false .postIndexed u rn rd (.imm (offset.setWidth 32)) m s

/-- LDRBT, immediate offset, P = 0, W = 1 (R270). -/
def execLdrbtImm (c : Cond) (u : Bool) (rn rd : Reg) (offset : BitVec 12) (s : State) : Out :=
  whenExecuted c (transferRegs rn rd (.imm (offset.setWidth 32))) s fun m s =>
    loadSingle .byte false true .postIndexed u rn rd (.imm (offset.setWidth 32)) m s

/-- LDRB, register offset, P = 1 (R266). -/
def execLdrbRegPre (c : Cond) (u : Bool) (rn rd : Reg) (amount : BitVec 5) (ty : ShiftType) (rm : Reg) (w : Bool) (s : State) : Out :=
  whenExecuted c (transferRegs rn rd (.reg amount ty rm)) s fun m s =>
    loadSingle .byte false false (preIndexing w) u rn rd (.reg amount ty rm) m s

/-- LDRB, register offset, P = 0, W = 0 (R266). -/
def execLdrbRegPost (c : Cond) (u : Bool) (rn rd : Reg) (amount : BitVec 5) (ty : ShiftType) (rm : Reg) (s : State) : Out :=
  whenExecuted c (transferRegs rn rd (.reg amount ty rm)) s fun m s =>
    loadSingle .byte false false .postIndexed u rn rd (.reg amount ty rm) m s

/-- LDRBT, register offset, P = 0, W = 1 (R270). -/
def execLdrbtReg (c : Cond) (u : Bool) (rn rd : Reg) (amount : BitVec 5) (ty : ShiftType) (rm : Reg) (s : State) : Out :=
  whenExecuted c (transferRegs rn rd (.reg amount ty rm)) s fun m s =>
    loadSingle .byte false true .postIndexed u rn rd (.reg amount ty rm) m s

end Sys2Proof.Machine
end

