-- ==== Sys2Proof/Machine/Halfword.lean ====
section
/-! DEFINITION. Halfword and signed loads and stores (spec/45_load_store_single.md R272 to R276). -/

namespace Sys2Proof.Machine

/-- What the halfword and signed forms add: version 4 only (R8), and P = 0 with W = 1 is refused, U25 (R272). Which name a form that
breaks several restrictions is refused with the spec does not say: the model names U30 first (`whenExecuted`), then U28, then U25, then
those of `transferRefusal` (DESIGN CHOICE, log entry 23). -/
def halfwordForm (p w : Bool) (s : State) (body : Indexing → Out) : Out :=
  if !s.platform.hasV4 then .refused .noInstruction
  else if !p && w then .refused .halfwordPostIndexedW
  else body (if p then preIndexing w else .postIndexed)

/-- STRH, immediate offset (R274). -/
def execStrhImm (c : Cond) (p u w : Bool) (rn rd : Reg) (offHi offLo : BitVec 4) (s : State) : Out :=
  whenExecuted c (transferRegs rn rd (halfOffset offHi offLo)) s fun m s =>
    halfwordForm p w s fun ix => storeSingle .half false ix u rn rd (halfOffset offHi offLo) m s

/-- STRH, register offset (R274). -/
def execStrhReg (c : Cond) (p u w : Bool) (rn rd rm : Reg) (s : State) : Out :=
  whenExecuted c (transferRegs rn rd (.reg 0 .lsl rm)) s fun m s =>
    halfwordForm p w s fun ix => storeSingle .half false ix u rn rd (.reg 0 .lsl rm) m s

/-- LDRH, immediate offset (R273). -/
def execLdrhImm (c : Cond) (p u w : Bool) (rn rd : Reg) (offHi offLo : BitVec 4) (s : State) : Out :=
  whenExecuted c (transferRegs rn rd (halfOffset offHi offLo)) s fun m s =>
    halfwordForm p w s fun ix => loadSingle .half false false ix u rn rd (halfOffset offHi offLo) m s

/-- LDRH, register offset (R273). -/
def execLdrhReg (c : Cond) (p u w : Bool) (rn rd rm : Reg) (s : State) : Out :=
  whenExecuted c (transferRegs rn rd (.reg 0 .lsl rm)) s fun m s =>
    halfwordForm p w s fun ix => loadSingle .half false false ix u rn rd (.reg 0 .lsl rm) m s

/-- LDRSB, immediate offset (R275). -/
def execLdrsbImm (c : Cond) (p u w : Bool) (rn rd : Reg) (offHi offLo : BitVec 4) (s : State) : Out :=
  whenExecuted c (transferRegs rn rd (halfOffset offHi offLo)) s fun m s =>
    halfwordForm p w s fun ix => loadSingle .byte true false ix u rn rd (halfOffset offHi offLo) m s

/-- LDRSB, register offset (R275). -/
def execLdrsbReg (c : Cond) (p u w : Bool) (rn rd rm : Reg) (s : State) : Out :=
  whenExecuted c (transferRegs rn rd (.reg 0 .lsl rm)) s fun m s =>
    halfwordForm p w s fun ix => loadSingle .byte true false ix u rn rd (.reg 0 .lsl rm) m s

/-- LDRSH, immediate offset (R276). -/
def execLdrshImm (c : Cond) (p u w : Bool) (rn rd : Reg) (offHi offLo : BitVec 4) (s : State) : Out :=
  whenExecuted c (transferRegs rn rd (halfOffset offHi offLo)) s fun m s =>
    halfwordForm p w s fun ix => loadSingle .half true false ix u rn rd (halfOffset offHi offLo) m s

/-- LDRSH, register offset (R276). -/
def execLdrshReg (c : Cond) (p u w : Bool) (rn rd rm : Reg) (s : State) : Out :=
  whenExecuted c (transferRegs rn rd (.reg 0 .lsl rm)) s fun m s =>
    halfwordForm p w s fun ix => loadSingle .half true false ix u rn rd (.reg 0 .lsl rm) m s

end Sys2Proof.Machine
end

