-- ==== Sys2Proof/Machine/Multiply.lean ====
section
/-! DEFINITION. Multiplies (spec/44_multiply.md). -/

namespace Sys2Proof.Machine

/-- What MUL and MLA share: Rd = Rm (U4) and r15 (U5) are refused; with S = 1 the C flag is a free value (R240 to R242, U22). -/
def multiply (sf : Bool) (rd rs rm : Reg) (usesPc : Bool) (result : Word) (m : Mode) (s : State) : Out :=
  if rd = rm then .refused .mulRdIsRm
  else if rd = 15 || rm = 15 || rs = 15 || usesPc then .refused .mulUsesPc
  else if sf then
    advance ({ s with cpsr := mulFlags s.cpsr result (Config.freeBit s.drawn), drawn := s.drawn + 1 }.setReg m rd result)
  else advance (s.setReg m rd result)

/-- RdHi : RdLo <- the 64-bit result (R244). -/
def State.setPair (s : State) (m : Mode) (rdHi rdLo : Reg) (p : BitVec 64) : State :=
  (s.setReg m rdLo (p.extractLsb' 0 32)).setReg m rdHi (p.extractLsb' 32 32)

/-- What the long multiplies share: the M variant only (U3), the register restrictions (U23); with S = 1 the C and V flags are free
values (R244, R248, R250, U22). -/
def longMultiply (sf : Bool) (rdHi rdLo rs rm : Reg) (result : BitVec 64) (m : Mode) (s : State) : Out :=
  if !s.platform.hasM then .refused .noLongMultiplier
  else if rdHi = rdLo || rdHi = rm || rdLo = rm || rdHi = 15 || rdLo = 15 || rs = 15 || rm = 15 then .refused .longMultiplyClash
  else if sf then
    advance ({ s with cpsr := mullFlags s.cpsr result (Config.freeBit s.drawn) (Config.freeBit (s.drawn + 1))
                      drawn := s.drawn + 2 }.setPair m rdHi rdLo result)
  else advance (s.setPair m rdHi rdLo result)

/-- The 64-bit product of two registers read as unsigned numbers (R244). -/
def unsignedProduct (s : State) (m : Mode) (rs rm : Reg) : BitVec 64 :=
  BitVec.ofNat 64 ((s.readReg m rm).toNat * (s.readReg m rs).toNat)

/-- The 64-bit product of two registers read as signed numbers (R246). -/
def signedProduct (s : State) (m : Mode) (rs rm : Reg) : BitVec 64 :=
  BitVec.ofInt 64 ((s.readReg m rm).toInt * (s.readReg m rs).toInt)

/-- The 64-bit accumulator RdHi : RdLo (R245). -/
def accumulator (s : State) (m : Mode) (rdHi rdLo : Reg) : BitVec 64 := s.readReg m rdHi ++ s.readReg m rdLo

/-- MUL; the Rn field is not used (R240). -/
def execMul (c : Cond) (sf : Bool) (rd rn rs rm : Reg) (s : State) : Out :=
  whenExecuted c [rd, rn, rs, rm] s fun m s =>
    multiply sf rd rs rm false (s.readReg m rm * s.readReg m rs) m s

/-- MLA (R241). -/
def execMla (c : Cond) (sf : Bool) (rd rn rs rm : Reg) (s : State) : Out :=
  whenExecuted c [rd, rn, rs, rm] s fun m s =>
    multiply sf rd rs rm (rn == 15) (s.readReg m rm * s.readReg m rs + s.readReg m rn) m s

/-- UMULL (R244). -/
def execUmull (c : Cond) (sf : Bool) (rdHi rdLo rs rm : Reg) (s : State) : Out :=
  whenExecuted c [rdHi, rdLo, rs, rm] s fun m s =>
    longMultiply sf rdHi rdLo rs rm (unsignedProduct s m rs rm) m s

/-- UMLAL (R245). -/
def execUmlal (c : Cond) (sf : Bool) (rdHi rdLo rs rm : Reg) (s : State) : Out :=
  whenExecuted c [rdHi, rdLo, rs, rm] s fun m s =>
    longMultiply sf rdHi rdLo rs rm (unsignedProduct s m rs rm + accumulator s m rdHi rdLo) m s

/-- SMULL (R246). -/
def execSmull (c : Cond) (sf : Bool) (rdHi rdLo rs rm : Reg) (s : State) : Out :=
  whenExecuted c [rdHi, rdLo, rs, rm] s fun m s =>
    longMultiply sf rdHi rdLo rs rm (signedProduct s m rs rm) m s

/-- SMLAL (R247). -/
def execSmlal (c : Cond) (sf : Bool) (rdHi rdLo rs rm : Reg) (s : State) : Out :=
  whenExecuted c [rdHi, rdLo, rs, rm] s fun m s =>
    longMultiply sf rdHi rdLo rs rm (signedProduct s m rs rm + accumulator s m rdHi rdLo) m s

end Sys2Proof.Machine
end

