-- ==== Sys2Proof/Machine/PsrTransfer.lean ====
section
/-! DEFINITION. PSR transfer (spec/49_psr_transfer_coprocessor.md R331 to R333; PRESUMED, log entry 32). -/

namespace Sys2Proof.Machine

/-- The PSR with the fields of a mask replaced: `f` (mask bit 3) the flags, `c` (mask bit 0) I, F, T and M when `control` allows it;
the masks `s` and `x` select bits that hold no state (R332, R53), and a core without the T variant has no T (R8, log entry 10). -/
def mergePsr (hasT : Bool) (fmask : BitVec 4) (control : Bool) (old : Psr) (operand : Word) : Psr :=
  let new := Psr.written hasT operand
  let flags := fmask.getLsbD 3
  let ctl := fmask.getLsbD 0 && control
  { n := if flags then new.n else old.n
    z := if flags then new.z else old.z
    c := if flags then new.c else old.c
    v := if flags then new.v else old.v
    i := if ctl then new.i else old.i
    f := if ctl then new.f else old.f
    t := if ctl then new.t else old.t
    m := if ctl then new.m else old.m }

/-- `WritePSR` (R332): to the SPSR of the mode (U18 without one), or to the CPSR, whose T must not change (U31) and whose mode must
be legal (U20); User mode cannot write the CPSR's control byte (R55). -/
def writePsr (r : Bool) (fmask : BitVec 4) (operand : Word) (m : Mode) (s : State) : Out :=
  if r then
    match m.spsr with
    | none => .refused .noSpsr
    | some n => advance { s with spsrs := s.spsrs.set n (mergePsr s.platform.hasT fmask true (s.spsrs.get n) operand) }
  else
    let new := mergePsr s.platform.hasT fmask m.privileged s.cpsr operand
    if new.t ≠ s.cpsr.t then .refused .psrTransfer
    else if (Mode.ofBits s.platform.hasV4 new.m).isNone then .refused .illegalMode
    else advance { s with cpsr := new }

/-- `MRS` (R331): Rd = 15 is refused (U31), the SPSR of a mode without one too (U18). -/
def readPsr (r : Bool) (rd : Reg) (m : Mode) (s : State) : Out :=
  if rd = 15 then .refused .psrTransfer
  else if r then
    match m.spsr with
    | none => .refused .noSpsr
    | some n => advance (s.setReg m rd (s.spsrs.get n).toWord)
  else advance (s.setReg m rd s.cpsr.toWord)

/-- MRS (R331). -/
def execMrs (c : Cond) (r : Bool) (rd : Reg) (s : State) : Out :=
  whenExecuted c [rd] s fun m s => readPsr r rd m s

/-- MSR, register operand; Rm = 15 is refused, U31 (R332). -/
def execMsrReg (c : Cond) (r : Bool) (fmask : BitVec 4) (rm : Reg) (s : State) : Out :=
  whenExecuted c [rm] s fun m s =>
    if rm = 15 then .refused .psrTransfer else writePsr r fmask (s.readReg m rm) m s

/-- MSR, immediate operand (R333). -/
def execMsrImm (c : Cond) (r : Bool) (fmask rot : BitVec 4) (imm8 : BitVec 8) (s : State) : Out :=
  whenExecuted c [] s fun m s => writePsr r fmask (rotatedImm rot imm8) m s

end Sys2Proof.Machine
end

