-- ==== Sys2Proof/Machine/Swap.lean ====
section
/-! DEFINITION. Swaps (spec/47_swap.md). -/

namespace Sys2Proof.Machine

/-- What SWP and SWPB share: the restrictions (U24), the alignment, the read, the write of the old Rm, then Rd (R310 to R313). A rejected
access leaves Rd alone. -/
def swap (wd : Width) (rn rd rm : Reg) (m : Mode) (s : State) : Out :=
  if rd = 15 || rm = 15 || rn = 15 || rn = rd || rn = rm then .refused .swapClash
  else if !aligned wd (s.readReg m rn) then .refused .misalignedAccess
  else
    (s.read m.privileged (s.readReg m rn) wd).andThen s.dataAbort fun v =>
      (s.write m.privileged (s.readReg m rn) wd (s.readReg m rm)).andThen s.dataAbort fun t =>
        advance (t.setReg m rd v)

/-- SWP (R310). -/
def execSwp (c : Cond) (rn rd rm : Reg) (s : State) : Out :=
  whenExecuted c [rn, rd, rm] s fun m s => swap .word rn rd rm m s

/-- SWPB: the byte is zero-extended (R311). -/
def execSwpb (c : Cond) (rn rd rm : Reg) (s : State) : Out :=
  whenExecuted c [rn, rd, rm] s fun m s => swap .byte rn rd rm m s

end Sys2Proof.Machine
end

