-- ==== Sys2Proof/Machine/Traps.lean ====
section
/-! DEFINITION. The instructions that take an exception: SWI (spec/48_software_interrupt.md), the coprocessor instructions and the undefined instruction space (spec/49_psr_transfer_coprocessor.md R334 to R340). -/

namespace Sys2Proof.Machine

/-- The Undefined Instruction exception, whose return value is `cur + 4` (R367). -/
def takeUndefined (s : State) : Out := .next (s.takeException .undefinedInstruction (s.pc + 4))

/-- SWI: takes the Software Interrupt exception; the number is ignored (R320, R368). -/
def execSwi (c : Cond) (_number : BitVec 24) (s : State) : Out :=
  whenExecuted c [] s fun _ s => .next (s.takeException .softwareInterrupt (s.pc + 4))

/-- A word of the undefined instruction space (R340). -/
def execUndefined (c : Cond) (_hi : BitVec 20) (_lo : BitVec 4) (s : State) : Out :=
  whenExecuted c [] s fun _ s => takeUndefined s

/-- CDP: no coprocessor accepts it (R334, R335). -/
def execCdp (c : Cond) (_op1 _crn _crd _cpnum : BitVec 4) (_op2 : BitVec 3) (_crm : BitVec 4) (s : State) : Out :=
  whenExecuted c [] s fun _ s => takeUndefined s

/-- LDC: no coprocessor accepts it; no access is made (R334, R336). -/
def execLdc (c : Cond) (_p _u _n _w : Bool) (rn : Reg) (_crd _cpnum : BitVec 4) (_offset : BitVec 8) (s : State) : Out :=
  whenExecuted c [rn] s fun _ s => takeUndefined s

/-- STC: no coprocessor accepts it; no access is made (R334, R337). -/
def execStc (c : Cond) (_p _u _n _w : Bool) (rn : Reg) (_crd _cpnum : BitVec 4) (_offset : BitVec 8) (s : State) : Out :=
  whenExecuted c [rn] s fun _ s => takeUndefined s

/-- MCR: no coprocessor accepts it (R334, R338). -/
def execMcr (c : Cond) (_op1 : BitVec 3) (_crn : BitVec 4) (rd : Reg) (_cpnum : BitVec 4) (_op2 : BitVec 3) (_crm : BitVec 4) (s : State) : Out :=
  whenExecuted c [rd] s fun _ s => takeUndefined s

/-- MRC: no coprocessor accepts it; Rd is not written (R334, R339). -/
def execMrc (c : Cond) (_op1 : BitVec 3) (_crn : BitVec 4) (rd : Reg) (_cpnum : BitVec 4) (_op2 : BitVec 3) (_crm : BitVec 4) (s : State) : Out :=
  whenExecuted c [rd] s fun _ s => takeUndefined s

end Sys2Proof.Machine
end

