-- ==== Sys2Proof/Machine/Dispatch.lean ====
section
/-! DEFINITION. The meaning of every instruction: one arm per constructor of `Instr`, in the table's order. -/

namespace Sys2Proof.Machine

/-- What an instruction does in a state whose pc is its address. -/
def exec (i : Instr) (s : State) : Host.Outcome State Fault Refusal :=
  match i with
  | .andImm c rn rd sf rot imm8 => Sys2Proof.Machine.execAndImm c rn rd sf rot imm8 s
  | .andShiftImm c rn rd sf amount ty rm => Sys2Proof.Machine.execAndShiftImm c rn rd sf amount ty rm s
  | .andShiftReg c rn rd sf rs ty rm => Sys2Proof.Machine.execAndShiftReg c rn rd sf rs ty rm s
  | .eorImm c rn rd sf rot imm8 => Sys2Proof.Machine.execEorImm c rn rd sf rot imm8 s
  | .eorShiftImm c rn rd sf amount ty rm => Sys2Proof.Machine.execEorShiftImm c rn rd sf amount ty rm s
  | .eorShiftReg c rn rd sf rs ty rm => Sys2Proof.Machine.execEorShiftReg c rn rd sf rs ty rm s
  | .subImm c rn rd sf rot imm8 => Sys2Proof.Machine.execSubImm c rn rd sf rot imm8 s
  | .subShiftImm c rn rd sf amount ty rm => Sys2Proof.Machine.execSubShiftImm c rn rd sf amount ty rm s
  | .subShiftReg c rn rd sf rs ty rm => Sys2Proof.Machine.execSubShiftReg c rn rd sf rs ty rm s
  | .rsbImm c rn rd sf rot imm8 => Sys2Proof.Machine.execRsbImm c rn rd sf rot imm8 s
  | .rsbShiftImm c rn rd sf amount ty rm => Sys2Proof.Machine.execRsbShiftImm c rn rd sf amount ty rm s
  | .rsbShiftReg c rn rd sf rs ty rm => Sys2Proof.Machine.execRsbShiftReg c rn rd sf rs ty rm s
  | .addImm c rn rd sf rot imm8 => Sys2Proof.Machine.execAddImm c rn rd sf rot imm8 s
  | .addShiftImm c rn rd sf amount ty rm => Sys2Proof.Machine.execAddShiftImm c rn rd sf amount ty rm s
  | .addShiftReg c rn rd sf rs ty rm => Sys2Proof.Machine.execAddShiftReg c rn rd sf rs ty rm s
  | .adcImm c rn rd sf rot imm8 => Sys2Proof.Machine.execAdcImm c rn rd sf rot imm8 s
  | .adcShiftImm c rn rd sf amount ty rm => Sys2Proof.Machine.execAdcShiftImm c rn rd sf amount ty rm s
  | .adcShiftReg c rn rd sf rs ty rm => Sys2Proof.Machine.execAdcShiftReg c rn rd sf rs ty rm s
  | .sbcImm c rn rd sf rot imm8 => Sys2Proof.Machine.execSbcImm c rn rd sf rot imm8 s
  | .sbcShiftImm c rn rd sf amount ty rm => Sys2Proof.Machine.execSbcShiftImm c rn rd sf amount ty rm s
  | .sbcShiftReg c rn rd sf rs ty rm => Sys2Proof.Machine.execSbcShiftReg c rn rd sf rs ty rm s
  | .rscImm c rn rd sf rot imm8 => Sys2Proof.Machine.execRscImm c rn rd sf rot imm8 s
  | .rscShiftImm c rn rd sf amount ty rm => Sys2Proof.Machine.execRscShiftImm c rn rd sf amount ty rm s
  | .rscShiftReg c rn rd sf rs ty rm => Sys2Proof.Machine.execRscShiftReg c rn rd sf rs ty rm s
  | .tstImm c rn rd rot imm8 => Sys2Proof.Machine.execTstImm c rn rd rot imm8 s
  | .tstShiftImm c rn rd amount ty rm => Sys2Proof.Machine.execTstShiftImm c rn rd amount ty rm s
  | .tstShiftReg c rn rd rs ty rm => Sys2Proof.Machine.execTstShiftReg c rn rd rs ty rm s
  | .teqImm c rn rd rot imm8 => Sys2Proof.Machine.execTeqImm c rn rd rot imm8 s
  | .teqShiftImm c rn rd amount ty rm => Sys2Proof.Machine.execTeqShiftImm c rn rd amount ty rm s
  | .teqShiftReg c rn rd rs ty rm => Sys2Proof.Machine.execTeqShiftReg c rn rd rs ty rm s
  | .cmpImm c rn rd rot imm8 => Sys2Proof.Machine.execCmpImm c rn rd rot imm8 s
  | .cmpShiftImm c rn rd amount ty rm => Sys2Proof.Machine.execCmpShiftImm c rn rd amount ty rm s
  | .cmpShiftReg c rn rd rs ty rm => Sys2Proof.Machine.execCmpShiftReg c rn rd rs ty rm s
  | .cmnImm c rn rd rot imm8 => Sys2Proof.Machine.execCmnImm c rn rd rot imm8 s
  | .cmnShiftImm c rn rd amount ty rm => Sys2Proof.Machine.execCmnShiftImm c rn rd amount ty rm s
  | .cmnShiftReg c rn rd rs ty rm => Sys2Proof.Machine.execCmnShiftReg c rn rd rs ty rm s
  | .orrImm c rn rd sf rot imm8 => Sys2Proof.Machine.execOrrImm c rn rd sf rot imm8 s
  | .orrShiftImm c rn rd sf amount ty rm => Sys2Proof.Machine.execOrrShiftImm c rn rd sf amount ty rm s
  | .orrShiftReg c rn rd sf rs ty rm => Sys2Proof.Machine.execOrrShiftReg c rn rd sf rs ty rm s
  | .movImm c rn rd sf rot imm8 => Sys2Proof.Machine.execMovImm c rn rd sf rot imm8 s
  | .movShiftImm c rn rd sf amount ty rm => Sys2Proof.Machine.execMovShiftImm c rn rd sf amount ty rm s
  | .movShiftReg c rn rd sf rs ty rm => Sys2Proof.Machine.execMovShiftReg c rn rd sf rs ty rm s
  | .bicImm c rn rd sf rot imm8 => Sys2Proof.Machine.execBicImm c rn rd sf rot imm8 s
  | .bicShiftImm c rn rd sf amount ty rm => Sys2Proof.Machine.execBicShiftImm c rn rd sf amount ty rm s
  | .bicShiftReg c rn rd sf rs ty rm => Sys2Proof.Machine.execBicShiftReg c rn rd sf rs ty rm s
  | .mvnImm c rn rd sf rot imm8 => Sys2Proof.Machine.execMvnImm c rn rd sf rot imm8 s
  | .mvnShiftImm c rn rd sf amount ty rm => Sys2Proof.Machine.execMvnShiftImm c rn rd sf amount ty rm s
  | .mvnShiftReg c rn rd sf rs ty rm => Sys2Proof.Machine.execMvnShiftReg c rn rd sf rs ty rm s
  | .mrs c r rd => Sys2Proof.Machine.execMrs c r rd s
  | .msrReg c r fmask rm => Sys2Proof.Machine.execMsrReg c r fmask rm s
  | .msrImm c r fmask rot imm8 => Sys2Proof.Machine.execMsrImm c r fmask rot imm8 s
  | .bx c rn => Sys2Proof.Machine.execBx c rn s
  | .mul c sf rd rn rs rm => Sys2Proof.Machine.execMul c sf rd rn rs rm s
  | .mla c sf rd rn rs rm => Sys2Proof.Machine.execMla c sf rd rn rs rm s
  | .umull c sf rdHi rdLo rs rm => Sys2Proof.Machine.execUmull c sf rdHi rdLo rs rm s
  | .umlal c sf rdHi rdLo rs rm => Sys2Proof.Machine.execUmlal c sf rdHi rdLo rs rm s
  | .smull c sf rdHi rdLo rs rm => Sys2Proof.Machine.execSmull c sf rdHi rdLo rs rm s
  | .smlal c sf rdHi rdLo rs rm => Sys2Proof.Machine.execSmlal c sf rdHi rdLo rs rm s
  | .swp c rn rd rm => Sys2Proof.Machine.execSwp c rn rd rm s
  | .swpb c rn rd rm => Sys2Proof.Machine.execSwpb c rn rd rm s
  | .strhImm c p u w rn rd offHi offLo => Sys2Proof.Machine.execStrhImm c p u w rn rd offHi offLo s
  | .strhReg c p u w rn rd rm => Sys2Proof.Machine.execStrhReg c p u w rn rd rm s
  | .ldrhImm c p u w rn rd offHi offLo => Sys2Proof.Machine.execLdrhImm c p u w rn rd offHi offLo s
  | .ldrhReg c p u w rn rd rm => Sys2Proof.Machine.execLdrhReg c p u w rn rd rm s
  | .ldrsbImm c p u w rn rd offHi offLo => Sys2Proof.Machine.execLdrsbImm c p u w rn rd offHi offLo s
  | .ldrsbReg c p u w rn rd rm => Sys2Proof.Machine.execLdrsbReg c p u w rn rd rm s
  | .ldrshImm c p u w rn rd offHi offLo => Sys2Proof.Machine.execLdrshImm c p u w rn rd offHi offLo s
  | .ldrshReg c p u w rn rd rm => Sys2Proof.Machine.execLdrshReg c p u w rn rd rm s
  | .strImmPre c u rn rd offset w => Sys2Proof.Machine.execStrImmPre c u rn rd offset w s
  | .strImmPost c u rn rd offset => Sys2Proof.Machine.execStrImmPost c u rn rd offset s
  | .strtImm c u rn rd offset => Sys2Proof.Machine.execStrtImm c u rn rd offset s
  | .strRegPre c u rn rd amount ty rm w => Sys2Proof.Machine.execStrRegPre c u rn rd amount ty rm w s
  | .strRegPost c u rn rd amount ty rm => Sys2Proof.Machine.execStrRegPost c u rn rd amount ty rm s
  | .strtReg c u rn rd amount ty rm => Sys2Proof.Machine.execStrtReg c u rn rd amount ty rm s
  | .ldrImmPre c u rn rd offset w => Sys2Proof.Machine.execLdrImmPre c u rn rd offset w s
  | .ldrImmPost c u rn rd offset => Sys2Proof.Machine.execLdrImmPost c u rn rd offset s
  | .ldrtImm c u rn rd offset => Sys2Proof.Machine.execLdrtImm c u rn rd offset s
  | .ldrRegPre c u rn rd amount ty rm w => Sys2Proof.Machine.execLdrRegPre c u rn rd amount ty rm w s
  | .ldrRegPost c u rn rd amount ty rm => Sys2Proof.Machine.execLdrRegPost c u rn rd amount ty rm s
  | .ldrtReg c u rn rd amount ty rm => Sys2Proof.Machine.execLdrtReg c u rn rd amount ty rm s
  | .strbImmPre c u rn rd offset w => Sys2Proof.Machine.execStrbImmPre c u rn rd offset w s
  | .strbImmPost c u rn rd offset => Sys2Proof.Machine.execStrbImmPost c u rn rd offset s
  | .strbtImm c u rn rd offset => Sys2Proof.Machine.execStrbtImm c u rn rd offset s
  | .strbRegPre c u rn rd amount ty rm w => Sys2Proof.Machine.execStrbRegPre c u rn rd amount ty rm w s
  | .strbRegPost c u rn rd amount ty rm => Sys2Proof.Machine.execStrbRegPost c u rn rd amount ty rm s
  | .strbtReg c u rn rd amount ty rm => Sys2Proof.Machine.execStrbtReg c u rn rd amount ty rm s
  | .ldrbImmPre c u rn rd offset w => Sys2Proof.Machine.execLdrbImmPre c u rn rd offset w s
  | .ldrbImmPost c u rn rd offset => Sys2Proof.Machine.execLdrbImmPost c u rn rd offset s
  | .ldrbtImm c u rn rd offset => Sys2Proof.Machine.execLdrbtImm c u rn rd offset s
  | .ldrbRegPre c u rn rd amount ty rm w => Sys2Proof.Machine.execLdrbRegPre c u rn rd amount ty rm w s
  | .ldrbRegPost c u rn rd amount ty rm => Sys2Proof.Machine.execLdrbRegPost c u rn rd amount ty rm s
  | .ldrbtReg c u rn rd amount ty rm => Sys2Proof.Machine.execLdrbtReg c u rn rd amount ty rm s
  | .undefined c hi lo => Sys2Proof.Machine.execUndefined c hi lo s
  | .ldm c p u sb w rn list => Sys2Proof.Machine.execLdm c p u sb w rn list s
  | .stm c p u sb w rn list => Sys2Proof.Machine.execStm c p u sb w rn list s
  | .b c offset => Sys2Proof.Machine.execB c offset s
  | .bl c offset => Sys2Proof.Machine.execBl c offset s
  | .ldc c p u n w rn crd cpnum offset => Sys2Proof.Machine.execLdc c p u n w rn crd cpnum offset s
  | .stc c p u n w rn crd cpnum offset => Sys2Proof.Machine.execStc c p u n w rn crd cpnum offset s
  | .cdp c op1 crn crd cpnum op2 crm => Sys2Proof.Machine.execCdp c op1 crn crd cpnum op2 crm s
  | .mcr c op1 crn rd cpnum op2 crm => Sys2Proof.Machine.execMcr c op1 crn rd cpnum op2 crm s
  | .mrc c op1 crn rd cpnum op2 crm => Sys2Proof.Machine.execMrc c op1 crn rd cpnum op2 crm s
  | .swi c number => Sys2Proof.Machine.execSwi c number s

end Sys2Proof.Machine
end

