-- ==== Sys2Proof/Machine/Fetch.lean ====
section
/-! DEFINITION. What happens between instructions: the inputs, the interrupts and the fetch (spec/60_exceptions.md R361 to R369,
spec/20_memory.md R86, R101), and the placing of an instruction's word in memory. -/

namespace Sys2Proof.Machine

/-- The sample of the inputs when nothing is asserted (D10). -/
def quietPins : Pins := { reset := false, fiq := false, irq := false }

/-- What stands at an instruction boundary: the step is over, or an instruction runs. -/
inductive Fetched where
  | done (o : Out)
  | run (i : Instr) (s : State)

/-- The instruction of a word, in a state whose pc is its address: the reserved condition is refused (U1); a word with no row is
refused when its condition passes (U28), and skipped when it fails (R170; log entry 17). -/
def fetchedWord (w : Word) (s : State) : Fetched :=
  match decode w with
  | .ok i => .run i s
  | .error .reservedCondition => .done (.refused .reservedCondition)
  | .error (.noRow c) =>
    if condPassed c s.cpsr then .done (.refused .noInstruction) else .done (advance { s with userLdm := false })
  | .error .tooShort => .done (.refused .noInstruction)

/-- The fetch at the pc: the pc must be a multiple of 4 (U12), a rejected fetch takes Prefetch Abort with the return value `cur + 4`
(R369), and a word the program has stored to is refused (R101, U34). -/
def fetch (m : Mode) (s : State) : Fetched :=
  if !aligned .word s.pc then .done (.refused .pcNotWordAligned)
  else
    match verdict s.platform { addr := s.pc, width := .word, kind := .fetch, privileged := m.privileged } with
    | .abort => .done (.next (s.takeException .prefetchAbort (s.pc + 4)))
    | .absent => .done (.fault .absentAddress)
    | .device => .done (.refused .deviceAccess)
    | .ok =>
      if s.pc.toNat / 4 ∈ s.stored then .done (.refused .fetchOfStoredWord)
      else fetchedWord (Memory.read s.platform.bigEnd s.mem s.pc .word) s

/-- An instruction boundary with the sample `p` of the inputs, in the state after it is taken: reset first, then FIQ if F = 0, then
IRQ if I = 0, else the instruction (R361, R364). Both interrupts return to `next + 4` (R355). -/
def boundary (p : Pins) (s : State) : Fetched :=
  if p.reset then .done (.next s.takeReset)
  else if s.cpsr.t then .done (.refused .thumbState)
  else
    match s.mode with
    | none => .done (.refused .illegalMode)
    | some m =>
      if p.fiq && !s.cpsr.f then .done (.next (s.takeException .fiq (s.pc + 4)))
      else if p.irq && !s.cpsr.i then .done (.next (s.takeException .irq (s.pc + 4)))
      else fetch m s

/-- The inputs sampled at this step (R364; log entry 8). -/
def State.sample (s : State) : Pins := s.pins.headD quietPins

/-- The state after the sample is taken. -/
def State.sampled (s : State) : State := { s with pins := s.pins.tail }

/-- What stands at the boundary before the next instruction. -/
def arrive (s : State) : Fetched := boundary s.sample s.sampled

/-- An instruction word placed at the pc from outside, so that the next fetch reads it: it is then no word the program has stored to
(log entry 36). -/
def State.placeWord (s : State) (w : Word) : State :=
  { s with
    mem := Memory.write s.platform.bigEnd s.mem s.pc .word w
    stored := s.stored.filter fun k => k != s.pc.toNat / 4 }

end Sys2Proof.Machine
end

