-- ==== Sys2Proof/Machine/Step.lean ====
section
/-! DEFINITION. One step of the machine, and the placing of an opcode-table word for it. -/

namespace Sys2Proof.Machine

/-- One step: what stands at the instruction boundary, or the instruction that is fetched there (R364). -/
def step (s : State) : Host.Outcome State Fault Refusal :=
  match arrive s with
  | .done o => o
  | .run i s' => exec i s'

/-- The state with an instruction's word stored where the next step fetches it: at the pc, in the platform's byte order. -/
def State.withFetchWord (s : State) (nbits w : Nat) : State := s.placeWord (tableWord nbits w)

end Sys2Proof.Machine
end

