-- ==== Sys2Proof/Safety.lean ====
section
/-! DEFINITION. The terms statements about the machine use: the invariant, runs that nothing stops, when an instruction executes,
what a state keeps, and two tables over the instructions. -/

namespace Sys2Proof.Machine

/-! ## Invariant and runs -/

/-- The states a run can be in: memory in its canonical form, a legal mode (R46), ARM state (R52), a pc that is a multiple of 4 (R40),
no word listed twice among the stored ones, and no T bit in an SPSR of a core without the T variant (R8). -/
abbrev Inv (s : State) : Prop :=
  Memory.wf s.mem ∧ s.mode.isSome = true ∧ s.cpsr.t = false ∧ aligned .word s.pc = true ∧ s.stored.Nodup
    ∧ (s.platform.hasT = false → ∀ n ∈ [SpsrName.fiq, .svc, .abt, .irq, .undef], (s.spsrs.get n).t = false)

/-- `n` steps can be made: no fault and no refusal stops the machine on the way. -/
def runs : Nat → State → Prop
  | 0, _ => True
  | n + 1, s => ∃ t, step s = .next t ∧ runs n t

/-! ## When an instruction executes -/

/-- An instruction with condition `c` that names the registers `names` goes on to its own rule, in mode `m`: ARM state (R52), a legal
mode (R46), the condition passes (R11), and no user-bank LDM stands before a banked name (R296). -/
def executes (c : Cond) (names : List Reg) (m : Mode) (s : State) : Prop :=
  s.cpsr.t = false ∧ s.mode = some m ∧ condPassed c s.cpsr = true ∧ (s.userLdm = true → ∀ i ∈ names, isBanked i = false)

/-- The pc is not the last word of the address space, where sequential execution ends (R44). -/
def notAtTop (s : State) : Prop := s.pc ≠ 0xFFFFFFFC

/-- The memory system's answer to an access of a program in state `s` (R96). -/
def answer (s : State) (kind : AccessKind) (privileged : Bool) (a : Word) (wd : Width) : Verdict :=
  verdict s.platform { addr := a, width := wd, kind := kind, privileged := privileged }

/-! ## What a state keeps -/

/-- Every physical register but those the numbers in `is` name in mode `m` holds what it held. -/
def keepsRegsBut (m : Mode) (is : List Reg) (s t : State) : Prop :=
  ∀ p, (∀ i ∈ is, phys m i ≠ some p) → t.regs.get p = s.regs.get p

/-- Every byte of memory reads as it did, and is stored as it was. -/
def keepsMemory (s t : State) : Prop := (∀ a, Memory.get t.mem a = Memory.get s.mem a) ∧ t.mem = s.mem ∧ t.stored = s.stored

/-- Every byte of memory but the `n` bytes from `a` on reads as it did. -/
def keepsMemoryBut (a : Word) (n : Nat) (s t : State) : Prop :=
  ∀ x, (∀ k, k < n → x ≠ (a + BitVec.ofNat 32 k).toNat) → Memory.get t.mem x = Memory.get s.mem x

/-- What no instruction writes of its own: the inputs and the platform. -/
def keepsInputs (s t : State) : Prop := t.pins = s.pins ∧ t.platform = s.platform

/-- The general registers, memory, the inputs, the platform and the free values are as they were. -/
def keepsAllButPsrs (s t : State) : Prop :=
  t.regs = s.regs ∧ keepsMemory s t ∧ keepsInputs s t ∧ t.drawn = s.drawn ∧ t.userLdm = false

/-- Memory, the SPSRs, the inputs, the platform and the free values are as they were, and no user-bank LDM stands before the next
instruction: what an instruction that only computes on registers keeps, whatever it does to registers, flags and pc. -/
def keepsAllButRegs (s t : State) : Prop :=
  t.spsrs = s.spsrs ∧ keepsMemory s t ∧ keepsInputs s t ∧ t.drawn = s.drawn ∧ t.userLdm = false

/-- The state after taking exception `e` with the return value `ra`, field by field (R356, R357): `t` from `s`. Memory, the inputs,
the platform and the free values are as they were. -/
def entered (e : Exn) (ra : Word) (s t : State) : Prop :=
  t.spsrs.get e.saved = s.cpsr ∧ (∀ n, n ≠ e.saved → t.spsrs.get n = s.spsrs.get n)
    ∧ t.cpsr = { s.cpsr with t := false, m := e.mode.bits, i := true, f := s.cpsr.f || e.masksFiq }
    ∧ t.regs.get e.link = ra ∧ (∀ p, p ≠ e.link → t.regs.get p = s.regs.get p)
    ∧ t.pc = e.vector ∧ keepsMemory s t ∧ keepsInputs s t ∧ t.drawn = s.drawn

/-- The state after a Data Abort at `cur`, field by field (R356, R370), but for the general registers and memory. -/
def abortEntered (s t : State) : Prop :=
  t.spsrs.get .abt = s.cpsr ∧ (∀ n, n ≠ .abt → t.spsrs.get n = s.spsrs.get n)
    ∧ t.cpsr = { s.cpsr with t := false, m := 0b10111, i := true }
    ∧ t.regs.get .r14_abt = s.pc + 8 ∧ t.pc = 0x00000010 ∧ keepsInputs s t

/-- The low bits of a value that a store of this width keeps, with zeros above them (R89). -/
def lowBits (wd : Width) (v : Word) : Word :=
  match wd with
  | .byte => v &&& 0xFF
  | .half => v &&& 0xFFFF
  | .word => v

/-- How many registers of a list have a lower number than `i`: the place of `i` in the block (R292). -/
def listRank (list : BitVec 16) (i : Reg) : Nat := ((listRegs list).filter fun j => decide (j.toNat < i.toNat)).length

/-! ## Tables over the instructions -/

/-- The condition of an instruction (R136). -/
def condOf : Instr → Cond
  | .andImm c _ _ _ _ _ => c
  | .andShiftImm c _ _ _ _ _ _ => c
  | .andShiftReg c _ _ _ _ _ _ => c
  | .eorImm c _ _ _ _ _ => c
  | .eorShiftImm c _ _ _ _ _ _ => c
  | .eorShiftReg c _ _ _ _ _ _ => c
  | .subImm c _ _ _ _ _ => c
  | .subShiftImm c _ _ _ _ _ _ => c
  | .subShiftReg c _ _ _ _ _ _ => c
  | .rsbImm c _ _ _ _ _ => c
  | .rsbShiftImm c _ _ _ _ _ _ => c
  | .rsbShiftReg c _ _ _ _ _ _ => c
  | .addImm c _ _ _ _ _ => c
  | .addShiftImm c _ _ _ _ _ _ => c
  | .addShiftReg c _ _ _ _ _ _ => c
  | .adcImm c _ _ _ _ _ => c
  | .adcShiftImm c _ _ _ _ _ _ => c
  | .adcShiftReg c _ _ _ _ _ _ => c
  | .sbcImm c _ _ _ _ _ => c
  | .sbcShiftImm c _ _ _ _ _ _ => c
  | .sbcShiftReg c _ _ _ _ _ _ => c
  | .rscImm c _ _ _ _ _ => c
  | .rscShiftImm c _ _ _ _ _ _ => c
  | .rscShiftReg c _ _ _ _ _ _ => c
  | .tstImm c _ _ _ _ => c
  | .tstShiftImm c _ _ _ _ _ => c
  | .tstShiftReg c _ _ _ _ _ => c
  | .teqImm c _ _ _ _ => c
  | .teqShiftImm c _ _ _ _ _ => c
  | .teqShiftReg c _ _ _ _ _ => c
  | .cmpImm c _ _ _ _ => c
  | .cmpShiftImm c _ _ _ _ _ => c
  | .cmpShiftReg c _ _ _ _ _ => c
  | .cmnImm c _ _ _ _ => c
  | .cmnShiftImm c _ _ _ _ _ => c
  | .cmnShiftReg c _ _ _ _ _ => c
  | .orrImm c _ _ _ _ _ => c
  | .orrShiftImm c _ _ _ _ _ _ => c
  | .orrShiftReg c _ _ _ _ _ _ => c
  | .movImm c _ _ _ _ _ => c
  | .movShiftImm c _ _ _ _ _ _ => c
  | .movShiftReg c _ _ _ _ _ _ => c
  | .bicImm c _ _ _ _ _ => c
  | .bicShiftImm c _ _ _ _ _ _ => c
  | .bicShiftReg c _ _ _ _ _ _ => c
  | .mvnImm c _ _ _ _ _ => c
  | .mvnShiftImm c _ _ _ _ _ _ => c
  | .mvnShiftReg c _ _ _ _ _ _ => c
  | .mrs c _ _ => c
  | .msrReg c _ _ _ => c
  | .msrImm c _ _ _ _ => c
  | .bx c _ => c
  | .mul c _ _ _ _ _ => c
  | .mla c _ _ _ _ _ => c
  | .umull c _ _ _ _ _ => c
  | .umlal c _ _ _ _ _ => c
  | .smull c _ _ _ _ _ => c
  | .smlal c _ _ _ _ _ => c
  | .swp c _ _ _ => c
  | .swpb c _ _ _ => c
  | .strhImm c _ _ _ _ _ _ _ => c
  | .strhReg c _ _ _ _ _ _ => c
  | .ldrhImm c _ _ _ _ _ _ _ => c
  | .ldrhReg c _ _ _ _ _ _ => c
  | .ldrsbImm c _ _ _ _ _ _ _ => c
  | .ldrsbReg c _ _ _ _ _ _ => c
  | .ldrshImm c _ _ _ _ _ _ _ => c
  | .ldrshReg c _ _ _ _ _ _ => c
  | .strImmPre c _ _ _ _ _ => c
  | .strImmPost c _ _ _ _ => c
  | .strtImm c _ _ _ _ => c
  | .strRegPre c _ _ _ _ _ _ _ => c
  | .strRegPost c _ _ _ _ _ _ => c
  | .strtReg c _ _ _ _ _ _ => c
  | .ldrImmPre c _ _ _ _ _ => c
  | .ldrImmPost c _ _ _ _ => c
  | .ldrtImm c _ _ _ _ => c
  | .ldrRegPre c _ _ _ _ _ _ _ => c
  | .ldrRegPost c _ _ _ _ _ _ => c
  | .ldrtReg c _ _ _ _ _ _ => c
  | .strbImmPre c _ _ _ _ _ => c
  | .strbImmPost c _ _ _ _ => c
  | .strbtImm c _ _ _ _ => c
  | .strbRegPre c _ _ _ _ _ _ _ => c
  | .strbRegPost c _ _ _ _ _ _ => c
  | .strbtReg c _ _ _ _ _ _ => c
  | .ldrbImmPre c _ _ _ _ _ => c
  | .ldrbImmPost c _ _ _ _ => c
  | .ldrbtImm c _ _ _ _ => c
  | .ldrbRegPre c _ _ _ _ _ _ _ => c
  | .ldrbRegPost c _ _ _ _ _ _ => c
  | .ldrbtReg c _ _ _ _ _ _ => c
  | .undefined c _ _ => c
  | .ldm c _ _ _ _ _ _ => c
  | .stm c _ _ _ _ _ _ => c
  | .b c _ => c
  | .bl c _ => c
  | .ldc c _ _ _ _ _ _ _ _ => c
  | .stc c _ _ _ _ _ _ _ _ => c
  | .cdp c _ _ _ _ _ _ => c
  | .mcr c _ _ _ _ _ _ => c
  | .mrc c _ _ _ _ _ _ => c
  | .swi c _ => c

/-- A single transfer, row by row: what it moves and how its address is formed (R260 to R276). `valid` is false for the halfword
forms with P = 0 and W = 1 (U25), `half` marks the rows of version 4. -/
structure Transfer where
  c : Cond
  load : Bool
  wd : Width
  signed : Bool
  translated : Bool
  half : Bool
  valid : Bool
  ix : Indexing
  u : Bool
  rn : Reg
  rd : Reg
  off : Offset
deriving DecidableEq, Repr

/-- The single transfers among the instructions; `none` for every other instruction. -/
def transferOf : Instr → Option Transfer
  | .strImmPre c u rn rd offset w => some ⟨c, false, .word, false, false, false, true, preIndexing w, u, rn, rd, .imm (offset.setWidth 32)⟩
  | .strImmPost c u rn rd offset => some ⟨c, false, .word, false, false, false, true, .postIndexed, u, rn, rd, .imm (offset.setWidth 32)⟩
  | .strtImm c u rn rd offset => some ⟨c, false, .word, false, true, false, true, .postIndexed, u, rn, rd, .imm (offset.setWidth 32)⟩
  | .strRegPre c u rn rd amount ty rm w => some ⟨c, false, .word, false, false, false, true, preIndexing w, u, rn, rd, .reg amount ty rm⟩
  | .strRegPost c u rn rd amount ty rm => some ⟨c, false, .word, false, false, false, true, .postIndexed, u, rn, rd, .reg amount ty rm⟩
  | .strtReg c u rn rd amount ty rm => some ⟨c, false, .word, false, true, false, true, .postIndexed, u, rn, rd, .reg amount ty rm⟩
  | .ldrImmPre c u rn rd offset w => some ⟨c, true, .word, false, false, false, true, preIndexing w, u, rn, rd, .imm (offset.setWidth 32)⟩
  | .ldrImmPost c u rn rd offset => some ⟨c, true, .word, false, false, false, true, .postIndexed, u, rn, rd, .imm (offset.setWidth 32)⟩
  | .ldrtImm c u rn rd offset => some ⟨c, true, .word, false, true, false, true, .postIndexed, u, rn, rd, .imm (offset.setWidth 32)⟩
  | .ldrRegPre c u rn rd amount ty rm w => some ⟨c, true, .word, false, false, false, true, preIndexing w, u, rn, rd, .reg amount ty rm⟩
  | .ldrRegPost c u rn rd amount ty rm => some ⟨c, true, .word, false, false, false, true, .postIndexed, u, rn, rd, .reg amount ty rm⟩
  | .ldrtReg c u rn rd amount ty rm => some ⟨c, true, .word, false, true, false, true, .postIndexed, u, rn, rd, .reg amount ty rm⟩
  | .strbImmPre c u rn rd offset w => some ⟨c, false, .byte, false, false, false, true, preIndexing w, u, rn, rd, .imm (offset.setWidth 32)⟩
  | .strbImmPost c u rn rd offset => some ⟨c, false, .byte, false, false, false, true, .postIndexed, u, rn, rd, .imm (offset.setWidth 32)⟩
  | .strbtImm c u rn rd offset => some ⟨c, false, .byte, false, true, false, true, .postIndexed, u, rn, rd, .imm (offset.setWidth 32)⟩
  | .strbRegPre c u rn rd amount ty rm w => some ⟨c, false, .byte, false, false, false, true, preIndexing w, u, rn, rd, .reg amount ty rm⟩
  | .strbRegPost c u rn rd amount ty rm => some ⟨c, false, .byte, false, false, false, true, .postIndexed, u, rn, rd, .reg amount ty rm⟩
  | .strbtReg c u rn rd amount ty rm => some ⟨c, false, .byte, false, true, false, true, .postIndexed, u, rn, rd, .reg amount ty rm⟩
  | .ldrbImmPre c u rn rd offset w => some ⟨c, true, .byte, false, false, false, true, preIndexing w, u, rn, rd, .imm (offset.setWidth 32)⟩
  | .ldrbImmPost c u rn rd offset => some ⟨c, true, .byte, false, false, false, true, .postIndexed, u, rn, rd, .imm (offset.setWidth 32)⟩
  | .ldrbtImm c u rn rd offset => some ⟨c, true, .byte, false, true, false, true, .postIndexed, u, rn, rd, .imm (offset.setWidth 32)⟩
  | .ldrbRegPre c u rn rd amount ty rm w => some ⟨c, true, .byte, false, false, false, true, preIndexing w, u, rn, rd, .reg amount ty rm⟩
  | .ldrbRegPost c u rn rd amount ty rm => some ⟨c, true, .byte, false, false, false, true, .postIndexed, u, rn, rd, .reg amount ty rm⟩
  | .ldrbtReg c u rn rd amount ty rm => some ⟨c, true, .byte, false, true, false, true, .postIndexed, u, rn, rd, .reg amount ty rm⟩
  | .strhImm c p u w rn rd offHi offLo => some ⟨c, false, .half, false, false, true, p || !w, if p then preIndexing w else .postIndexed, u, rn, rd, halfOffset offHi offLo⟩
  | .strhReg c p u w rn rd rm => some ⟨c, false, .half, false, false, true, p || !w, if p then preIndexing w else .postIndexed, u, rn, rd, .reg 0 .lsl rm⟩
  | .ldrhImm c p u w rn rd offHi offLo => some ⟨c, true, .half, false, false, true, p || !w, if p then preIndexing w else .postIndexed, u, rn, rd, halfOffset offHi offLo⟩
  | .ldrhReg c p u w rn rd rm => some ⟨c, true, .half, false, false, true, p || !w, if p then preIndexing w else .postIndexed, u, rn, rd, .reg 0 .lsl rm⟩
  | .ldrsbImm c p u w rn rd offHi offLo => some ⟨c, true, .byte, true, false, true, p || !w, if p then preIndexing w else .postIndexed, u, rn, rd, halfOffset offHi offLo⟩
  | .ldrsbReg c p u w rn rd rm => some ⟨c, true, .byte, true, false, true, p || !w, if p then preIndexing w else .postIndexed, u, rn, rd, .reg 0 .lsl rm⟩
  | .ldrshImm c p u w rn rd offHi offLo => some ⟨c, true, .half, true, false, true, p || !w, if p then preIndexing w else .postIndexed, u, rn, rd, halfOffset offHi offLo⟩
  | .ldrshReg c p u w rn rd rm => some ⟨c, true, .half, true, false, true, p || !w, if p then preIndexing w else .postIndexed, u, rn, rd, .reg 0 .lsl rm⟩
  | _ => none

end Sys2Proof.Machine
end

