-- ==== Sys2Proof/WellFormed.lean ====
section
/-! DEFINITION. Well-formed instructions: the operand restrictions that can be read off the instruction alone
(spec/30_encoding.md R150; spec/93_implementation_defined.md section 1). The fields' widths are in their types. -/

namespace Sys2Proof

/-- Four distinct enough registers for a long multiply: RdHi, RdLo and Rm differ, and r15 is none of them (R248, U23). -/
def longMultiplyOk (rdHi rdLo rs rm : Reg) : Bool :=
  rdHi != rdLo && rdHi != rm && rdLo != rm && rdHi != 15 && rdLo != 15 && rs != 15 && rm != 15

/-- A transfer that writes its base (`wb`) has a base that is not r15 and not Rd (R277, U14). -/
def baseOk (wb : Bool) (rn rd : Reg) : Bool := !wb || (rn != 15 && rn != rd)

/-- An offset register is not r15, and not the base of a transfer that writes its base (R277, U15). -/
def offsetOk (wb : Bool) (rn rm : Reg) : Bool := rm != 15 && !(wb && rm == rn)

/-- Some register below `rn` is in the list (R294, U16). -/
def listsBelow (list : BitVec 16) (rn : Reg) : Bool := (List.range rn.toNat).any fun j => list.getLsbD j

/-- The instruction breaks no operand restriction of R150. -/
def Instr.wellFormed : Instr → Bool
  | .andImm _ _ _ _ _ _ => true
  | .andShiftImm _ _ _ _ _ _ _ => true
  | .andShiftReg _ rn _ _ rs _ rm => rs != 15 && rm != 15 && rn != 15
  | .eorImm _ _ _ _ _ _ => true
  | .eorShiftImm _ _ _ _ _ _ _ => true
  | .eorShiftReg _ rn _ _ rs _ rm => rs != 15 && rm != 15 && rn != 15
  | .subImm _ _ _ _ _ _ => true
  | .subShiftImm _ _ _ _ _ _ _ => true
  | .subShiftReg _ rn _ _ rs _ rm => rs != 15 && rm != 15 && rn != 15
  | .rsbImm _ _ _ _ _ _ => true
  | .rsbShiftImm _ _ _ _ _ _ _ => true
  | .rsbShiftReg _ rn _ _ rs _ rm => rs != 15 && rm != 15 && rn != 15
  | .addImm _ _ _ _ _ _ => true
  | .addShiftImm _ _ _ _ _ _ _ => true
  | .addShiftReg _ rn _ _ rs _ rm => rs != 15 && rm != 15 && rn != 15
  | .adcImm _ _ _ _ _ _ => true
  | .adcShiftImm _ _ _ _ _ _ _ => true
  | .adcShiftReg _ rn _ _ rs _ rm => rs != 15 && rm != 15 && rn != 15
  | .sbcImm _ _ _ _ _ _ => true
  | .sbcShiftImm _ _ _ _ _ _ _ => true
  | .sbcShiftReg _ rn _ _ rs _ rm => rs != 15 && rm != 15 && rn != 15
  | .rscImm _ _ _ _ _ _ => true
  | .rscShiftImm _ _ _ _ _ _ _ => true
  | .rscShiftReg _ rn _ _ rs _ rm => rs != 15 && rm != 15 && rn != 15
  | .tstImm _ _ _ _ _ => true
  | .tstShiftImm _ _ _ _ _ _ => true
  | .tstShiftReg _ rn _ rs _ rm => rs != 15 && rm != 15 && rn != 15
  | .teqImm _ _ _ _ _ => true
  | .teqShiftImm _ _ _ _ _ _ => true
  | .teqShiftReg _ rn _ rs _ rm => rs != 15 && rm != 15 && rn != 15
  | .cmpImm _ _ _ _ _ => true
  | .cmpShiftImm _ _ _ _ _ _ => true
  | .cmpShiftReg _ rn _ rs _ rm => rs != 15 && rm != 15 && rn != 15
  | .cmnImm _ _ _ _ _ => true
  | .cmnShiftImm _ _ _ _ _ _ => true
  | .cmnShiftReg _ rn _ rs _ rm => rs != 15 && rm != 15 && rn != 15
  | .orrImm _ _ _ _ _ _ => true
  | .orrShiftImm _ _ _ _ _ _ _ => true
  | .orrShiftReg _ rn _ _ rs _ rm => rs != 15 && rm != 15 && rn != 15
  | .movImm _ _ _ _ _ _ => true
  | .movShiftImm _ _ _ _ _ _ _ => true
  | .movShiftReg _ _ _ _ rs _ rm => rs != 15 && rm != 15
  | .bicImm _ _ _ _ _ _ => true
  | .bicShiftImm _ _ _ _ _ _ _ => true
  | .bicShiftReg _ rn _ _ rs _ rm => rs != 15 && rm != 15 && rn != 15
  | .mvnImm _ _ _ _ _ _ => true
  | .mvnShiftImm _ _ _ _ _ _ _ => true
  | .mvnShiftReg _ _ _ _ rs _ rm => rs != 15 && rm != 15
  | .mrs _ _ rd => rd != 15
  | .msrReg _ _ _ rm => rm != 15
  | .msrImm _ _ _ _ _ => true
  | .bx _ rn => rn != 15
  | .mul _ _ rd _ rs rm => rd != rm && rd != 15 && rm != 15 && rs != 15
  | .mla _ _ rd rn rs rm => rd != rm && rd != 15 && rm != 15 && rs != 15 && rn != 15
  | .umull _ _ rdHi rdLo rs rm => longMultiplyOk rdHi rdLo rs rm
  | .umlal _ _ rdHi rdLo rs rm => longMultiplyOk rdHi rdLo rs rm
  | .smull _ _ rdHi rdLo rs rm => longMultiplyOk rdHi rdLo rs rm
  | .smlal _ _ rdHi rdLo rs rm => longMultiplyOk rdHi rdLo rs rm
  | .swp _ rn rd rm => rd != 15 && rm != 15 && rn != 15 && rn != rd && rn != rm
  | .swpb _ rn rd rm => rd != 15 && rm != 15 && rn != 15 && rn != rd && rn != rm
  | .strhImm _ p _ w rn rd _ _ => (p || !w) && rd != 15 && baseOk (!p || w) rn rd
  | .strhReg _ p _ w rn rd rm => (p || !w) && rd != 15 && baseOk (!p || w) rn rd && offsetOk (!p || w) rn rm
  | .ldrhImm _ p _ w rn rd _ _ => (p || !w) && rd != 15 && baseOk (!p || w) rn rd
  | .ldrhReg _ p _ w rn rd rm => (p || !w) && rd != 15 && baseOk (!p || w) rn rd && offsetOk (!p || w) rn rm
  | .ldrsbImm _ p _ w rn rd _ _ => (p || !w) && rd != 15 && baseOk (!p || w) rn rd
  | .ldrsbReg _ p _ w rn rd rm => (p || !w) && rd != 15 && baseOk (!p || w) rn rd && offsetOk (!p || w) rn rm
  | .ldrshImm _ p _ w rn rd _ _ => (p || !w) && rd != 15 && baseOk (!p || w) rn rd
  | .ldrshReg _ p _ w rn rd rm => (p || !w) && rd != 15 && baseOk (!p || w) rn rd && offsetOk (!p || w) rn rm
  | .strImmPre _ _ rn rd _ w => baseOk w rn rd
  | .strImmPost _ _ rn rd _ => baseOk true rn rd
  | .strtImm _ _ rn rd _ => rd != 15 && baseOk true rn rd
  | .strRegPre _ _ rn rd _ _ rm w => baseOk w rn rd && offsetOk w rn rm
  | .strRegPost _ _ rn rd _ _ rm => baseOk true rn rd && offsetOk true rn rm
  | .strtReg _ _ rn rd _ _ rm => rd != 15 && baseOk true rn rd && offsetOk true rn rm
  | .ldrImmPre _ _ rn rd _ w => baseOk w rn rd
  | .ldrImmPost _ _ rn rd _ => baseOk true rn rd
  | .ldrtImm _ _ rn rd _ => rd != 15 && baseOk true rn rd
  | .ldrRegPre _ _ rn rd _ _ rm w => baseOk w rn rd && offsetOk w rn rm
  | .ldrRegPost _ _ rn rd _ _ rm => baseOk true rn rd && offsetOk true rn rm
  | .ldrtReg _ _ rn rd _ _ rm => rd != 15 && baseOk true rn rd && offsetOk true rn rm
  | .strbImmPre _ _ rn rd _ w => rd != 15 && baseOk w rn rd
  | .strbImmPost _ _ rn rd _ => rd != 15 && baseOk true rn rd
  | .strbtImm _ _ rn rd _ => rd != 15 && baseOk true rn rd
  | .strbRegPre _ _ rn rd _ _ rm w => rd != 15 && baseOk w rn rd && offsetOk w rn rm
  | .strbRegPost _ _ rn rd _ _ rm => rd != 15 && baseOk true rn rd && offsetOk true rn rm
  | .strbtReg _ _ rn rd _ _ rm => rd != 15 && baseOk true rn rd && offsetOk true rn rm
  | .ldrbImmPre _ _ rn rd _ w => rd != 15 && baseOk w rn rd
  | .ldrbImmPost _ _ rn rd _ => rd != 15 && baseOk true rn rd
  | .ldrbtImm _ _ rn rd _ => rd != 15 && baseOk true rn rd
  | .ldrbRegPre _ _ rn rd _ _ rm w => rd != 15 && baseOk w rn rd && offsetOk w rn rm
  | .ldrbRegPost _ _ rn rd _ _ rm => rd != 15 && baseOk true rn rd && offsetOk true rn rm
  | .ldrbtReg _ _ rn rd _ _ rm => rd != 15 && baseOk true rn rd && offsetOk true rn rm
  | .undefined _ _ _ => true
  | .ldm _ _ _ sb w rn list => list != 0 && rn != 15 && !(w && list.getLsbD rn.toNat) && !(sb && !list.getLsbD 15 && w)
  | .stm _ _ _ sb w rn list => list != 0 && rn != 15 && !(w && list.getLsbD rn.toNat && listsBelow list rn) && !(sb && w)
  | .b _ _ => true
  | .bl _ _ => true
  | .ldc _ _ _ _ _ _ _ _ _ => true
  | .stc _ _ _ _ _ _ _ _ _ => true
  | .cdp _ _ _ _ _ _ _ => true
  | .mcr _ _ _ _ _ _ _ => true
  | .mrc _ _ _ _ _ _ _ => true
  | .swi _ _ => true

end Sys2Proof
end

