-- ==== Sys2Proof/Certificates/Slice0/Obligations.lean ====
section
/-! DEFINITION. The statements for the provers. Each docstring names the rule a statement formalises, or the log entries it rests on.
Where a statement names `dpInstr op`, it speaks of the three constructors of that operation (immediate operand, register shifted by an
immediate, register shifted by a register). -/

open Sys2Proof Sys2Proof.Machine

/-! ## Encoding -/

/-- Decoding the encoding of any instruction gives it back, with every operand at every value (R121 to R135, R137). -/
def Obligations.DecodeOfEncode : Prop := ∀ i : Instr, decode (encode i) = .ok i

/-- A word that decodes is the encoding of what it decodes to: no bit of it is dropped, and no two words are one instruction
(R121 to R135, R137). -/
def Obligations.EncodeOfDecode : Prop := ∀ (w : Word) (i : Instr), decode w = .ok i → encode i = w

/-- The decoder refuses as reserved exactly the words with condition 1111, whatever row they match (R149; log entry 18). -/
def Obligations.ReservedCondition : Prop :=
  ∀ w : Word, decode w = .error .reservedCondition ↔ field w 28 4 = 15

/-- Words of the spec's decode vectors (95_test_vectors.md section 2.13) and what they decode to. -/
def Obligations.SampleWords : Prop :=
  decode 0xE0810002 = .ok (.addShiftImm .al 1 0 false 0 .lsl 2)
    ∧ decode 0xD2754005 = .ok (.rsbImm .le 5 4 true 0 5)
    ∧ decode 0xE0810312 = .ok (.addShiftReg .al 1 0 false 3 .lsl 2)
    ∧ decode 0xE0203291 = .ok (.mla .al false 0 3 2 1)
    ∧ decode 0xE0810392 = .ok (.umull .al false 1 0 3 2)
    ∧ decode 0xE1020091 = .ok (.swp .al 2 0 1)
    ∧ decode 0xE12FFF10 = .ok (.bx .al 0)
    ∧ decode 0xE169F001 = .ok (.msrReg .al true 9 1)
    ∧ decode 0xE4B10004 = .ok (.ldrtImm .al true 1 0 4)
    ∧ decode 0xE8BD9FFF = .ok (.ldm .al false true false true 13 0x9FFF)
    ∧ decode 0xEF123456 = .ok (.swi .al 0x123456)

/-! ## Registers and status registers -/

/-- Numbers 0 to 7 name the same eight physical registers, r0 to r7, in every mode, for reading and for writing: what one mode writes
every mode reads, and no other of the eight changes (R33). -/
def Obligations.LowRegistersShared : Prop :=
  (∀ m : Mode, [0, 1, 2, 3, 4, 5, 6, 7].map (phys m) =
      [some .r0, some .r1, some .r2, some .r3, some .r4, some .r5, some .r6, some .r7])
    ∧ ∀ (m m' : Mode) (i j : Reg), i.toNat ≤ 7 → j.toNat ≤ 7 →
      ∀ (s : State) (v : Word), s.readReg m i = s.readReg m' i ∧ s.setReg m i v = s.setReg m' i v
        ∧ (s.setReg m i v).readReg m' j = if j = i then v else s.readReg m' j

/-- Numbers 8 to 12 name the FIQ copies in FIQ mode and r8 to r12 in every other mode (R34); numbers 13 and 14 name a pair private to each
mode, User and System together, System being privileged (R35). Entering FIQ mode leaves the User-mode r8 to r14 as they were (R34). -/
def Obligations.BankedRegisters : Prop :=
  [8, 9, 10, 11, 12].map (phys .fiq) = [some .r8_fiq, some .r9_fiq, some .r10_fiq, some .r11_fiq, some .r12_fiq]
    ∧ (∀ m : Mode, m ≠ .fiq → [8, 9, 10, 11, 12].map (phys m) = [some .r8, some .r9, some .r10, some .r11, some .r12])
    ∧ [Mode.user, .system, .fiq, .supervisor, .abort, .irq, .undef].map (fun m => (phys m 13, phys m 14)) =
      [(some .r13, some .r14), (some .r13, some .r14), (some .r13_fiq, some .r14_fiq), (some .r13_svc, some .r14_svc),
       (some .r13_abt, some .r14_abt), (some .r13_irq, some .r14_irq), (some .r13_undef, some .r14_undef)]
    ∧ Mode.system.privileged = true
    ∧ ∀ (s : State) (ra : Word) (p : PhysReg), p ∈ [PhysReg.r8, .r9, .r10, .r11, .r12, .r13, .r14] →
      (s.takeException .fiq ra).regs.get p = s.regs.get p

/-- The places of the bits of a status register as a word (R45), and zeros in bits 27:8 (R53, decision D17; log entry 19). -/
def Obligations.PsrLayout : Prop :=
  ∀ p : Psr, Psr.ofWord p.toWord = p
    ∧ p.toWord.getLsbD 31 = p.n ∧ p.toWord.getLsbD 30 = p.z ∧ p.toWord.getLsbD 29 = p.c ∧ p.toWord.getLsbD 28 = p.v
    ∧ p.toWord.getLsbD 7 = p.i ∧ p.toWord.getLsbD 6 = p.f ∧ p.toWord.getLsbD 5 = p.t ∧ p.toWord.extractLsb' 0 5 = p.m
    ∧ p.toWord.extractLsb' 8 20 = 0

/-! ## Memory -/

/-- The bytes of a word. Little-endian: the byte at its address A is bits 7:0, the byte at A + 3 bits 31:24 (R83). Big-endian: the byte at
A is bits 31:24, the byte at A + 3 bits 7:0 (R84). -/
def Obligations.WordByteOrder : Prop :=
  ∀ (m : Memory) (a : Word), field a 0 2 = 0 →
    (Memory.read false m a .word).extractLsb' 0 8 = Memory.get m a.toNat
      ∧ (Memory.read false m a .word).extractLsb' 8 8 = Memory.get m (a.toNat + 1)
      ∧ (Memory.read false m a .word).extractLsb' 16 8 = Memory.get m (a.toNat + 2)
      ∧ (Memory.read false m a .word).extractLsb' 24 8 = Memory.get m (a.toNat + 3)
      ∧ (Memory.read true m a .word).extractLsb' 24 8 = Memory.get m a.toNat
      ∧ (Memory.read true m a .word).extractLsb' 16 8 = Memory.get m (a.toNat + 1)
      ∧ (Memory.read true m a .word).extractLsb' 8 8 = Memory.get m (a.toNat + 2)
      ∧ (Memory.read true m a .word).extractLsb' 0 8 = Memory.get m (a.toNat + 3)

/-- What is written is read back in its width, in both byte orders (R88, R89); every other byte reads as before, and the canonical
form of memory is kept. It holds of every memory, in canonical form or not. -/
def Obligations.MemoryWriteRead : Prop :=
  ∀ (be : Bool) (m : Memory) (a : Word) (wd : Width) (v : Word),
    Memory.read be (Memory.write be m a wd v) a wd = lowBits wd v
      ∧ (∀ x, (∀ k, k < widthBytes wd → x ≠ (a + BitVec.ofNat 32 k).toNat) →
          Memory.get (Memory.write be m a wd v) x = Memory.get m x)
      ∧ (Memory.wf m → Memory.wf (Memory.write be m a wd v))

/-- The source's byte-order example (R87): STR r0, [r1] and then LDRB r2, [r1], with r0 = 0x11223344 and r1 = 0x100, leave 0x44 in r2 on
a little-endian machine and 0x11 on a big-endian one. From any state, in any mode, in which the two instructions meet no abort. -/
def Obligations.EndiannessExample : Prop :=
  ∀ (s : State) (m : Mode), s.cpsr.t = false → s.mode = some m → s.userLdm = false → s.pc.toNat < 0xFFFFFFF8 →
    s.platform.memMap = [] → s.platform.abortRules = [] →
    s.readReg m 0 = 0x11223344 → s.readReg m 1 = 0x100 →
    ∃ t u, exec (.strImmPre .al true 1 0 0 false) s = .next t ∧ exec (.ldrbImmPre .al true 1 2 0 false) t = .next u
      ∧ u.readReg m 2 = (if s.platform.bigEnd then 0x00000011 else 0x00000044)

/-! ## Conditional execution -/

/-- The table of conditions, as corrected by C1 and C2: which code stands for which condition, 1111 for none, and what each tests (R171). -/
def Obligations.ConditionTable : Prop :=
  [0, 1, 2, 3, 4, 5, 6, 7, 8, 9, 10, 11, 12, 13, 14, 15].map Cond.ofBits =
    [some .eq, some .ne, some .hs, some .lo, some .mi, some .pl, some .vs, some .vc, some .hi, some .ls, some .ge, some .lt, some .gt,
     some .le, some .al, none]
  ∧ ∀ p : Psr,
    (condPassed .eq p = true ↔ p.z = true) ∧ (condPassed .ne p = true ↔ p.z = false)
      ∧ (condPassed .hs p = true ↔ p.c = true) ∧ (condPassed .lo p = true ↔ p.c = false)
      ∧ (condPassed .mi p = true ↔ p.n = true) ∧ (condPassed .pl p = true ↔ p.n = false)
      ∧ (condPassed .vs p = true ↔ p.v = true) ∧ (condPassed .vc p = true ↔ p.v = false)
      ∧ (condPassed .hi p = true ↔ p.c = true ∧ p.z = false) ∧ (condPassed .ls p = true ↔ p.c = false ∨ p.z = true)
      ∧ (condPassed .ge p = true ↔ p.n = p.v) ∧ (condPassed .lt p = true ↔ p.n ≠ p.v)
      ∧ (condPassed .gt p = true ↔ p.z = false ∧ p.n = p.v) ∧ (condPassed .le p = true ↔ p.z = true ∨ p.n ≠ p.v)
      ∧ condPassed .al p = true

/-- An instruction whose condition fails does nothing but advance (R11), every constructor of `Instr`. That the model's bit 'the
previous instruction was a user-bank LDM' is cleared is its own (log entry 15). -/
def Obligations.SkippedInstruction : Prop :=
  ∀ (i : Instr) (s : State) (m : Mode), s.cpsr.t = false → s.mode = some m → condPassed (condOf i) s.cpsr = false → notAtTop s →
    exec i s = .next { s with pc := s.pc + 4, userLdm := false }

/-! ## Data processing -/

/-- AND, EOR, ORR and BIC with a destination below r15 (R190, R192, R196, R197, R208, R210), all three operand forms, both values
of S. That N is bit 31 and V is kept is the spec's general knowledge (log entry 29). -/
def Obligations.LogicalOperations : Prop :=
  ∀ (c : Cond) (rn rd : Reg) (sf : Bool) (o : Operand2) (m : Mode) (s : State),
    executes c (rn :: rd :: operandRegs o) m s → operandRefusal true rn o = none → rd ≠ 15 → notAtTop s →
    ∀ op r, (op, r) ∈ [(DpOp.and, s.readReg m rn &&& (shifterOperand s m o).value), (.eor, s.readReg m rn ^^^ (shifterOperand s m o).value),
        (.orr, s.readReg m rn ||| (shifterOperand s m o).value), (.bic, s.readReg m rn &&& ~~~(shifterOperand s m o).value)] →
    ∃ t, exec (dpInstr op c rn rd sf o) s = .next t ∧ t.readReg m rd = r ∧ keepsRegsBut m [rd] s t ∧ t.pc = s.pc + 4
      ∧ t.cpsr = (if sf then { s.cpsr with n := r.msb, z := decide (r = 0), c := (shifterOperand s m o).carry } else s.cpsr)
      ∧ keepsAllButRegs s t

/-- MOV and MVN with a destination below r15 (R190, R192, R209, R211): Rn is not read, r15 as Rn is no matter. -/
def Obligations.MoveOperations : Prop :=
  ∀ (c : Cond) (rn rd : Reg) (sf : Bool) (o : Operand2) (m : Mode) (s : State),
    executes c (rn :: rd :: operandRegs o) m s → operandRefusal false rn o = none → rd ≠ 15 → notAtTop s →
    ∀ op r, (op, r) ∈ [(DpOp.mov, (shifterOperand s m o).value), (.mvn, ~~~(shifterOperand s m o).value)] →
    ∃ t, exec (dpInstr op c rn rd sf o) s = .next t ∧ t.readReg m rd = r ∧ keepsRegsBut m [rd] s t ∧ t.pc = s.pc + 4
      ∧ t.cpsr = (if sf then { s.cpsr with n := r.msb, z := decide (r = 0), c := (shifterOperand s m o).carry } else s.cpsr)
      ∧ keepsAllButRegs s t

/-- ADD, SUB and RSB with a destination below r15 (R190, R191, R193, R198 to R200): the result modulo 2^32, C set when an addition is
2^32 or more and when a subtraction takes no borrow (R50), V when the signed result is out of range. `x` and `y` are the operands in
the operation's own order. -/
def Obligations.AddAndSubtract : Prop :=
  ∀ (c : Cond) (rn rd : Reg) (sf : Bool) (o : Operand2) (m : Mode) (s : State),
    executes c (rn :: rd :: operandRegs o) m s → operandRefusal true rn o = none → rd ≠ 15 → notAtTop s →
    (∀ a b : Word, a = s.readReg m rn → b = (shifterOperand s m o).value →
      ∃ t, exec (dpInstr .add c rn rd sf o) s = .next t ∧ t.readReg m rd = a + b ∧ keepsRegsBut m [rd] s t ∧ t.pc = s.pc + 4
        ∧ t.cpsr = (if sf then { s.cpsr with
            n := (a + b).msb, z := decide (a + b = 0), c := decide (a.toNat + b.toNat ≥ 2 ^ 32)
            v := decide (a.toInt + b.toInt < -2 ^ 31 ∨ a.toInt + b.toInt > 2 ^ 31 - 1) } else s.cpsr)
        ∧ keepsAllButRegs s t)
    ∧ ∀ (op : DpOp) (x y : Word), (op, x, y) ∈ [(DpOp.sub, s.readReg m rn, (shifterOperand s m o).value),
          (.rsb, (shifterOperand s m o).value, s.readReg m rn)] →
      ∃ t, exec (dpInstr op c rn rd sf o) s = .next t ∧ t.readReg m rd = x - y ∧ keepsRegsBut m [rd] s t ∧ t.pc = s.pc + 4
        ∧ t.cpsr = (if sf then { s.cpsr with
            n := (x - y).msb, z := decide (x = y), c := decide (x.toNat ≥ y.toNat)
            v := decide (x.toInt - y.toInt < -2 ^ 31 ∨ x.toInt - y.toInt > 2 ^ 31 - 1) } else s.cpsr)
        ∧ keepsAllButRegs s t

/-- ADC, SBC and RSC with a destination below r15 (R190, R191, R193, R201 to R203): the C flag before the instruction is the third
operand; SBC is 'operand1 - operand2 + carry - 1'. -/
def Obligations.CarryOperations : Prop :=
  ∀ (c : Cond) (rn rd : Reg) (sf : Bool) (o : Operand2) (m : Mode) (s : State),
    executes c (rn :: rd :: operandRegs o) m s → operandRefusal true rn o = none → rd ≠ 15 → notAtTop s →
    (∀ a b : Word, ∀ k : Nat, a = s.readReg m rn → b = (shifterOperand s m o).value → k = s.cpsr.c.toNat →
      ∃ t, exec (dpInstr .adc c rn rd sf o) s = .next t ∧ t.readReg m rd = a + b + BitVec.ofNat 32 k ∧ keepsRegsBut m [rd] s t
        ∧ t.pc = s.pc + 4
        ∧ t.cpsr = (if sf then { s.cpsr with
            n := (a + b + BitVec.ofNat 32 k).msb, z := decide (a + b + BitVec.ofNat 32 k = 0)
            c := decide (a.toNat + b.toNat + k ≥ 2 ^ 32)
            v := decide (a.toInt + b.toInt + k < -2 ^ 31 ∨ a.toInt + b.toInt + k > 2 ^ 31 - 1) } else s.cpsr)
        ∧ keepsAllButRegs s t)
    ∧ ∀ (op : DpOp) (x y : Word) (k : Nat), k = s.cpsr.c.toNat →
      (op, x, y) ∈ [(DpOp.sbc, s.readReg m rn, (shifterOperand s m o).value), (.rsc, (shifterOperand s m o).value, s.readReg m rn)] →
      ∃ t, exec (dpInstr op c rn rd sf o) s = .next t ∧ t.readReg m rd = x - y + BitVec.ofNat 32 k - 1 ∧ keepsRegsBut m [rd] s t
        ∧ t.pc = s.pc + 4
        ∧ t.cpsr = (if sf then { s.cpsr with
            n := (x - y + BitVec.ofNat 32 k - 1).msb, z := decide (x - y + BitVec.ofNat 32 k - 1 = 0)
            c := decide (x.toNat + k ≥ y.toNat + 1)
            v := decide (x.toInt - y.toInt + k - 1 < -2 ^ 31 ∨ x.toInt - y.toInt + k - 1 > 2 ^ 31 - 1) } else s.cpsr)
        ∧ keepsAllButRegs s t

/-- TST, TEQ, CMP and CMN write flags and nothing else; their Rd field is not used (R191 to R193, R204 to R207). That TST and TEQ set N
from bit 31 and keep V is the spec's general knowledge (log entry 29). -/
def Obligations.Comparisons : Prop :=
  ∀ (c : Cond) (rn rd : Reg) (o : Operand2) (m : Mode) (s : State) (a b : Word),
    executes c (rn :: rd :: operandRegs o) m s → operandRefusal true rn o = none → notAtTop s →
    a = s.readReg m rn → b = (shifterOperand s m o).value →
    exec (dpInstr .tst c rn rd true o) s = .next { s with
        pc := s.pc + 4, userLdm := false
        cpsr := { s.cpsr with n := (a &&& b).msb, z := decide (a &&& b = 0), c := (shifterOperand s m o).carry } }
      ∧ exec (dpInstr .teq c rn rd true o) s = .next { s with
        pc := s.pc + 4, userLdm := false
        cpsr := { s.cpsr with n := (a ^^^ b).msb, z := decide (a = b), c := (shifterOperand s m o).carry } }
      ∧ exec (dpInstr .cmp c rn rd true o) s = .next { s with
        pc := s.pc + 4, userLdm := false
        cpsr := { s.cpsr with
          n := (a - b).msb, z := decide (a = b), c := decide (a.toNat ≥ b.toNat)
          v := decide (a.toInt - b.toInt < -2 ^ 31 ∨ a.toInt - b.toInt > 2 ^ 31 - 1) } }
      ∧ exec (dpInstr .cmn c rn rd true o) s = .next { s with
        pc := s.pc + 4, userLdm := false
        cpsr := { s.cpsr with
          n := (a + b).msb, z := decide (a + b = 0), c := decide (a.toNat + b.toNat ≥ 2 ^ 32)
          v := decide (a.toInt + b.toInt < -2 ^ 31 ∨ a.toInt + b.toInt > 2 ^ 31 - 1) } }

/-- After `CMP a, b` the conditions read as their names say: EQ, HS, HI, GE and GT compare a with b, and NE, LO, LS, LT and LE are their
negations (R206, R171, R50). -/
def Obligations.CompareMeaning : Prop :=
  ∀ (c : Cond) (rn rd : Reg) (o : Operand2) (m : Mode) (s : State) (a b : Word),
    executes c (rn :: rd :: operandRegs o) m s → operandRefusal true rn o = none → notAtTop s →
    a = s.readReg m rn → b = (shifterOperand s m o).value →
    ∃ t, exec (dpInstr .cmp c rn rd true o) s = .next t
      ∧ (condPassed .eq t.cpsr = true ↔ a = b) ∧ (condPassed .ne t.cpsr = true ↔ a ≠ b)
      ∧ (condPassed .hs t.cpsr = true ↔ b.toNat ≤ a.toNat) ∧ (condPassed .lo t.cpsr = true ↔ a.toNat < b.toNat)
      ∧ (condPassed .hi t.cpsr = true ↔ b.toNat < a.toNat) ∧ (condPassed .ls t.cpsr = true ↔ a.toNat ≤ b.toNat)
      ∧ (condPassed .ge t.cpsr = true ↔ b.toInt ≤ a.toInt) ∧ (condPassed .lt t.cpsr = true ↔ a.toInt < b.toInt)
      ∧ (condPassed .gt t.cpsr = true ↔ b.toInt < a.toInt) ∧ (condPassed .le t.cpsr = true ↔ a.toInt ≤ b.toInt)

/-- A data-processing instruction that writes r15, the twelve operations that write a register (R194). With S = 0 it is a branch to its
result (R43). With S = 1 it returns from an exception: the CPSR from the SPSR of its mode, the pc from its result, no flag from the
result; User and System mode refuse it (R358; the S = 1 form is the spec's general knowledge, log entry 28). A result that is no
multiple of 4 (decision D4), a restored T of 1 and a restored mode that is none are refused. -/
def Obligations.DataProcessingToPc : Prop :=
  ∀ (op : DpOp) (c : Cond) (rn : Reg) (o : Operand2) (m : Mode) (s : State) (r : Word),
    op.compares = false → executes c (rn :: 15 :: operandRegs o) m s → operandRefusal (usesRn op) rn o = none →
    r = (dpOut op rn o m s).result →
    (r.extractLsb' 0 2 = 0 → exec (dpInstr op c rn 15 false o) s = .next { s with pc := r, userLdm := false })
      ∧ (r.extractLsb' 0 2 ≠ 0 → exec (dpInstr op c rn 15 false o) s = .refused .pcNotWordAligned)
      ∧ (m.spsr = none → exec (dpInstr op c rn 15 true o) s = .refused .returnWithoutSpsr)
      ∧ ∀ n q, m.spsr = some n → q = s.spsrs.get n →
        (r.extractLsb' 0 2 ≠ 0 → exec (dpInstr op c rn 15 true o) s = .refused .pcNotWordAligned)
          ∧ (r.extractLsb' 0 2 = 0 → q.t = true → exec (dpInstr op c rn 15 true o) s = .refused .thumbState)
          ∧ (r.extractLsb' 0 2 = 0 → q.t = false → Mode.ofBits s.platform.hasV4 q.m = none →
              exec (dpInstr op c rn 15 true o) s = .refused .illegalMode)
          ∧ (r.extractLsb' 0 2 = 0 → q.t = false → (Mode.ofBits s.platform.hasV4 q.m).isSome = true →
              exec (dpInstr op c rn 15 true o) s = .next { s with cpsr := q, pc := r, userLdm := false })

/-- r15 with a register-specified shift is refused: as the register of the amount, as Rm, and as an Rn the operation reads
(R195, R227; log entry 22). All sixteen operations. -/
def Obligations.RegisterShiftRefusesPc : Prop :=
  ∀ (op : DpOp) (c : Cond) (rn rd : Reg) (sf : Bool) (rs : Reg) (ty : ShiftType) (rm : Reg) (m : Mode) (s : State),
    executes c [rn, rd, rs, rm] m s →
    (rs = 15 → exec (dpInstr op c rn rd sf (.shiftReg rs ty rm)) s = .refused .shiftAmountInPc)
      ∧ (rs ≠ 15 → (rm = 15 ∨ (usesRn op = true ∧ rn = 15)) →
        exec (dpInstr op c rn rd sf (.shiftReg rs ty rm)) s = .refused .pcWithRegisterShift)

/-- The four shifts as arithmetic. An amount of 0 keeps the value and C. Amounts 1 to 31: LSL multiplies by 2^n modulo 2^32, LSR and ASR
divide rounding down, ROR moves bit (i + n) mod 32 to bit i; the carry-out is the last bit shifted out. Amount 32: LSL and LSR give 0 with
bit 0 or bit 31 as carry-out; above 32 both give 0 and 0. From 32 on ASR gives 32 copies of bit 31, and ROR rotates by the amount
modulo 32, with bit (n - 1) mod 32 as carry-out (R221 to R224). The two register forms of the second operand: an immediate amount, where
LSR #0 and ASR #0 mean 32 and ROR #0 means RRX (R226), and the bottom byte of Rs (R227). What amounts of 0, 32 and more do is the
spec's general knowledge (log entry 29). -/
def Obligations.Shifts : Prop :=
  (∀ (v : Word) (c : Bool), shiftLsl v 0 c = ⟨v, c⟩ ∧ shiftLsr v 0 c = ⟨v, c⟩ ∧ shiftAsr v 0 c = ⟨v, c⟩ ∧ shiftRor v 0 c = ⟨v, c⟩)
    ∧ (∀ (v : Word) (n : Nat) (c : Bool), 1 ≤ n → n ≤ 31 →
      (shiftLsl v n c).value.toNat = v.toNat * 2 ^ n % 2 ^ 32 ∧ (shiftLsl v n c).carry = v.getLsbD (32 - n)
        ∧ (shiftLsr v n c).value.toNat = v.toNat / 2 ^ n ∧ (shiftLsr v n c).carry = v.getLsbD (n - 1)
        ∧ (shiftAsr v n c).value.toInt = v.toInt / 2 ^ n ∧ (shiftAsr v n c).carry = v.getLsbD (n - 1)
        ∧ (∀ i, i < 32 → (shiftRor v n c).value.getLsbD i = v.getLsbD ((i + n) % 32)) ∧ (shiftRor v n c).carry = v.getLsbD (n - 1))
    ∧ (∀ (v : Word) (c : Bool), shiftLsl v 32 c = ⟨0, v.getLsbD 0⟩ ∧ shiftLsr v 32 c = ⟨0, v.getLsbD 31⟩)
    ∧ (∀ (v : Word) (n : Nat) (c : Bool), 32 < n → shiftLsl v n c = ⟨0, false⟩ ∧ shiftLsr v n c = ⟨0, false⟩)
    ∧ (∀ (v : Word) (n : Nat) (c : Bool), 32 ≤ n →
      (∀ i, i < 32 → (shiftAsr v n c).value.getLsbD i = v.getLsbD 31) ∧ (shiftAsr v n c).carry = v.getLsbD 31
        ∧ (∀ i, i < 32 → (shiftRor v n c).value.getLsbD i = v.getLsbD ((i + n) % 32))
        ∧ (shiftRor v n c).carry = v.getLsbD ((n - 1) % 32))
    ∧ ∀ (s : State) (m : Mode) (rs rm : Reg) (amount : BitVec 5) (v : Word) (c : Bool) (n k : Nat),
      v = s.readReg m rm → c = s.cpsr.c → n = amount.toNat → k = (s.readReg m rs).toNat % 256 →
      shifterOperand s m (.shiftImm amount .lsl rm) = shiftLsl v n c
        ∧ shifterOperand s m (.shiftImm amount .lsr rm) = shiftLsr v (if n = 0 then 32 else n) c
        ∧ shifterOperand s m (.shiftImm amount .asr rm) = shiftAsr v (if n = 0 then 32 else n) c
        ∧ shifterOperand s m (.shiftImm amount .ror rm) = (if n = 0 then shiftRrx v c else shiftRor v n c)
        ∧ shifterOperand s m (.shiftReg rs .lsl rm) = shiftLsl v k c
        ∧ shifterOperand s m (.shiftReg rs .lsr rm) = shiftLsr v k c
        ∧ shifterOperand s m (.shiftReg rs .asr rm) = shiftAsr v k c
        ∧ shifterOperand s m (.shiftReg rs .ror rm) = shiftRor v k c

/-- RRX: the C flag goes into bit 31, the rest moves down one place, bit 0 is the carry-out; it is what ROR with the immediate amount 0
means (R225). -/
def Obligations.RotateExtended : Prop :=
  ∀ (v : Word) (c : Bool), (shiftRrx v c).value = BitVec.ofBool c ++ v.extractLsb' 1 31 ∧ (shiftRrx v c).carry = v.getLsbD 0
    ∧ shiftByImm .ror v 0 c = shiftRrx v c

/-- The immediate operand: an 8-bit constant rotated right by twice `rot`, its carry-out (R229) the old C for rot = 0 and else bit 31. -/
def Obligations.ImmediateOperand : Prop :=
  ∀ (s : State) (m : Mode) (rot : BitVec 4) (imm8 : BitVec 8),
    (∀ i, i < 32 → (shifterOperand s m (.imm rot imm8)).value.getLsbD i = imm8.getLsbD ((i + 2 * rot.toNat) % 32))
      ∧ (rot = 0 → (shifterOperand s m (.imm rot imm8)).carry = s.cpsr.c)
      ∧ (rot ≠ 0 → (shifterOperand s m (.imm rot imm8)).carry = (shifterOperand s m (.imm rot imm8)).value.getLsbD 31)

/-! ## PSR transfer (R331 to R333: the spec's general knowledge, log entry 32) -/

/-- MRS reads the CPSR in every mode and the SPSR in a mode that has one; r15 as Rd and a mode without an SPSR are refused (R331). -/
def Obligations.MrsReads : Prop :=
  ∀ (c : Cond) (r : Bool) (rd : Reg) (m : Mode) (s : State), executes c [rd] m s →
    (rd = 15 → exec (.mrs c r rd) s = .refused .psrTransfer)
      ∧ (rd ≠ 15 → r = true → m.spsr = none → exec (.mrs c r rd) s = .refused .noSpsr)
      ∧ (rd ≠ 15 → notAtTop s → ∀ p : Psr, (if r then m.spsr.map s.spsrs.get else some s.cpsr) = some p →
        ∃ t, exec (.mrs c r rd) s = .next t ∧ t.readReg m rd = p.toWord ∧ keepsRegsBut m [rd] s t ∧ t.pc = s.pc + 4
          ∧ t.cpsr = s.cpsr ∧ keepsAllButRegs s t)

/-- MSR to the CPSR, both operand forms: the flag byte when the mask selects it, the control byte when the mask selects it and the mode
is not User (in User mode a write of it is ignored); T must stay 0 and the new mode must be legal; no general register changes
(R332, R333, R36, R55). A core without the T variant has no T bit, and a write of it is ignored (R8; log entry 10). `p` is the new
CPSR. -/
def Obligations.MsrCpsr : Prop :=
  ∀ (c : Cond) (fmask : BitVec 4) (m : Mode) (s : State) (i : Instr) (v : Word) (ctl : Bool),
    (∃ rm, i = .msrReg c false fmask rm ∧ rm ≠ 15 ∧ v = s.readReg m rm ∧ executes c [rm] m s)
      ∨ (∃ rot imm8, i = .msrImm c false fmask rot imm8 ∧ v = rotatedImm rot imm8 ∧ executes c [] m s) →
    notAtTop s → ctl = (fmask.getLsbD 0 && decide (m ≠ .user)) →
    ∀ p : Psr,
      p = { n := if fmask.getLsbD 3 then v.getLsbD 31 else s.cpsr.n, z := if fmask.getLsbD 3 then v.getLsbD 30 else s.cpsr.z
            c := if fmask.getLsbD 3 then v.getLsbD 29 else s.cpsr.c, v := if fmask.getLsbD 3 then v.getLsbD 28 else s.cpsr.v
            i := if ctl then v.getLsbD 7 else s.cpsr.i, f := if ctl then v.getLsbD 6 else s.cpsr.f
            t := if ctl then s.platform.hasT && v.getLsbD 5 else s.cpsr.t, m := if ctl then v.extractLsb' 0 5 else s.cpsr.m } →
      (p.t = false → (Mode.ofBits s.platform.hasV4 p.m).isSome = true →
          exec i s = .next { s with cpsr := p, pc := s.pc + 4, userLdm := false })
        ∧ (p.t = true → exec i s = .refused .psrTransfer)
        ∧ (p.t = false → Mode.ofBits s.platform.hasV4 p.m = none → exec i s = .refused .illegalMode)

/-- MSR to the SPSR, both operand forms: the fields the mask selects of the SPSR of the current mode, and nothing else; User and System
mode have none and refuse (R332, R333, R54). Any mode number may be written, and T = 1 on a core with the T variant; without it there is no
T bit, and a write of it is ignored (R8; log entry 10). MSR from r15 is refused, to either PSR. -/
def Obligations.MsrSpsr : Prop :=
  (∀ (c : Cond) (fmask : BitVec 4) (m : Mode) (s : State) (i : Instr) (v : Word),
    (∃ rm, i = .msrReg c true fmask rm ∧ rm ≠ 15 ∧ v = s.readReg m rm ∧ executes c [rm] m s)
      ∨ (∃ rot imm8, i = .msrImm c true fmask rot imm8 ∧ v = rotatedImm rot imm8 ∧ executes c [] m s) →
    notAtTop s →
    (m.spsr = none → exec i s = .refused .noSpsr)
      ∧ ∀ n, m.spsr = some n → ∃ t, exec i s = .next t
        ∧ (t.spsrs.get n).toWord =
            ((if fmask.getLsbD 3 then v else (s.spsrs.get n).toWord) &&& 0xF0000000)
              ||| ((if fmask.getLsbD 0 then (if s.platform.hasT then v else v &&& 0xFFFFFFDF) else (s.spsrs.get n).toWord)
                &&& 0x000000FF)
        ∧ (∀ k, k ≠ n → t.spsrs.get k = s.spsrs.get k) ∧ t.cpsr = s.cpsr ∧ t.pc = s.pc + 4 ∧ keepsAllButPsrs s t)
    ∧ ∀ (c : Cond) (r : Bool) (fmask : BitVec 4) (m : Mode) (s : State), executes c [15] m s →
      exec (.msrReg c r fmask 15) s = .refused .psrTransfer

/-! ## Branches -/

/-- B goes to `(cur + 8)` plus the signed 24-bit offset times 4, modulo 2^32, and changes nothing else, but that the instruction before
the next one is now this one and no user-bank LDM (R57(d)); its word is the one of format B with L = 0 (R180). -/
def Obligations.Branch : Prop :=
  ∀ (c : Cond) (offset : BitVec 24) (m : Mode) (s : State), executes c [] m s →
    exec (.b c offset) s = .next { s with pc := BitVec.ofInt 32 (s.pc.toNat + 8 + 4 * offset.toInt), userLdm := false }
      ∧ (encode (.b c offset)).extractLsb' 24 4 = 0b1010

/-- BL does what B does and writes `cur + 4` to the r14 of the current mode; no other register changes; one whose condition fails writes
nothing to r14 (R181). -/
def Obligations.BranchWithLink : Prop :=
  ∀ (c : Cond) (offset : BitVec 24) (m : Mode) (s : State),
    (encode (.bl c offset)).extractLsb' 24 4 = 0b1011
      ∧ (executes c [] m s → ∃ t, exec (.bl c offset) s = .next t ∧ t.readReg m 14 = s.pc + 4 ∧ keepsRegsBut m [14] s t
        ∧ t.pc = BitVec.ofInt 32 (s.pc.toNat + 8 + 4 * offset.toInt) ∧ t.cpsr = s.cpsr ∧ keepsAllButRegs s t)
      ∧ (s.cpsr.t = false → s.mode = some m → condPassed c s.cpsr = false → notAtTop s →
        ∃ t, exec (.bl c offset) s = .next t ∧ t.regs = s.regs ∧ t.pc = s.pc + 4)

/-- BX to a multiple of 4 is an indirect branch; bit 0 set would enter Thumb state and is refused, so are bits 1:0 = 10 and Rn = 15; a core
without the T variant has no such instruction (R183, the spec's general knowledge; log entries 10 and 22). -/
def Obligations.BranchExchange : Prop :=
  ∀ (c : Cond) (rn : Reg) (m : Mode) (s : State), executes c [rn] m s →
    (s.platform.hasT = false → exec (.bx c rn) s = .refused .noInstruction)
      ∧ (s.platform.hasT = true → rn = 15 → exec (.bx c rn) s = .refused .branchExchangeTarget)
      ∧ (s.platform.hasT = true → rn ≠ 15 → (s.readReg m rn).extractLsb' 0 2 = 0 →
          exec (.bx c rn) s = .next { s with pc := s.readReg m rn, userLdm := false })
      ∧ (s.platform.hasT = true → rn ≠ 15 → (s.readReg m rn).getLsbD 0 = true → exec (.bx c rn) s = .refused .thumbState)
      ∧ (s.platform.hasT = true → rn ≠ 15 → (s.readReg m rn).extractLsb' 0 2 = 2 → exec (.bx c rn) s = .refused .branchExchangeTarget)

/-! ## Multiplies -/

/-- MUL and MLA: the low 32 bits of the product, plus the addend; with S = 1 N and Z from the result, C a free value (log entries 12 and
30: the statement holds for every value of it), V kept (R240, R241). The Rn field of MUL is not used. -/
def Obligations.Multiplies : Prop :=
  ∀ (c : Cond) (sf : Bool) (rd rn rs rm : Reg) (m : Mode) (s : State),
    executes c [rd, rn, rs, rm] m s → rd ≠ rm → rd ≠ 15 → rm ≠ 15 → rs ≠ 15 → notAtTop s →
    ∀ i r, (i = .mul c sf rd rn rs rm ∧ r = BitVec.ofNat 32 ((s.readReg m rm).toNat * (s.readReg m rs).toNat))
        ∨ (i = .mla c sf rd rn rs rm ∧ rn ≠ 15
            ∧ r = BitVec.ofNat 32 ((s.readReg m rm).toNat * (s.readReg m rs).toNat + (s.readReg m rn).toNat)) →
    ∃ t, exec i s = .next t ∧ t.readReg m rd = r ∧ keepsRegsBut m [rd] s t ∧ t.pc = s.pc + 4
      ∧ (∃ b : Bool, t.cpsr = if sf then { s.cpsr with n := r.msb, z := decide (r = 0), c := b } else s.cpsr)
      ∧ t.spsrs = s.spsrs ∧ keepsMemory s t ∧ keepsInputs s t ∧ t.userLdm = false

/-- UMULL, UMLAL, SMULL and SMLAL: the 64-bit product, unsigned or signed, plus the old RdHi : RdLo for the accumulating two, modulo 2^64;
bits 63:32 to RdHi and bits 31:0 to RdLo; with S = 1 N and Z from it, C and V free values (log entries 12 and 30: the statement holds
for every value of them) (R244 to R247). -/
def Obligations.LongMultiplies : Prop :=
  ∀ (c : Cond) (sf : Bool) (rdHi rdLo rs rm : Reg) (m : Mode) (s : State),
    executes c [rdHi, rdLo, rs, rm] m s → s.platform.hasM = true → longMultiplyOk rdHi rdLo rs rm = true → notAtTop s →
    ∀ (i : Instr) (p : BitVec 64),
      (i, p) ∈ [(Instr.umull c sf rdHi rdLo rs rm, BitVec.ofNat 64 ((s.readReg m rm).toNat * (s.readReg m rs).toNat)),
        (.umlal c sf rdHi rdLo rs rm, BitVec.ofNat 64 ((s.readReg m rm).toNat * (s.readReg m rs).toNat
          + ((s.readReg m rdHi).toNat * 2 ^ 32 + (s.readReg m rdLo).toNat))),
        (.smull c sf rdHi rdLo rs rm, BitVec.ofInt 64 ((s.readReg m rm).toInt * (s.readReg m rs).toInt)),
        (.smlal c sf rdHi rdLo rs rm, BitVec.ofInt 64 ((s.readReg m rm).toInt * (s.readReg m rs).toInt
          + ((s.readReg m rdHi).toNat * 2 ^ 32 + (s.readReg m rdLo).toNat)))] →
    ∃ t, exec i s = .next t ∧ (t.readReg m rdHi).toNat * 2 ^ 32 + (t.readReg m rdLo).toNat = p.toNat
      ∧ keepsRegsBut m [rdHi, rdLo] s t ∧ t.pc = s.pc + 4
      ∧ (∃ b v : Bool, t.cpsr = if sf then { s.cpsr with n := p.msb, z := decide (p = 0), c := b, v := v } else s.cpsr)
      ∧ t.spsrs = s.spsrs ∧ keepsMemory s t ∧ keepsInputs s t ∧ t.userLdm = false

/-- The multiplies the spec refuses: Rd = Rm (U4), r15 (U5), the long multiplies on a core without them (U3) and with registers that clash
(U23) (R242, R248, R250; log entry 22). -/
def Obligations.MultiplyRefusals : Prop :=
  ∀ (c : Cond) (sf : Bool) (a b rs rm : Reg) (m : Mode) (s : State), executes c [a, b, rs, rm] m s →
    (a = rm → exec (.mul c sf a b rs rm) s = .refused .mulRdIsRm ∧ exec (.mla c sf a b rs rm) s = .refused .mulRdIsRm)
      ∧ (a ≠ rm → (a = 15 ∨ rm = 15 ∨ rs = 15) →
          exec (.mul c sf a b rs rm) s = .refused .mulUsesPc ∧ exec (.mla c sf a b rs rm) s = .refused .mulUsesPc)
      ∧ (a ≠ rm → b = 15 → exec (.mla c sf a b rs rm) s = .refused .mulUsesPc)
      ∧ ∀ i ∈ [Instr.umull c sf a b rs rm, .umlal c sf a b rs rm, .smull c sf a b rs rm, .smlal c sf a b rs rm],
        (s.platform.hasM = false → exec i s = .refused .noLongMultiplier)
          ∧ (s.platform.hasM = true → longMultiplyOk a b rs rm = false → exec i s = .refused .longMultiplyClash)

/-! ## Single transfers -/

/-- The address and the base after a single transfer: the base moved by the offset before (P = 1) or after (P = 0) the transfer, up or
down as U says; the immediate is added as it is, the halfword form's is `hi : lo`, a register is shifted first by its immediate amount, the
carry-out unused (R261 to R263, R272); the halfword form's register is not shifted. -/
def Obligations.TransferAddresses : Prop :=
  ∀ (s : State) (m : Mode) (u : Bool) (rn : Reg) (off : Offset),
    transferAddress s m .offset u rn off = (if u then s.readReg m rn + offsetValue s m off else s.readReg m rn - offsetValue s m off)
      ∧ transferAddress s m .preIndexed u rn off = transferAddress s m .offset u rn off
      ∧ transferAddress s m .postIndexed u rn off = s.readReg m rn
      ∧ movedBase s m u rn off = transferAddress s m .offset u rn off
      ∧ (∀ x : BitVec 12, (offsetValue s m (.imm (x.setWidth 32))).toNat = x.toNat)
      ∧ (∀ hi lo : BitVec 4, (offsetValue s m (halfOffset hi lo)).toNat = 16 * hi.toNat + lo.toNat)
      ∧ (∀ (amount : BitVec 5) (ty : ShiftType) (rm : Reg),
          offsetValue s m (.reg amount ty rm) = (shiftByImm ty (s.readReg m rm) amount s.cpsr.c).value)
      ∧ (∀ rm : Reg, offsetValue s m (.reg 0 .lsl rm) = s.readReg m rm)

/-- Every load of one datum (LDR, LDRB, LDRT, LDRBT, LDRH, LDRSB, LDRSH, all forms) with Rd below r15, when the operands are allowed, the
address is aligned and the memory system accepts the read: Rd gets the datum, zero- or sign-extended, a form that writes its base moves
it, nothing else changes; the T forms ask as User mode (R260, R263, R264, R266, R268, R270, R272, R273, R275, R276, R97). -/
def Obligations.Loads : Prop :=
  ∀ (i : Instr) (x : Transfer) (m : Mode) (s : State), transferOf i = some x → x.load = true →
    executes x.c (transferRegs x.rn x.rd x.off) m s → x.valid = true → (x.half = true → s.platform.hasV4 = true) →
    transferRefusal x.wd x.translated x.ix x.rn x.rd x.off = none → x.rd ≠ 15 → notAtTop s →
    ∀ a : Word, a = transferAddress s m x.ix x.u x.rn x.off → aligned x.wd a = true →
    answer s .read (m.privileged && !x.translated) a x.wd = .ok →
    ∃ t, exec i s = .next t
      ∧ t.readReg m x.rd = extendLoaded x.wd x.signed (Memory.read s.platform.bigEnd s.mem a x.wd)
      ∧ (writesBase x.ix = true → t.readReg m x.rn = movedBase s m x.u x.rn x.off)
      ∧ keepsRegsBut m (if writesBase x.ix then [x.rd, x.rn] else [x.rd]) s t
      ∧ t.pc = s.pc + 4 ∧ t.cpsr = s.cpsr ∧ keepsAllButRegs s t

/-- LDR with Rd = 15, all forms, is a branch to the loaded word, refused when that is no multiple of 4 (R264, R43); the base moves as in
every load. -/
def Obligations.LoadOfPc : Prop :=
  ∀ (i : Instr) (x : Transfer) (m : Mode) (s : State), transferOf i = some x → x.load = true →
    executes x.c (transferRegs x.rn x.rd x.off) m s →
    transferRefusal x.wd x.translated x.ix x.rn x.rd x.off = none → x.rd = 15 →
    ∀ a v : Word, a = transferAddress s m x.ix x.u x.rn x.off → aligned .word a = true →
    answer s .read m.privileged a .word = .ok → v = Memory.read s.platform.bigEnd s.mem a .word →
    (v.extractLsb' 0 2 ≠ 0 → exec i s = .refused .pcNotWordAligned)
      ∧ (v.extractLsb' 0 2 = 0 → ∃ t, exec i s = .next t ∧ t.pc = v
        ∧ (writesBase x.ix = true → t.readReg m x.rn = movedBase s m x.u x.rn x.off)
        ∧ keepsRegsBut m (if writesBase x.ix then [x.rn] else []) s t ∧ t.cpsr = s.cpsr ∧ keepsAllButRegs s t)

/-- Every store of one datum (STR, STRB, STRT, STRBT, STRH, all forms), when the operands are allowed, the address is aligned and the memory
system accepts the write: the low bits of Rd stand at the address, every other byte reads as before, a form that writes its base moves
it, the word of the address joins the list of stored words (the model's form of R101, log entry 16), nothing else changes (R260, R263,
R265, R267, R269, R271, R272, R274, R89). -/
def Obligations.Stores : Prop :=
  ∀ (i : Instr) (x : Transfer) (m : Mode) (s : State), transferOf i = some x → x.load = false →
    executes x.c (transferRegs x.rn x.rd x.off) m s → x.valid = true → (x.half = true → s.platform.hasV4 = true) →
    transferRefusal x.wd x.translated x.ix x.rn x.rd x.off = none → notAtTop s →
    ∀ a : Word, a = transferAddress s m x.ix x.u x.rn x.off → aligned x.wd a = true →
    answer s .write (m.privileged && !x.translated) a x.wd = .ok →
    ∃ t, exec i s = .next t
      ∧ Memory.read s.platform.bigEnd t.mem a x.wd = lowBits x.wd (storedValue s m x.rd)
      ∧ keepsMemoryBut a (widthBytes x.wd) s t
      ∧ (∀ k, k ∈ t.stored ↔ k ∈ s.stored ∨ k = a.toNat / 4)
      ∧ (writesBase x.ix = true → t.readReg m x.rn = movedBase s m x.u x.rn x.off)
      ∧ keepsRegsBut m (if writesBase x.ix then [x.rn] else []) s t
      ∧ t.pc = s.pc + 4 ∧ t.cpsr = s.cpsr ∧ t.spsrs = s.spsrs ∧ keepsInputs s t ∧ t.drawn = s.drawn ∧ t.userLdm = false

/-- A single transfer whose access the memory system rejects takes Data Abort with the return value `cur + 8`; memory and every register
but the base of a write-back form and r14_abt are as they were (R370; what the base holds then is a free value, log entry 13; the return
value and the masks are the spec's general knowledge, log entry 28). -/
def Obligations.AbortedTransfer : Prop :=
  ∀ (i : Instr) (x : Transfer) (m : Mode) (s : State), transferOf i = some x →
    executes x.c (transferRegs x.rn x.rd x.off) m s → x.valid = true → (x.half = true → s.platform.hasV4 = true) →
    transferRefusal x.wd x.translated x.ix x.rn x.rd x.off = none →
    ∀ a : Word, a = transferAddress s m x.ix x.u x.rn x.off → aligned x.wd a = true →
    answer s (if x.load then .read else .write) (m.privileged && !x.translated) a x.wd = .abort →
    ∃ t, exec i s = .next t ∧ abortEntered s t ∧ keepsMemory s t
      ∧ ∀ p, p ≠ .r14_abt → (writesBase x.ix = true → phys m x.rn ≠ some p) → t.regs.get p = s.regs.get p

/-- The single transfers that do not run: refused operands by their names (R277), an address that is not aligned (R91, decision D3), a
halfword form with P = 0 and W = 1 (R272), and an address that is absent or a device's (decision D8; log entries 6, 22 and 23). -/
def Obligations.TransferRefusals : Prop :=
  ∀ (i : Instr) (x : Transfer) (m : Mode) (s : State) (a : Word), transferOf i = some x →
    executes x.c (transferRegs x.rn x.rd x.off) m s → (x.half = true → s.platform.hasV4 = true) →
    a = transferAddress s m x.ix x.u x.rn x.off →
    (x.valid = false → exec i s = .refused .halfwordPostIndexedW)
      ∧ (x.valid = true → ∀ r, transferRefusal x.wd x.translated x.ix x.rn x.rd x.off = some r → exec i s = .refused r)
      ∧ (x.valid = true → transferRefusal x.wd x.translated x.ix x.rn x.rd x.off = none →
          (aligned x.wd a = false → exec i s = .refused .misalignedAccess)
            ∧ (aligned x.wd a = true →
                answer s (if x.load then .read else .write) (m.privileged && !x.translated) a x.wd = .absent →
                exec i s = .fault .absentAddress)
            ∧ (aligned x.wd a = true →
                answer s (if x.load then .read else .write) (m.privileged && !x.translated) a x.wd = .device →
                exec i s = .refused .deviceAccess))

/-! ## Block transfers -/

/-- LDM of registers below r15, of the current mode's bank: each register of the list gets the word at its place in the block, lowest
register lowest, the base moves with W = 1, and nothing else changes (R291 to R293, R295). -/
def Obligations.LoadMultiple : Prop :=
  ∀ (c : Cond) (p u w : Bool) (rn : Reg) (list : BitVec 16) (m : Mode) (s : State) (start : Word),
    executes c (blockRegs rn list) m s → list.getLsbD 15 = false →
    blockRefusal s m false w rn list (list.getLsbD rn.toNat) false = none →
    start = blockStart p u (s.readReg m rn) list →
    (∀ k, k < (listRegs list).length → answer s .read m.privileged (start + BitVec.ofNat 32 (4 * k)) .word = .ok) → notAtTop s →
    ∃ t, exec (.ldm c p u false w rn list) s = .next t
      ∧ (∀ i ∈ listRegs list, t.readReg m i =
          Memory.read s.platform.bigEnd s.mem (start + BitVec.ofNat 32 (4 * listRank list i)) .word)
      ∧ (w = true → t.readReg m rn = blockNewBase u (s.readReg m rn) list)
      ∧ keepsRegsBut m (if w then rn :: listRegs list else listRegs list) s t
      ∧ t.pc = s.pc + 4 ∧ t.cpsr = s.cpsr ∧ keepsAllButRegs s t

/-- LDM with r15 in the list: the word at its place goes to the pc; with S = 1 the CPSR comes from the SPSR of the mode as well
(R293, R296, R358). The other registers and the base as in every LDM. A word that is no multiple of 4, a restored T of 1 and a restored
mode that is none are refused (R299). `q` is the CPSR afterwards. -/
def Obligations.LoadMultiplePc : Prop :=
  ∀ (c : Cond) (p u sb w : Bool) (rn : Reg) (list : BitVec 16) (m : Mode) (s : State) (start v : Word) (q : Psr),
    executes c (blockRegs rn list) m s → list.getLsbD 15 = true →
    blockRefusal s m sb w rn list (list.getLsbD rn.toNat) false = none →
    start = blockStart p u (s.readReg m rn) list →
    (∀ k, k < (listRegs list).length → answer s .read m.privileged (start + BitVec.ofNat 32 (4 * k)) .word = .ok) →
    v = Memory.read s.platform.bigEnd s.mem (start + BitVec.ofNat 32 (4 * listRank list 15)) .word →
    (if sb then m.spsr.map s.spsrs.get else some s.cpsr) = some q →
    (v.extractLsb' 0 2 ≠ 0 → exec (.ldm c p u sb w rn list) s = .refused .pcNotWordAligned)
      ∧ (v.extractLsb' 0 2 = 0 → q.t = true → exec (.ldm c p u sb w rn list) s = .refused .thumbState)
      ∧ (v.extractLsb' 0 2 = 0 → q.t = false → Mode.ofBits s.platform.hasV4 q.m = none →
          exec (.ldm c p u sb w rn list) s = .refused .illegalMode)
      ∧ (v.extractLsb' 0 2 = 0 → q.t = false → (Mode.ofBits s.platform.hasV4 q.m).isSome = true →
        ∃ t, exec (.ldm c p u sb w rn list) s = .next t ∧ t.pc = v ∧ t.cpsr = q
          ∧ (∀ i ∈ listRegs list, i ≠ 15 → ∀ r, phys m i = some r → t.regs.get r =
              Memory.read s.platform.bigEnd s.mem (start + BitVec.ofNat 32 (4 * listRank list i)) .word)
          ∧ (w = true → ∀ r, phys m rn = some r → t.regs.get r = blockNewBase u (s.readReg m rn) list)
          ∧ keepsRegsBut m (if w then rn :: listRegs list else listRegs list) s t ∧ keepsAllButRegs s t)

/-- LDM with S = 1 and without r15 loads the User-mode registers, in a mode with an SPSR and without write-back (R296); the next
instruction may then not name a banked register (the model's bit for it, log entry 15). -/
def Obligations.LoadMultipleUserBank : Prop :=
  ∀ (c : Cond) (p u : Bool) (rn : Reg) (list : BitVec 16) (m : Mode) (s : State) (start : Word),
    executes c (blockRegs rn list) m s → list.getLsbD 15 = false →
    blockRefusal s m true false rn list (list.getLsbD rn.toNat) true = none →
    start = blockStart p u (s.readReg m rn) list →
    (∀ k, k < (listRegs list).length → answer s .read m.privileged (start + BitVec.ofNat 32 (4 * k)) .word = .ok) → notAtTop s →
    ∃ t, exec (.ldm c p u true false rn list) s = .next t
      ∧ (∀ i ∈ listRegs list, t.readReg .user i =
          Memory.read s.platform.bigEnd s.mem (start + BitVec.ofNat 32 (4 * listRank list i)) .word)
      ∧ keepsRegsBut .user (listRegs list) s t ∧ t.userLdm = true
      ∧ t.pc = s.pc + 4 ∧ t.cpsr = s.cpsr ∧ t.spsrs = s.spsrs ∧ keepsMemory s t ∧ keepsInputs s t ∧ t.drawn = s.drawn

/-- STM, of the current mode's bank or with S = 1 of the User bank: the word at each register's place in the block is the value the
register held, every byte outside the block reads as before, the base moves with W = 1 (R291, R292, R294 to R296). The words of the block, and no
others, join the list of stored words (the model's form of R101, log entry 16). -/
def Obligations.StoreMultiple : Prop :=
  ∀ (c : Cond) (p u sb w : Bool) (rn : Reg) (list : BitVec 16) (m bank : Mode) (s : State) (start : Word),
    executes c (blockRegs rn list) m s → bank = (if sb then .user else m) →
    blockRefusal s m sb w rn list (baseNotLowest rn list) sb = none →
    start = blockStart p u (s.readReg m rn) list →
    (∀ k, k < (listRegs list).length → answer s .write m.privileged (start + BitVec.ofNat 32 (4 * k)) .word = .ok) → notAtTop s →
    ∃ t, exec (.stm c p u sb w rn list) s = .next t
      ∧ (∀ i ∈ listRegs list,
          Memory.read s.platform.bigEnd t.mem (start + BitVec.ofNat 32 (4 * listRank list i)) .word = storedValue s bank i)
      ∧ keepsMemoryBut start (4 * (listRegs list).length) s t
      ∧ (∀ x, x ∈ t.stored ↔ x ∈ s.stored ∨ ∃ k, k < (listRegs list).length ∧ x = (start + BitVec.ofNat 32 (4 * k)).toNat / 4)
      ∧ (w = true → t.readReg m rn = blockNewBase u (s.readReg m rn) list)
      ∧ keepsRegsBut m (if w then [rn] else []) s t
      ∧ t.pc = s.pc + 4 ∧ t.cpsr = s.cpsr ∧ t.spsrs = s.spsrs ∧ keepsInputs s t ∧ t.drawn = s.drawn ∧ t.userLdm = false

/-- The block transfers that do not run, refused by their names: U7, U17, U21, U16, U9, U30 (R291, R293, R294, R296, R299; log entry 22). -/
def Obligations.BlockRefusals : Prop :=
  ∀ (c : Cond) (p u sb w : Bool) (rn : Reg) (list : BitVec 16) (m : Mode) (s : State) (i : Instr) (clash userBank : Bool),
    executes c (blockRegs rn list) m s →
    (i = .ldm c p u sb w rn list ∧ clash = list.getLsbD rn.toNat ∧ userBank = (sb && !list.getLsbD 15))
      ∨ (i = .stm c p u sb w rn list ∧ clash = (list.getLsbD rn.toNat && listsBelow list rn) ∧ userBank = sb) →
    (list = 0 → exec i s = .refused .emptyRegisterList)
      ∧ (list ≠ 0 → rn = 15 → exec i s = .refused .blockBaseIsPc)
      ∧ (list ≠ 0 → rn ≠ 15 → (s.readReg m rn).extractLsb' 0 2 ≠ 0 → exec i s = .refused .misalignedAccess)
      ∧ (list ≠ 0 → rn ≠ 15 → (s.readReg m rn).extractLsb' 0 2 = 0 →
          (w = true → clash = true → exec i s = .refused .baseInList)
            ∧ (¬(w = true ∧ clash = true) → sb = true → (m = .user ∨ m = .system) → exec i s = .refused .blockSInUserOrSystem)
            ∧ (¬(w = true ∧ clash = true) → m ≠ .user → m ≠ .system → userBank = true → w = true →
                exec i s = .refused .userBankWriteBack))


/-- A block transfer the memory system rejects at its word `k` takes Data Abort with the return value `cur + 8` (R370). An LDM leaves
memory alone; the registers of its list and the base of a write-back form hold free values (log entry 13), the others what they held.
An STM has made the stores before the rejected one and no other, and their words join the list of stored words (log entry 16). The
return value and the masks are the spec's general knowledge (log entry 28). -/
def Obligations.AbortedBlock : Prop :=
  ∀ (c : Cond) (p u sb w : Bool) (rn : Reg) (list : BitVec 16) (m bank : Mode) (s : State) (start : Word) (k : Nat),
    executes c (blockRegs rn list) m s → start = blockStart p u (s.readReg m rn) list → k < (listRegs list).length →
    (blockRefusal s m sb w rn list (list.getLsbD rn.toNat) (sb && !list.getLsbD 15) = none →
      bank = (if sb && !list.getLsbD 15 then .user else m) →
      (∀ j, j < k → answer s .read m.privileged (start + BitVec.ofNat 32 (4 * j)) .word = .ok) →
      answer s .read m.privileged (start + BitVec.ofNat 32 (4 * k)) .word = .abort →
      ∃ t, exec (.ldm c p u sb w rn list) s = .next t ∧ abortEntered s t ∧ keepsMemory s t
        ∧ ∀ r, r ≠ .r14_abt → (∀ i ∈ listRegs list, phys bank i ≠ some r) → (w = true → phys m rn ≠ some r) →
          t.regs.get r = s.regs.get r)
    ∧ (blockRefusal s m sb w rn list (baseNotLowest rn list) sb = none → bank = (if sb then .user else m) →
      (∀ j, j < k → answer s .write m.privileged (start + BitVec.ofNat 32 (4 * j)) .word = .ok) →
      answer s .write m.privileged (start + BitVec.ofNat 32 (4 * k)) .word = .abort →
      ∃ t, exec (.stm c p u sb w rn list) s = .next t ∧ abortEntered s t
        ∧ (∀ i ∈ listRegs list, listRank list i < k →
            Memory.read s.platform.bigEnd t.mem (start + BitVec.ofNat 32 (4 * listRank list i)) .word = storedValue s bank i)
        ∧ keepsMemoryBut start (4 * k) s t
        ∧ (∀ x, x ∈ t.stored ↔ x ∈ s.stored ∨ ∃ j, j < k ∧ x = (start + BitVec.ofNat 32 (4 * j)).toNat / 4)
        ∧ ∀ r, r ≠ .r14_abt → (w = true → phys m rn ≠ some r) → t.regs.get r = s.regs.get r)

/-! ## Swaps -/

/-- SWP and SWPB: the datum at the address goes to Rd, zero-extended, and the old Rm to memory; with Rd = Rm they exchange; every other byte
reads as before (R310, R311). A rejected read or write takes Data Abort and leaves Rd and memory alone (R370). Registers that clash and a
misaligned address are refused (R313, R91). The return value and masks of the abort are the spec's general knowledge (log entry 28), the
register restrictions too (log entries 22 and 31); that the word joins the list of stored words is the model's form of R101 (log entry
16). -/
def Obligations.Swaps : Prop :=
  ∀ (c : Cond) (rn rd rm : Reg) (m : Mode) (s : State) (i : Instr) (wd : Width) (a : Word), executes c [rn, rd, rm] m s →
    (i, wd) ∈ [(Instr.swp c rn rd rm, Width.word), (.swpb c rn rd rm, .byte)] → a = s.readReg m rn →
    ((rd = 15 ∨ rm = 15 ∨ rn = 15 ∨ rn = rd ∨ rn = rm) → exec i s = .refused .swapClash)
      ∧ (rd ≠ 15 → rm ≠ 15 → rn ≠ 15 → rn ≠ rd → rn ≠ rm →
        (aligned wd a = false → exec i s = .refused .misalignedAccess)
        ∧ (aligned wd a = true → notAtTop s → answer s .read m.privileged a wd = .ok → answer s .write m.privileged a wd = .ok →
          ∃ t, exec i s = .next t ∧ t.readReg m rd = Memory.read s.platform.bigEnd s.mem a wd
            ∧ Memory.read s.platform.bigEnd t.mem a wd = lowBits wd (s.readReg m rm) ∧ keepsMemoryBut a (widthBytes wd) s t
            ∧ (∀ k, k ∈ t.stored ↔ k ∈ s.stored ∨ k = a.toNat / 4) ∧ keepsRegsBut m [rd] s t
            ∧ t.pc = s.pc + 4 ∧ t.cpsr = s.cpsr ∧ t.spsrs = s.spsrs ∧ keepsInputs s t ∧ t.drawn = s.drawn ∧ t.userLdm = false)
        ∧ (aligned wd a = true → (answer s .read m.privileged a wd = .abort ∨
              (answer s .read m.privileged a wd = .ok ∧ answer s .write m.privileged a wd = .abort)) →
          ∃ t, exec i s = .next t ∧ entered .dataAbort (s.pc + 8) s t))

/-! ## Instructions that trap -/

/-- SWI takes the Software Interrupt exception: `spsr_svc` gets the CPSR, `r14_svc` gets `cur + 4`, Supervisor mode, I set, F kept, pc 8;
flags, other registers and memory are as they were (R320, R356; the return value and the masks are the spec's general knowledge, log
entry 28). -/
def Obligations.SoftwareInterrupt : Prop :=
  ∀ (c : Cond) (number : BitVec 24) (m : Mode) (s : State), executes c [] m s →
    ∃ t, exec (.swi c number) s = .next t ∧ entered .softwareInterrupt (s.pc + 4) s t
      ∧ t.spsrs.svc = s.cpsr ∧ t.regs.r14_svc = s.pc + 4 ∧ t.pc = 8 ∧ t.cpsr.m = 0b10011 ∧ t.userLdm = false

/-- A word of the undefined instruction space, and CDP, LDC, STC, MCR and MRC, take the Undefined Instruction exception: no other register,
no memory (R334 to R340, R367; general knowledge of the spec, log entries 28 and 33). -/
def Obligations.UndefinedInstructions : Prop :=
  ∀ (c : Cond) (m : Mode) (s : State) (i : Instr) (names : List Reg), executes c names m s →
    (∃ hi lo, i = .undefined c hi lo) ∨ (∃ op1 crn crd cp op2 crm, i = .cdp c op1 crn crd cp op2 crm)
      ∨ (∃ p u n w rn crd cp off, names = [rn] ∧ (i = .ldc c p u n w rn crd cp off ∨ i = .stc c p u n w rn crd cp off))
      ∨ (∃ op1 crn rd cp op2 crm, names = [rd] ∧ (i = .mcr c op1 crn rd cp op2 crm ∨ i = .mrc c op1 crn rd cp op2 crm)) →
    ∃ t, exec i s = .next t ∧ entered .undefinedInstruction (s.pc + 4) s t
      ∧ t.spsrs.undef = s.cpsr ∧ t.regs.r14_undef = s.pc + 4 ∧ t.pc = 4 ∧ t.cpsr.m = 0b11011 ∧ t.userLdm = false

/-- A SWI and then `MOVS pc, lr` of its handler: the caller goes on after the SWI with the CPSR it had (R322, R358). -/
def Obligations.SoftwareInterruptReturns : Prop :=
  ∀ (c : Cond) (number : BitVec 24) (m : Mode) (s : State), executes c [] m s → field s.pc 0 2 = 0 →
    ∃ t u, exec (.swi c number) s = .next t
      ∧ exec (.movShiftImm .al 0 15 true 0 .lsl 14) t = .next u
      ∧ u.cpsr = s.cpsr ∧ u.pc = s.pc + 4 ∧ u.mode = some m ∧ keepsMemory s u
      ∧ ∀ p, p ≠ .r14_svc → u.regs.get p = s.regs.get p

/-! ## Exceptions between instructions -/

/-- The vector table: the address and the mode of each exception (R351). -/
def Obligations.VectorTable : Prop :=
  [Exn.reset, .undefinedInstruction, .softwareInterrupt, .prefetchAbort, .dataAbort, .irq, .fiq].map
      (fun e => (e.vector, e.mode)) =
    [(0x00000000, Mode.supervisor), (0x00000004, .undef), (0x00000008, .supervisor), (0x0000000C, .abort), (0x00000010, .abort),
     (0x00000018, .irq), (0x0000001C, .fiq)]
    ∧ ∀ (s : State) (e : Exn) (ra : Word), (s.takeException e ra).pc = e.vector ∧ (s.takeException e ra).pc ≠ 0x00000014
      ∧ (s.takeException e ra).mode = some e.mode

/-- While I = 1 no IRQ is taken and while F = 1 no FIQ is taken: the step is the one of a machine whose input is not asserted. A request
that is asserted with its bit clear is taken, FIQ first (R51; R362, R363, R364). That FIQ comes first, and that reset comes before both, is
the spec's general knowledge (log entry 28); that each step takes one sample and takes the request at once is the model's form of the
spec's own choice (D10, log entry 8). -/
def Obligations.InterruptMasks : Prop :=
  ∀ (s : State) (p : Pins) (ps : List Pins), s.pins = p :: ps →
    (s.cpsr.i = true → step s = step { s with pins := { p with irq := false } :: ps })
      ∧ (s.cpsr.f = true → step s = step { s with pins := { p with fiq := false } :: ps })
      ∧ ∀ m : Mode, s.cpsr.t = false → s.mode = some m → p.reset = false →
        (p.fiq = true → s.cpsr.f = false → ∃ t, step s = .next t ∧ t.pc = 0x1C ∧ t.mode = some .fiq)
          ∧ (p.irq = true → s.cpsr.i = false → (p.fiq = false ∨ s.cpsr.f = true) →
              ∃ t, step s = .next t ∧ t.pc = 0x18 ∧ t.mode = some .irq)

/-- FIQ and IRQ entry: the CPSR saved, the return value `next + 4`, I set, F set by FIQ only; memory and every other register are as they
were; the sample is used up (R356, R362 to R364; the return value and the masks are the spec's general knowledge, log entry 28). -/
def Obligations.InterruptEntry : Prop :=
  ∀ (s : State) (p : Pins) (ps : List Pins) (m : Mode), s.pins = p :: ps → s.cpsr.t = false → s.mode = some m → p.reset = false →
    ∀ e : Exn, (e = .fiq ∧ p.fiq = true ∧ s.cpsr.f = false)
        ∨ (e = .irq ∧ p.irq = true ∧ s.cpsr.i = false ∧ (p.fiq = false ∨ s.cpsr.f = true)) →
    ∃ t, step s = .next t ∧ entered e (s.pc + 4) { s with pins := ps } t

/-- A fetch the memory system rejects takes Prefetch Abort with the return value `cur + 4`, whatever the word's condition (R369; general
knowledge of the spec, log entry 28). -/
def Obligations.PrefetchAbort : Prop :=
  ∀ (s : State) (m : Mode), s.cpsr.t = false → s.mode = some m → s.sample.reset = false →
    (s.sample.fiq = false ∨ s.cpsr.f = true) → (s.sample.irq = false ∨ s.cpsr.i = true) → field s.pc 0 2 = 0 →
    answer s .fetch m.privileged s.pc .word = .abort →
    ∃ t, step s = .next t ∧ entered .prefetchAbort (s.pc + 4) s.sampled t ∧ t.pc = 0x0C

/-- The reset input is taken before everything else, in any state: Supervisor mode, I = F = 1, T = 0, pc 0; every register but r14_svc,
every SPSR but spsr_svc, memory and the platform are as they were (R361, R366; what r14_svc, spsr_svc and the flags hold is free, log
entry 14). That reset comes before everything else is the spec's general knowledge (R361, log entry 28); that it is taken from a state
with T = 1 or no legal mode too, and that nothing else changes but what is listed, is the model's choice (log entries 20 and 14). -/
def Obligations.ResetInput : Prop :=
  ∀ (s : State) (p : Pins) (ps : List Pins), s.pins = p :: ps → p.reset = true →
    ∃ t, step s = .next t ∧ t.cpsr.m = 0b10011 ∧ t.cpsr.i = true ∧ t.cpsr.f = true ∧ t.cpsr.t = false ∧ t.pc = 0
      ∧ (∀ r, r ≠ .r14_svc → t.regs.get r = s.regs.get r) ∧ (∀ n, n ≠ .svc → t.spsrs.get n = s.spsrs.get n)
      ∧ keepsMemory s t ∧ t.platform = s.platform ∧ t.pins = ps

/-- The machine after reset: Supervisor mode and pc 0 (R58, R400); I = F = 1 and T = 0 (log entry 4); no input asserted and ordinary
memory everywhere (log entries 6 and 8). -/
def Obligations.ResetState : Prop :=
  State.reset.mode = some .supervisor ∧ State.reset.pc = 0 ∧ State.reset.cpsr.i = true ∧ State.reset.cpsr.f = true
    ∧ State.reset.cpsr.t = false ∧ State.reset.pins = [] ∧ State.reset.platform = Platform.standard
    ∧ ∀ (kind : AccessKind) (privileged : Bool) (a : Word) (wd : Width), answer State.reset kind privileged a wd = .ok

/-! ## The machine as a whole -/

/-- A step runs the decoded instruction: with no exception due at the boundary, an aligned pc, an accepted fetch and a word the program
has not stored to that decodes to `i`, step is exec of `i` in the state whose sample of the inputs is used up (R364, R86). -/
def Obligations.StepRunsDecoded : Prop :=
  ∀ (s : State) (m : Mode) (i : Instr), s.cpsr.t = false → s.mode = some m → s.sample.reset = false →
    (s.sample.fiq = false ∨ s.cpsr.f = true) → (s.sample.irq = false ∨ s.cpsr.i = true) → field s.pc 0 2 = 0 →
    answer s .fetch m.privileged s.pc .word = .ok → s.pc.toNat / 4 ∉ s.stored →
    decode (Memory.read s.platform.bigEnd s.mem s.pc .word) = .ok i →
    step s = exec i s.sampled

/-- Every step keeps the invariant: memory in its canonical form, a legal mode, ARM state, a pc that is a multiple of 4, no T bit
in an SPSR of a core without the T variant (R8, R40, R46, R52). For every state that has it, reached or not. -/
def Obligations.StepKeepsInvariant : Prop := ∀ s t : State, Inv s → step s = .next t → Inv t

/-- The state after reset has the invariant. -/
def Obligations.ResetHasInvariant : Prop := Inv State.reset

/-- No step changes the platform, and every step takes one sample of the inputs (R8, R364). -/
def Obligations.StepKeepsPlatform : Prop :=
  ∀ s t : State, step s = .next t → t.platform = s.platform ∧ t.pins = s.pins.tail

/-- From User mode the control bits change only by an exception: after any step from User mode either I, F, T and M are as they were, or
an exception was taken, with its mode, its vector, I set, T clear and, but for reset, the old CPSR saved (R374, R55, R356; log entry 27;
the masks: log entry 28). -/
def Obligations.UserModeControlBits : Prop :=
  ∀ s t : State, s.mode = some .user → step s = .next t →
    (t.cpsr.i = s.cpsr.i ∧ t.cpsr.f = s.cpsr.f ∧ t.cpsr.t = s.cpsr.t ∧ t.cpsr.m = s.cpsr.m)
      ∨ ∃ e : Exn, t.cpsr.m = e.mode.bits ∧ t.pc = e.vector ∧ t.cpsr.i = true ∧ t.cpsr.t = false
        ∧ (e = .reset ∨ t.spsrs.get e.saved = s.cpsr)

/-- What belongs to the privileged modes is out of reach of User mode: a step from User mode that stays in it changes no SPSR and no
register but the sixteen User mode sees (R36, R375, R373). -/
def Obligations.UserModeIsolation : Prop :=
  ∀ s t : State, s.mode = some .user → step s = .next t → t.mode = some .user →
    t.spsrs = s.spsrs ∧ ∀ p, (∀ i, phys .user i ≠ some p) → t.regs.get p = s.regs.get p
end

