-- ==== Sys2Proof/Laws/Encoding.lean ====
section
/-! SUPPORT. Laws of the encoder's `pack`: where the fields of a word stand. -/

namespace Sys2Proof

/-- The number a list of fields stands for, the most significant first. -/
def packNat (acc : Nat) (fields : List (Nat × Nat)) : Nat := fields.foldl (fun acc f => acc * 2 ^ f.1 + f.2) acc

/-- How many bits a list of fields takes. -/
def packWidth (fields : List (Nat × Nat)) : Nat := (fields.map (·.1)).sum

/-- Every field's value fits its width. -/
def fits (fields : List (Nat × Nat)) : Prop := ∀ f ∈ fields, f.2 < 2 ^ f.1

theorem fits_nil : fits [] := fun _ h => nomatch h

theorem fits_cons {n v : Nat} {fs : List (Nat × Nat)} (hv : v < 2 ^ n) (h : fits fs) : fits ((n, v) :: fs) := by
  intro f hf
  rcases List.mem_cons.mp hf with rfl | hf
  · exact hv
  · exact h f hf

theorem fits_bits {n : Nat} (b : BitVec n) {fs : List (Nat × Nat)} (h : fits fs) : fits ((n, b.toNat) :: fs) := fits_cons b.isLt h

theorem fits_bit (b : Bool) {fs : List (Nat × Nat)} (h : fits fs) : fits ((1, b.toNat) :: fs) := fits_cons (Bool.toNat_lt b) h

theorem pack_eq (fields : List (Nat × Nat)) : pack fields = BitVec.ofNat 32 (packNat 0 fields) := rfl

/-- What stands above some fields is moved up by their widths. -/
theorem packNat_eq (acc : Nat) (fields : List (Nat × Nat)) :
    packNat acc fields = acc * 2 ^ packWidth fields + packNat 0 fields := by
  induction fields generalizing acc with
  | nil => simp [packNat, packWidth]
  | cons f fs ih =>
    have h1 : packNat acc (f :: fs) = packNat (acc * 2 ^ f.1 + f.2) fs := rfl
    have h2 : packNat 0 (f :: fs) = packNat f.2 fs := by simp [packNat]
    have h3 : packWidth (f :: fs) = f.1 + packWidth fs := by simp [packWidth]
    rw [h1, h2, h3, ih, ih f.2, Nat.add_mul, Nat.pow_add, Nat.mul_assoc, Nat.add_assoc]

/-- Fields that fit make a number that fits. -/
theorem packNat_lt {fields : List (Nat × Nat)} (h : fits fields) : packNat 0 fields < 2 ^ packWidth fields := by
  induction fields with
  | nil => simp [packNat, packWidth]
  | cons f fs ih =>
    have h2 : packNat 0 (f :: fs) = packNat f.2 fs := by simp [packNat]
    have h3 : packWidth (f :: fs) = f.1 + packWidth fs := by simp [packWidth]
    have hf := h f (by simp)
    have hfs := ih fun g hg => h g (by simp [hg])
    rw [h2, h3, packNat_eq, Nat.pow_add]
    calc f.2 * 2 ^ packWidth fs + packNat 0 fs < f.2 * 2 ^ packWidth fs + 2 ^ packWidth fs := by omega
      _ = (f.2 + 1) * 2 ^ packWidth fs := by rw [Nat.succ_mul]
      _ ≤ 2 ^ f.1 * 2 ^ packWidth fs := Nat.mul_le_mul_right _ hf

/-- The first field of a 32-bit word stands in its top bits. -/
theorem field_pack_head (b : BitVec 4) (fields : List (Nat × Nat)) (hw : packWidth fields = 28) (h : fits fields) :
    field (pack ((4, b.toNat) :: fields)) 28 4 = b := by
  have hl := packNat_lt h
  rw [hw] at hl
  have he : packNat 0 ((4, b.toNat) :: fields) = packNat b.toNat fields := by simp [packNat]
  apply BitVec.eq_of_toNat_eq
  rw [field, BitVec.extractLsb'_toNat, pack_eq, he, packNat_eq, hw, BitVec.toNat_ofNat, Nat.shiftRight_eq_div_pow]
  have := b.isLt
  omega

end Sys2Proof
end

