-- ==== Sys2Proof/Laws/State.lean ====
section
/-! SUPPORT. One lemma per field per update of the state: what each named update leaves in each field. -/

namespace Sys2Proof.Machine

/-! ## `setReg` -/

@[simp] theorem State.setReg_cpsr (s : State) (m : Mode) (i : Reg) (v : Word) :
    (s.setReg m i v).cpsr = s.cpsr := by
  unfold State.setReg; split <;> rfl

@[simp] theorem State.setReg_spsrs (s : State) (m : Mode) (i : Reg) (v : Word) :
    (s.setReg m i v).spsrs = s.spsrs := by
  unfold State.setReg; split <;> rfl

@[simp] theorem State.setReg_mem (s : State) (m : Mode) (i : Reg) (v : Word) :
    (s.setReg m i v).mem = s.mem := by
  unfold State.setReg; split <;> rfl

@[simp] theorem State.setReg_userLdm (s : State) (m : Mode) (i : Reg) (v : Word) :
    (s.setReg m i v).userLdm = s.userLdm := by
  unfold State.setReg; split <;> rfl

@[simp] theorem State.setReg_stored (s : State) (m : Mode) (i : Reg) (v : Word) :
    (s.setReg m i v).stored = s.stored := by
  unfold State.setReg; split <;> rfl

@[simp] theorem State.setReg_pins (s : State) (m : Mode) (i : Reg) (v : Word) :
    (s.setReg m i v).pins = s.pins := by
  unfold State.setReg; split <;> rfl

@[simp] theorem State.setReg_drawn (s : State) (m : Mode) (i : Reg) (v : Word) :
    (s.setReg m i v).drawn = s.drawn := by
  unfold State.setReg; split <;> rfl

@[simp] theorem State.setReg_platform (s : State) (m : Mode) (i : Reg) (v : Word) :
    (s.setReg m i v).platform = s.platform := by
  unfold State.setReg; split <;> rfl

/-! ## `stores` -/

@[simp] theorem State.stores_regs (s : State) (a : Word) (wd : Width) (v : Word) :
    (s.stores a wd v).regs = s.regs := rfl

@[simp] theorem State.stores_pc (s : State) (a : Word) (wd : Width) (v : Word) :
    (s.stores a wd v).pc = s.pc := rfl

@[simp] theorem State.stores_cpsr (s : State) (a : Word) (wd : Width) (v : Word) :
    (s.stores a wd v).cpsr = s.cpsr := rfl

@[simp] theorem State.stores_spsrs (s : State) (a : Word) (wd : Width) (v : Word) :
    (s.stores a wd v).spsrs = s.spsrs := rfl

@[simp] theorem State.stores_mem (s : State) (a : Word) (wd : Width) (v : Word) :
    (s.stores a wd v).mem = Memory.write s.platform.bigEnd s.mem a wd v := rfl

@[simp] theorem State.stores_userLdm (s : State) (a : Word) (wd : Width) (v : Word) :
    (s.stores a wd v).userLdm = s.userLdm := rfl

@[simp] theorem State.stores_stored (s : State) (a : Word) (wd : Width) (v : Word) :
    (s.stores a wd v).stored = addStored s.stored (a.toNat / 4) := rfl

@[simp] theorem State.stores_pins (s : State) (a : Word) (wd : Width) (v : Word) :
    (s.stores a wd v).pins = s.pins := rfl

@[simp] theorem State.stores_drawn (s : State) (a : Word) (wd : Width) (v : Word) :
    (s.stores a wd v).drawn = s.drawn := rfl

@[simp] theorem State.stores_platform (s : State) (a : Word) (wd : Width) (v : Word) :
    (s.stores a wd v).platform = s.platform := rfl

/-! ## `takeException` -/

@[simp] theorem State.takeException_regs (s : State) (e : Exn) (ra : Word) :
    (s.takeException e ra).regs = s.regs.set e.link ra := rfl

@[simp] theorem State.takeException_pc (s : State) (e : Exn) (ra : Word) :
    (s.takeException e ra).pc = e.vector := rfl

@[simp] theorem State.takeException_cpsr (s : State) (e : Exn) (ra : Word) :
    (s.takeException e ra).cpsr = { s.cpsr with t := false, m := e.mode.bits, i := true, f := s.cpsr.f || e.masksFiq } := rfl

@[simp] theorem State.takeException_spsrs (s : State) (e : Exn) (ra : Word) :
    (s.takeException e ra).spsrs = s.spsrs.set e.saved s.cpsr := rfl

@[simp] theorem State.takeException_mem (s : State) (e : Exn) (ra : Word) :
    (s.takeException e ra).mem = s.mem := rfl

@[simp] theorem State.takeException_userLdm (s : State) (e : Exn) (ra : Word) :
    (s.takeException e ra).userLdm = s.userLdm := rfl

@[simp] theorem State.takeException_stored (s : State) (e : Exn) (ra : Word) :
    (s.takeException e ra).stored = s.stored := rfl

@[simp] theorem State.takeException_pins (s : State) (e : Exn) (ra : Word) :
    (s.takeException e ra).pins = s.pins := rfl

@[simp] theorem State.takeException_drawn (s : State) (e : Exn) (ra : Word) :
    (s.takeException e ra).drawn = s.drawn := rfl

@[simp] theorem State.takeException_platform (s : State) (e : Exn) (ra : Word) :
    (s.takeException e ra).platform = s.platform := rfl

/-! ## `takeReset` -/

@[simp] theorem State.takeReset_regs (s : State) :
    (s.takeReset).regs = s.regs.set .r14_svc (Config.freeWord s.drawn) := rfl

@[simp] theorem State.takeReset_pc (s : State) :
    (s.takeReset).pc = 0 := rfl

@[simp] theorem State.takeReset_cpsr (s : State) :
    (s.takeReset).cpsr = { n := Config.freeBit s.drawn, z := Config.freeBit (s.drawn + 1), c := Config.freeBit (s.drawn + 2), v := Config.freeBit (s.drawn + 3), i := true, f := true, t := false, m := 0b10011 } := rfl

@[simp] theorem State.takeReset_spsrs (s : State) :
    (s.takeReset).spsrs = s.spsrs.set .svc (Psr.written s.platform.hasT (Config.freeWord (s.drawn + 1))) := rfl

@[simp] theorem State.takeReset_mem (s : State) :
    (s.takeReset).mem = s.mem := rfl

@[simp] theorem State.takeReset_userLdm (s : State) :
    (s.takeReset).userLdm = false := rfl

@[simp] theorem State.takeReset_stored (s : State) :
    (s.takeReset).stored = s.stored := rfl

@[simp] theorem State.takeReset_pins (s : State) :
    (s.takeReset).pins = s.pins := rfl

@[simp] theorem State.takeReset_drawn (s : State) :
    (s.takeReset).drawn = s.drawn + 4 := rfl

@[simp] theorem State.takeReset_platform (s : State) :
    (s.takeReset).platform = s.platform := rfl

/-! ## `sampled` -/

@[simp] theorem State.sampled_regs (s : State) :
    (s.sampled).regs = s.regs := rfl

@[simp] theorem State.sampled_pc (s : State) :
    (s.sampled).pc = s.pc := rfl

@[simp] theorem State.sampled_cpsr (s : State) :
    (s.sampled).cpsr = s.cpsr := rfl

@[simp] theorem State.sampled_spsrs (s : State) :
    (s.sampled).spsrs = s.spsrs := rfl

@[simp] theorem State.sampled_mem (s : State) :
    (s.sampled).mem = s.mem := rfl

@[simp] theorem State.sampled_userLdm (s : State) :
    (s.sampled).userLdm = s.userLdm := rfl

@[simp] theorem State.sampled_stored (s : State) :
    (s.sampled).stored = s.stored := rfl

@[simp] theorem State.sampled_pins (s : State) :
    (s.sampled).pins = s.pins.tail := rfl

@[simp] theorem State.sampled_drawn (s : State) :
    (s.sampled).drawn = s.drawn := rfl

@[simp] theorem State.sampled_platform (s : State) :
    (s.sampled).platform = s.platform := rfl

/-! ## `placeWord` -/

@[simp] theorem State.placeWord_regs (s : State) (w : Word) :
    (s.placeWord w).regs = s.regs := rfl

@[simp] theorem State.placeWord_pc (s : State) (w : Word) :
    (s.placeWord w).pc = s.pc := rfl

@[simp] theorem State.placeWord_cpsr (s : State) (w : Word) :
    (s.placeWord w).cpsr = s.cpsr := rfl

@[simp] theorem State.placeWord_spsrs (s : State) (w : Word) :
    (s.placeWord w).spsrs = s.spsrs := rfl

@[simp] theorem State.placeWord_mem (s : State) (w : Word) :
    (s.placeWord w).mem = Memory.write s.platform.bigEnd s.mem s.pc .word w := rfl

@[simp] theorem State.placeWord_userLdm (s : State) (w : Word) :
    (s.placeWord w).userLdm = s.userLdm := rfl

@[simp] theorem State.placeWord_stored (s : State) (w : Word) :
    (s.placeWord w).stored = s.stored.filter fun k => k != s.pc.toNat / 4 := rfl

@[simp] theorem State.placeWord_pins (s : State) (w : Word) :
    (s.placeWord w).pins = s.pins := rfl

@[simp] theorem State.placeWord_drawn (s : State) (w : Word) :
    (s.placeWord w).drawn = s.drawn := rfl

@[simp] theorem State.placeWord_platform (s : State) (w : Word) :
    (s.placeWord w).platform = s.platform := rfl

/-! ## `freeReg` and `freeRegs` -/

@[simp] theorem State.freeReg_cpsr (s : State) (m : Mode) (i : Reg) :
    (s.freeReg m i).cpsr = s.cpsr := by simp [State.freeReg]

@[simp] theorem State.freeReg_spsrs (s : State) (m : Mode) (i : Reg) :
    (s.freeReg m i).spsrs = s.spsrs := by simp [State.freeReg]

@[simp] theorem State.freeReg_mem (s : State) (m : Mode) (i : Reg) :
    (s.freeReg m i).mem = s.mem := by simp [State.freeReg]

@[simp] theorem State.freeReg_userLdm (s : State) (m : Mode) (i : Reg) :
    (s.freeReg m i).userLdm = s.userLdm := by simp [State.freeReg]

@[simp] theorem State.freeReg_stored (s : State) (m : Mode) (i : Reg) :
    (s.freeReg m i).stored = s.stored := by simp [State.freeReg]

@[simp] theorem State.freeReg_pins (s : State) (m : Mode) (i : Reg) :
    (s.freeReg m i).pins = s.pins := by simp [State.freeReg]

@[simp] theorem State.freeReg_drawn (s : State) (m : Mode) (i : Reg) :
    (s.freeReg m i).drawn = s.drawn + 1 := rfl

@[simp] theorem State.freeReg_platform (s : State) (m : Mode) (i : Reg) :
    (s.freeReg m i).platform = s.platform := by simp [State.freeReg]

@[simp] theorem State.freeRegs_cpsr (m : Mode) (is : List Reg) (s : State) :
    (State.freeRegs m s is).cpsr = s.cpsr := by
  induction is generalizing s with
  | nil => rfl
  | cons i is ih => simp [State.freeRegs, ih]

@[simp] theorem State.freeRegs_spsrs (m : Mode) (is : List Reg) (s : State) :
    (State.freeRegs m s is).spsrs = s.spsrs := by
  induction is generalizing s with
  | nil => rfl
  | cons i is ih => simp [State.freeRegs, ih]

@[simp] theorem State.freeRegs_mem (m : Mode) (is : List Reg) (s : State) :
    (State.freeRegs m s is).mem = s.mem := by
  induction is generalizing s with
  | nil => rfl
  | cons i is ih => simp [State.freeRegs, ih]

@[simp] theorem State.freeRegs_userLdm (m : Mode) (is : List Reg) (s : State) :
    (State.freeRegs m s is).userLdm = s.userLdm := by
  induction is generalizing s with
  | nil => rfl
  | cons i is ih => simp [State.freeRegs, ih]

@[simp] theorem State.freeRegs_stored (m : Mode) (is : List Reg) (s : State) :
    (State.freeRegs m s is).stored = s.stored := by
  induction is generalizing s with
  | nil => rfl
  | cons i is ih => simp [State.freeRegs, ih]

@[simp] theorem State.freeRegs_pins (m : Mode) (is : List Reg) (s : State) :
    (State.freeRegs m s is).pins = s.pins := by
  induction is generalizing s with
  | nil => rfl
  | cons i is ih => simp [State.freeRegs, ih]

@[simp] theorem State.freeRegs_drawn (m : Mode) (is : List Reg) (s : State) :
    (State.freeRegs m s is).drawn = s.drawn + is.length := by
  induction is generalizing s with
  | nil => rfl
  | cons i is ih => simp [State.freeRegs, ih]; omega

@[simp] theorem State.freeRegs_platform (m : Mode) (is : List Reg) (s : State) :
    (State.freeRegs m s is).platform = s.platform := by
  induction is generalizing s with
  | nil => rfl
  | cons i is ih => simp [State.freeRegs, ih]

/-! ## `loadRegs` -/

@[simp] theorem State.loadRegs_cpsr (m : Mode) (xs : List (Reg × Word)) (s : State) :
    (State.loadRegs m s xs).cpsr = s.cpsr := by
  induction xs generalizing s with
  | nil => rfl
  | cons x xs ih => simp [State.loadRegs, ih]

@[simp] theorem State.loadRegs_spsrs (m : Mode) (xs : List (Reg × Word)) (s : State) :
    (State.loadRegs m s xs).spsrs = s.spsrs := by
  induction xs generalizing s with
  | nil => rfl
  | cons x xs ih => simp [State.loadRegs, ih]

@[simp] theorem State.loadRegs_mem (m : Mode) (xs : List (Reg × Word)) (s : State) :
    (State.loadRegs m s xs).mem = s.mem := by
  induction xs generalizing s with
  | nil => rfl
  | cons x xs ih => simp [State.loadRegs, ih]

@[simp] theorem State.loadRegs_userLdm (m : Mode) (xs : List (Reg × Word)) (s : State) :
    (State.loadRegs m s xs).userLdm = s.userLdm := by
  induction xs generalizing s with
  | nil => rfl
  | cons x xs ih => simp [State.loadRegs, ih]

@[simp] theorem State.loadRegs_stored (m : Mode) (xs : List (Reg × Word)) (s : State) :
    (State.loadRegs m s xs).stored = s.stored := by
  induction xs generalizing s with
  | nil => rfl
  | cons x xs ih => simp [State.loadRegs, ih]

@[simp] theorem State.loadRegs_pins (m : Mode) (xs : List (Reg × Word)) (s : State) :
    (State.loadRegs m s xs).pins = s.pins := by
  induction xs generalizing s with
  | nil => rfl
  | cons x xs ih => simp [State.loadRegs, ih]

@[simp] theorem State.loadRegs_drawn (m : Mode) (xs : List (Reg × Word)) (s : State) :
    (State.loadRegs m s xs).drawn = s.drawn := by
  induction xs generalizing s with
  | nil => rfl
  | cons x xs ih => simp [State.loadRegs, ih]

@[simp] theorem State.loadRegs_platform (m : Mode) (xs : List (Reg × Word)) (s : State) :
    (State.loadRegs m s xs).platform = s.platform := by
  induction xs generalizing s with
  | nil => rfl
  | cons x xs ih => simp [State.loadRegs, ih]

/-! ## `setPair`, `updateBase`, `blockWriteBack` and `freeBase` -/

@[simp] theorem State.setPair_cpsr (s : State) (m : Mode) (h l : Reg) (p : BitVec 64) :
    (s.setPair m h l p).cpsr = s.cpsr := by simp [State.setPair]

@[simp] theorem State.setPair_spsrs (s : State) (m : Mode) (h l : Reg) (p : BitVec 64) :
    (s.setPair m h l p).spsrs = s.spsrs := by simp [State.setPair]

@[simp] theorem State.setPair_mem (s : State) (m : Mode) (h l : Reg) (p : BitVec 64) :
    (s.setPair m h l p).mem = s.mem := by simp [State.setPair]

@[simp] theorem State.setPair_userLdm (s : State) (m : Mode) (h l : Reg) (p : BitVec 64) :
    (s.setPair m h l p).userLdm = s.userLdm := by simp [State.setPair]

@[simp] theorem State.setPair_stored (s : State) (m : Mode) (h l : Reg) (p : BitVec 64) :
    (s.setPair m h l p).stored = s.stored := by simp [State.setPair]

@[simp] theorem State.setPair_pins (s : State) (m : Mode) (h l : Reg) (p : BitVec 64) :
    (s.setPair m h l p).pins = s.pins := by simp [State.setPair]

@[simp] theorem State.setPair_drawn (s : State) (m : Mode) (h l : Reg) (p : BitVec 64) :
    (s.setPair m h l p).drawn = s.drawn := by simp [State.setPair]

@[simp] theorem State.setPair_platform (s : State) (m : Mode) (h l : Reg) (p : BitVec 64) :
    (s.setPair m h l p).platform = s.platform := by simp [State.setPair]

@[simp] theorem updateBase_cpsr (s : State) (m : Mode) (ix : Indexing) (rn : Reg) (v : Word) :
    (updateBase s m ix rn v).cpsr = s.cpsr := by
  unfold updateBase; split <;> simp

@[simp] theorem updateBase_spsrs (s : State) (m : Mode) (ix : Indexing) (rn : Reg) (v : Word) :
    (updateBase s m ix rn v).spsrs = s.spsrs := by
  unfold updateBase; split <;> simp

@[simp] theorem updateBase_mem (s : State) (m : Mode) (ix : Indexing) (rn : Reg) (v : Word) :
    (updateBase s m ix rn v).mem = s.mem := by
  unfold updateBase; split <;> simp

@[simp] theorem updateBase_userLdm (s : State) (m : Mode) (ix : Indexing) (rn : Reg) (v : Word) :
    (updateBase s m ix rn v).userLdm = s.userLdm := by
  unfold updateBase; split <;> simp

@[simp] theorem updateBase_stored (s : State) (m : Mode) (ix : Indexing) (rn : Reg) (v : Word) :
    (updateBase s m ix rn v).stored = s.stored := by
  unfold updateBase; split <;> simp

@[simp] theorem updateBase_pins (s : State) (m : Mode) (ix : Indexing) (rn : Reg) (v : Word) :
    (updateBase s m ix rn v).pins = s.pins := by
  unfold updateBase; split <;> simp

@[simp] theorem updateBase_drawn (s : State) (m : Mode) (ix : Indexing) (rn : Reg) (v : Word) :
    (updateBase s m ix rn v).drawn = s.drawn := by
  unfold updateBase; split <;> simp

@[simp] theorem updateBase_platform (s : State) (m : Mode) (ix : Indexing) (rn : Reg) (v : Word) :
    (updateBase s m ix rn v).platform = s.platform := by
  unfold updateBase; split <;> simp

@[simp] theorem blockWriteBack_cpsr (m : Mode) (w : Bool) (rn : Reg) (v : Word) (s : State) :
    (blockWriteBack m w rn v s).cpsr = s.cpsr := by
  unfold blockWriteBack; split <;> simp

@[simp] theorem blockWriteBack_spsrs (m : Mode) (w : Bool) (rn : Reg) (v : Word) (s : State) :
    (blockWriteBack m w rn v s).spsrs = s.spsrs := by
  unfold blockWriteBack; split <;> simp

@[simp] theorem blockWriteBack_mem (m : Mode) (w : Bool) (rn : Reg) (v : Word) (s : State) :
    (blockWriteBack m w rn v s).mem = s.mem := by
  unfold blockWriteBack; split <;> simp

@[simp] theorem blockWriteBack_userLdm (m : Mode) (w : Bool) (rn : Reg) (v : Word) (s : State) :
    (blockWriteBack m w rn v s).userLdm = s.userLdm := by
  unfold blockWriteBack; split <;> simp

@[simp] theorem blockWriteBack_stored (m : Mode) (w : Bool) (rn : Reg) (v : Word) (s : State) :
    (blockWriteBack m w rn v s).stored = s.stored := by
  unfold blockWriteBack; split <;> simp

@[simp] theorem blockWriteBack_pins (m : Mode) (w : Bool) (rn : Reg) (v : Word) (s : State) :
    (blockWriteBack m w rn v s).pins = s.pins := by
  unfold blockWriteBack; split <;> simp

@[simp] theorem blockWriteBack_drawn (m : Mode) (w : Bool) (rn : Reg) (v : Word) (s : State) :
    (blockWriteBack m w rn v s).drawn = s.drawn := by
  unfold blockWriteBack; split <;> simp

@[simp] theorem blockWriteBack_platform (m : Mode) (w : Bool) (rn : Reg) (v : Word) (s : State) :
    (blockWriteBack m w rn v s).platform = s.platform := by
  unfold blockWriteBack; split <;> simp

@[simp] theorem freeBase_cpsr (m : Mode) (w : Bool) (rn : Reg) (s : State) :
    (freeBase m w rn s).cpsr = s.cpsr := by
  unfold freeBase; split <;> simp

@[simp] theorem freeBase_spsrs (m : Mode) (w : Bool) (rn : Reg) (s : State) :
    (freeBase m w rn s).spsrs = s.spsrs := by
  unfold freeBase; split <;> simp

@[simp] theorem freeBase_mem (m : Mode) (w : Bool) (rn : Reg) (s : State) :
    (freeBase m w rn s).mem = s.mem := by
  unfold freeBase; split <;> simp

@[simp] theorem freeBase_userLdm (m : Mode) (w : Bool) (rn : Reg) (s : State) :
    (freeBase m w rn s).userLdm = s.userLdm := by
  unfold freeBase; split <;> simp

@[simp] theorem freeBase_stored (m : Mode) (w : Bool) (rn : Reg) (s : State) :
    (freeBase m w rn s).stored = s.stored := by
  unfold freeBase; split <;> simp

@[simp] theorem freeBase_pins (m : Mode) (w : Bool) (rn : Reg) (s : State) :
    (freeBase m w rn s).pins = s.pins := by
  unfold freeBase; split <;> simp

@[simp] theorem freeBase_platform (m : Mode) (w : Bool) (rn : Reg) (s : State) :
    (freeBase m w rn s).platform = s.platform := by
  unfold freeBase; split <;> simp

/-! ## The mode -/

theorem State.mode_congr {s t : State} (h : t.cpsr = s.cpsr) (k : t.platform = s.platform) : t.mode = s.mode := by
  simp only [State.mode, h, k]

@[simp] theorem State.setReg_mode (s : State) (m : Mode) (i : Reg) (v : Word) : (s.setReg m i v).mode = s.mode :=
  State.mode_congr (by simp) (by simp)

@[simp] theorem State.sampled_mode (s : State) : s.sampled.mode = s.mode := rfl

@[simp] theorem State.stores_mode (s : State) (a : Word) (wd : Width) (v : Word) : (s.stores a wd v).mode = s.mode := rfl

end Sys2Proof.Machine
end

