-- ==== Sys2Proof/Laws/Memory.lean ====
section
/-! SUPPORT. Laws of memory: what one byte reads as after a write, the canonical form, and what each operation over several bytes
or words can do. -/

namespace Sys2Proof.Machine

/-! ## One byte -/

theorem Memory.get_remove_same (m : Memory) (a : Nat) : Memory.get (Memory.remove m a) a = unwrittenByte := by
  induction m with
  | nil => rfl
  | cons c m ih =>
    by_cases h : c.1 = a
    · simpa [Memory.remove, h] using ih
    · simpa [Memory.remove, Memory.get, h] using ih

theorem Memory.get_remove_other (m : Memory) {a x : Nat} (h : x ≠ a) : Memory.get (Memory.remove m a) x = Memory.get m x := by
  induction m with
  | nil => rfl
  | cons c m ih =>
    simp only [Memory.remove] at ih ⊢
    by_cases hc : c.1 = a
    · have : c.1 ≠ x := fun e => h (e.symm.trans hc)
      simpa [Memory.get, hc, h.symm] using ih
    · simp only [List.filter_cons, hc, bne_iff_ne, ne_eq, not_false_eq_true, if_true, Memory.get, ih]

theorem Memory.get_insert_same (m : Memory) (a : Nat) (v : Byte) (h : ∀ c ∈ m, c.1 ≠ a) :
    Memory.get (Memory.insert m a v) a = v := by
  induction m with
  | nil => simp [Memory.insert, Memory.get]
  | cons c m ih =>
    have hc : c.1 ≠ a := h c (by simp)
    simp only [Memory.insert]
    split
    · simp [Memory.get]
    · simpa [Memory.get, hc] using ih fun d hd => h d (by simp [hd])

theorem Memory.get_insert_other (m : Memory) {a x : Nat} (v : Byte) (h : x ≠ a) :
    Memory.get (Memory.insert m a v) x = Memory.get m x := by
  induction m with
  | nil => simp [Memory.insert, Memory.get, h.symm]
  | cons c m ih =>
    simp only [Memory.insert]
    split
    · simp [Memory.get, h.symm]
    · simp only [Memory.get, ih]

/-- Reading one byte after writing one. -/
theorem Memory.get_set (m : Memory) (a x : Nat) (v : Byte) :
    Memory.get (Memory.set m a v) x = if x = a then v else Memory.get m x := by
  unfold Memory.set
  split
  · next hv =>
    split
    · next h => rw [h, Memory.get_remove_same, hv]
    · next h => exact Memory.get_remove_other m h
  · split
    · next h =>
      subst h
      exact Memory.get_insert_same _ _ _ fun c hc => by simpa using (List.mem_filter.mp hc).2
    · next h => rw [Memory.get_insert_other _ _ h, Memory.get_remove_other m h]

/-! ## The canonical form -/

theorem Memory.wf_nil : Memory.wf [] := by simp [Memory.wf]

theorem Memory.wf_remove {m : Memory} (h : Memory.wf m) (a : Nat) : Memory.wf (Memory.remove m a) :=
  ⟨h.1.filter _, fun c hc => h.2 c (List.mem_of_mem_filter hc)⟩

theorem Memory.mem_insert {m : Memory} {a : Nat} {v : Byte} {c : Host.Cell} :
    c ∈ Memory.insert m a v ↔ c = (a, v) ∨ c ∈ m := by
  induction m with
  | nil => simp [Memory.insert]
  | cons d m ih =>
    simp only [Memory.insert]
    split
    · simp
    · simp only [List.mem_cons, ih]; tauto

theorem Memory.wf_insert {m : Memory} (h : Memory.wf m) {a : Nat} {v : Byte} (ha : a < 4294967296) (hv : v ≠ unwrittenByte)
    (hn : ∀ c ∈ m, c.1 ≠ a) : Memory.wf (Memory.insert m a v) := by
  refine ⟨?_, fun c hc => ?_⟩
  · obtain ⟨h, -⟩ := h
    induction m with
    | nil => simp [Memory.insert]
    | cons d m ih =>
      rw [List.pairwise_cons] at h
      simp only [Memory.insert]
      split
      · next hd =>
        refine List.pairwise_cons.mpr ⟨fun c hc => ?_, List.pairwise_cons.mpr h⟩
        rcases List.mem_cons.mp hc with rfl | hc
        · exact hd
        · exact hd.trans (h.1 c hc)
      · next hd =>
        refine List.pairwise_cons.mpr ⟨fun c hc => ?_, ih (fun c hc => hn c (by simp [hc])) h.2⟩
        rcases Memory.mem_insert.mp hc with rfl | hc
        · have := hn d (by simp)
          simp only at hd ⊢; omega
        · exact h.1 c hc
  · rcases Memory.mem_insert.mp hc with rfl | hc
    · exact ⟨hv, ha⟩
    · exact h.2 c hc

theorem Memory.wf_set {m : Memory} (h : Memory.wf m) {a : Nat} (v : Byte) (ha : a < 4294967296) :
    Memory.wf (Memory.set m a v) := by
  unfold Memory.set
  split
  · exact Memory.wf_remove h a
  · next hv =>
    exact Memory.wf_insert (Memory.wf_remove h a) ha hv fun c hc => by simpa using (List.mem_filter.mp hc).2

theorem Memory.wf_writeBytes {m : Memory} (h : Memory.wf m) (a : Word) (bs : List Byte) :
    Memory.wf (Memory.writeBytes m a bs) := by
  induction bs generalizing m a with
  | nil => exact h
  | cons b bs ih => exact ih (Memory.wf_set h b a.isLt) (a + 1)

theorem Memory.wf_write {m : Memory} (h : Memory.wf m) (be : Bool) (a : Word) (wd : Width) (v : Word) :
    Memory.wf (Memory.write be m a wd v) := Memory.wf_writeBytes h a _

theorem State.stores_wf {s : State} (h : Memory.wf s.mem) (a : Word) (wd : Width) (v : Word) :
    Memory.wf (s.stores a wd v).mem := Memory.wf_write h _ a wd v

theorem State.placeWord_wf {s : State} (h : Memory.wf s.mem) (w : Word) : Memory.wf (s.placeWord w).mem :=
  Memory.wf_write h _ _ _ w

theorem State.withFetchWord_wf {s : State} (h : Memory.wf s.mem) (n w : Nat) : Memory.wf (s.withFetchWord n w).mem :=
  State.placeWord_wf h _

theorem State.reset_wf : Memory.wf State.reset.mem := Memory.wf_nil

/-- Memories in canonical form that read alike are one list. -/
theorem Memory.ext_get {m n : Memory} (hm : Memory.wf m) (hn : Memory.wf n) (h : ∀ a, Memory.get m a = Memory.get n a) : m = n := by
  have below : ∀ (l : Memory) (a : Nat), (∀ c ∈ l, a < c.1) → Memory.get l a = unwrittenByte := by
    intro l a hl
    induction l with
    | nil => rfl
    | cons c l ih =>
      have := hl c (by simp)
      simp only [Memory.get, if_neg (Nat.ne_of_gt this)]
      exact ih fun d hd => hl d (by simp [hd])
  induction m generalizing n with
  | nil =>
    cases n with
    | nil => rfl
    | cons d n =>
      have := h d.1
      simp only [Memory.get, if_true] at this
      exact absurd this.symm (hn.2 d (by simp)).1
  | cons c m ih =>
    have hm1 := List.pairwise_cons.mp hm.1
    cases n with
    | nil =>
      have := h c.1
      simp only [Memory.get, if_true] at this
      exact absurd this (hm.2 c (by simp)).1
    | cons d n =>
      have hn1 := List.pairwise_cons.mp hn.1
      have hcd : c.1 = d.1 := by
        rcases Nat.lt_trichotomy c.1 d.1 with l | e | g
        · have := h c.1
          rw [below (d :: n) c.1 (fun x hx => by
            rcases List.mem_cons.mp hx with rfl | hx
            · exact l
            · exact l.trans (hn1.1 x hx))] at this
          simp only [Memory.get, if_true] at this
          exact absurd this (hm.2 c (by simp)).1
        · exact e
        · have := h d.1
          rw [below (c :: m) d.1 (fun x hx => by
            rcases List.mem_cons.mp hx with rfl | hx
            · exact g
            · exact g.trans (hm1.1 x hx))] at this
          simp only [Memory.get, if_true] at this
          exact absurd this.symm (hn.2 d (by simp)).1
      have hv : c.2 = d.2 := by
        have := h c.1
        simpa only [Memory.get, if_true, hcd] using this
      have he : c = d := Prod.ext hcd hv
      subst he
      congr 1
      refine ih ⟨hm1.2, fun x hx => hm.2 x (by simp [hx])⟩ ⟨hn1.2, fun x hx => hn.2 x (by simp [hx])⟩ fun a => ?_
      by_cases ha : c.1 = a
      · subst ha
        rw [below m _ hm1.1, below n _ hn1.1]
      · have := h a
        simpa only [Memory.get, if_neg ha] using this

/-! ## Several bytes -/

theorem Memory.get_writeBytes_other (bs : List Byte) (m : Memory) (a : Word) {x : Nat}
    (h : ∀ k, k < bs.length → x ≠ (a + BitVec.ofNat 32 k).toNat) : Memory.get (Memory.writeBytes m a bs) x = Memory.get m x := by
  induction bs generalizing m a with
  | nil => rfl
  | cons b bs ih =>
    simp only [Memory.writeBytes]
    rw [ih, Memory.get_set, if_neg]
    · simpa using h 0 (by simp)
    · intro k hk
      have := h (k + 1) (by simpa using hk)
      rwa [show a + BitVec.ofNat 32 (k + 1) = a + 1 + BitVec.ofNat 32 k by
        rw [BitVec.add_assoc]; congr 1; apply BitVec.eq_of_toNat_eq; simp; omega] at this

theorem Memory.get_writeBytes_same (bs : List Byte) (m : Memory) (a : Word) (hl : bs.length < 4294967296) {k : Nat} (hk : k < bs.length) :
    Memory.get (Memory.writeBytes m a bs) (a + BitVec.ofNat 32 k).toNat = bs[k] := by
  induction bs generalizing m a k with
  | nil => cases hk
  | cons b bs ih =>
    simp only [Memory.writeBytes]
    simp only [List.length_cons] at hl hk
    cases k with
    | zero =>
      rw [Memory.get_writeBytes_other, Memory.get_set, if_pos (by simp)]
      · rfl
      · intro k hk' e
        have := BitVec.eq_of_toNat_eq e
        have := congrArg BitVec.toNat this
        simp at this
        omega
    | succ k =>
      rw [show a + BitVec.ofNat 32 (k + 1) = a + 1 + BitVec.ofNat 32 k by
        rw [BitVec.add_assoc]; congr 1; apply BitVec.eq_of_toNat_eq; simp; omega]
      exact ih _ _ (by omega) (by omega)

@[simp] theorem length_storedBytes (be : Bool) (v : Word) (wd : Width) : (storedBytes be v wd).length = widthBytes wd := by
  cases wd <;> cases be <;> rfl

theorem Memory.get_write_other (be : Bool) (m : Memory) (a : Word) (wd : Width) (v : Word) {x : Nat}
    (h : ∀ k, k < widthBytes wd → x ≠ (a + BitVec.ofNat 32 k).toNat) :
    Memory.get (Memory.write be m a wd v) x = Memory.get m x :=
  Memory.get_writeBytes_other _ _ _ (by simpa using h)

/-- The bytes of a write, each at its address. -/
theorem Memory.get_write_same (be : Bool) (m : Memory) (a : Word) (wd : Width) (v : Word) {k : Nat} (hk : k < widthBytes wd) :
    Memory.get (Memory.write be m a wd v) (a + BitVec.ofNat 32 k).toNat = (storedBytes be v wd)[k]'(by simpa using hk) :=
  Memory.get_writeBytes_same _ _ _ (by cases wd <;> simp [widthBytes]) _

/-- A read depends on the bytes it reads alone. -/
theorem Memory.read_congr (be : Bool) (m n : Memory) (a : Word) (wd : Width)
    (h : ∀ k, k < widthBytes wd → Memory.get m (a + BitVec.ofNat 32 k).toNat = Memory.get n (a + BitVec.ofNat 32 k).toNat) :
    Memory.read be m a wd = Memory.read be n a wd := by
  cases wd with
  | byte =>
    have h0 := h 0 (by decide)
    rw [BitVec.add_zero] at h0
    simp only [Memory.read, h0]
  | half =>
    have h0 := h 0 (by decide)
    have h1 := h 1 (by decide)
    simp only [Memory.read]
    rw [show a.toNat = (a + BitVec.ofNat 32 0).toNat by simp, h0, show (a + 1).toNat = (a + BitVec.ofNat 32 1).toNat from rfl, h1]
  | word =>
    have h0 := h 0 (by decide)
    have h1 := h 1 (by decide)
    have h2 := h 2 (by decide)
    have h3 := h 3 (by decide)
    simp only [Memory.read]
    rw [show a.toNat = (a + BitVec.ofNat 32 0).toNat by simp, h0, show (a + 1).toNat = (a + BitVec.ofNat 32 1).toNat from rfl, h1,
      show (a + 2).toNat = (a + BitVec.ofNat 32 2).toNat from rfl, h2, show (a + 3).toNat = (a + BitVec.ofNat 32 3).toNat from rfl, h3]

/-! ## Accesses -/

theorem mem_addStored {l : List Nat} {k w : Nat} : k ∈ addStored l w ↔ k ∈ l ∨ k = w := by
  unfold addStored
  split
  · next h => exact ⟨.inl, fun o => o.elim id fun e => e ▸ h⟩
  · simp [or_comm]

theorem nodup_addStored {l : List Nat} (h : l.Nodup) (w : Nat) : (addStored l w).Nodup := by
  unfold addStored
  split
  · exact h
  · next hw => exact List.nodup_cons.mpr ⟨hw, h⟩

/-- What a read can answer: the memory system's verdict, and with `ok` the bytes at the address. -/
theorem State.read_eq (s : State) (pr : Bool) (a : Word) (wd : Width) :
    s.read pr a wd = (match answer s .read pr a wd with
      | .ok => .ok (Memory.read s.platform.bigEnd s.mem a wd) | .abort => .abort | .absent => .absent | .device => .device) := rfl

/-- What a write can answer: the memory system's verdict, and with `ok` the state with the bytes stored. -/
theorem State.write_eq (s : State) (pr : Bool) (a : Word) (wd : Width) (v : Word) :
    s.write pr a wd v = (match answer s .write pr a wd with
      | .ok => .ok (s.stores a wd v) | .abort => .abort | .absent => .absent | .device => .device) := rfl

theorem State.read_ok {s : State} {pr : Bool} {a : Word} {wd : Width} (h : answer s .read pr a wd = .ok) :
    s.read pr a wd = .ok (Memory.read s.platform.bigEnd s.mem a wd) := by
  rw [State.read_eq, h]

theorem State.write_ok {s : State} {pr : Bool} {a : Word} {wd : Width} (v : Word) (h : answer s .write pr a wd = .ok) :
    s.write pr a wd v = .ok (s.stores a wd v) := by
  rw [State.write_eq, h]

theorem State.read_abort {s : State} {pr : Bool} {a : Word} {wd : Width} (h : answer s .read pr a wd = .abort) :
    s.read pr a wd = .abort := by
  rw [State.read_eq, h]

theorem State.write_abort {s : State} {pr : Bool} {a : Word} {wd : Width} (v : Word) (h : answer s .write pr a wd = .abort) :
    s.write pr a wd v = .abort := by
  rw [State.write_eq, h]

/-- If what follows an access answers a next state, the access was accepted and its continuation answers it, or it was rejected. -/
theorem MemResult.andThen_next {α : Type} {r : MemResult α} {ab : Out} {k : α → Out} {t : State} (h : r.andThen ab k = .next t) :
    (∃ x, r = .ok x ∧ k x = .next t) ∨ (r = .abort ∧ ab = .next t) := by
  cases r with
  | ok x => exact .inl ⟨x, rfl, h⟩
  | abort => exact .inr ⟨rfl, h⟩
  | absent => cases h
  | device => cases h

/-- An access depends on the platform alone. -/
theorem answer_congr {s t : State} (h : t.platform = s.platform) (k : AccessKind) (pr : Bool) (a : Word) (wd : Width) :
    answer t k pr a wd = answer s k pr a wd := by
  simp only [answer, h]

@[simp] theorem answer_stores (s : State) (a' : Word) (w' : Width) (v : Word) (k : AccessKind) (pr : Bool) (a : Word) (wd : Width) :
    answer (s.stores a' w' v) k pr a wd = answer s k pr a wd := rfl

theorem ofNat_add_four (a : Word) (k : Nat) : a + 4 + BitVec.ofNat 32 (4 * k) = a + BitVec.ofNat 32 (4 * (k + 1)) := by
  rw [BitVec.add_assoc]
  congr 1
  apply BitVec.eq_of_toNat_eq
  simp
  omega

/-- Words that the memory system all accepts are read in order. -/
theorem State.readWords_ok (s : State) (pr : Bool) (n : Nat) (a : Word)
    (h : ∀ k, k < n → answer s .read pr (a + BitVec.ofNat 32 (4 * k)) .word = .ok) :
    s.readWords pr a n =
      .ok ((List.range n).map fun k => Memory.read s.platform.bigEnd s.mem (a + BitVec.ofNat 32 (4 * k)) .word) := by
  induction n generalizing a with
  | zero => rfl
  | succ n ih =>
    have h0 := h 0 (by omega)
    simp only [Nat.mul_zero, BitVec.add_zero] at h0
    have hr := ih (a + 4) fun k hk => by rw [ofNat_add_four]; exact h (k + 1) (by omega)
    simp only [State.readWords, State.read_ok h0, hr, List.range_succ_eq_map, List.map_cons, List.map_map]
    simpa [Function.comp_def] using fun k _ => congrArg (fun x => Memory.read s.platform.bigEnd s.mem x .word) (ofNat_add_four a k)

/-- A word the memory system rejects, after accepting the ones before it, ends the reading. -/
theorem State.readWords_abort (s : State) (pr : Bool) (n : Nat) (a : Word) (k : Nat) (hk : k < n)
    (h : ∀ j, j < k → answer s .read pr (a + BitVec.ofNat 32 (4 * j)) .word = .ok)
    (ha : answer s .read pr (a + BitVec.ofNat 32 (4 * k)) .word = .abort) : s.readWords pr a n = .abort := by
  induction n generalizing a k with
  | zero => omega
  | succ n ih =>
    cases k with
    | zero =>
      simp only [Nat.mul_zero, BitVec.add_zero] at ha
      simp only [State.readWords, State.read_abort ha]
    | succ k =>
      have h0 := h 0 (by omega)
      simp only [Nat.mul_zero, BitVec.add_zero] at h0
      have hr := ih (a + 4) k (by omega) (fun j hj => by rw [ofNat_add_four]; exact h (j + 1) (by omega))
        (by rw [ofNat_add_four]; exact ha)
      simp only [State.readWords, State.read_ok h0, hr]

/-- What reading words can answer: as many words as were asked for, if it accepts them all. -/
theorem State.readWords_length {s : State} {pr : Bool} {n : Nat} {a : Word} {vs : List Word} (h : s.readWords pr a n = .ok vs) :
    vs.length = n := by
  induction n generalizing a vs with
  | zero => cases h; rfl
  | succ n ih =>
    simp only [State.readWords] at h
    split at h
    · split at h
      · next hr => cases h; simp [ih hr]
      · next r hr hn => rw [h] at hn; exact absurd rfl (hn vs)
    all_goals cases h

/-- Words written with no check at rising addresses. -/
def State.storeWords : State → Word → List Word → State
  | s, _, [] => s
  | s, a, v :: vs => State.storeWords (s.stores a .word v) (a + 4) vs

/-- Words that the memory system all accepts are all written. -/
theorem State.writeWords_ok (pr : Bool) (vs : List Word) (s : State) (a : Word)
    (h : ∀ k, k < vs.length → answer s .write pr (a + BitVec.ofNat 32 (4 * k)) .word = .ok) :
    State.writeWords pr s a vs = (s.storeWords a vs, .ok) := by
  induction vs generalizing s a with
  | nil => rfl
  | cons v vs ih =>
    have h0 := h 0 (by simp)
    simp only [Nat.mul_zero, BitVec.add_zero] at h0
    simp only [State.writeWords, State.write_ok v h0, State.storeWords]
    exact ih _ _ fun k hk => by rw [ofNat_add_four, answer_stores]; exact h (k + 1) (by simpa using hk)

/-- A word the memory system rejects, after accepting the ones before it: those before it are written. -/
theorem State.writeWords_abort (pr : Bool) (vs : List Word) (s : State) (a : Word) (k : Nat) (hk : k < vs.length)
    (h : ∀ j, j < k → answer s .write pr (a + BitVec.ofNat 32 (4 * j)) .word = .ok)
    (ha : answer s .write pr (a + BitVec.ofNat 32 (4 * k)) .word = .abort) :
    State.writeWords pr s a vs = (s.storeWords a (vs.take k), .abort) := by
  induction vs generalizing s a k with
  | nil => cases hk
  | cons v vs ih =>
    cases k with
    | zero =>
      simp only [Nat.mul_zero, BitVec.add_zero] at ha
      simp only [State.writeWords, State.write_abort v ha, List.take_zero, State.storeWords]
    | succ k =>
      have h0 := h 0 (by omega)
      simp only [Nat.mul_zero, BitVec.add_zero] at h0
      simp only [State.writeWords, State.write_ok v h0, State.storeWords, List.take_succ_cons]
      exact ih _ _ k (by simpa using hk) (fun j hj => by rw [ofNat_add_four, answer_stores]; exact h (j + 1) (by omega))
        (by rw [ofNat_add_four, answer_stores]; exact ha)

/-- Whatever the memory system answers, the state after writing words is the one with some first words written. -/
theorem State.writeWords_cases (pr : Bool) (vs : List Word) (s : State) (a : Word) :
    ∃ k, (State.writeWords pr s a vs).1 = s.storeWords a (vs.take k) := by
  induction vs generalizing s a with
  | nil => exact ⟨0, rfl⟩
  | cons v vs ih =>
    rw [State.writeWords]
    cases h : s.write pr a .word v with
    | ok t =>
      obtain ⟨k, hk⟩ := ih t (a + 4)
      rw [State.write_eq] at h
      split at h <;> cases h
      exact ⟨k + 1, by simpa [State.storeWords] using hk⟩
    | abort => exact ⟨0, rfl⟩
    | absent => exact ⟨0, rfl⟩
    | device => exact ⟨0, rfl⟩

theorem State.storeWords_regs (vs : List Word) (s : State) (a : Word) : (s.storeWords a vs).regs = s.regs := by
  induction vs generalizing s a with
  | nil => rfl
  | cons v vs ih => exact ih _ _

theorem State.storeWords_rest (vs : List Word) (s : State) (a : Word) :
    (s.storeWords a vs).pc = s.pc ∧ (s.storeWords a vs).cpsr = s.cpsr ∧ (s.storeWords a vs).spsrs = s.spsrs
      ∧ (s.storeWords a vs).userLdm = s.userLdm ∧ (s.storeWords a vs).pins = s.pins ∧ (s.storeWords a vs).drawn = s.drawn
      ∧ (s.storeWords a vs).platform = s.platform := by
  induction vs generalizing s a with
  | nil => exact ⟨rfl, rfl, rfl, rfl, rfl, rfl, rfl⟩
  | cons v vs ih => exact ih _ _

theorem State.storeWords_wf (vs : List Word) (s : State) (a : Word) (h : Memory.wf s.mem) : Memory.wf (s.storeWords a vs).mem := by
  induction vs generalizing s a with
  | nil => exact h
  | cons v vs ih => exact ih _ _ (State.stores_wf h a .word v)

theorem State.storeWords_nodup (vs : List Word) (s : State) (a : Word) (h : s.stored.Nodup) : (s.storeWords a vs).stored.Nodup := by
  induction vs generalizing s a with
  | nil => exact h
  | cons v vs ih => exact ih _ _ (nodup_addStored h _)

theorem keepsMemoryBut_mono {a b : Word} {n k : Nat} {s t : State} (h : keepsMemoryBut a n s t)
    (hs : ∀ j, j < n → ∃ i, i < k ∧ a + BitVec.ofNat 32 j = b + BitVec.ofNat 32 i) : keepsMemoryBut b k s t := by
  intro x hx
  refine h x fun j hj => ?_
  obtain ⟨i, hi, e⟩ := hs j hj
  rw [e]; exact hx i hi

/-- Bytes outside the words written read as before. -/
theorem State.storeWords_keeps (vs : List Word) (s : State) (a : Word) : keepsMemoryBut a (4 * vs.length) s (s.storeWords a vs) := by
  induction vs generalizing s a with
  | nil => exact fun _ _ => rfl
  | cons v vs ih =>
    intro x hx
    simp only [State.storeWords, List.length_cons] at hx ⊢
    rw [ih _ _ x fun k hk => ?_, State.stores_mem, Memory.get_write_other]
    · intro k hk
      exact hx k (by simp only [widthBytes] at hk; omega)
    · have := hx (k + 4) (by omega)
      rwa [show a + BitVec.ofNat 32 (k + 4) = a + 4 + BitVec.ofNat 32 k by
        rw [BitVec.add_assoc]; congr 1; apply BitVec.eq_of_toNat_eq; simp; omega] at this

end Sys2Proof.Machine
end

