-- ==== Sys2Proof/Laws/Registers.lean ====
section
/-! SUPPORT. Laws of the register banks, the saved status registers and the modes. -/

namespace Sys2Proof.Machine

/-! ## Physical registers -/

@[simp] theorem Regs.get_set_same (g : Regs) (p : PhysReg) (x : Word) : (g.set p x).get p = x := by
  cases p <;> rfl

theorem Regs.get_set_other (g : Regs) {p q : PhysReg} (x : Word) (h : q ≠ p) : (g.set p x).get q = g.get q := by
  cases p <;> cases q <;> first | rfl | exact absurd rfl h

/-- Reading one register after writing one. -/
theorem Regs.get_set (g : Regs) (p q : PhysReg) (x : Word) : (g.set p x).get q = if q = p then x else g.get q := by
  by_cases h : q = p
  · subst h; simp
  · simp [Regs.get_set_other g x h, h]

/-- Two register files that read alike are one. -/
theorem Regs.ext_get {g k : Regs} (h : ∀ p, g.get p = k.get p) : g = k := by
  have := h .r0; have := h .r1; have := h .r2; have := h .r3; have := h .r4; have := h .r5; have := h .r6; have := h .r7
  have := h .r8; have := h .r9; have := h .r10; have := h .r11; have := h .r12; have := h .r13; have := h .r14
  have := h .r8_fiq; have := h .r9_fiq; have := h .r10_fiq; have := h .r11_fiq; have := h .r12_fiq; have := h .r13_fiq
  have := h .r14_fiq; have := h .r13_svc; have := h .r14_svc; have := h .r13_abt; have := h .r14_abt; have := h .r13_irq
  have := h .r14_irq; have := h .r13_undef; have := h .r14_undef
  cases g; cases k
  simp_all only [Regs.get]

/-! ## Saved status registers -/

@[simp] theorem Spsrs.get_set_same (g : Spsrs) (n : SpsrName) (p : Psr) : (g.set n p).get n = p := by
  cases n <;> rfl

theorem Spsrs.get_set_other (g : Spsrs) {n k : SpsrName} (p : Psr) (h : k ≠ n) : (g.set n p).get k = g.get k := by
  cases n <;> cases k <;> first | rfl | exact absurd rfl h

/-- A core with the T variant writes every bit of a status register. -/
@[simp] theorem Psr.written_true (w : Word) : Psr.written true w = Psr.ofWord w := rfl

/-- A core without the T variant writes no T bit. -/
@[simp] theorem Psr.written_false_t (w : Word) : (Psr.written false w).t = false := rfl

/-- The bits of a status register as a word. -/
theorem Psr.getLsbD_toWord (p : Psr) (k : Nat) :
    p.toWord.getLsbD k = if k < 5 then p.m.getLsbD k else if k = 5 then p.t else if k = 6 then p.f else if k = 7 then p.i
      else if k < 28 then false else if k = 28 then p.v else if k = 29 then p.c else if k = 30 then p.z else (decide (k = 31) && p.n) := by
  rcases Nat.lt_or_ge k 32 with hk | hk
  · rw [Psr.toWord]
    simp only [BitVec.getLsbD_append, BitVec.getLsbD_ofBool]
    interval_cases k <;> simp
  · rw [BitVec.getLsbD_of_ge _ _ hk]
    have h : ∀ j, j < 32 → k ≠ j := fun j hj => by omega
    simp [h, show ¬ k < 5 by omega, show ¬ k < 28 by omega]

/-! ## Modes -/

@[simp] theorem Mode.ofBits_bits (v4 : Bool) (m : Mode) (h : m ≠ .system ∨ v4 = true) : Mode.ofBits v4 m.bits = some m := by
  cases m <;> cases v4 <;> first | rfl | (exfalso; revert h; decide)

/-- The mode a mode field names has that field's number. -/
theorem Mode.bits_of_ofBits {v4 : Bool} {b : BitVec 5} {m : Mode} (h : Mode.ofBits v4 b = some m) : m.bits = b := by
  revert h; revert v4 b m; decide

theorem Exn.mode_ne_system (e : Exn) : e.mode ≠ .system := by cases e <;> decide

/-- An exception enters its own mode, on every variant. -/
@[simp] theorem State.takeException_mode (s : State) (e : Exn) (ra : Word) : (s.takeException e ra).mode = some e.mode := by
  simp [State.mode, Mode.ofBits_bits _ _ (.inl e.mode_ne_system)]

@[simp] theorem State.takeReset_mode (s : State) : s.takeReset.mode = some .supervisor := by
  simp only [State.mode, State.takeReset_cpsr, State.takeReset_platform]; rfl

/-- The link register of an exception is r14 of the mode it enters, its saved status register the SPSR of that mode. -/
theorem Exn.link_eq_phys (e : Exn) : phys e.mode 14 = some e.link := by cases e <;> rfl

theorem Exn.saved_eq_spsr (e : Exn) : e.mode.spsr = some e.saved := by cases e <;> rfl

/-! ## Registers by number -/

theorem phys_eq_none {m : Mode} {i : Reg} : phys m i = none ↔ i = 15 := by
  revert i; cases m <;> decide

@[simp] theorem phys_fifteen (m : Mode) : phys m 15#4 = none := by cases m <;> rfl

theorem phys_isSome {m : Mode} {i : Reg} (h : i ≠ 15) : ∃ p, phys m i = some p :=
  Option.ne_none_iff_exists'.mp fun k => h (phys_eq_none.mp k)

/-- In one mode, two numbers that name one physical register are one number. -/
theorem phys_injective {m : Mode} {i j : Reg} {p : PhysReg} (hi : phys m i = some p) (hj : phys m j = some p) : i = j := by
  have key : ∀ i j : Reg, phys m i = phys m j → i = j := by cases m <;> decide
  exact key i j (hi.trans hj.symm)

theorem State.readReg_of_phys {s : State} {m : Mode} {i : Reg} {p : PhysReg} (h : phys m i = some p) :
    s.readReg m i = s.regs.get p := by
  simp only [State.readReg, h]

@[simp] theorem State.readReg_fifteen (s : State) (m : Mode) : s.readReg m 15#4 = s.pc + 8 := by
  simp [State.readReg]

theorem State.setReg_of_phys {s : State} {m : Mode} {i : Reg} {p : PhysReg} (v : Word) (h : phys m i = some p) :
    s.setReg m i v = { s with regs := s.regs.set p v } := by
  simp only [State.setReg, h]

@[simp] theorem State.setReg_fifteen (s : State) (m : Mode) (v : Word) : s.setReg m 15#4 v = { s with pc := v } := by
  simp [State.setReg]

theorem State.setReg_pc {s : State} {m : Mode} {i : Reg} (v : Word) (h : i ≠ 15) : (s.setReg m i v).pc = s.pc := by
  obtain ⟨p, hp⟩ := phys_isSome (m := m) h
  rw [State.setReg_of_phys v hp]

/-- A register reads as it was written. -/
theorem State.readReg_setReg_same {s : State} {m : Mode} {i : Reg} (v : Word) (h : i ≠ 15) :
    (s.setReg m i v).readReg m i = v := by
  obtain ⟨p, hp⟩ := phys_isSome (m := m) h
  rw [State.setReg_of_phys v hp, State.readReg_of_phys hp]; simp

/-- A write to one number leaves what the other numbers below r15 read. -/
theorem State.readReg_setReg_other {s : State} {m : Mode} {i j : Reg} (v : Word) (h : j ≠ i) (hj : j ≠ 15) :
    (s.setReg m i v).readReg m j = s.readReg m j := by
  obtain ⟨q, hq⟩ := phys_isSome (m := m) hj
  rw [State.readReg_of_phys hq, State.readReg_of_phys hq]
  cases hp : phys m i with
  | none => simp [State.setReg, hp]
  | some p =>
    rw [State.setReg_of_phys v hp]
    exact Regs.get_set_other _ _ fun e => h (phys_injective (e ▸ hq) hp)

/-- Reading depends on the registers and the pc alone. -/
theorem State.readReg_congr {s t : State} (m : Mode) (i : Reg) (hr : t.regs = s.regs) (hp : t.pc = s.pc) :
    t.readReg m i = s.readReg m i := by
  simp only [State.readReg, hr, hp]

/-- Registers below r15 do not depend on the pc. -/
theorem State.readReg_of_regs {s t : State} {m : Mode} {i : Reg} (h : i ≠ 15) (hr : t.regs = s.regs) :
    t.readReg m i = s.readReg m i := by
  obtain ⟨p, hp⟩ := phys_isSome (m := m) h
  rw [State.readReg_of_phys hp, State.readReg_of_phys hp, hr]

/-! ## Frames -/

theorem keepsRegsBut_refl (m : Mode) (is : List Reg) (s : State) : keepsRegsBut m is s s := fun _ _ => rfl

theorem keepsRegsBut_of_regs {m : Mode} {is : List Reg} {s t : State} (h : t.regs = s.regs) : keepsRegsBut m is s t :=
  fun p _ => by rw [h]

theorem keepsRegsBut.trans {m : Mode} {is : List Reg} {s t u : State} (h : keepsRegsBut m is s t) (k : keepsRegsBut m is t u) :
    keepsRegsBut m is s u := fun p hp => (k p hp).trans (h p hp)

theorem keepsRegsBut.mono {m : Mode} {is js : List Reg} {s t : State} (h : keepsRegsBut m is s t) (hs : ∀ i ∈ is, i ∈ js) :
    keepsRegsBut m js s t := fun p hp => h p fun i hi => hp i (hs i hi)

/-- A write by number changes the one register it names. -/
theorem keepsRegsBut_setReg (s : State) (m : Mode) (i : Reg) (v : Word) : keepsRegsBut m [i] s (s.setReg m i v) := by
  intro p hp
  cases hq : phys m i with
  | none => simp [State.setReg, hq]
  | some q =>
    rw [State.setReg_of_phys v hq]
    exact Regs.get_set_other _ _ fun e => hp i (by simp) (e ▸ hq)

theorem keepsRegsBut_updateBase (s : State) (m : Mode) (ix : Indexing) (rn : Reg) (v : Word) :
    keepsRegsBut m (if writesBase ix then [rn] else []) s (updateBase s m ix rn v) := by
  unfold updateBase
  split
  · exact keepsRegsBut_setReg s m rn v
  · exact keepsRegsBut_refl _ _ _

theorem keepsRegsBut_blockWriteBack (m : Mode) (w : Bool) (rn : Reg) (v : Word) (s : State) :
    keepsRegsBut m (if w then [rn] else []) s (blockWriteBack m w rn v s) := by
  unfold blockWriteBack
  split
  · exact keepsRegsBut_setReg s m rn v
  · exact keepsRegsBut_refl _ _ _

theorem keepsRegsBut_freeReg (s : State) (m : Mode) (i : Reg) : keepsRegsBut m [i] s (s.freeReg m i) :=
  keepsRegsBut_setReg s m i _

theorem keepsRegsBut_freeBase (m : Mode) (w : Bool) (rn : Reg) (s : State) :
    keepsRegsBut m (if w then [rn] else []) s (freeBase m w rn s) := by
  unfold freeBase
  split
  · exact keepsRegsBut_freeReg s m rn
  · exact keepsRegsBut_refl _ _ _

theorem keepsRegsBut_freeRegs (m : Mode) (is : List Reg) (s : State) : keepsRegsBut m is s (State.freeRegs m s is) := by
  induction is generalizing s with
  | nil => exact keepsRegsBut_refl _ _ _
  | cons i is ih =>
    exact ((keepsRegsBut_freeReg s m i).mono (by simp)).trans ((ih _).mono fun j hj => List.mem_cons_of_mem _ hj)

theorem keepsRegsBut_loadRegs (m : Mode) (xs : List (Reg × Word)) (s : State) :
    keepsRegsBut m (xs.map (·.1)) s (State.loadRegs m s xs) := by
  induction xs generalizing s with
  | nil => exact keepsRegsBut_refl _ _ _
  | cons x xs ih =>
    exact ((keepsRegsBut_setReg s m x.1 x.2).mono (by simp)).trans ((ih _).mono fun j hj => List.mem_cons_of_mem _ hj)

theorem keepsRegsBut_setPair (s : State) (m : Mode) (h l : Reg) (p : BitVec 64) :
    keepsRegsBut m [h, l] s (s.setPair m h l p) :=
  ((keepsRegsBut_setReg s m l _).mono (by simp)).trans ((keepsRegsBut_setReg _ m h _).mono (by simp))

theorem keepsMemory_of {s t : State} (h : t.mem = s.mem) (k : t.stored = s.stored) : keepsMemory s t :=
  ⟨fun _ => by rw [h], h, k⟩

/-- A register outside those a load writes reads as before. -/
theorem State.readReg_loadRegs_other {m : Mode} {i : Reg} (xs : List (Reg × Word)) (s : State) (hi : i ≠ 15)
    (h : i ∉ xs.map (·.1)) : (State.loadRegs m s xs).readReg m i = s.readReg m i := by
  induction xs generalizing s with
  | nil => rfl
  | cons x xs ih =>
    simp only [List.map_cons, List.mem_cons, not_or] at h
    simp only [State.loadRegs]
    rw [ih _ h.2, State.readReg_setReg_other _ h.1 hi]

/-- Loading distinct registers gives each its value. -/
theorem State.readReg_loadRegs {m : Mode} {i : Reg} {v : Word} (xs : List (Reg × Word)) (s : State) (hi : i ≠ 15)
    (hd : (xs.map (·.1)).Nodup) (h : (i, v) ∈ xs) : (State.loadRegs m s xs).readReg m i = v := by
  induction xs generalizing s with
  | nil => cases h
  | cons x xs ih =>
    simp only [List.map_cons, List.nodup_cons] at hd
    simp only [State.loadRegs]
    rcases List.mem_cons.mp h with rfl | h
    · rw [State.readReg_loadRegs_other _ _ hi hd.1, State.readReg_setReg_same _ hi]
    · exact ih _ hd.2 h

/-- The pc after loading registers: untouched unless r15 is among them. -/
theorem State.loadRegs_pc_other {m : Mode} (xs : List (Reg × Word)) (s : State) (h : (15 : Reg) ∉ xs.map (·.1)) :
    (State.loadRegs m s xs).pc = s.pc := by
  induction xs generalizing s with
  | nil => rfl
  | cons x xs ih =>
    simp only [List.map_cons, List.mem_cons, not_or] at h
    simp only [State.loadRegs]
    rw [ih _ h.2, State.setReg_pc _ (Ne.symm h.1)]

theorem State.loadRegs_pc {m : Mode} {v : Word} (xs : List (Reg × Word)) (s : State) (hd : (xs.map (·.1)).Nodup)
    (h : ((15 : Reg), v) ∈ xs) : (State.loadRegs m s xs).pc = v := by
  induction xs generalizing s with
  | nil => cases h
  | cons x xs ih =>
    simp only [List.map_cons, List.nodup_cons] at hd
    simp only [State.loadRegs]
    rcases List.mem_cons.mp h with rfl | h
    · rw [State.loadRegs_pc_other _ _ hd.1]; exact congrArg State.pc (State.setReg_fifteen s m _)
    · exact ih _ hd.2 h

end Sys2Proof.Machine
end

