-- ==== Sys2Proof/Laws/Ends.lean ====
section
/-! SUPPORT. What an instruction can end in: one lemma per shared operation that says everything its next state can be, and the
lemmas that say when it has one. -/

namespace Sys2Proof.Machine

/-! ## The common endings -/

theorem advance_next {s t : State} : advance s = .next t ↔ s.pc ≠ 0xFFFFFFFC ∧ t = { s with pc := s.pc + 4 } := by
  unfold advance
  split
  · next h => exact ⟨(fun e => nomatch e), fun e => absurd h e.1⟩
  · next h => exact ⟨fun e => ⟨h, by cases e; rfl⟩, fun e => by rw [e.2]⟩

theorem advance_of_notAtTop {s : State} (h : s.pc ≠ 0xFFFFFFFC) : advance s = .next { s with pc := s.pc + 4 } :=
  advance_next.mpr ⟨h, rfl⟩

theorem branchTo_next {v : Word} {s t : State} : branchTo v s = .next t ↔ field v 0 2 = 0 ∧ t = { s with pc := v } := by
  unfold branchTo
  split
  · next h => exact ⟨fun e => ⟨h, by cases e; rfl⟩, fun e => by rw [e.2]⟩
  · next h => exact ⟨(fun e => nomatch e), fun e => absurd e.1 h⟩

/-- The end of an instruction that writes Rd: a branch for r15, else the register is written and the machine advances. -/
theorem writeRd_next {m : Mode} {rd : Reg} {v : Word} {s t : State} (h : writeRd m rd v s = .next t) :
    (rd = 15 ∧ field v 0 2 = 0 ∧ t = { s with pc := v })
      ∨ (rd ≠ 15 ∧ s.pc ≠ 0xFFFFFFFC ∧ t = { s.setReg m rd v with pc := s.pc + 4 }) := by
  unfold writeRd at h
  split at h
  · next hr => exact .inl ⟨hr, branchTo_next.mp h⟩
  · next hr =>
    rw [advance_next, State.setReg_pc v hr] at h
    exact .inr ⟨hr, h⟩

theorem writeRd_of_ne {m : Mode} {rd : Reg} {v : Word} {s : State} (hr : rd ≠ 15) (hp : s.pc ≠ 0xFFFFFFFC) :
    writeRd m rd v s = .next { s.setReg m rd v with pc := s.pc + 4 } := by
  have hp' : (s.setReg m rd v).pc ≠ 0xFFFFFFFC := by rwa [State.setReg_pc v hr]
  rw [writeRd, if_neg hr, advance_of_notAtTop hp', State.setReg_pc v hr]

/-- Everything a return from an exception can do. -/
theorem returnFromException_next {s t : State} {r : Refusal} {m : Mode} {a : Word} (h : s.returnFromException r m a = .next t) :
    ∃ n, m.spsr = some n ∧ field a 0 2 = 0 ∧ (s.spsrs.get n).t = false
      ∧ (Mode.ofBits s.platform.hasV4 (s.spsrs.get n).m).isSome = true ∧ t = { s with cpsr := s.spsrs.get n, pc := a } := by
  unfold State.returnFromException at h
  split at h
  · cases h
  · next n hn =>
    split at h; · cases h
    split at h; · cases h
    split at h; · cases h
    next h1 h2 h3 =>
      cases h
      refine ⟨n, hn, by simpa using h1, by simpa using h2, ?_, rfl⟩
      simpa [Option.isNone_iff_eq_none, Option.isSome_iff_ne_none] using h3

/-- Everything a conditional instruction can do: advance, or run its body in the current mode. -/
theorem whenExecuted_next {c : Cond} {names : List Reg} {s t : State} {body : Mode → State → Out}
    (h : whenExecuted c names s body = .next t) :
    s.cpsr.t = false ∧ ∃ m, s.mode = some m
      ∧ ((condPassed c s.cpsr = false ∧ s.pc ≠ 0xFFFFFFFC ∧ t = { s with pc := s.pc + 4, userLdm := false })
        ∨ (executes c names m s ∧ body m { s with userLdm := false } = .next t)) := by
  unfold whenExecuted at h
  split at h; · cases h
  next ht =>
    split at h; · cases h
    next m hm =>
      refine ⟨by simpa using ht, m, hm, ?_⟩
      split at h
      · next hc => exact .inl ⟨by simpa using hc, advance_next.mp h⟩
      · next hc =>
        split at h; · cases h
        next hu =>
          refine .inr ⟨⟨by simpa using ht, hm, by simpa using hc, ?_⟩, h⟩
          intro hl i hi
          simp only [hl, Bool.true_and, List.any_eq_true, not_exists, not_and, Bool.not_eq_true] at hu
          exact hu i hi

/-- An instruction that executes runs its body. -/
theorem whenExecuted_executes {c : Cond} {names : List Reg} {m : Mode} {s : State} (h : executes c names m s)
    (body : Mode → State → Out) : whenExecuted c names s body = body m { s with userLdm := false } := by
  obtain ⟨ht, hm, hc, hu⟩ := h
  have : (s.userLdm && names.any isBanked) = false := by
    cases hl : s.userLdm with
    | false => rfl
    | true =>
      rw [Bool.true_and, List.any_eq_false]
      intro i hi; rw [hu hl i hi]; decide
  simp [whenExecuted, ht, hm, hc, this]

/-- An instruction whose condition fails advances. -/
theorem whenExecuted_skipped {c : Cond} {names : List Reg} {m : Mode} {s : State} (ht : s.cpsr.t = false) (hm : s.mode = some m)
    (hc : condPassed c s.cpsr = false) (body : Mode → State → Out) :
    whenExecuted c names s body = advance { s with userLdm := false } := by
  simp [whenExecuted, ht, hm, hc]

/-! ## Exceptions -/

/-- Taking an exception, field by field. -/
theorem entered_takeException (e : Exn) (ra : Word) (s : State) : entered e ra s (s.takeException e ra) :=
  ⟨Spsrs.get_set_same _ _ _, fun _ h => Spsrs.get_set_other _ _ h, rfl, Regs.get_set_same _ _ _, fun _ h => Regs.get_set_other _ _ h,
    rfl, keepsMemory_of rfl rfl, ⟨rfl, rfl⟩, rfl⟩

/-- A Data Abort, field by field. -/
theorem abortEntered_takeException (s : State) : abortEntered s (s.takeException .dataAbort (s.pc + 8)) := by
  obtain ⟨h1, h2, -, h4, -⟩ := entered_takeException .dataAbort (s.pc + 8) s
  refine ⟨h1, h2, ?_, h4, rfl, ⟨rfl, rfl⟩⟩
  simp only [State.takeException_cpsr, Exn.masksFiq, Bool.or_false]; rfl

/-! ## Meanings -/

/-- Where a data-processing result goes. -/
theorem dpWrite_next {op : DpOp} {sf : Bool} {rd : Reg} {out : AluOut} {m : Mode} {s t : State}
    (h : dpWrite op sf rd out m s = .next t) :
    (op.compares = true ∧ s.pc ≠ 0xFFFFFFFC ∧ t = { s with cpsr := out.flags, pc := s.pc + 4 })
      ∨ (op.compares = false ∧ rd = 15 ∧ sf = true ∧ s.returnFromException .returnWithoutSpsr m out.result = .next t)
      ∨ (op.compares = false ∧ rd = 15 ∧ sf = false ∧ field out.result 0 2 = 0 ∧ t = { s with pc := out.result })
      ∨ (op.compares = false ∧ rd ≠ 15 ∧ s.pc ≠ 0xFFFFFFFC
          ∧ t = { s.setReg m rd out.result with cpsr := if sf then out.flags else s.cpsr, pc := s.pc + 4 }) := by
  unfold dpWrite at h
  split at h
  · next hc => exact .inl ⟨hc, advance_next.mp h⟩
  · next hc =>
    have hc : op.compares = false := by simpa using hc
    split at h
    · next hr =>
      split at h
      · next hs => exact .inr (.inl ⟨hc, hr, hs, h⟩)
      · next hs => exact .inr (.inr (.inl ⟨hc, hr, by simpa using hs, branchTo_next.mp h⟩))
    · next hr =>
      obtain ⟨p, hp⟩ := phys_isSome (m := m) hr
      refine .inr (.inr (.inr ⟨hc, hr, ?_⟩))
      split at h
      all_goals
        rw [advance_next, State.setReg_pc _ hr, State.setReg_of_phys _ hp] at h
        rw [State.setReg_of_phys _ hp]
        next hs => simpa [hs] using h

/-- The result of a data-processing instruction with a destination below r15. -/
theorem dpWrite_reg {op : DpOp} {rd : Reg} {m : Mode} {s : State} (sf : Bool) (out : AluOut) (hc : op.compares = false) (hr : rd ≠ 15)
    (hp : s.pc ≠ 0xFFFFFFFC) :
    dpWrite op sf rd out m s =
      .next { s.setReg m rd out.result with cpsr := if sf then out.flags else s.cpsr, pc := s.pc + 4 } := by
  obtain ⟨p, hq⟩ := phys_isSome (m := m) hr
  rw [dpWrite, hc, if_neg (by decide), if_neg hr, State.setReg_of_phys _ hq]
  cases sf
  · simp only [Bool.false_eq_true, if_false, State.setReg_of_phys _ hq]
    exact advance_of_notAtTop hp
  · simp only [if_true, State.setReg_of_phys _ hq]
    exact advance_of_notAtTop hp

/-- Everything a data-processing instruction can do. -/
theorem dataProcessing_next {op : DpOp} {c : Cond} {rn rd : Reg} {sf : Bool} {o : Operand2} {s t : State}
    (h : dataProcessing op c rn rd sf o s = .next t) :
    s.cpsr.t = false ∧ ∃ m, s.mode = some m
      ∧ ((condPassed c s.cpsr = false ∧ s.pc ≠ 0xFFFFFFFC ∧ t = { s with pc := s.pc + 4, userLdm := false })
        ∨ (executes c (rn :: rd :: operandRegs o) m s ∧ operandRefusal (usesRn op) rn o = none
          ∧ dpWrite op sf rd (dpOut op rn o m { s with userLdm := false }) m { s with userLdm := false } = .next t)) := by
  obtain ⟨ht, m, hm, hs | ⟨he, hb⟩⟩ := whenExecuted_next h
  · exact ⟨ht, m, hm, .inl hs⟩
  · refine ⟨ht, m, hm, .inr ⟨he, ?_⟩⟩
    split at hb
    · cases hb
    · next hn => exact ⟨hn, hb⟩

theorem dataProcessing_executes {op : DpOp} {c : Cond} {rn rd : Reg} {o : Operand2} {m : Mode} {s : State} (sf : Bool)
    (h : executes c (rn :: rd :: operandRegs o) m s) (hn : operandRefusal (usesRn op) rn o = none) :
    dataProcessing op c rn rd sf o s = dpWrite op sf rd (dpOut op rn o m s) m { s with userLdm := false } := by
  have hs : ∀ o : Operand2, shifterOperand { s with userLdm := false } m o = shifterOperand s m o := by intro o; cases o <;> rfl
  rw [dataProcessing, whenExecuted_executes h]
  simp only [hn, dpOut, hs]
  rfl

theorem dataProcessing_skipped {op : DpOp} {c : Cond} {rn rd : Reg} {sf : Bool} {o : Operand2} {m : Mode} {s : State}
    (ht : s.cpsr.t = false) (hm : s.mode = some m) (hc : condPassed c s.cpsr = false) :
    dataProcessing op c rn rd sf o s = advance { s with userLdm := false } :=
  whenExecuted_skipped ht hm hc _

/-- The constructor `dpInstr` picks runs the data-processing rule of its operation. -/
theorem exec_dpInstr (op : DpOp) (c : Cond) (rn rd : Reg) (sf : Bool) (o : Operand2) (s : State) :
    exec (dpInstr op c rn rd sf o) s = dataProcessing op c rn rd sf o s := by
  cases op <;> cases o <;> rfl

/-- Everything MUL and MLA can do. -/
theorem multiply_next {sf : Bool} {rd rs rm : Reg} {usesPc : Bool} {r : Word} {m : Mode} {s t : State}
    (h : multiply sf rd rs rm usesPc r m s = .next t) :
    rd ≠ rm ∧ rd ≠ 15 ∧ rm ≠ 15 ∧ rs ≠ 15 ∧ usesPc = false ∧ s.pc ≠ 0xFFFFFFFC
      ∧ t = { s.setReg m rd r with
          cpsr := if sf then mulFlags s.cpsr r (Config.freeBit s.drawn) else s.cpsr
          drawn := if sf then s.drawn + 1 else s.drawn
          pc := s.pc + 4 } := by
  unfold multiply at h
  split at h; · cases h
  next h1 =>
    split at h; · cases h
    next h2 =>
      simp only [Bool.or_eq_true, decide_eq_true_eq, not_or, Bool.not_eq_true] at h2
      obtain ⟨p, hp⟩ := phys_isSome (m := m) h2.1.1.1
      refine ⟨h1, h2.1.1.1, h2.1.1.2, h2.1.2, h2.2, ?_⟩
      split at h
      all_goals
        rw [advance_next, State.setReg_of_phys _ hp] at h
        rw [State.setReg_of_phys _ hp]
        next hs => simpa [hs] using h

/-- Everything a long multiply can do. -/
theorem longMultiply_next {sf : Bool} {rdHi rdLo rs rm : Reg} {r : BitVec 64} {m : Mode} {s t : State}
    (h : longMultiply sf rdHi rdLo rs rm r m s = .next t) :
    s.platform.hasM = true ∧ (rdHi ≠ rdLo ∧ rdHi ≠ rm ∧ rdLo ≠ rm ∧ rdHi ≠ 15 ∧ rdLo ≠ 15 ∧ rs ≠ 15 ∧ rm ≠ 15) ∧ s.pc ≠ 0xFFFFFFFC
      ∧ t = { s.setPair m rdHi rdLo r with
          cpsr := if sf then mullFlags s.cpsr r (Config.freeBit s.drawn) (Config.freeBit (s.drawn + 1)) else s.cpsr
          drawn := if sf then s.drawn + 2 else s.drawn
          pc := s.pc + 4 } := by
  unfold longMultiply at h
  split at h; · cases h
  next h1 =>
    split at h; · cases h
    next h2 =>
      simp only [Bool.or_eq_true, decide_eq_true_eq, not_or] at h2
      obtain ⟨⟨⟨⟨⟨⟨a1, a2⟩, a3⟩, a4⟩, a5⟩, a6⟩, a7⟩ := h2
      obtain ⟨p, hp⟩ := phys_isSome (m := m) a4
      obtain ⟨q, hq⟩ := phys_isSome (m := m) a5
      refine ⟨by simpa using h1, ⟨a1, a2, a3, a4, a5, a6, a7⟩, ?_⟩
      split at h
      all_goals
        simp only [advance_next, State.setPair, State.setReg_of_phys _ hp, State.setReg_of_phys _ hq] at h ⊢
        next hs => simpa [hs] using h

/-- On a core without the T variant a status register without T keeps none. -/
theorem mergePsr_false_t {fmask : BitVec 4} {control : Bool} {old : Psr} (w : Word) (h : old.t = false) :
    (mergePsr false fmask control old w).t = false := by
  simp [mergePsr, h]

/-- Everything a write of a status register can do. -/
theorem writePsr_next {r : Bool} {fmask : BitVec 4} {v : Word} {m : Mode} {s t : State} (h : writePsr r fmask v m s = .next t) :
    s.pc ≠ 0xFFFFFFFC
      ∧ ((r = true ∧ ∃ n, m.spsr = some n
            ∧ t = { s with spsrs := s.spsrs.set n (mergePsr s.platform.hasT fmask true (s.spsrs.get n) v), pc := s.pc + 4 })
        ∨ (r = false ∧ (mergePsr s.platform.hasT fmask m.privileged s.cpsr v).t = s.cpsr.t
            ∧ (Mode.ofBits s.platform.hasV4 (mergePsr s.platform.hasT fmask m.privileged s.cpsr v).m).isSome = true
            ∧ t = { s with cpsr := mergePsr s.platform.hasT fmask m.privileged s.cpsr v, pc := s.pc + 4 })) := by
  unfold writePsr at h
  split at h
  · next hr =>
    split at h
    · cases h
    · next n hn =>
      obtain ⟨hp, ht⟩ := advance_next.mp h
      exact ⟨hp, .inl ⟨hr, n, hn, ht⟩⟩
  · next hr =>
    simp only at h
    split at h; · cases h
    next h1 =>
      split at h; · cases h
      next h2 =>
        obtain ⟨hp, ht⟩ := advance_next.mp h
        refine ⟨hp, .inr ⟨by simpa using hr, by simpa using h1, ?_, ht⟩⟩
        simpa [Option.isNone_iff_eq_none, Option.isSome_iff_ne_none] using h2

/-- Everything MRS can do. -/
theorem readPsr_next {r : Bool} {rd : Reg} {m : Mode} {s t : State} (h : readPsr r rd m s = .next t) :
    rd ≠ 15 ∧ s.pc ≠ 0xFFFFFFFC ∧ ∃ p : Psr, (if r then m.spsr.map s.spsrs.get else some s.cpsr) = some p
      ∧ t = { s.setReg m rd p.toWord with pc := s.pc + 4 } := by
  unfold readPsr at h
  split at h; · cases h
  next hr =>
    refine ⟨hr, ?_⟩
    split at h
    · next hb =>
      split at h
      · cases h
      · next n hn =>
        rw [advance_next, State.setReg_pc _ hr] at h
        exact ⟨h.1, _, by simp [hb, hn], h.2⟩
    · next hb =>
      rw [advance_next, State.setReg_pc _ hr] at h
      exact ⟨h.1, _, by simp [hb], h.2⟩

/-- Everything a single load can do: the datum to Rd and the base moved, or a Data Abort. -/
theorem loadSingle_next {wd : Width} {sg tr : Bool} {ix : Indexing} {u : Bool} {rn rd : Reg} {off : Offset} {m : Mode} {s t : State}
    (h : loadSingle wd sg tr ix u rn rd off m s = .next t) :
    transferRefusal wd tr ix rn rd off = none ∧ aligned wd (transferAddress s m ix u rn off) = true
      ∧ ((answer s .read (m.privileged && !tr) (transferAddress s m ix u rn off) wd = .ok
          ∧ writeRd m rd (extendLoaded wd sg (Memory.read s.platform.bigEnd s.mem (transferAddress s m ix u rn off) wd))
              (updateBase s m ix rn (movedBase s m u rn off)) = .next t)
        ∨ (answer s .read (m.privileged && !tr) (transferAddress s m ix u rn off) wd = .abort
          ∧ t = (if writesBase ix then s.freeReg m rn else s).takeException .dataAbort
              ((if writesBase ix then s.freeReg m rn else s).pc + 8))) := by
  unfold loadSingle at h
  split at h; · cases h
  next hn =>
    split at h; · cases h
    next ha =>
      refine ⟨hn, by simpa using ha, ?_⟩
      rw [State.read_eq] at h
      split at h
      · next hv => exact .inl ⟨hv, h⟩
      · next hv =>
        refine .inr ⟨hv, ?_⟩
        simp only [MemResult.andThen, State.dataAbort] at h
        split at h <;> cases h <;> next hw => simp only [hw, if_true, if_false, Bool.false_eq_true]
      · cases h
      · cases h

/-- Everything a single store can do: the datum stored and the base moved, or a Data Abort. -/
theorem storeSingle_next {wd : Width} {tr : Bool} {ix : Indexing} {u : Bool} {rn rd : Reg} {off : Offset} {m : Mode} {s t : State}
    (h : storeSingle wd tr ix u rn rd off m s = .next t) :
    transferRefusal wd tr ix rn rd off = none ∧ aligned wd (transferAddress s m ix u rn off) = true
      ∧ ((answer s .write (m.privileged && !tr) (transferAddress s m ix u rn off) wd = .ok
          ∧ advance (updateBase (s.stores (transferAddress s m ix u rn off) wd (storedValue s m rd)) m ix rn
              (movedBase s m u rn off)) = .next t)
        ∨ (answer s .write (m.privileged && !tr) (transferAddress s m ix u rn off) wd = .abort
          ∧ t = (if writesBase ix then s.freeReg m rn else s).takeException .dataAbort
              ((if writesBase ix then s.freeReg m rn else s).pc + 8))) := by
  unfold storeSingle at h
  split at h; · cases h
  next hn =>
    split at h; · cases h
    next ha =>
      refine ⟨hn, by simpa using ha, ?_⟩
      rw [State.write_eq] at h
      split at h
      · next hv => exact .inl ⟨hv, h⟩
      · next hv =>
        refine .inr ⟨hv, ?_⟩
        simp only [MemResult.andThen, State.dataAbort] at h
        split at h <;> cases h <;> next hw => simp only [hw, if_true, if_false, Bool.false_eq_true]
      · cases h
      · cases h

/-- Everything a swap can do. -/
theorem swap_next {wd : Width} {rn rd rm : Reg} {m : Mode} {s t : State} (h : swap wd rn rd rm m s = .next t) :
    (rd ≠ 15 ∧ rm ≠ 15 ∧ rn ≠ 15 ∧ rn ≠ rd ∧ rn ≠ rm) ∧ aligned wd (s.readReg m rn) = true
      ∧ ((s.pc ≠ 0xFFFFFFFC
          ∧ t = { (s.stores (s.readReg m rn) wd (s.readReg m rm)).setReg m rd
                    (Memory.read s.platform.bigEnd s.mem (s.readReg m rn) wd) with pc := s.pc + 4 })
        ∨ t = s.takeException .dataAbort (s.pc + 8)) := by
  unfold swap at h
  split at h; · cases h
  next hc =>
    simp only [Bool.or_eq_true, decide_eq_true_eq, not_or] at hc
    obtain ⟨⟨⟨⟨c1, c2⟩, c3⟩, c4⟩, c5⟩ := hc
    split at h; · cases h
    next ha =>
      refine ⟨⟨c1, c2, c3, c4, c5⟩, by simpa using ha, ?_⟩
      rw [State.read_eq, State.write_eq] at h
      split at h
      · split at h
        · simp only [MemResult.andThen] at h
          rw [advance_next, State.setReg_pc _ c1] at h
          exact .inl h
        · cases h; exact .inr rfl
        · cases h
        · cases h
      · cases h; exact .inr rfl
      · cases h
      · cases h

/-- What the end of an LDM can do. -/
theorem finishLoad_next {sb : Bool} {list : BitVec 16} {m : Mode} {s t : State} (h : finishLoad sb list m s = .next t) :
    (list.getLsbD 15 = false ∧ s.pc ≠ 0xFFFFFFFC ∧ t = { s with pc := s.pc + 4 })
      ∨ (list.getLsbD 15 = true ∧ sb = false ∧ field s.pc 0 2 = 0 ∧ t = s)
      ∨ (list.getLsbD 15 = true ∧ sb = true ∧ s.returnFromException .blockSInUserOrSystem m s.pc = .next t) := by
  unfold finishLoad at h
  split at h
  · next hl =>
    split at h
    · next hs => exact .inr (.inr ⟨hl, hs, h⟩)
    · next hs => exact .inr (.inl ⟨hl, by simpa using hs, branchTo_next.mp h⟩)
  · next hl => exact .inl ⟨by simpa using hl, advance_next.mp h⟩

/-- Everything an LDM can do: the registers loaded and the base moved, or a Data Abort. -/
theorem loadBlock_next {p u sb w : Bool} {rn : Reg} {list : BitVec 16} {m : Mode} {s t : State}
    (h : loadBlock p u sb w rn list m s = .next t) :
    blockRefusal s m sb w rn list (list.getLsbD rn.toNat) (loadsUserBank sb list) = none
      ∧ ((∃ vs, vs.length = (listRegs list).length
            ∧ s.readWords m.privileged (blockStart p u (s.readReg m rn) list) (listRegs list).length = .ok vs
            ∧ finishLoad sb list m
                { blockWriteBack m w rn (blockNewBase u (s.readReg m rn) list)
                    (State.loadRegs (if loadsUserBank sb list then .user else m) s ((listRegs list).zip vs)) with
                  userLdm := loadsUserBank sb list } = .next t)
        ∨ State.dataAbort
            { freeBase m w rn (State.freeRegs (if loadsUserBank sb list then .user else m) s ((listRegs list).filter (· != 15))) with
              userLdm := loadsUserBank sb list } = .next t) := by
  unfold loadBlock at h
  simp only at h
  split at h; · cases h
  next hn =>
    refine ⟨hn, ?_⟩
    rcases MemResult.andThen_next h with ⟨vs, hr, hf⟩ | ⟨-, ha⟩
    · exact .inl ⟨vs, State.readWords_length hr, hr, hf⟩
    · exact .inr ha

/-- Everything an STM can do: the words written and the base moved, or some first words written and a Data Abort. -/
theorem storeBlock_next {p u sb w : Bool} {rn : Reg} {list : BitVec 16} {m : Mode} {s t : State}
    (h : storeBlock p u sb w rn list m s = .next t) :
    blockRefusal s m sb w rn list (baseNotLowest rn list) sb = none
      ∧ ∃ vs, let done := s.storeWords (blockStart p u (s.readReg m rn) list) vs
        advance (blockWriteBack m w rn (blockNewBase u (s.readReg m rn) list) done) = .next t
          ∨ (freeBase m w rn done).dataAbort = .next t := by
  unfold storeBlock at h
  simp only at h
  split at h; · cases h
  next hn =>
    refine ⟨hn, ?_⟩
    obtain ⟨k, hk⟩ := State.writeWords_cases m.privileged ((listRegs list).map fun i => storedValue s (if sb then .user else m) i) s
      (blockStart p u (s.readReg m rn) list)
    refine ⟨(((listRegs list).map fun i => storedValue s (if sb then .user else m) i).take k), ?_⟩
    rw [← hk]
    split at h
    · exact .inl h
    · exact .inr h
    · cases h
    · cases h

/-! ## The boundary and the step -/

/-- Everything that can stand at a boundary other than an instruction. -/
theorem boundary_done {p : Pins} {s t : State} (h : boundary p s = .done (.next t)) :
    t = s.takeReset ∨ ∃ m, s.cpsr.t = false ∧ s.mode = some m
      ∧ (t = s.takeException .fiq (s.pc + 4) ∨ t = s.takeException .irq (s.pc + 4)
        ∨ (aligned .word s.pc = true ∧ (t = s.takeException .prefetchAbort (s.pc + 4)
          ∨ (s.pc ≠ 0xFFFFFFFC ∧ t = { s with pc := s.pc + 4, userLdm := false })))) := by
  unfold boundary at h
  split at h
  · cases h; exact .inl rfl
  split at h; · cases h
  next ht =>
    split at h; · cases h
    next m hm =>
      refine .inr ⟨m, by simpa using ht, hm, ?_⟩
      split at h
      · cases h; exact .inl rfl
      split at h
      · cases h; exact .inr (.inl rfl)
      unfold fetch at h
      split at h; · cases h
      next ha =>
        refine .inr (.inr ⟨by simpa using ha, ?_⟩)
        split at h
        · cases h; exact .inl rfl
        · cases h
        · cases h
        · split at h; · cases h
          unfold fetchedWord at h
          split at h
          · cases h
          · cases h
          · split at h
            · cases h
            · simp only [Fetched.done.injEq] at h
              exact .inr (advance_next.mp h)
          · cases h

/-- An instruction that runs is the one the decoder reads at the pc, in ARM state, a legal mode and with an aligned pc. -/
theorem boundary_run {p : Pins} {s s' : State} {i : Instr} (h : boundary p s = .run i s') :
    s' = s ∧ p.reset = false ∧ s.cpsr.t = false ∧ aligned .word s.pc = true ∧ s.pc.toNat / 4 ∉ s.stored
      ∧ decode (Memory.read s.platform.bigEnd s.mem s.pc .word) = .ok i
      ∧ ∃ m, s.mode = some m ∧ answer s .fetch m.privileged s.pc .word = .ok := by
  unfold boundary at h
  split at h; · cases h
  next hr =>
  split at h; · cases h
  next ht =>
    split at h; · cases h
    next m hm =>
      split at h; · cases h
      split at h; · cases h
      unfold fetch at h
      split at h; · cases h
      next ha =>
        split at h
        · cases h
        · cases h
        · cases h
        · next hv =>
          split at h; · cases h
          next hst =>
            unfold fetchedWord at h
            split at h
            · next hd =>
              cases h
              exact ⟨rfl, by simpa using hr, by simpa using ht, by simpa using ha, hst, hd, m, hm, hv⟩
            · cases h
            · split at h <;> cases h
            · cases h

/-- Everything a step can do: what stands at the boundary, or the instruction decoded at the pc. -/
theorem step_next {s t : State} (h : step s = .next t) :
    boundary s.sample s.sampled = .done (.next t) ∨ ∃ i, boundary s.sample s.sampled = .run i s.sampled ∧ exec i s.sampled = .next t := by
  unfold step arrive at h
  split at h
  · next o ho => subst h; exact .inl ho
  · next i s' hi =>
    have := (boundary_run hi).1
    subst this
    exact .inr ⟨i, hi, h⟩

end Sys2Proof.Machine
end

