-- ==== Sys2Proof/Laws/Operands.lean ====
section
/-! SUPPORT. Laws of the operand forms: the adder, the register lists, and what an allowed combination of operands looks like. -/

namespace Sys2Proof.Machine

/-! ## The adder -/

@[simp] theorem addWithCarry_result (a b : Word) (c : Bool) : (addWithCarry a b c).result = a + b + BitVec.ofNat 32 c.toNat := by
  apply BitVec.eq_of_toNat_eq
  simp [addWithCarry]

theorem addWithCarry_carry (a b : Word) (c : Bool) :
    (addWithCarry a b c).c = decide (4294967296 ≤ a.toNat + b.toNat + c.toNat) := rfl

theorem addWithCarry_overflow (a b : Word) (c : Bool) :
    (addWithCarry a b c).v = (decide (a.toInt + b.toInt + c.toNat < -2147483648)
      || decide (2147483647 < a.toInt + b.toInt + c.toNat)) := rfl

/-- The signed reading of a complement. -/
theorem toInt_not (b : Word) : (~~~b).toInt = -b.toInt - 1 := by
  have h : (~~~b).toNat = 4294967295 - b.toNat := by simp [BitVec.toNat_not]
  have hb := b.isLt
  rw [BitVec.toInt_eq_toNat_cond, BitVec.toInt_eq_toNat_cond, h]
  split <;> split <;> omega

/-- A subtraction: the result, the carry that says no borrow, the overflow. -/
theorem addWithCarry_sub (a b : Word) :
    addWithCarry a (~~~b) true = { result := a - b
                                   c := decide (b.toNat ≤ a.toNat)
                                   v := decide (a.toInt - b.toInt < -2147483648) || decide (2147483647 < a.toInt - b.toInt) } := by
  have h : (~~~b).toNat = 4294967295 - b.toNat := by simp [BitVec.toNat_not]
  have hb := b.isLt
  have ha := a.isLt
  unfold addWithCarry
  simp only [Sum.mk.injEq, h, toInt_not, Bool.toNat_true]
  refine ⟨?_, ?_, ?_⟩
  · apply BitVec.eq_of_toNat_eq
    rw [BitVec.toNat_ofNat, BitVec.toNat_sub]
    omega
  · rw [decide_eq_decide]; omega
  · congr 1 <;> rw [decide_eq_decide] <;> push_cast <;> omega

/-! ## Register lists -/

theorem mem_listRegs {list : BitVec 16} {i : Reg} : i ∈ listRegs list ↔ list.getLsbD i.toNat = true := by
  simp only [listRegs, List.mem_map, List.mem_filter, List.mem_range]
  constructor
  · rintro ⟨k, ⟨hk, hl⟩, rfl⟩
    rwa [BitVec.toNat_ofNat, Nat.mod_eq_of_lt hk]
  · intro h
    exact ⟨i.toNat, ⟨i.isLt, h⟩, by simp⟩

/-- A list's registers rise. -/
theorem listRegs_sorted (list : BitVec 16) : (listRegs list).Pairwise fun i j => i.toNat < j.toNat := by
  rw [listRegs, List.pairwise_map]
  refine (List.pairwise_lt_range.filter _).imp_of_mem fun {a b} ha hb h => ?_
  have ha := List.mem_range.mp (List.mem_filter.mp ha).1
  have hb := List.mem_range.mp (List.mem_filter.mp hb).1
  rw [BitVec.toNat_ofNat, BitVec.toNat_ofNat, Nat.mod_eq_of_lt ha, Nat.mod_eq_of_lt hb]
  exact h

theorem listRegs_nodup (list : BitVec 16) : (listRegs list).Nodup := by
  refine (listRegs_sorted list).imp ?_
  rintro i j h rfl
  exact Nat.lt_irrefl _ h

theorem length_listRegs (list : BitVec 16) : (listRegs list).length ≤ 16 := by
  rw [listRegs, List.length_map]
  exact (List.length_filter_le _ _).trans (by simp)

/-- The place of a register in a block is its index in the list. -/
theorem getElem?_listRank {list : BitVec 16} {i : Reg} (h : i ∈ listRegs list) : (listRegs list)[listRank list i]? = some i := by
  unfold listRank
  have hs := listRegs_sorted list
  generalize listRegs list = l at h hs
  induction l with
  | nil => cases h
  | cons j l ih =>
    rw [List.pairwise_cons] at hs
    rcases List.mem_cons.mp h with rfl | h
    · have : (i :: l).filter (fun j => decide (j.toNat < i.toNat)) = [] := by
        rw [List.filter_eq_nil_iff]
        intro k hk
        rcases List.mem_cons.mp hk with rfl | hk
        · simp
        · have := hs.1 k hk
          simp only [decide_eq_true_eq]; omega
      rw [this]; rfl
    · have hj := hs.1 i h
      rw [List.filter_cons_of_pos (by simpa using hj), List.length_cons, List.getElem?_cons_succ]
      exact ih h hs.2

theorem listRank_lt {list : BitVec 16} {i : Reg} (h : i ∈ listRegs list) : listRank list i < (listRegs list).length :=
  (List.getElem?_eq_some_iff.mp (getElem?_listRank h)).1

/-! ## Allowed combinations -/

theorem operandRefusal_none {u : Bool} {rn rs rm : Reg} {ty : ShiftType} :
    operandRefusal u rn (.shiftReg rs ty rm) = none ↔ rs ≠ 15 ∧ rm ≠ 15 ∧ (u = true → rn ≠ 15) := by
  simp only [operandRefusal]
  by_cases h : rs = 15
  · rw [if_pos h]; exact ⟨(fun e => nomatch e), fun e => absurd h e.1⟩
  · rw [if_neg h]
    by_cases k : (rm = 15 || (u && rn == 15)) = true
    · rw [if_pos k]
      simp only [Bool.or_eq_true, decide_eq_true_eq, Bool.and_eq_true, beq_iff_eq] at k
      refine ⟨(fun e => nomatch e), fun e => ?_⟩
      rcases k with k | k
      · exact absurd k e.2.1
      · exact absurd k.2 (e.2.2 k.1)
    · rw [if_neg k]
      simp only [Bool.or_eq_true, decide_eq_true_eq, Bool.and_eq_true, beq_iff_eq, not_or, not_and] at k
      exact ⟨fun _ => ⟨h, k.1, k.2⟩, fun _ => rfl⟩

/-- A single transfer that is allowed and writes its base: the base is neither r15 nor Rd. -/
theorem transferRefusal_base {wd : Width} {tr : Bool} {ix : Indexing} {rn rd : Reg} {off : Offset}
    (h : transferRefusal wd tr ix rn rd off = none) (hw : writesBase ix = true) : rn ≠ 15 ∧ rn ≠ rd := by
  unfold transferRefusal at h
  split at h; · cases h
  split at h; · cases h
  split at h; · cases h
  next hb =>
    simp only [hw, Bool.true_and, Bool.or_eq_true, beq_iff_eq, not_or] at hb
    exact hb

/-- A single transfer of r15 that is allowed moves a word, and not as the User mode. -/
theorem transferRefusal_pc {wd : Width} {tr : Bool} {ix : Indexing} {rn rd : Reg} {off : Offset}
    (h : transferRefusal wd tr ix rn rd off = none) (hr : rd = 15) : wd = .word ∧ tr = false := by
  subst hr
  unfold transferRefusal at h
  split at h; · cases h
  next h1 =>
    split at h; · cases h
    next h2 =>
      refine ⟨?_, ?_⟩
      · cases wd <;> first | rfl | (exfalso; revert h2; decide)
      · cases tr
        · rfl
        · exfalso; revert h1; decide

/-- A block transfer that is allowed: a list, an aligned base that is not r15, no clash, and S = 1 only with an SPSR and without
write-back of the User bank. -/
theorem blockRefusal_none {s : State} {m : Mode} {sb w : Bool} {rn : Reg} {list : BitVec 16} {clash user : Bool} :
    blockRefusal s m sb w rn list clash user = none ↔
      list ≠ 0 ∧ rn ≠ 15 ∧ aligned .word (s.readReg m rn) = true ∧ ¬(w = true ∧ clash = true)
        ∧ ¬(sb = true ∧ m.spsr = none) ∧ ¬(user = true ∧ w = true) := by
  unfold blockRefusal
  by_cases h1 : list = 0
  · rw [if_pos h1]; exact ⟨(fun e => nomatch e), fun e => absurd h1 e.1⟩
  rw [if_neg h1]
  by_cases h2 : rn = 15
  · rw [if_pos h2]; exact ⟨(fun e => nomatch e), fun e => absurd h2 e.2.1⟩
  rw [if_neg h2]
  cases h3 : aligned .word (s.readReg m rn)
  · exact ⟨(fun e => nomatch e), fun e => nomatch e.2.2.1⟩
  rw [if_neg (by decide)]
  by_cases h4 : (w && clash) = true
  · rw [if_pos h4]; exact ⟨(fun e => nomatch e), fun e => absurd (by simpa using h4) e.2.2.2.1⟩
  rw [if_neg h4]
  by_cases h5 : (sb && m.spsr.isNone) = true
  · rw [if_pos h5]; exact ⟨(fun e => nomatch e), fun e => absurd (by simpa using h5) e.2.2.2.2.1⟩
  rw [if_neg h5]
  by_cases h6 : (user && w) = true
  · rw [if_pos h6]; exact ⟨(fun e => nomatch e), fun e => absurd (by simpa using h6) e.2.2.2.2.2⟩
  rw [if_neg h6]
  exact ⟨fun _ => ⟨h1, h2, rfl, by simpa using h4, by simpa using h5, by simpa using h6⟩, fun _ => rfl⟩

end Sys2Proof.Machine
end

