-- ==== Sys2Proof/Laws/PerInstr.lean ====
section
/-! SUPPORT. Statements about every instruction, one lemma per constructor: the condition of an instruction is bits 31:28 of its word
(R136, R171). -/

namespace Sys2Proof.Laws

/-- The condition of the instruction stands in bits 31:28 of its word (R136). -/
def CondField.Statement (i : Instr) : Prop := field (encode i) 28 4 = (Machine.condOf i).bits

namespace CondField

theorem dp (c : Cond) (op : DpOp) (sf : Bool) (rn rd : Reg) (o : Operand2) : field (encodeDp c op sf rn rd o) 28 4 = c.bits := by
  cases o <;> refine field_pack_head c.bits _ rfl ?_ <;>
    repeat (first | exact fits_nil | apply fits_bits | apply fits_bit | refine fits_cons (by decide) ?_)

theorem mulForm (c : Cond) (a sf : Bool) (rd rn rs rm : Reg) : field (encodeMul c a sf rd rn rs rm) 28 4 = c.bits := by
  refine field_pack_head c.bits _ rfl ?_
  repeat (first | exact fits_nil | apply fits_bits | apply fits_bit | refine fits_cons (by decide) ?_)

theorem mullForm (c : Cond) (u a sf : Bool) (rdHi rdLo rs rm : Reg) : field (encodeMull c u a sf rdHi rdLo rs rm) 28 4 = c.bits := by
  refine field_pack_head c.bits _ rfl ?_
  repeat (first | exact fits_nil | apply fits_bits | apply fits_bit | refine fits_cons (by decide) ?_)

theorem halfForm (c : Cond) (p u imm w : Bool) {l sh : Nat} (hl : l < 2) (hs : sh < 4) (rn rd : Reg) (hi lo : BitVec 4) :
    field (encodeHalf c p u imm w l rn rd sh hi lo) 28 4 = c.bits := by
  refine field_pack_head c.bits _ rfl ?_
  repeat (first | exact fits_nil | apply fits_bits | apply fits_bit | apply fits_cons hl | apply fits_cons hs | refine fits_cons (by decide) ?_)

theorem lsImm (c : Cond) (p u b w l : Bool) (rn rd : Reg) (offset : BitVec 12) :
    field (encodeLsImm c p u b w l rn rd offset) 28 4 = c.bits := by
  refine field_pack_head c.bits _ rfl ?_
  repeat (first | exact fits_nil | apply fits_bits | apply fits_bit | refine fits_cons (by decide) ?_)

theorem lsReg (c : Cond) (p u b w l : Bool) (rn rd : Reg) (amount : BitVec 5) (ty : ShiftType) (rm : Reg) :
    field (encodeLsReg c p u b w l rn rd amount ty rm) 28 4 = c.bits := by
  refine field_pack_head c.bits _ rfl ?_
  repeat (first | exact fits_nil | apply fits_bits | apply fits_bit | refine fits_cons (by decide) ?_)

theorem andImm (c : Cond) (rn rd : Reg) (sf : Bool) (rot : BitVec 4) (imm8 : BitVec 8) :
    Statement (.andImm c rn rd sf rot imm8) := dp _ _ _ _ _ _

theorem andShiftImm (c : Cond) (rn rd : Reg) (sf : Bool) (amount : BitVec 5) (ty : ShiftType) (rm : Reg) :
    Statement (.andShiftImm c rn rd sf amount ty rm) := dp _ _ _ _ _ _

theorem andShiftReg (c : Cond) (rn rd : Reg) (sf : Bool) (rs : Reg) (ty : ShiftType) (rm : Reg) :
    Statement (.andShiftReg c rn rd sf rs ty rm) := dp _ _ _ _ _ _

theorem eorImm (c : Cond) (rn rd : Reg) (sf : Bool) (rot : BitVec 4) (imm8 : BitVec 8) :
    Statement (.eorImm c rn rd sf rot imm8) := dp _ _ _ _ _ _

theorem eorShiftImm (c : Cond) (rn rd : Reg) (sf : Bool) (amount : BitVec 5) (ty : ShiftType) (rm : Reg) :
    Statement (.eorShiftImm c rn rd sf amount ty rm) := dp _ _ _ _ _ _

theorem eorShiftReg (c : Cond) (rn rd : Reg) (sf : Bool) (rs : Reg) (ty : ShiftType) (rm : Reg) :
    Statement (.eorShiftReg c rn rd sf rs ty rm) := dp _ _ _ _ _ _

theorem subImm (c : Cond) (rn rd : Reg) (sf : Bool) (rot : BitVec 4) (imm8 : BitVec 8) :
    Statement (.subImm c rn rd sf rot imm8) := dp _ _ _ _ _ _

theorem subShiftImm (c : Cond) (rn rd : Reg) (sf : Bool) (amount : BitVec 5) (ty : ShiftType) (rm : Reg) :
    Statement (.subShiftImm c rn rd sf amount ty rm) := dp _ _ _ _ _ _

theorem subShiftReg (c : Cond) (rn rd : Reg) (sf : Bool) (rs : Reg) (ty : ShiftType) (rm : Reg) :
    Statement (.subShiftReg c rn rd sf rs ty rm) := dp _ _ _ _ _ _

theorem rsbImm (c : Cond) (rn rd : Reg) (sf : Bool) (rot : BitVec 4) (imm8 : BitVec 8) :
    Statement (.rsbImm c rn rd sf rot imm8) := dp _ _ _ _ _ _

theorem rsbShiftImm (c : Cond) (rn rd : Reg) (sf : Bool) (amount : BitVec 5) (ty : ShiftType) (rm : Reg) :
    Statement (.rsbShiftImm c rn rd sf amount ty rm) := dp _ _ _ _ _ _

theorem rsbShiftReg (c : Cond) (rn rd : Reg) (sf : Bool) (rs : Reg) (ty : ShiftType) (rm : Reg) :
    Statement (.rsbShiftReg c rn rd sf rs ty rm) := dp _ _ _ _ _ _

theorem addImm (c : Cond) (rn rd : Reg) (sf : Bool) (rot : BitVec 4) (imm8 : BitVec 8) :
    Statement (.addImm c rn rd sf rot imm8) := dp _ _ _ _ _ _

theorem addShiftImm (c : Cond) (rn rd : Reg) (sf : Bool) (amount : BitVec 5) (ty : ShiftType) (rm : Reg) :
    Statement (.addShiftImm c rn rd sf amount ty rm) := dp _ _ _ _ _ _

theorem addShiftReg (c : Cond) (rn rd : Reg) (sf : Bool) (rs : Reg) (ty : ShiftType) (rm : Reg) :
    Statement (.addShiftReg c rn rd sf rs ty rm) := dp _ _ _ _ _ _

theorem adcImm (c : Cond) (rn rd : Reg) (sf : Bool) (rot : BitVec 4) (imm8 : BitVec 8) :
    Statement (.adcImm c rn rd sf rot imm8) := dp _ _ _ _ _ _

theorem adcShiftImm (c : Cond) (rn rd : Reg) (sf : Bool) (amount : BitVec 5) (ty : ShiftType) (rm : Reg) :
    Statement (.adcShiftImm c rn rd sf amount ty rm) := dp _ _ _ _ _ _

theorem adcShiftReg (c : Cond) (rn rd : Reg) (sf : Bool) (rs : Reg) (ty : ShiftType) (rm : Reg) :
    Statement (.adcShiftReg c rn rd sf rs ty rm) := dp _ _ _ _ _ _

theorem sbcImm (c : Cond) (rn rd : Reg) (sf : Bool) (rot : BitVec 4) (imm8 : BitVec 8) :
    Statement (.sbcImm c rn rd sf rot imm8) := dp _ _ _ _ _ _

theorem sbcShiftImm (c : Cond) (rn rd : Reg) (sf : Bool) (amount : BitVec 5) (ty : ShiftType) (rm : Reg) :
    Statement (.sbcShiftImm c rn rd sf amount ty rm) := dp _ _ _ _ _ _

theorem sbcShiftReg (c : Cond) (rn rd : Reg) (sf : Bool) (rs : Reg) (ty : ShiftType) (rm : Reg) :
    Statement (.sbcShiftReg c rn rd sf rs ty rm) := dp _ _ _ _ _ _

theorem rscImm (c : Cond) (rn rd : Reg) (sf : Bool) (rot : BitVec 4) (imm8 : BitVec 8) :
    Statement (.rscImm c rn rd sf rot imm8) := dp _ _ _ _ _ _

theorem rscShiftImm (c : Cond) (rn rd : Reg) (sf : Bool) (amount : BitVec 5) (ty : ShiftType) (rm : Reg) :
    Statement (.rscShiftImm c rn rd sf amount ty rm) := dp _ _ _ _ _ _

theorem rscShiftReg (c : Cond) (rn rd : Reg) (sf : Bool) (rs : Reg) (ty : ShiftType) (rm : Reg) :
    Statement (.rscShiftReg c rn rd sf rs ty rm) := dp _ _ _ _ _ _

theorem tstImm (c : Cond) (rn rd : Reg) (rot : BitVec 4) (imm8 : BitVec 8) :
    Statement (.tstImm c rn rd rot imm8) := dp _ _ _ _ _ _

theorem tstShiftImm (c : Cond) (rn rd : Reg) (amount : BitVec 5) (ty : ShiftType) (rm : Reg) :
    Statement (.tstShiftImm c rn rd amount ty rm) := dp _ _ _ _ _ _

theorem tstShiftReg (c : Cond) (rn rd rs : Reg) (ty : ShiftType) (rm : Reg) :
    Statement (.tstShiftReg c rn rd rs ty rm) := dp _ _ _ _ _ _

theorem teqImm (c : Cond) (rn rd : Reg) (rot : BitVec 4) (imm8 : BitVec 8) :
    Statement (.teqImm c rn rd rot imm8) := dp _ _ _ _ _ _

theorem teqShiftImm (c : Cond) (rn rd : Reg) (amount : BitVec 5) (ty : ShiftType) (rm : Reg) :
    Statement (.teqShiftImm c rn rd amount ty rm) := dp _ _ _ _ _ _

theorem teqShiftReg (c : Cond) (rn rd rs : Reg) (ty : ShiftType) (rm : Reg) :
    Statement (.teqShiftReg c rn rd rs ty rm) := dp _ _ _ _ _ _

theorem cmpImm (c : Cond) (rn rd : Reg) (rot : BitVec 4) (imm8 : BitVec 8) :
    Statement (.cmpImm c rn rd rot imm8) := dp _ _ _ _ _ _

theorem cmpShiftImm (c : Cond) (rn rd : Reg) (amount : BitVec 5) (ty : ShiftType) (rm : Reg) :
    Statement (.cmpShiftImm c rn rd amount ty rm) := dp _ _ _ _ _ _

theorem cmpShiftReg (c : Cond) (rn rd rs : Reg) (ty : ShiftType) (rm : Reg) :
    Statement (.cmpShiftReg c rn rd rs ty rm) := dp _ _ _ _ _ _

theorem cmnImm (c : Cond) (rn rd : Reg) (rot : BitVec 4) (imm8 : BitVec 8) :
    Statement (.cmnImm c rn rd rot imm8) := dp _ _ _ _ _ _

theorem cmnShiftImm (c : Cond) (rn rd : Reg) (amount : BitVec 5) (ty : ShiftType) (rm : Reg) :
    Statement (.cmnShiftImm c rn rd amount ty rm) := dp _ _ _ _ _ _

theorem cmnShiftReg (c : Cond) (rn rd rs : Reg) (ty : ShiftType) (rm : Reg) :
    Statement (.cmnShiftReg c rn rd rs ty rm) := dp _ _ _ _ _ _

theorem orrImm (c : Cond) (rn rd : Reg) (sf : Bool) (rot : BitVec 4) (imm8 : BitVec 8) :
    Statement (.orrImm c rn rd sf rot imm8) := dp _ _ _ _ _ _

theorem orrShiftImm (c : Cond) (rn rd : Reg) (sf : Bool) (amount : BitVec 5) (ty : ShiftType) (rm : Reg) :
    Statement (.orrShiftImm c rn rd sf amount ty rm) := dp _ _ _ _ _ _

theorem orrShiftReg (c : Cond) (rn rd : Reg) (sf : Bool) (rs : Reg) (ty : ShiftType) (rm : Reg) :
    Statement (.orrShiftReg c rn rd sf rs ty rm) := dp _ _ _ _ _ _

theorem movImm (c : Cond) (rn rd : Reg) (sf : Bool) (rot : BitVec 4) (imm8 : BitVec 8) :
    Statement (.movImm c rn rd sf rot imm8) := dp _ _ _ _ _ _

theorem movShiftImm (c : Cond) (rn rd : Reg) (sf : Bool) (amount : BitVec 5) (ty : ShiftType) (rm : Reg) :
    Statement (.movShiftImm c rn rd sf amount ty rm) := dp _ _ _ _ _ _

theorem movShiftReg (c : Cond) (rn rd : Reg) (sf : Bool) (rs : Reg) (ty : ShiftType) (rm : Reg) :
    Statement (.movShiftReg c rn rd sf rs ty rm) := dp _ _ _ _ _ _

theorem bicImm (c : Cond) (rn rd : Reg) (sf : Bool) (rot : BitVec 4) (imm8 : BitVec 8) :
    Statement (.bicImm c rn rd sf rot imm8) := dp _ _ _ _ _ _

theorem bicShiftImm (c : Cond) (rn rd : Reg) (sf : Bool) (amount : BitVec 5) (ty : ShiftType) (rm : Reg) :
    Statement (.bicShiftImm c rn rd sf amount ty rm) := dp _ _ _ _ _ _

theorem bicShiftReg (c : Cond) (rn rd : Reg) (sf : Bool) (rs : Reg) (ty : ShiftType) (rm : Reg) :
    Statement (.bicShiftReg c rn rd sf rs ty rm) := dp _ _ _ _ _ _

theorem mvnImm (c : Cond) (rn rd : Reg) (sf : Bool) (rot : BitVec 4) (imm8 : BitVec 8) :
    Statement (.mvnImm c rn rd sf rot imm8) := dp _ _ _ _ _ _

theorem mvnShiftImm (c : Cond) (rn rd : Reg) (sf : Bool) (amount : BitVec 5) (ty : ShiftType) (rm : Reg) :
    Statement (.mvnShiftImm c rn rd sf amount ty rm) := dp _ _ _ _ _ _

theorem mvnShiftReg (c : Cond) (rn rd : Reg) (sf : Bool) (rs : Reg) (ty : ShiftType) (rm : Reg) :
    Statement (.mvnShiftReg c rn rd sf rs ty rm) := dp _ _ _ _ _ _

theorem mrs (c : Cond) (r : Bool) (rd : Reg) :
    Statement (.mrs c r rd) := by
  refine field_pack_head c.bits _ rfl ?_
  repeat (first | exact fits_nil | apply fits_bits | apply fits_bit | refine fits_cons (by decide) ?_)

theorem msrReg (c : Cond) (r : Bool) (fmask : BitVec 4) (rm : Reg) :
    Statement (.msrReg c r fmask rm) := by
  refine field_pack_head c.bits _ rfl ?_
  repeat (first | exact fits_nil | apply fits_bits | apply fits_bit | refine fits_cons (by decide) ?_)

theorem msrImm (c : Cond) (r : Bool) (fmask rot : BitVec 4) (imm8 : BitVec 8) :
    Statement (.msrImm c r fmask rot imm8) := by
  refine field_pack_head c.bits _ rfl ?_
  repeat (first | exact fits_nil | apply fits_bits | apply fits_bit | refine fits_cons (by decide) ?_)

theorem bx (c : Cond) (rn : Reg) :
    Statement (.bx c rn) := by
  refine field_pack_head c.bits _ rfl ?_
  repeat (first | exact fits_nil | apply fits_bits | apply fits_bit | refine fits_cons (by decide) ?_)

theorem mul (c : Cond) (sf : Bool) (rd rn rs rm : Reg) :
    Statement (.mul c sf rd rn rs rm) := mulForm _ _ _ _ _ _ _

theorem mla (c : Cond) (sf : Bool) (rd rn rs rm : Reg) :
    Statement (.mla c sf rd rn rs rm) := mulForm _ _ _ _ _ _ _

theorem umull (c : Cond) (sf : Bool) (rdHi rdLo rs rm : Reg) :
    Statement (.umull c sf rdHi rdLo rs rm) := mullForm _ _ _ _ _ _ _ _

theorem umlal (c : Cond) (sf : Bool) (rdHi rdLo rs rm : Reg) :
    Statement (.umlal c sf rdHi rdLo rs rm) := mullForm _ _ _ _ _ _ _ _

theorem smull (c : Cond) (sf : Bool) (rdHi rdLo rs rm : Reg) :
    Statement (.smull c sf rdHi rdLo rs rm) := mullForm _ _ _ _ _ _ _ _

theorem smlal (c : Cond) (sf : Bool) (rdHi rdLo rs rm : Reg) :
    Statement (.smlal c sf rdHi rdLo rs rm) := mullForm _ _ _ _ _ _ _ _

theorem swp (c : Cond) (rn rd rm : Reg) :
    Statement (.swp c rn rd rm) := by
  refine field_pack_head c.bits _ rfl ?_
  repeat (first | exact fits_nil | apply fits_bits | apply fits_bit | refine fits_cons (by decide) ?_)

theorem swpb (c : Cond) (rn rd rm : Reg) :
    Statement (.swpb c rn rd rm) := by
  refine field_pack_head c.bits _ rfl ?_
  repeat (first | exact fits_nil | apply fits_bits | apply fits_bit | refine fits_cons (by decide) ?_)

theorem strhImm (c : Cond) (p u w : Bool) (rn rd : Reg) (offHi offLo : BitVec 4) :
    Statement (.strhImm c p u w rn rd offHi offLo) := halfForm _ _ _ _ _ (by decide) (by decide) _ _ _ _

theorem strhReg (c : Cond) (p u w : Bool) (rn rd rm : Reg) :
    Statement (.strhReg c p u w rn rd rm) := halfForm _ _ _ _ _ (by decide) (by decide) _ _ _ _

theorem ldrhImm (c : Cond) (p u w : Bool) (rn rd : Reg) (offHi offLo : BitVec 4) :
    Statement (.ldrhImm c p u w rn rd offHi offLo) := halfForm _ _ _ _ _ (by decide) (by decide) _ _ _ _

theorem ldrhReg (c : Cond) (p u w : Bool) (rn rd rm : Reg) :
    Statement (.ldrhReg c p u w rn rd rm) := halfForm _ _ _ _ _ (by decide) (by decide) _ _ _ _

theorem ldrsbImm (c : Cond) (p u w : Bool) (rn rd : Reg) (offHi offLo : BitVec 4) :
    Statement (.ldrsbImm c p u w rn rd offHi offLo) := halfForm _ _ _ _ _ (by decide) (by decide) _ _ _ _

theorem ldrsbReg (c : Cond) (p u w : Bool) (rn rd rm : Reg) :
    Statement (.ldrsbReg c p u w rn rd rm) := halfForm _ _ _ _ _ (by decide) (by decide) _ _ _ _

theorem ldrshImm (c : Cond) (p u w : Bool) (rn rd : Reg) (offHi offLo : BitVec 4) :
    Statement (.ldrshImm c p u w rn rd offHi offLo) := halfForm _ _ _ _ _ (by decide) (by decide) _ _ _ _

theorem ldrshReg (c : Cond) (p u w : Bool) (rn rd rm : Reg) :
    Statement (.ldrshReg c p u w rn rd rm) := halfForm _ _ _ _ _ (by decide) (by decide) _ _ _ _

theorem strImmPre (c : Cond) (u : Bool) (rn rd : Reg) (offset : BitVec 12) (w : Bool) :
    Statement (.strImmPre c u rn rd offset w) := lsImm _ _ _ _ _ _ _ _ _

theorem strImmPost (c : Cond) (u : Bool) (rn rd : Reg) (offset : BitVec 12) :
    Statement (.strImmPost c u rn rd offset) := lsImm _ _ _ _ _ _ _ _ _

theorem strtImm (c : Cond) (u : Bool) (rn rd : Reg) (offset : BitVec 12) :
    Statement (.strtImm c u rn rd offset) := lsImm _ _ _ _ _ _ _ _ _

theorem strRegPre (c : Cond) (u : Bool) (rn rd : Reg) (amount : BitVec 5) (ty : ShiftType) (rm : Reg) (w : Bool) :
    Statement (.strRegPre c u rn rd amount ty rm w) := lsReg _ _ _ _ _ _ _ _ _ _ _

theorem strRegPost (c : Cond) (u : Bool) (rn rd : Reg) (amount : BitVec 5) (ty : ShiftType) (rm : Reg) :
    Statement (.strRegPost c u rn rd amount ty rm) := lsReg _ _ _ _ _ _ _ _ _ _ _

theorem strtReg (c : Cond) (u : Bool) (rn rd : Reg) (amount : BitVec 5) (ty : ShiftType) (rm : Reg) :
    Statement (.strtReg c u rn rd amount ty rm) := lsReg _ _ _ _ _ _ _ _ _ _ _

theorem ldrImmPre (c : Cond) (u : Bool) (rn rd : Reg) (offset : BitVec 12) (w : Bool) :
    Statement (.ldrImmPre c u rn rd offset w) := lsImm _ _ _ _ _ _ _ _ _

theorem ldrImmPost (c : Cond) (u : Bool) (rn rd : Reg) (offset : BitVec 12) :
    Statement (.ldrImmPost c u rn rd offset) := lsImm _ _ _ _ _ _ _ _ _

theorem ldrtImm (c : Cond) (u : Bool) (rn rd : Reg) (offset : BitVec 12) :
    Statement (.ldrtImm c u rn rd offset) := lsImm _ _ _ _ _ _ _ _ _

theorem ldrRegPre (c : Cond) (u : Bool) (rn rd : Reg) (amount : BitVec 5) (ty : ShiftType) (rm : Reg) (w : Bool) :
    Statement (.ldrRegPre c u rn rd amount ty rm w) := lsReg _ _ _ _ _ _ _ _ _ _ _

theorem ldrRegPost (c : Cond) (u : Bool) (rn rd : Reg) (amount : BitVec 5) (ty : ShiftType) (rm : Reg) :
    Statement (.ldrRegPost c u rn rd amount ty rm) := lsReg _ _ _ _ _ _ _ _ _ _ _

theorem ldrtReg (c : Cond) (u : Bool) (rn rd : Reg) (amount : BitVec 5) (ty : ShiftType) (rm : Reg) :
    Statement (.ldrtReg c u rn rd amount ty rm) := lsReg _ _ _ _ _ _ _ _ _ _ _

theorem strbImmPre (c : Cond) (u : Bool) (rn rd : Reg) (offset : BitVec 12) (w : Bool) :
    Statement (.strbImmPre c u rn rd offset w) := lsImm _ _ _ _ _ _ _ _ _

theorem strbImmPost (c : Cond) (u : Bool) (rn rd : Reg) (offset : BitVec 12) :
    Statement (.strbImmPost c u rn rd offset) := lsImm _ _ _ _ _ _ _ _ _

theorem strbtImm (c : Cond) (u : Bool) (rn rd : Reg) (offset : BitVec 12) :
    Statement (.strbtImm c u rn rd offset) := lsImm _ _ _ _ _ _ _ _ _

theorem strbRegPre (c : Cond) (u : Bool) (rn rd : Reg) (amount : BitVec 5) (ty : ShiftType) (rm : Reg) (w : Bool) :
    Statement (.strbRegPre c u rn rd amount ty rm w) := lsReg _ _ _ _ _ _ _ _ _ _ _

theorem strbRegPost (c : Cond) (u : Bool) (rn rd : Reg) (amount : BitVec 5) (ty : ShiftType) (rm : Reg) :
    Statement (.strbRegPost c u rn rd amount ty rm) := lsReg _ _ _ _ _ _ _ _ _ _ _

theorem strbtReg (c : Cond) (u : Bool) (rn rd : Reg) (amount : BitVec 5) (ty : ShiftType) (rm : Reg) :
    Statement (.strbtReg c u rn rd amount ty rm) := lsReg _ _ _ _ _ _ _ _ _ _ _

theorem ldrbImmPre (c : Cond) (u : Bool) (rn rd : Reg) (offset : BitVec 12) (w : Bool) :
    Statement (.ldrbImmPre c u rn rd offset w) := lsImm _ _ _ _ _ _ _ _ _

theorem ldrbImmPost (c : Cond) (u : Bool) (rn rd : Reg) (offset : BitVec 12) :
    Statement (.ldrbImmPost c u rn rd offset) := lsImm _ _ _ _ _ _ _ _ _

theorem ldrbtImm (c : Cond) (u : Bool) (rn rd : Reg) (offset : BitVec 12) :
    Statement (.ldrbtImm c u rn rd offset) := lsImm _ _ _ _ _ _ _ _ _

theorem ldrbRegPre (c : Cond) (u : Bool) (rn rd : Reg) (amount : BitVec 5) (ty : ShiftType) (rm : Reg) (w : Bool) :
    Statement (.ldrbRegPre c u rn rd amount ty rm w) := lsReg _ _ _ _ _ _ _ _ _ _ _

theorem ldrbRegPost (c : Cond) (u : Bool) (rn rd : Reg) (amount : BitVec 5) (ty : ShiftType) (rm : Reg) :
    Statement (.ldrbRegPost c u rn rd amount ty rm) := lsReg _ _ _ _ _ _ _ _ _ _ _

theorem ldrbtReg (c : Cond) (u : Bool) (rn rd : Reg) (amount : BitVec 5) (ty : ShiftType) (rm : Reg) :
    Statement (.ldrbtReg c u rn rd amount ty rm) := lsReg _ _ _ _ _ _ _ _ _ _ _

theorem undefined (c : Cond) (hi : BitVec 20) (lo : BitVec 4) :
    Statement (.undefined c hi lo) := by
  refine field_pack_head c.bits _ rfl ?_
  repeat (first | exact fits_nil | apply fits_bits | apply fits_bit | refine fits_cons (by decide) ?_)

theorem ldm (c : Cond) (p u sb w : Bool) (rn : Reg) (list : BitVec 16) :
    Statement (.ldm c p u sb w rn list) := by
  refine field_pack_head c.bits _ rfl ?_
  repeat (first | exact fits_nil | apply fits_bits | apply fits_bit | refine fits_cons (by decide) ?_)

theorem stm (c : Cond) (p u sb w : Bool) (rn : Reg) (list : BitVec 16) :
    Statement (.stm c p u sb w rn list) := by
  refine field_pack_head c.bits _ rfl ?_
  repeat (first | exact fits_nil | apply fits_bits | apply fits_bit | refine fits_cons (by decide) ?_)

theorem b (c : Cond) (offset : BitVec 24) :
    Statement (.b c offset) := by
  refine field_pack_head c.bits _ rfl ?_
  repeat (first | exact fits_nil | apply fits_bits | apply fits_bit | refine fits_cons (by decide) ?_)

theorem bl (c : Cond) (offset : BitVec 24) :
    Statement (.bl c offset) := by
  refine field_pack_head c.bits _ rfl ?_
  repeat (first | exact fits_nil | apply fits_bits | apply fits_bit | refine fits_cons (by decide) ?_)

theorem ldc (c : Cond) (p u n w : Bool) (rn : Reg) (crd cpnum : BitVec 4) (offset : BitVec 8) :
    Statement (.ldc c p u n w rn crd cpnum offset) := by
  refine field_pack_head c.bits _ rfl ?_
  repeat (first | exact fits_nil | apply fits_bits | apply fits_bit | refine fits_cons (by decide) ?_)

theorem stc (c : Cond) (p u n w : Bool) (rn : Reg) (crd cpnum : BitVec 4) (offset : BitVec 8) :
    Statement (.stc c p u n w rn crd cpnum offset) := by
  refine field_pack_head c.bits _ rfl ?_
  repeat (first | exact fits_nil | apply fits_bits | apply fits_bit | refine fits_cons (by decide) ?_)

theorem cdp (c : Cond) (op1 crn crd cpnum : BitVec 4) (op2 : BitVec 3) (crm : BitVec 4) :
    Statement (.cdp c op1 crn crd cpnum op2 crm) := by
  refine field_pack_head c.bits _ rfl ?_
  repeat (first | exact fits_nil | apply fits_bits | apply fits_bit | refine fits_cons (by decide) ?_)

theorem mcr (c : Cond) (op1 : BitVec 3) (crn : BitVec 4) (rd : Reg) (cpnum : BitVec 4) (op2 : BitVec 3) (crm : BitVec 4) :
    Statement (.mcr c op1 crn rd cpnum op2 crm) := by
  refine field_pack_head c.bits _ rfl ?_
  repeat (first | exact fits_nil | apply fits_bits | apply fits_bit | refine fits_cons (by decide) ?_)

theorem mrc (c : Cond) (op1 : BitVec 3) (crn : BitVec 4) (rd : Reg) (cpnum : BitVec 4) (op2 : BitVec 3) (crm : BitVec 4) :
    Statement (.mrc c op1 crn rd cpnum op2 crm) := by
  refine field_pack_head c.bits _ rfl ?_
  repeat (first | exact fits_nil | apply fits_bits | apply fits_bit | refine fits_cons (by decide) ?_)

theorem swi (c : Cond) (number : BitVec 24) :
    Statement (.swi c number) := by
  refine field_pack_head c.bits _ rfl ?_
  repeat (first | exact fits_nil | apply fits_bits | apply fits_bit | refine fits_cons (by decide) ?_)

end CondField

end Sys2Proof.Laws
end

