-- ==== Sys2Proof/Laws/Transfers.lean ====
section
/-! SUPPORT. Laws of the transfers: operands do not depend on the user-bank bit, every single transfer is one of two shared rules, and
what a block transfer does when the memory system accepts all of it. -/

namespace Sys2Proof.Machine

/-! ## Operands do not depend on the bit for a user-bank LDM -/

@[simp] theorem State.readReg_userLdm (s : State) (m : Mode) (i : Reg) (b : Bool) :
    ({ s with userLdm := b } : State).readReg m i = s.readReg m i := State.readReg_congr _ _ rfl rfl

@[simp] theorem answer_userLdm (s : State) (k : AccessKind) (pr : Bool) (a : Word) (wd : Width) (b : Bool) :
    answer { s with userLdm := b } k pr a wd = answer s k pr a wd := rfl

@[simp] theorem storedValue_userLdm (s : State) (m : Mode) (i : Reg) (b : Bool) :
    storedValue { s with userLdm := b } m i = storedValue s m i := by
  simp only [storedValue, State.readReg_userLdm]

@[simp] theorem offsetValue_userLdm (s : State) (m : Mode) (o : Offset) (b : Bool) :
    offsetValue { s with userLdm := b } m o = offsetValue s m o := by
  cases o <;> simp only [offsetValue, State.readReg_userLdm]

@[simp] theorem movedBase_userLdm (s : State) (m : Mode) (u : Bool) (rn : Reg) (o : Offset) (b : Bool) :
    movedBase { s with userLdm := b } m u rn o = movedBase s m u rn o := by
  simp only [movedBase, State.readReg_userLdm, offsetValue_userLdm]

@[simp] theorem transferAddress_userLdm (s : State) (m : Mode) (ix : Indexing) (u : Bool) (rn : Reg) (o : Offset) (b : Bool) :
    transferAddress { s with userLdm := b } m ix u rn o = transferAddress s m ix u rn o := by
  cases ix <;> simp only [transferAddress, State.readReg_userLdm, movedBase_userLdm]

@[simp] theorem blockRefusal_userLdm (s : State) (m : Mode) (sb w : Bool) (rn : Reg) (list : BitVec 16) (c u b : Bool) :
    blockRefusal { s with userLdm := b } m sb w rn list c u = blockRefusal s m sb w rn list c u := by
  simp only [blockRefusal, State.readReg_userLdm]

/-! ## Single transfers -/

/-- Every single transfer that executes is the shared load or the shared store with the fields of its row. -/
theorem exec_transfer {i : Instr} {x : Transfer} {m : Mode} {s : State} (h : transferOf i = some x)
    (he : executes x.c (transferRegs x.rn x.rd x.off) m s) (hh : x.half = true → s.platform.hasV4 = true) :
    exec i s =
      if x.valid then
        (if x.load then loadSingle x.wd x.signed x.translated x.ix x.u x.rn x.rd x.off m { s with userLdm := false }
          else storeSingle x.wd x.translated x.ix x.u x.rn x.rd x.off m { s with userLdm := false })
      else .refused .halfwordPostIndexedW := by
  cases i <;> simp only [transferOf, Option.some.injEq, reduceCtorEq] at h <;> subst h <;>
    first
    | (refine (whenExecuted_executes he _).trans ?_; rfl)
    | (dsimp only at he
       have h4 := hh rfl
       simp only [exec, execStrhImm, execLdrhImm, execLdrsbImm, execLdrshImm, whenExecuted_executes he, halfwordForm, h4]
       rename_i p u w rn rd _ _; cases p <;> cases w <;> rfl)
    | (dsimp only at he
       have h4 := hh rfl
       simp only [exec, execStrhReg, execLdrhReg, execLdrsbReg, execLdrshReg, whenExecuted_executes he, halfwordForm, h4]
       rename_i p u w rn rd _; cases p <;> cases w <;> rfl)

/-- The base update leaves the pc, if the base is not r15. -/
theorem updateBase_pc {s : State} {m : Mode} {ix : Indexing} {rn : Reg} {v : Word} (h : writesBase ix = true → rn ≠ 15) :
    (updateBase s m ix rn v).pc = s.pc := by
  unfold updateBase
  split
  · next hw => exact State.setReg_pc _ (h hw)
  · rfl

/-! ## Block transfers -/

/-- An LDM that executes is the shared rule. -/
theorem exec_ldm {c : Cond} {p u sb w : Bool} {rn : Reg} {list : BitVec 16} {m : Mode} {s : State}
    (he : executes c (blockRegs rn list) m s) :
    exec (.ldm c p u sb w rn list) s = loadBlock p u sb w rn list m { s with userLdm := false } := whenExecuted_executes he _

/-- An STM that executes is the shared rule. -/
theorem exec_stm {c : Cond} {p u sb w : Bool} {rn : Reg} {list : BitVec 16} {m : Mode} {s : State}
    (he : executes c (blockRegs rn list) m s) :
    exec (.stm c p u sb w rn list) s = storeBlock p u sb w rn list m { s with userLdm := false } := whenExecuted_executes he _

/-- The words of a block, in order, as they stand in memory. -/
def blockWords (s : State) (start : Word) (list : BitVec 16) : List Word :=
  (List.range (listRegs list).length).map fun k => Memory.read s.platform.bigEnd s.mem (start + BitVec.ofNat 32 (4 * k)) .word

theorem map_fst_blockWords (s : State) (start : Word) (list : BitVec 16) :
    ((listRegs list).zip (blockWords s start list)).map (·.1) = listRegs list := by
  apply List.map_fst_zip
  simp [blockWords]

/-- Each register of the list goes with the word at its place. -/
theorem mem_zip_blockWords {list : BitVec 16} {i : Reg} (s : State) (start : Word) (h : i ∈ listRegs list) :
    (i, Memory.read s.platform.bigEnd s.mem (start + BitVec.ofNat 32 (4 * listRank list i)) .word)
      ∈ (listRegs list).zip (blockWords s start list) := by
  have hl := listRank_lt h
  rw [List.mem_iff_getElem?]
  refine ⟨listRank list i, ?_⟩
  rw [List.getElem?_zip_eq_some]
  exact ⟨getElem?_listRank h, by simp [blockWords, hl]⟩

/-- An LDM whose operands are allowed and whose reads are all accepted. -/
theorem loadBlock_ok {p u sb w : Bool} {rn : Reg} {list : BitVec 16} {m : Mode} {s : State}
    (hn : blockRefusal s m sb w rn list (list.getLsbD rn.toNat) (loadsUserBank sb list) = none)
    (ha : ∀ k, k < (listRegs list).length →
      answer s .read m.privileged (blockStart p u (s.readReg m rn) list + BitVec.ofNat 32 (4 * k)) .word = .ok) :
    loadBlock p u sb w rn list m s =
      finishLoad sb list m
        { blockWriteBack m w rn (blockNewBase u (s.readReg m rn) list)
            (State.loadRegs (if loadsUserBank sb list then .user else m) s
              ((listRegs list).zip (blockWords s (blockStart p u (s.readReg m rn) list) list))) with
          userLdm := loadsUserBank sb list } := by
  unfold loadBlock
  simp only [hn, State.readWords_ok s m.privileged _ _ ha, MemResult.andThen]
  rfl

/-- An STM whose operands are allowed and whose writes are all accepted. -/
theorem storeBlock_ok {p u sb w : Bool} {rn : Reg} {list : BitVec 16} {m : Mode} {s : State}
    (hn : blockRefusal s m sb w rn list (baseNotLowest rn list) sb = none)
    (ha : ∀ k, k < (listRegs list).length →
      answer s .write m.privileged (blockStart p u (s.readReg m rn) list + BitVec.ofNat 32 (4 * k)) .word = .ok) :
    storeBlock p u sb w rn list m s =
      advance (blockWriteBack m w rn (blockNewBase u (s.readReg m rn) list)
        (s.storeWords (blockStart p u (s.readReg m rn) list)
          ((listRegs list).map fun i => storedValue s (if sb then .user else m) i))) := by
  have hw := State.writeWords_ok m.privileged ((listRegs list).map fun i => storedValue s (if sb then .user else m) i) s
    (blockStart p u (s.readReg m rn) list) (by simpa using ha)
  unfold storeBlock
  simp only [hn, hw]

/-- The base update of a block transfer leaves the pc, if the base is not r15. -/
theorem blockWriteBack_pc {s : State} {m : Mode} {w : Bool} {rn : Reg} {v : Word} (h : rn ≠ 15) :
    (blockWriteBack m w rn v s).pc = s.pc := by
  unfold blockWriteBack
  split
  · exact State.setReg_pc _ h
  · rfl

/-- Words stored without overlap are read back, each at its place. -/
theorem State.get_storeWords (vs : List Word) (s : State) (a : Word) (hl : vs.length ≤ 16) {k : Nat} (hk : k < vs.length) {j : Nat}
    (hj : j < 4) :
    Memory.get (s.storeWords a vs).mem (a + BitVec.ofNat 32 (4 * k) + BitVec.ofNat 32 j).toNat =
      (storedBytes s.platform.bigEnd vs[k] .word)[j]'(by simpa [widthBytes] using hj) := by
  induction vs generalizing s a k with
  | nil => cases hk
  | cons v vs ih =>
    simp only [List.length_cons] at hl hk
    cases k with
    | zero =>
      simp only [State.storeWords, Nat.mul_zero, BitVec.add_zero, List.getElem_cons_zero]
      rw [State.storeWords_keeps vs _ (a + 4) _ fun i hi => ?_, State.stores_mem]
      · exact Memory.get_write_same _ _ _ .word _ hj
      · intro e
        have := BitVec.eq_of_toNat_eq e
        rw [BitVec.add_assoc] at this
        have := congrArg BitVec.toNat ((BitVec.add_right_inj a).mp this)
        simp at this
        omega
    | succ k =>
      simp only [State.storeWords, ← ofNat_add_four, List.getElem_cons_succ]
      exact ih _ _ (by omega) (by omega)

/-- The words of a stored block, and no others, join the words stored to. -/
theorem State.mem_storeWords_stored (vs : List Word) (s : State) (a : Word) (x : Nat) :
    x ∈ (s.storeWords a vs).stored ↔
      x ∈ s.stored ∨ ∃ k, k < vs.length ∧ x = (a + BitVec.ofNat 32 (4 * k)).toNat / 4 := by
  induction vs generalizing s a with
  | nil => simp [State.storeWords]
  | cons v vs ih =>
    simp only [State.storeWords, ih, State.stores_stored, mem_addStored, List.length_cons, or_assoc]
    refine or_congr_right ⟨?_, ?_⟩
    · rintro (rfl | ⟨k, hk, rfl⟩)
      · exact ⟨0, by omega, by simp⟩
      · exact ⟨k + 1, by omega, by rw [ofNat_add_four]⟩
    · rintro ⟨k, hk, rfl⟩
      cases k with
      | zero => exact .inl (by simp)
      | succ k => exact .inr ⟨k, by omega, by rw [ofNat_add_four]⟩

end Sys2Proof.Machine
end

