-- ==== Sys2Proof/Tests/Slice0.lean ====
section
/-! SUPPORT. Tests: the checks of `Instr.wellFormed`, decoded words, one step each on small states, and for every obligation with
hypotheses a named theorem that meets them. The names V, D, M, L, B, W, J, P, E, X and Q with a number are the test vectors of
spec/95_test_vectors.md; 'by hand' is a calculation from the rule that is named. -/

namespace Sys2Proof.Tests

open Sys2Proof Sys2Proof.Machine

/-! ## The small states of the tests -/

/-- A state with a CPSR and a pc, registers of its mode, words of memory, and SPSRs. -/
def machine (cpsr pc : Nat) (bigEnd : Bool) (regs mem : List (Nat × Nat)) (spsrs : List (SpsrName × Nat) := []) : State :=
  let q := Psr.ofWord (BitVec.ofNat 32 cpsr)
  let m := (Mode.ofBits true q.m).getD .user
  { State.reset with
    cpsr := q
    pc := BitVec.ofNat 32 pc
    platform := { Platform.standard with bigEnd := bigEnd }
    mem := mem.foldl (fun k x => Memory.write bigEnd k (BitVec.ofNat 32 x.1) .word (BitVec.ofNat 32 x.2)) []
    spsrs := spsrs.foldl (fun k x => k.set x.1 (Psr.ofWord (BitVec.ofNat 32 x.2))) State.reset.spsrs
    regs := regs.foldl (fun k x => match phys m (BitVec.ofNat 4 x.1) with
      | some p => k.set p (BitVec.ofNat 32 x.2)
      | none => k) Regs.zero }

/-- A state whose memory system rejects every access of one kind. -/
def rejecting (k : AccessKind) (s : State) : State :=
  { s with platform := { s.platform with abortRules := [⟨0, 0xFFFFFFFF, some k, none, none⟩] } }

/-- The state after one step that runs the word `w` at the pc. -/
def after (s : State) (w : Nat) : Option State :=
  match step (s.withFetchWord 32 w) with
  | .next t => some t
  | _ => none

/-- The name something is refused with. -/
def stopped : Out → Option Refusal
  | .refused r => some r
  | _ => none

/-- The name a step that runs the word `w` at the pc is refused with. -/
def stops (s : State) (w : Nat) : Option Refusal := stopped (step (s.withFetchWord 32 w))

/-- A register of the current mode. -/
def reg (t : State) (i : Reg) : Word := t.readReg (t.mode.getD .user) i

/-- A word of memory. -/
def wordAt (t : State) (a : Word) : Word := Memory.read t.platform.bigEnd t.mem a .word

/-! ## Decoding -/

/-- AND: a word written from the row of opcode_table.json, D29. -/
theorem test_decode_and :
    decode 0xE211423C = .ok (.andImm .al 1 4 true 2 0x3c)
    ∧ decode 0xE0110002 = .ok (.andShiftImm .al 1 0 true 0 .lsl 2)
    ∧ decode 0xE0114332 = .ok (.andShiftReg .al 1 4 true 3 .lsr 2) := by decide

/-- EOR: a word written from the row of opcode_table.json, D30. -/
theorem test_decode_eor :
    decode 0xE231423C = .ok (.eorImm .al 1 4 true 2 0x3c)
    ∧ decode 0xE0331000 = .ok (.eorShiftImm .al 3 1 true 0 .lsl 0)
    ∧ decode 0xE0314332 = .ok (.eorShiftReg .al 1 4 true 3 .lsr 2) := by decide

/-- SUB: V4, D7, a word written from the row of opcode_table.json. -/
theorem test_decode_sub :
    decode 0xE2533001 = .ok (.subImm .al 3 3 true 0 1)
    ∧ decode 0xE0510002 = .ok (.subShiftImm .al 1 0 true 0 .lsl 2)
    ∧ decode 0xE0514332 = .ok (.subShiftReg .al 1 4 true 3 .lsr 2) := by decide

/-- RSB: V5, D45, a word written from the row of opcode_table.json. -/
theorem test_decode_rsb :
    decode 0xD2754005 = .ok (.rsbImm .le 5 4 true 0 5)
    ∧ decode 0xE0632203 = .ok (.rsbShiftImm .al 3 2 false 4 .lsl 3)
    ∧ decode 0xE0714332 = .ok (.rsbShiftReg .al 1 4 true 3 .lsr 2) := by decide

/-- ADD: D46, V1, V9. -/
theorem test_decode_add :
    decode 0xE28F0008 = .ok (.addImm .al 15 0 false 0 8)
    ∧ decode 0xE0810002 = .ok (.addShiftImm .al 1 0 false 0 .lsl 2)
    ∧ decode 0xE0810312 = .ok (.addShiftReg .al 1 0 false 3 .lsl 2) := by decide

/-- ADC: a word written from the row of opcode_table.json, D5. -/
theorem test_decode_adc :
    decode 0xE2B1423C = .ok (.adcImm .al 1 4 true 2 0x3c)
    ∧ decode 0xE0B10002 = .ok (.adcShiftImm .al 1 0 true 0 .lsl 2)
    ∧ decode 0xE0B14332 = .ok (.adcShiftReg .al 1 4 true 3 .lsr 2) := by decide

/-- SBC: a word written from the row of opcode_table.json, D13. -/
theorem test_decode_sbc :
    decode 0xE2D1423C = .ok (.sbcImm .al 1 4 true 2 0x3c)
    ∧ decode 0xE0D10002 = .ok (.sbcShiftImm .al 1 0 true 0 .lsl 2)
    ∧ decode 0xE0D14332 = .ok (.sbcShiftReg .al 1 4 true 3 .lsr 2) := by decide

/-- RSC: a word written from the row of opcode_table.json, D16. -/
theorem test_decode_rsc :
    decode 0xE2F1423C = .ok (.rscImm .al 1 4 true 2 0x3c)
    ∧ decode 0xE0F10002 = .ok (.rscShiftImm .al 1 0 true 0 .lsl 2)
    ∧ decode 0xE0F14332 = .ok (.rscShiftReg .al 1 4 true 3 .lsr 2) := by decide

/-- TST: V7, a word written from the row of opcode_table.json. -/
theorem test_decode_tst :
    decode 0x03120005 = .ok (.tstImm .eq 2 0 0 5)
    ∧ decode 0xE11102A2 = .ok (.tstShiftImm .al 1 0 5 .lsr 2)
    ∧ decode 0xE1110332 = .ok (.tstShiftReg .al 1 0 3 .lsr 2) := by decide

/-- TEQ: a word written from the row of opcode_table.json, D27. -/
theorem test_decode_teq :
    decode 0xE331023C = .ok (.teqImm .al 1 0 2 0x3c)
    ∧ decode 0xE1300001 = .ok (.teqShiftImm .al 0 0 0 .lsl 1)
    ∧ decode 0xE1310332 = .ok (.teqShiftReg .al 1 0 3 .lsr 2) := by decide

/-- CMP: a word written from the row of opcode_table.json, V6. -/
theorem test_decode_cmp :
    decode 0xE351023C = .ok (.cmpImm .al 1 0 2 0x3c)
    ∧ decode 0xE1500001 = .ok (.cmpShiftImm .al 0 0 0 .lsl 1)
    ∧ decode 0xE1510332 = .ok (.cmpShiftReg .al 1 0 3 .lsr 2) := by decide

/-- CMN: a word written from the row of opcode_table.json, D22. -/
theorem test_decode_cmn :
    decode 0xE371023C = .ok (.cmnImm .al 1 0 2 0x3c)
    ∧ decode 0xE1700001 = .ok (.cmnShiftImm .al 0 0 0 .lsl 1)
    ∧ decode 0xE1710332 = .ok (.cmnShiftReg .al 1 0 3 .lsr 2) := by decide

/-- ORR: a word written from the row of opcode_table.json, D31. -/
theorem test_decode_orr :
    decode 0xE391423C = .ok (.orrImm .al 1 4 true 2 0x3c)
    ∧ decode 0xE1910002 = .ok (.orrShiftImm .al 1 0 true 0 .lsl 2)
    ∧ decode 0xE1914332 = .ok (.orrShiftReg .al 1 4 true 3 .lsr 2) := by decide

/-- MOV: V13, V8, a word written from the row of opcode_table.json. -/
theorem test_decode_mov :
    decode 0xE3A00D40 = .ok (.movImm .al 0 0 false 13 0x40)
    ∧ decode 0xE1A0F00E = .ok (.movShiftImm .al 0 15 false 0 .lsl 14)
    ∧ decode 0xE1B14332 = .ok (.movShiftReg .al 1 4 true 3 .lsr 2) := by decide

/-- BIC: D32, a word written from the row of opcode_table.json. -/
theorem test_decode_bic :
    decode 0xE3D32007 = .ok (.bicImm .al 3 2 true 0 7)
    ∧ decode 0xE1D142A2 = .ok (.bicShiftImm .al 1 4 true 5 .lsr 2)
    ∧ decode 0xE1D14332 = .ok (.bicShiftReg .al 1 4 true 3 .lsr 2) := by decide

/-- MVN: V12, a word written from the row of opcode_table.json. -/
theorem test_decode_mvn :
    decode 0xE3E01000 = .ok (.mvnImm .al 0 1 false 0 0)
    ∧ decode 0xE1F142A2 = .ok (.mvnShiftImm .al 1 4 true 5 .lsr 2)
    ∧ decode 0xE1F14332 = .ok (.mvnShiftReg .al 1 4 true 3 .lsr 2) := by decide

/-- MRS: V21. -/
theorem test_decode_mrs :
    decode 0xE10F0000 = .ok (.mrs .al false 0) := by decide

/-- MSR: V22, V23. -/
theorem test_decode_msr :
    decode 0xE169F001 = .ok (.msrReg .al true 9 1)
    ∧ decode 0xE328F4F0 = .ok (.msrImm .al false 8 4 0xf0) := by decide

/-- BX: V20. -/
theorem test_decode_bx :
    decode 0xE12FFF10 = .ok (.bx .al 0) := by decide

/-- MUL: V14. -/
theorem test_decode_mul :
    decode 0xE0000291 = .ok (.mul .al false 0 0 2 1) := by decide

/-- MLA: V15. -/
theorem test_decode_mla :
    decode 0xE0203291 = .ok (.mla .al false 0 3 2 1) := by decide

/-- UMULL: V16. -/
theorem test_decode_umull :
    decode 0xE0810392 = .ok (.umull .al false 1 0 3 2) := by decide

/-- UMLAL: M14. -/
theorem test_decode_umlal :
    decode 0xE0A10392 = .ok (.umlal .al false 1 0 3 2) := by decide

/-- SMULL: M10. -/
theorem test_decode_smull :
    decode 0xE0C10392 = .ok (.smull .al false 1 0 3 2) := by decide

/-- SMLAL: V17. -/
theorem test_decode_smlal :
    decode 0xE0E10392 = .ok (.smlal .al false 1 0 3 2) := by decide

/-- SWP: V18. -/
theorem test_decode_swp :
    decode 0xE1020091 = .ok (.swp .al 2 0 1) := by decide

/-- SWPB: V19. -/
theorem test_decode_swpb :
    decode 0xE1420091 = .ok (.swpb .al 2 0 1) := by decide

/-- STRH: V32, a word written from the row of opcode_table.json. -/
theorem test_decode_strh :
    decode 0xE1C100B2 = .ok (.strhImm .al true true false 1 0 0 2)
    ∧ decode 0xE1A140B2 = .ok (.strhReg .al true true true 1 4 2) := by decide

/-- LDRH: V30, V31. -/
theorem test_decode_ldrh :
    decode 0xE1D100B2 = .ok (.ldrhImm .al true true false 1 0 0 2)
    ∧ decode 0xE19100B2 = .ok (.ldrhReg .al true true false 1 0 2) := by decide

/-- LDRSB: V33, a word written from the row of opcode_table.json. -/
theorem test_decode_ldrsb :
    decode 0xE1D100D1 = .ok (.ldrsbImm .al true true false 1 0 0 1)
    ∧ decode 0xE1B140D2 = .ok (.ldrsbReg .al true true true 1 4 2) := by decide

/-- LDRSH: L22, V34. -/
theorem test_decode_ldrsh :
    decode 0xE1D100F2 = .ok (.ldrshImm .al true true false 1 0 0 2)
    ∧ decode 0xE19100F2 = .ok (.ldrshReg .al true true false 1 0 2) := by decide

/-- STR: L1, L7, V25, L9. -/
theorem test_decode_str :
    decode 0xE5810000 = .ok (.strImmPre .al true 1 0 0 false)
    ∧ decode 0xE481000C = .ok (.strImmPost .al true 1 0 12)
    ∧ decode 0xE7810102 = .ok (.strRegPre .al true 1 0 2 .lsl 2 false)
    ∧ decode 0xE6810102 = .ok (.strRegPost .al true 1 0 2 .lsl 2) := by decide

/-- STRT: a word written from the row of opcode_table.json. -/
theorem test_decode_strt :
    decode 0xE4A14123 = .ok (.strtImm .al true 1 4 0x123)
    ∧ decode 0xE6A142A2 = .ok (.strtReg .al true 1 4 5 .lsr 2) := by decide

/-- LDR: V24, V26, L10, a word written from the row of opcode_table.json. -/
theorem test_decode_ldr :
    decode 0xE5912000 = .ok (.ldrImmPre .al true 1 2 0 false)
    ∧ decode 0xE4912004 = .ok (.ldrImmPost .al true 1 2 4)
    ∧ decode 0xE7902101 = .ok (.ldrRegPre .al true 0 2 2 .lsl 1 false)
    ∧ decode 0xE69142A2 = .ok (.ldrRegPost .al true 1 4 5 .lsr 2) := by decide

/-- LDRT: V28, a word written from the row of opcode_table.json. -/
theorem test_decode_ldrt :
    decode 0xE4B10004 = .ok (.ldrtImm .al true 1 0 4)
    ∧ decode 0xE6B142A2 = .ok (.ldrtReg .al true 1 4 5 .lsr 2) := by decide

/-- STRB: L18, a word written from the row of opcode_table.json. -/
theorem test_decode_strb :
    decode 0xE5C10001 = .ok (.strbImmPre .al true 1 0 1 false)
    ∧ decode 0xE4C14123 = .ok (.strbImmPost .al true 1 4 0x123)
    ∧ decode 0xE7E142A2 = .ok (.strbRegPre .al true 1 4 5 .lsr 2 true)
    ∧ decode 0xE6C142A2 = .ok (.strbRegPost .al true 1 4 5 .lsr 2) := by decide

/-- STRBT: a word written from the row of opcode_table.json, V29. -/
theorem test_decode_strbt :
    decode 0xE4E14123 = .ok (.strbtImm .al true 1 4 0x123)
    ∧ decode 0xE6E10002 = .ok (.strbtReg .al true 1 0 0 .lsl 2) := by decide

/-- LDRB: V27, a word written from the row of opcode_table.json. -/
theorem test_decode_ldrb :
    decode 0x05D02000 = .ok (.ldrbImmPre .eq true 0 2 0 false)
    ∧ decode 0xE4D14123 = .ok (.ldrbImmPost .al true 1 4 0x123)
    ∧ decode 0xE7F142A2 = .ok (.ldrbRegPre .al true 1 4 5 .lsr 2 true)
    ∧ decode 0xE6D142A2 = .ok (.ldrbRegPost .al true 1 4 5 .lsr 2) := by decide

/-- LDRBT: a word written from the row of opcode_table.json. -/
theorem test_decode_ldrbt :
    decode 0xE4F14123 = .ok (.ldrbtImm .al true 1 4 0x123)
    ∧ decode 0xE6F142A2 = .ok (.ldrbtReg .al true 1 4 5 .lsr 2) := by decide

/-- UNDEFINED: V48, and V48 with operand bits by R147. -/
theorem test_decode_undefined :
    decode 0xE6000010 = .ok (.undefined .al 0 0)
    ∧ decode 0xE7F123F4 = .ok (.undefined .al 0xf891f 4) := by decide

/-- LDM: V36. -/
theorem test_decode_ldm :
    decode 0xE8BD9FFF = .ok (.ldm .al false true false true 13 0x9fff) := by decide

/-- STM: V35. -/
theorem test_decode_stm :
    decode 0xE92D5FFF = .ok (.stm .al true false false true 13 0x5fff) := by decide

/-- B: V39. -/
theorem test_decode_b :
    decode 0xEAFFFFFE = .ok (.b .al 0xfffffe) := by decide

/-- BL: V40. -/
theorem test_decode_bl :
    decode 0xEB0003FE = .ok (.bl .al 0x3fe) := by decide

/-- LDC: V46. -/
theorem test_decode_ldc :
    decode 0xED910200 = .ok (.ldc .al true true false false 1 0 2 0) := by decide

/-- STC: V47. -/
theorem test_decode_stc :
    decode 0xEDC10200 = .ok (.stc .al true true true false 1 0 2 0) := by decide

/-- CDP: V43. -/
theorem test_decode_cdp :
    decode 0xEE000100 = .ok (.cdp .al 0 0 0 1 0 0) := by decide

/-- MCR: V44. -/
theorem test_decode_mcr :
    decode 0xEE010F10 = .ok (.mcr .al 0 1 0 15 0 0) := by decide

/-- MRC: V45. -/
theorem test_decode_mrc :
    decode 0xEE100F10 = .ok (.mrc .al 0 0 0 15 0 0) := by decide

/-- SWI: V42. -/
theorem test_decode_swi :
    decode 0xEF123456 = .ok (.swi .al 0x123456) := by decide

/-! ## One step -/

/-- AND, the three operand forms: by hand from R196 and R221 to R231, D29. -/
theorem test_and :
    (after (machine 0x30000010 0x8000 false [(1, 0x8000000c)] []) 0xE211001A).map (fun t => (reg t 0, t.cpsr.toWord)) = some (8, 0x30000010)
    ∧ (after (machine 0x30000010 0x8000 false [(1, 0xf0f0f0f0), (2, 0xff00ff0)] []) 0xE0110002).map (fun t => (reg t 0, t.cpsr.toWord)) = some (0xf000f0, 0x30000010)
    ∧ (after (machine 0x30000010 0x8000 false [(1, 0x8000000c), (2, 0x80000003), (3, 1)] []) 0xE0110312).map (fun t => (reg t 0, t.cpsr.toWord)) = some (4, 0x30000010) := by decide

/-- EOR, the three operand forms: by hand from R197 and R221 to R231, D30. -/
theorem test_eor :
    (after (machine 0x30000010 0x8000 false [(1, 0x8000000c)] []) 0xE231001A).map (fun t => (reg t 0, t.cpsr.toWord)) = some (0x80000016, 0xb0000010)
    ∧ (after (machine 0x10 0x8000 false [(3, 0xffff0000), (0, 0xffff)] []) 0xE0331000).map (fun t => (reg t 1, t.cpsr.toWord)) = some (0xffffffff, 0x80000010)
    ∧ (after (machine 0x30000010 0x8000 false [(1, 0x8000000c), (2, 0x80000003), (3, 1)] []) 0xE0310312).map (fun t => (reg t 0, t.cpsr.toWord)) = some (0x8000000a, 0xb0000010) := by decide

/-- SUB, the three operand forms: D50, D7, by hand from R198 and R221 to R231. -/
theorem test_sub :
    (after (machine 0x90000010 0x8000 false [(3, 0xa)] []) 0xC2433001).map (fun t => (reg t 3, t.cpsr.toWord)) = some (9, 0x90000010)
    ∧ (after (machine 0x10 0x8000 false [(1, 5), (2, 5)] []) 0xE0510002).map (fun t => (reg t 0, t.cpsr.toWord)) = some (0, 0x60000010)
    ∧ (after (machine 0x30000010 0x8000 false [(1, 0x8000000c), (2, 0x80000003), (3, 1)] []) 0xE0510312).map (fun t => (reg t 0, t.cpsr.toWord)) = some (0x80000006, 0xa0000010) := by decide

/-- RSB, the three operand forms: D11, D45, by hand from R199 and R221 to R231. -/
theorem test_rsb :
    (after (machine 0x10 0x8000 false [(5, 7)] []) 0xE2754005).map (fun t => (reg t 4, t.cpsr.toWord)) = some (0xfffffffe, 0x80000010)
    ∧ (after (machine 0x10 0x8000 false [(3, 3)] []) 0xE0632203).map (fun t => (reg t 2, t.cpsr.toWord)) = some (0x2d, 0x10)
    ∧ (after (machine 0x30000010 0x8000 false [(1, 0x8000000c), (2, 0x80000003), (3, 1)] []) 0xE0710312).map (fun t => (reg t 0, t.cpsr.toWord)) = some (0x7ffffffa, 0x10) := by decide

/-- ADD, the three operand forms: D46, D1, D48. -/
theorem test_add :
    (after (machine 0x10 0x8000 false [] []) 0xE28F0008).map (fun t => (reg t 0, t.cpsr.toWord)) = some (0x8010, 0x10)
    ∧ (after (machine 0x10 0x8000 false [(1, 0x7fffffff), (2, 1)] []) 0xE0910002).map (fun t => (reg t 0, t.cpsr.toWord)) = some (0x80000000, 0x90000010)
    ∧ (after (machine 0x10 0x8000 false [(1, 1), (2, 1), (3, 0x104)] []) 0xE0810312).map (fun t => (reg t 0, t.cpsr.toWord)) = some (0x11, 0x10) := by decide

/-- ADC, the three operand forms: by hand from R201 and R221 to R231, D5. -/
theorem test_adc :
    (after (machine 0x30000010 0x8000 false [(1, 0x8000000c)] []) 0xE2B1001A).map (fun t => (reg t 0, t.cpsr.toWord)) = some (0x80000027, 0x80000010)
    ∧ (after (machine 0x20000010 0x8000 false [(1, 0xffffffff), (2, 0)] []) 0xE0B10002).map (fun t => (reg t 0, t.cpsr.toWord)) = some (0, 0x60000010)
    ∧ (after (machine 0x30000010 0x8000 false [(1, 0x8000000c), (2, 0x80000003), (3, 1)] []) 0xE0B10312).map (fun t => (reg t 0, t.cpsr.toWord)) = some (0x80000013, 0x80000010) := by decide

/-- SBC, the three operand forms: by hand from R202 and R221 to R231, D13. -/
theorem test_sbc :
    (after (machine 0x30000010 0x8000 false [(1, 0x8000000c)] []) 0xE2D1001A).map (fun t => (reg t 0, t.cpsr.toWord)) = some (0x7ffffff2, 0x30000010)
    ∧ (after (machine 0x10 0x8000 false [(1, 5), (2, 3)] []) 0xE0D10002).map (fun t => (reg t 0, t.cpsr.toWord)) = some (1, 0x20000010)
    ∧ (after (machine 0x30000010 0x8000 false [(1, 0x8000000c), (2, 0x80000003), (3, 1)] []) 0xE0D10312).map (fun t => (reg t 0, t.cpsr.toWord)) = some (0x80000006, 0xa0000010) := by decide

/-- RSC, the three operand forms: by hand from R203 and R221 to R231, D16. -/
theorem test_rsc :
    (after (machine 0x30000010 0x8000 false [(1, 0x8000000c)] []) 0xE2F1001A).map (fun t => (reg t 0, t.cpsr.toWord)) = some (0x8000000e, 0x90000010)
    ∧ (after (machine 0x10 0x8000 false [(1, 3), (2, 5)] []) 0xE0F10002).map (fun t => (reg t 0, t.cpsr.toWord)) = some (1, 0x20000010)
    ∧ (after (machine 0x30000010 0x8000 false [(1, 0x8000000c), (2, 0x80000003), (3, 1)] []) 0xE0F10312).map (fun t => (reg t 0, t.cpsr.toWord)) = some (0x7ffffffa, 0x10) := by decide

/-- TST, the three operand forms: D24, by hand from R204 and R221 to R231. -/
theorem test_tst :
    (after (machine 0x30000010 0x8000 false [(2, 0xa)] []) 0xE3120005).map (fun t => t.cpsr.toWord) = some 0x70000010
    ∧ (after (machine 0x30000010 0x8000 false [(1, 0x8000000c), (2, 0x86)] []) 0xE11101A2).map (fun t => t.cpsr.toWord) = some 0x70000010
    ∧ (after (machine 0x30000010 0x8000 false [(1, 0x8000000c), (2, 0x80000003), (3, 1)] []) 0xE1110312).map (fun t => t.cpsr.toWord) = some 0x30000010 := by decide

/-- TEQ, the three operand forms: by hand from R205 and R221 to R231, D27. -/
theorem test_teq :
    (after (machine 0x30000010 0x8000 false [(1, 0x8000000c)] []) 0xE331001A).map (fun t => t.cpsr.toWord) = some 0xb0000010
    ∧ (after (machine 0x20000010 0x8000 false [(0, 0x12345678), (1, 0x12345678)] []) 0xE1300001).map (fun t => t.cpsr.toWord) = some 0x60000010
    ∧ (after (machine 0x30000010 0x8000 false [(1, 0x8000000c), (2, 0x80000003), (3, 1)] []) 0xE1310312).map (fun t => t.cpsr.toWord) = some 0xb0000010 := by decide

/-- CMP, the three operand forms: by hand from R206 and R221 to R231, D18. -/
theorem test_cmp :
    (after (machine 0x30000010 0x8000 false [(1, 0x8000000c)] []) 0xE351001A).map (fun t => t.cpsr.toWord) = some 0x30000010
    ∧ (after (machine 0x10 0x8000 false [(0, 1), (1, 2)] []) 0xE1500001).map (fun t => t.cpsr.toWord) = some 0x80000010
    ∧ (after (machine 0x30000010 0x8000 false [(1, 0x8000000c), (2, 0x80000003), (3, 1)] []) 0xE1510312).map (fun t => t.cpsr.toWord) = some 0xa0000010 := by decide

/-- CMN, the three operand forms: by hand from R207 and R221 to R231, D22. -/
theorem test_cmn :
    (after (machine 0x30000010 0x8000 false [(1, 0x8000000c)] []) 0xE371001A).map (fun t => t.cpsr.toWord) = some 0x80000010
    ∧ (after (machine 0x10 0x8000 false [(0, 1), (1, 0xffffffff)] []) 0xE1700001).map (fun t => t.cpsr.toWord) = some 0x60000010
    ∧ (after (machine 0x30000010 0x8000 false [(1, 0x8000000c), (2, 0x80000003), (3, 1)] []) 0xE1710312).map (fun t => t.cpsr.toWord) = some 0x80000010 := by decide

/-- ORR, the three operand forms: by hand from R208 and R221 to R231, D31. -/
theorem test_orr :
    (after (machine 0x30000010 0x8000 false [(1, 0x8000000c)] []) 0xE391001A).map (fun t => (reg t 0, t.cpsr.toWord)) = some (0x8000001e, 0xb0000010)
    ∧ (after (machine 0xa0000010 0x8000 false [(1, 0), (2, 0)] []) 0xE1910002).map (fun t => (reg t 0, t.cpsr.toWord)) = some (0, 0x60000010)
    ∧ (after (machine 0x30000010 0x8000 false [(1, 0x8000000c), (2, 0x80000003), (3, 1)] []) 0xE1910312).map (fun t => (reg t 0, t.cpsr.toWord)) = some (0x8000000e, 0xb0000010) := by decide

/-- MOV, the three operand forms: D38, D33, by hand from R209 and R221 to R231. -/
theorem test_mov :
    (after (machine 0x10 0x8000 false [] []) 0xE3B004FF).map (fun t => (reg t 0, t.cpsr.toWord)) = some (0xff000000, 0xa0000010)
    ∧ (after (machine 0x10 0x8000 false [(1, 0x80000001)] []) 0xE1B00081).map (fun t => (reg t 0, t.cpsr.toWord)) = some (2, 0x20000010)
    ∧ (after (machine 0x30000010 0x8000 false [(1, 0x8000000c), (2, 0x80000003), (3, 1)] []) 0xE1B00312).map (fun t => (reg t 0, t.cpsr.toWord)) = some (6, 0x30000010) := by decide

/-- BIC, the three operand forms: D32, by hand from R210 and R221 to R231. -/
theorem test_bic :
    (after (machine 0x10 0x8000 false [(3, 0x1f)] []) 0xE3D32007).map (fun t => (reg t 2, t.cpsr.toWord)) = some (0x18, 0x10)
    ∧ (after (machine 0x30000010 0x8000 false [(1, 0x8000000c), (2, 0x86)] []) 0xE1D101A2).map (fun t => (reg t 0, t.cpsr.toWord)) = some (0x8000000c, 0xb0000010)
    ∧ (after (machine 0x30000010 0x8000 false [(1, 0x8000000c), (2, 0x80000003), (3, 1)] []) 0xE1D10312).map (fun t => (reg t 0, t.cpsr.toWord)) = some (0x80000008, 0xb0000010) := by decide

/-- MVN, the three operand forms: D41, by hand from R211 and R221 to R231. -/
theorem test_mvn :
    (after (machine 0x10 0x8000 false [] []) 0xE3F00000).map (fun t => (reg t 0, t.cpsr.toWord)) = some (0xffffffff, 0x80000010)
    ∧ (after (machine 0x30000010 0x8000 false [(1, 0x8000000c), (2, 0x86)] []) 0xE1F001A2).map (fun t => (reg t 0, t.cpsr.toWord)) = some (0xffffffef, 0xb0000010)
    ∧ (after (machine 0x30000010 0x8000 false [(1, 0x8000000c), (2, 0x80000003), (3, 1)] []) 0xE1F00312).map (fun t => (reg t 0, t.cpsr.toWord)) = some (0xfffffff9, 0xb0000010) := by decide

/-- MRS: P1, P3. -/
theorem test_mrs :
    (after (machine 0x600000d3 0x8000 false [] []) 0xE10F0000).map (fun t => reg t 0) = some 0x600000d3
    ∧ (after (machine 0x92 0x8000 false [] [] [(.irq, 0x60000010)]) 0xE14F1000).map (fun t => reg t 1) = some 0x60000010 := by decide

/-- MSR from a register: P7, P10 (User mode writes the flags only), P17 (the SPSR). -/
theorem test_msr_register :
    (after (machine 0x600000d3 0x8000 false [(0, 0x1f)] []) 0xE121F000).map (fun t => t.cpsr.toWord) = some 0x6000001f
    ∧ (after (machine 0xd3 0x8000 false [(0, 0xa00000ff)] []) 0xE128F000).map (fun t => t.cpsr.toWord) = some 0xa00000d3
    ∧ (after (machine 0x93 0x8000 false [(1, 0xffffffff)] [] [(.svc, 0x10)]) 0xE16FF001).map (fun t => (t.spsrs.get .svc).toWord) = some 0xf00000ff := by decide

/-- MSR with an immediate: P12, P13. -/
theorem test_msr_immediate :
    (after (machine 0x10 0x8000 false [] []) 0xE328F4F0).map (fun t => t.cpsr.toWord) = some 0xf0000010
    ∧ (after (machine 0x13 0x8000 false [] []) 0xE321F0D2).map (fun t => t.cpsr.toWord) = some 0xd2 := by decide

/-- BX: J13. -/
theorem test_bx :
    (after (machine 0x10 0x8000 false [(0, 0x9000)] []) 0xE12FFF10).map (fun t => t.pc) = some 0x9000 := by decide

/-- B: J1, and J10 whose target wraps. -/
theorem test_b :
    (after (machine 0x10 0x8000 false [] []) 0xEA000000).map (fun t => t.pc) = some 0x8008
    ∧ (after (machine 0x40000010 0x8000 false [] []) 0x1A00003E).map (fun t => t.pc) = some 0x8004 := by decide

/-- BL: J5. -/
theorem test_bl :
    (after (machine 0x10 0x8000 false [] []) 0xEB0003FE).map (fun t => (reg t 14, t.pc)) = some (0x8004, 0x9000) := by decide

/-- MUL: M3. -/
theorem test_mul :
    (after (machine 0x10 0x8000 false [(1, 0x12345678), (2, 0x9abcdef0)] []) 0xE0000291).map (fun t => reg t 0) = some 0x242d2080 := by decide

/-- MLA: M6. -/
theorem test_mla :
    (after (machine 0x10 0x8000 false [(1, 3), (2, 4), (3, 5)] []) 0xE0203291).map (fun t => reg t 0) = some 0x11 := by decide

/-- UMULL: M9. -/
theorem test_umull :
    (after (machine 0x10 0x8000 false [(2, 0xffffffff), (3, 0xffffffff)] []) 0xE0810392).map (fun t => (reg t 1, reg t 0)) = some (0xfffffffe, 1) := by decide

/-- UMLAL: M14. -/
theorem test_umlal :
    (after (machine 0x10 0x8000 false [(0, 0xffffffff), (1, 0), (2, 1), (3, 1)] []) 0xE0A10392).map (fun t => (reg t 1, reg t 0)) = some (1, 0) := by decide

/-- SMULL: M10, M12. -/
theorem test_smull :
    (after (machine 0x10 0x8000 false [(2, 0xffffffff), (3, 0xffffffff)] []) 0xE0C10392).map (fun t => (reg t 1, reg t 0)) = some (0, 1)
    ∧ (after (machine 0x10 0x8000 false [(2, 0x12), (3, 0xffffffff)] []) 0xE0C10392).map (fun t => (reg t 1, reg t 0)) = some (0xffffffff, 0xffffffee) := by decide

/-- SMLAL: M16. -/
theorem test_smlal :
    (after (machine 0x10 0x8000 false [(0, 5), (1, 0), (2, 0xfffffffe), (3, 3)] []) 0xE0E10392).map (fun t => (reg t 1, reg t 0)) = some (0xffffffff, 0xffffffff) := by decide

/-- SWP: W1, W2. -/
theorem test_swp :
    (after (machine 0x10 0x8000 false [(1, 0xaaaaaaaa), (2, 0x200)] [(0x200, 0x55555555)]) 0xE1020091).map (fun t => (reg t 0, reg t 1, reg t 2, wordAt t 0x200)) = some (0x55555555, 0xaaaaaaaa, 0x200, 0xaaaaaaaa)
    ∧ (after (machine 0x10 0x8000 false [(0, 0x11111111), (1, 0x200)] [(0x200, 0x22222222)]) 0xE1010090).map (fun t => (reg t 0, reg t 1, wordAt t 0x200)) = some (0x22222222, 0x200, 0x11111111) := by decide

/-- SWPB: W3, W4. -/
theorem test_swpb :
    (after (machine 0x10 0x8000 false [(1, 0x12345678), (2, 0x201)] [(0x200, 0xddcc9abb)]) 0xE1420091).map (fun t => (reg t 0, reg t 1, reg t 2, wordAt t 0x200)) = some (0x9a, 0x12345678, 0x201, 0xddcc78bb)
    ∧ (after (machine 0x10 0x8000 true [(1, 0x12345678), (2, 0x201)] [(0x200, 0xddcc9abb)]) 0xE1420091).map (fun t => (reg t 0, reg t 1, reg t 2, wordAt t 0x200)) = some (0xcc, 0x12345678, 0x201, 0xdd789abb) := by decide

/-- STRH: L26; by hand from R274 and R263, down by a register with write-back. -/
theorem test_strh :
    (after (machine 0x10 0x8000 false [(0, 0xaabbccdd), (1, 0x100)] [(0x100, 0x11223344)]) 0xE1C100B2).map (fun t => wordAt t 0x100) = some 0xccdd3344
    ∧ (after (machine 0x10 0x8000 false [(0, 0x12345678), (1, 0x106), (2, 4)] [(0x100, 0x8899aabb), (0x104, 0x11223344)]) 0xE12100B2).map (fun t => (wordAt t 0x100, reg t 1)) = some (0x5678aabb, 0x102) := by decide

/-- LDRH: L20, L28; by hand from R273 and R263, post-indexed by a register. -/
theorem test_ldrh :
    (after (machine 0x10 0x8000 false [(1, 0x100)] [(0x100, 0x8122f344)]) 0xE1D100B2).map (fun t => reg t 0) = some 0x8122
    ∧ (after (machine 0x10 0x8000 false [(1, 0x100)] [(0x100, 0x11223344)]) 0xE0D100B2).map (fun t => (reg t 0, reg t 1)) = some (0x3344, 0x102)
    ∧ (after (machine 0x10 0x8000 false [(1, 0x102), (2, 4)] [(0x100, 0x8899aabb), (0x104, 0x11223344)]) 0xE09100B2).map (fun t => (reg t 0, reg t 1)) = some (0x8899, 0x106) := by decide

/-- LDRSB: L24; by hand from R275, down by a register. -/
theorem test_ldrsb :
    (after (machine 0x10 0x8000 false [(1, 0x100)] [(0x100, 0x8122f344)]) 0xE1D100D1).map (fun t => reg t 0) = some 0xfffffff3
    ∧ (after (machine 0x10 0x8000 false [(1, 0x104), (2, 1)] [(0x100, 0x8899aabb), (0x104, 0x11223344)]) 0xE11100D2).map (fun t => (reg t 0, reg t 1)) = some (0xffffff88, 0x104) := by decide

/-- LDRSH: L22, L29. -/
theorem test_ldrsh :
    (after (machine 0x10 0x8000 false [(1, 0x100)] [(0x100, 0x8122f344)]) 0xE1D100F2).map (fun t => reg t 0) = some 0xffff8122
    ∧ (after (machine 0x10 0x8000 false [(4, 0x104), (5, 4)] [(0x104, 0xfffe)]) 0xE01430F5).map (fun t => (reg t 3, reg t 4)) = some (0xfffffffe, 0x100) := by decide

/-- STR, the four forms: L5, L7, L6, L9. -/
theorem test_str :
    (after (machine 0x10 0x8000 false [(0, 5), (1, 0x200)] []) 0xE5A1000C).map (fun t => (reg t 1, wordAt t 0x20c)) = some (0x20c, 5)
    ∧ (after (machine 0x10 0x8000 false [(0, 5), (1, 0x200)] []) 0xE481000C).map (fun t => (reg t 1, wordAt t 0x200)) = some (0x20c, 5)
    ∧ (after (machine 0x10 0x8000 false [(0, 5), (1, 0x200), (2, 3)] []) 0xE7810102).map (fun t => (reg t 1, wordAt t 0x20c)) = some (0x200, 5)
    ∧ (after (machine 0x10 0x8000 false [(0, 5), (1, 0x200), (2, 3)] []) 0xE6810102).map (fun t => (reg t 1, wordAt t 0x200)) = some (0x20c, 5) := by decide

/-- STRT, by hand from R269: the address is the base, the base then moves. -/
theorem test_strt :
    (after (machine 0x10 0x8000 false [(0, 0xcafebabe), (1, 0x100)] []) 0xE4A10008).map (fun t => (wordAt t 0x100, reg t 1)) = some (0xcafebabe, 0x108)
    ∧ (after (machine 0x10 0x8000 false [(0, 0xcafebabe), (1, 0x100), (2, 3)] []) 0xE6210102).map (fun t => (wordAt t 0x100, reg t 1)) = some (0xcafebabe, 0xf4) := by decide

/-- LDR, the four forms: L2, L11, L12; by hand from R263, post-indexed by a shifted register. -/
theorem test_ldr :
    (after (machine 0x10 0x8000 false [(1, 0x200)] [(0x200, 5)]) 0xE5912000).map (fun t => (reg t 2, reg t 1)) = some (5, 0x200)
    ∧ (after (machine 0x10 0x8000 false [(1, 0x1000)] [(0x1000, 0xa), (0x1004, 0x14)]) 0xE4912004).map (fun t => (reg t 2, reg t 1)) = some (0xa, 0x1004)
    ∧ (after (machine 0x10 0x8000 false [(1, 0x1010), (3, 0x10)] [(0x1008, 0xcafebabe)]) 0xE71120C3).map (fun t => reg t 2) = some 0xcafebabe
    ∧ (after (machine 0x10 0x8000 false [(1, 0x104), (2, 8)] [(0x100, 0x8899aabb), (0x104, 0x11223344)]) 0xE69100A2).map (fun t => (reg t 0, reg t 1)) = some (0x11223344, 0x108) := by decide

/-- LDRT: L31; by hand from R268, down by a register. -/
theorem test_ldrt :
    (after (machine 0x10 0x8000 false [(1, 0x100)] [(0x100, 0xdeadbeef)]) 0xE4B10004).map (fun t => (reg t 0, reg t 1)) = some (0xdeadbeef, 0x104)
    ∧ (after (machine 0x10 0x8000 false [(1, 0x100), (2, 8)] [(0x100, 0x8899aabb), (0x104, 0x11223344)]) 0xE6310002).map (fun t => (reg t 0, reg t 1)) = some (0x8899aabb, 0xf8) := by decide

/-- STRB: L18; by hand from R267 and R263, the other three forms. -/
theorem test_strb :
    (after (machine 0x10 0x8000 false [(0, 0xaabbccdd), (1, 0x100)] [(0x100, 0x11223344)]) 0xE5C10001).map (fun t => wordAt t 0x100) = some 0x1122dd44
    ∧ (after (machine 0x10 0x8000 false [(0, 0x177), (1, 0x101)] [(0x100, 0x8899aabb), (0x104, 0x11223344)]) 0xE4410001).map (fun t => (wordAt t 0x100, reg t 1)) = some (0x889977bb, 0x100)
    ∧ (after (machine 0x10 0x8000 false [(0, 0x177), (1, 0x100), (2, 3)] [(0x100, 0x8899aabb), (0x104, 0x11223344)]) 0xE7E10002).map (fun t => (wordAt t 0x100, reg t 1)) = some (0x7799aabb, 0x103)
    ∧ (after (machine 0x10 0x8000 false [(0, 0x177), (1, 0x102), (2, 1)] [(0x100, 0x8899aabb), (0x104, 0x11223344)]) 0xE6C10202).map (fun t => (wordAt t 0x100, reg t 1)) = some (0x8877aabb, 0x112) := by decide

/-- STRBT, by hand from R271. -/
theorem test_strbt :
    (after (machine 0x10 0x8000 false [(0, 0x177), (1, 0x100)] [(0x100, 0x8899aabb), (0x104, 0x11223344)]) 0xE4E10003).map (fun t => (wordAt t 0x100, reg t 1)) = some (0x8899aa77, 0x103)
    ∧ (after (machine 0x10 0x8000 false [(0, 0x177), (1, 0x103), (2, 3)] [(0x100, 0x8899aabb), (0x104, 0x11223344)]) 0xE6610002).map (fun t => (wordAt t 0x100, reg t 1)) = some (0x7799aabb, 0x100) := by decide

/-- LDRB: L14; by hand from R266 and R263, the other three forms. -/
theorem test_ldrb :
    (after (machine 0x10 0x8000 false [(1, 0x100)] [(0x100, 0x11223344)]) 0xE5D12000).map (fun t => reg t 2) = some 0x44
    ∧ (after (machine 0x10 0x8000 false [(1, 0x103)] [(0x100, 0x8899aabb), (0x104, 0x11223344)]) 0xE4D10005).map (fun t => (reg t 0, reg t 1)) = some (0x88, 0x108)
    ∧ (after (machine 0x10 0x8000 false [(1, 0x100), (2, 0xfffffffc)] [(0x100, 0x8899aabb), (0x104, 0x11223344)]) 0xE77100C2).map (fun t => (reg t 0, reg t 1)) = some (0x99, 0x102)
    ∧ (after (machine 0x10 0x8000 false [(1, 0x101), (2, 1)] [(0x100, 0x8899aabb), (0x104, 0x11223344)]) 0xE6510002).map (fun t => (reg t 0, reg t 1)) = some (0xaa, 0x100) := by decide

/-- LDRBT, by hand from R270. -/
theorem test_ldrbt :
    (after (machine 0x10 0x8000 false [(1, 0x102)] [(0x100, 0x8899aabb), (0x104, 0x11223344)]) 0xE4710001).map (fun t => (reg t 0, reg t 1)) = some (0x99, 0x101)
    ∧ (after (machine 0x10 0x8000 false [(1, 0x100), (2, 1)] [(0x100, 0x8899aabb), (0x104, 0x11223344)]) 0xE6F10002).map (fun t => (reg t 0, reg t 1)) = some (0xbb, 0x101) := by decide

/-- LDM: B6; X11, which returns from an exception. -/
theorem test_ldm :
    (after (machine 0x10 0x8000 false [(13, 0x3ec)] [(0x3f0, 0x3f0), (0x3f4, 0x3f4), (0x3f8, 0x3f8), (0x3fc, 0x3fc), (0x400, 0x400)]) 0xE9BD003B).map (fun t => (reg t 13, reg t 0, reg t 1, reg t 3, reg t 4, reg t 5)) = some (0x400, 0x3f0, 0x3f4, 0x3f8, 0x3fc, 0x400)
    ∧ (after (machine 0x92 0x8000 false [(14, 0), (13, 0x1000)] [(0x1000, 1), (0x1004, 2), (0x1008, 3), (0x100c, 4), (0x1010, 0x8008)] [(.irq, 0x60000010)]) 0xE8FD800F).map (fun t => (t.cpsr.toWord, t.pc)) = some (0x60000010, 0x8008) := by decide

/-- STM: B1, B13. -/
theorem test_stm :
    (after (machine 0x10 0x8000 false [(13, 0x400), (0, 0x64), (1, 0x65), (3, 0x67), (4, 0x68), (5, 0x69)] []) 0xE92D003B).map (fun t => (reg t 13, wordAt t 0x3ec, wordAt t 0x3f0, wordAt t 0x3f4, wordAt t 0x3f8, wordAt t 0x3fc)) = some (0x3ec, 0x64, 0x65, 0x67, 0x68, 0x69)
    ∧ (after (machine 0x10 0x8000 false [(0, 0x500), (1, 2), (2, 3)] []) 0xE8A00007).map (fun t => (reg t 0, wordAt t 0x500, wordAt t 0x504, wordAt t 0x508)) = some (0x50c, 0x500, 2, 3) := by decide

/-- SWI: E1; E5, whose condition fails. -/
theorem test_swi :
    (after (machine 0x60000010 0x8000 false [] []) 0xEF123456).map (fun t => (reg t 14, (t.spsrs.get .svc).toWord, t.cpsr.toWord, t.pc)) = some (0x8004, 0x60000010, 0x60000093, 8)
    ∧ (after (machine 0x40000010 0x8000 false [] []) 0x1F000005).map (fun t => (t.cpsr.toWord, t.pc)) = some (0x40000010, 0x8004) := by decide

/-- The undefined instruction space: E6. -/
theorem test_undefined :
    (after (machine 0x10 0x8000 false [] []) 0xE6000010).map (fun t => (reg t 14, (t.spsrs.get .undef).toWord, t.cpsr.toWord, t.pc)) = some (0x8004, 0x10, 0x9b, 4) := by decide

/-- LDC: E10; STC by hand from R337. -/
theorem test_coprocessor_transfers :
    (after (machine 0x10 0x8000 false [] []) 0xED910200).map (fun t => (reg t 14, (t.spsrs.get .undef).toWord, t.cpsr.toWord, t.pc)) = some (0x8004, 0x10, 0x9b, 4)
    ∧ (after (machine 0x10 0x8000 false [(1, 0x100)] []) 0xED813204).map (fun t => (t.cpsr.toWord, (t.spsrs.get .undef).toWord, reg t 14, t.pc)) = some (0x9b, 0x10, 0x8004, 4) := by decide

/-- CDP: E8; MRC: E9; MCR by hand from R338. -/
theorem test_coprocessor_registers :
    (after (machine 0x10 0x8000 false [] []) 0xEE000100).map (fun t => (reg t 14, (t.spsrs.get .undef).toWord, t.cpsr.toWord, t.pc)) = some (0x8004, 0x10, 0x9b, 4)
    ∧ (after (machine 0x13 0x8000 false [] []) 0xEE100F10).map (fun t => (reg t 14, (t.spsrs.get .undef).toWord, t.cpsr.toWord, t.pc)) = some (0x8004, 0x13, 0x9b, 4)
    ∧ (after (machine 0x10 0x8000 false [] []) 0xEE010F10).map (fun t => (t.cpsr.toWord, (t.spsrs.get .undef).toWord, reg t 14, t.pc)) = some (0x9b, 0x10, 0x8004, 4) := by decide

/-- Returns from an exception: X1, X2. -/
theorem test_returns :
    (after (machine 0x60000093 0x8000 false [(14, 0x8004)] [] [(.svc, 0x60000010)]) 0xE1B0F00E).map (fun t => (t.cpsr.toWord, t.pc)) = some (0x60000010, 0x8004)
    ∧ (after (machine 0x200000d1 0x8000 false [(14, 0x8008)] [] [(.fiq, 0x20000010)]) 0xE25EF004).map (fun t => (t.cpsr.toWord, t.pc)) = some (0x20000010, 0x8004) := by decide

/-- FIQ and IRQ: E11 to E16. -/
theorem test_interrupts :
    (after { machine 0x20000010 0x8004 false [] [] with pins := [⟨false, true, false⟩] } 0xE1A00000).map (fun t => (t.cpsr.toWord, (t.spsrs.get .fiq).toWord, reg t 14, t.pc)) = some (0x200000d1, 0x20000010, 0x8008, 0x1c)
    ∧ (after { machine 0x20000010 0x8004 false [] [] with pins := [⟨false, false, true⟩] } 0xE1A00000).map (fun t => (t.cpsr.toWord, (t.spsrs.get .irq).toWord, reg t 14, t.pc)) = some (0x20000092, 0x20000010, 0x8008, 0x18)
    ∧ (after { machine 0x80000053 0x100 false [] [] with pins := [⟨false, false, true⟩] } 0xE1A00000).map (fun t => (t.cpsr.toWord, (t.spsrs.get .irq).toWord, reg t 14, t.pc)) = some (0x800000d2, 0x80000053, 0x104, 0x18)
    ∧ (after { machine 0x93 0x100 false [] [] with pins := [⟨false, false, true⟩] } 0xE1A00000).map (fun t => (t.cpsr.toWord, t.pc)) = some (0x93, 0x104)
    ∧ (after { machine 0x10 0x8004 false [] [] with pins := [⟨false, true, true⟩] } 0xE1A00000).map (fun t => (t.cpsr.toWord, (t.spsrs.get .fiq).toWord, reg t 14, t.pc)) = some (0xd1, 0x10, 0x8008, 0x1c)
    ∧ (after { machine 0x92 0x120 false [] [] with pins := [⟨false, true, false⟩] } 0xE1A00000).map (fun t => (t.cpsr.toWord, (t.spsrs.get .fiq).toWord, reg t 14, t.pc)) = some (0xd1, 0x92, 0x124, 0x1c) := by decide

/-- Data Abort and Prefetch Abort: E17, E18. -/
theorem test_aborts :
    (after (rejecting .read (machine 0x10 0x8000 false [(1, 0x100)] [])) 0xE5910000).map (fun t => (t.cpsr.toWord, (t.spsrs.get .abt).toWord, reg t 14, t.pc)) = some (0x97, 0x10, 0x8008, 0x10)
    ∧ (after (rejecting .fetch (machine 0x10 0x8000 false [] [])) 0xE1A00000).map (fun t => (t.cpsr.toWord, (t.spsrs.get .abt).toWord, reg t 14, t.pc)) = some (0x97, 0x10, 0x8004, 0xc) := by decide

/-- The reset input in a run: R366, R58. -/
theorem test_reset_input :
    (after { machine 0x10 0x8000 false [] [] with pins := [⟨true, false, false⟩] } 0xE1A00000).map (fun t => (t.cpsr.m, t.cpsr.i, t.cpsr.f, t.pc)) = some (0b10011, true, true, 0) := by decide

/-- Refused operands and states, the spec's own vectors: J14, P4, P14, L32, L33, L37, B11, B14, Q3, Q6, Q16, W6. -/
theorem test_stops :
    stops (machine 0x10 0x8000 false [(0, 0x9001)] []) 0xE12FFF10 = some .thumbState
    ∧ stops (machine 0x10 0x8000 false [] []) 0xE14F1000 = some .noSpsr
    ∧ stops (machine 0x13 0x8000 false [(0, 0x15)] []) 0xE121F000 = some .illegalMode
    ∧ stops (machine 0x10 0x8000 false [(1, 0x100)] [(0x100, 0x11223344)]) 0xE5910001 = some .misalignedAccess
    ∧ stops (machine 0x10 0x8000 false [(1, 0x100)] []) 0xE1D100B1 = some .misalignedAccess
    ∧ stops (machine 0x10 0x8000 false [(1, 0x100)] [(0x100, 0x9002)]) 0xE591F000 = some .pcNotWordAligned
    ∧ stops (machine 0x10 0x8000 false [(2, 0x500)] []) 0xE8B20007 = some .baseInList
    ∧ stops (machine 0x10 0x8000 false [] []) 0xE89F0001 = some .blockBaseIsPc
    ∧ stops (machine 0x10 0x8000 false [(0, 1)] []) 0xE0000090 = some .mulRdIsRm
    ∧ stops (machine 0x10 0x8000 false [(1, 1), (2, 1)] []) 0xE0800291 = some .longMultiplyClash
    ∧ stops (machine 0x10 0x8000 false [] []) 0xE5BF0004 = some .baseWriteClash
    ∧ stops (machine 0x10 0x8000 false [(1, 1), (2, 0x202)] [(0x200, 0)]) 0xE1020091 = some .misalignedAccess := by decide

/-! ## The checks of `Instr.wellFormed`: one ill-formed instruction for each -/

theorem test_refuses_pc_in_register_shift :
    [Instr.addShiftReg .al 1 0 false 15 .lsl 2, .addShiftReg .al 1 0 false 3 .lsl 15, .addShiftReg .al 15 0 false 3 .lsl 2,
      .movShiftReg .al 0 0 false 15 .lsl 2, .cmpShiftReg .al 15 0 3 .lsl 2].map Instr.wellFormed
    = [false, false, false, false, false] := by decide

theorem test_refuses_psr_transfer_of_pc :
    [Instr.mrs .al false 15, .msrReg .al false 8 15].map Instr.wellFormed = [false, false] := by decide

theorem test_refuses_bx_pc : (Instr.bx .al 15).wellFormed = false := by decide

theorem test_refuses_multiply_operands :
    [Instr.mul .al false 1 0 3 1, .mul .al false 15 0 3 1, .mul .al false 2 0 15 1, .mul .al false 2 0 3 15, .mla .al false 2 15 3 1,
      .umull .al false 1 1 3 2, .umull .al false 1 2 3 1, .smull .al false 1 2 3 2, .smlal .al false 15 2 3 4,
      .umlal .al false 1 15 3 4, .umlal .al false 1 2 15 4, .umlal .al false 1 2 3 15].map Instr.wellFormed
    = List.replicate 12 false := by decide

theorem test_refuses_swap_operands :
    [Instr.swp .al 1 1 2, .swp .al 1 2 1, .swpb .al 15 1 2, .swpb .al 1 15 2, .swpb .al 1 2 15].map Instr.wellFormed
    = List.replicate 5 false := by decide

theorem test_refuses_transfer_operands :
    [Instr.strhImm .al false true true 1 0 0 2, .ldrhImm .al true true false 1 15 0 0, .ldrImmPre .al true 15 0 4 true,
      .ldrImmPost .al true 1 1 4, .ldrRegPre .al true 1 0 0 .lsl 15 false, .strRegPost .al true 1 0 0 .lsl 1,
      .ldrtImm .al true 1 15 4, .strbImmPre .al true 1 15 0 false].map Instr.wellFormed = List.replicate 8 false := by decide

theorem test_refuses_block_operands :
    [Instr.ldm .al true true false false 1 0, .stm .al true true false false 15 1, .ldm .al true true false true 1 2,
      .stm .al true true false true 1 3, .ldm .al true true true true 1 4, .stm .al true true true true 1 4].map Instr.wellFormed
    = List.replicate 6 false := by decide

theorem test_accepts_allowed_forms :
    [Instr.movShiftReg .al 15 0 false 3 .lsl 2, .strImmPre .al true 15 15 8 false, .stm .al true true false true 1 6,
      .ldm .al true true true true 13 0x8001].map Instr.wellFormed = List.replicate 4 true := by decide

/-! ## What memory and the decoder do at their edges -/

/-- Condition 1111 is refused whatever the rest of the word (R149); the word below it is a SWI. -/
theorem test_reserved_condition : decode 0xF0000000 = .error .reservedCondition ∧ decode 0xEFFFFFFF = .ok (.swi .al 0xFFFFFF) := by
  decide

/-- A write of what an unlisted address reads as removes the entry (log entry 5). -/
theorem test_write_of_zero_removes : Memory.write false (Memory.write false [] 0x100 .word 0x11223344) 0x100 .word 0 = [] := by decide

/-- The fetch of a word the program has stored to is refused (R101). -/
theorem test_fetch_of_stored_word :
    stopped (step { State.reset with stored := [0] }) = some .fetchOfStoredWord := by decide

/-- A word with no row is refused when its condition passes (R148) and skipped when it fails (R170; log entry 17). -/
theorem test_word_without_row :
    stops (machine 0x10 0x8000 false [] []) 0xE1800291 = some .noInstruction
    ∧ (after (machine 0x10 0x8000 false [] []) 0x01800291).map (fun t => t.pc) = some 0x8004 := by decide

/-! ## The hypotheses of the obligations can be met -/

/-- User mode, C set: registers, two words of memory. -/
def plain : State :=
  machine 0x20000010 0x8000 false [(0, 5), (1, 0x100), (2, 0x104), (3, 3), (4, 0x102)] [(0x100, 0x8899AABB), (0x104, 0x8008)]

/-- Supervisor mode with the CPSR `q` saved. -/
def handler (q : Nat) : State :=
  machine 0x20000013 0x8000 false [(0, 5), (1, 0x100), (2, 0x104), (3, 3), (4, 0x102)] [(0x100, 0x8899AABB), (0x104, 0x8008)] [(.svc, q)]

/-- A state whose memory system rejects the accesses of one kind from address `lo` on. -/
def rejectingFrom (lo : Nat) (k : AccessKind) (s : State) : State :=
  { s with platform := { s.platform with abortRules := [⟨lo, 0xFFFFFFFF, some k, none, none⟩] } }

/-- A state with a region of one kind at the addresses 0x100 to 0x1FF. -/
def mapped (k : RegionKind) (s : State) : State := { s with platform := { s.platform with memMap := [⟨0x100, 0x1FF, k⟩] } }

/-- A state on a core without the M and T variants. -/
def smallCore (s : State) : State := { s with platform := { s.platform with hasM := false, hasT := false } }

/-- A state with one sample of the inputs to come. -/
def pinned (r f i : Bool) (s : State) : State := { s with pins := [⟨r, f, i⟩] }

/-- On a core without the T variant MSR writes no T bit, to the CPSR or to an SPSR (R8; log entry 10); with it the SPSR holds one and the
CPSR's is refused (R332). -/
theorem test_t_bit :
    (after (smallCore (handler 0x10)) 0xE321F033).map (fun t => t.cpsr.toWord) = some 0x20000013
    ∧ (after (smallCore (handler 0x10)) 0xE361F030).map (fun t => (t.spsrs.get .svc).toWord) = some 0x10
    ∧ (after (handler 0x10) 0xE361F030).map (fun t => (t.spsrs.get .svc).toWord) = some 0x30
    ∧ stops (handler 0x10) 0xE321F033 = some .psrTransfer := by decide

theorem witness_EncodeOfDecode : decode 0xE0810002 = .ok (.addShiftImm .al 1 0 false 0 .lsl 2) := by decide

/-- The ends of the range, two registers and one. -/
theorem witness_LowRegistersShared : (0 : Reg).toNat ≤ 7 ∧ (7 : Reg).toNat ≤ 7 ∧ (0 : Reg) ≠ 7 := by decide

theorem witness_BankedRegisters :
    Mode.user ≠ .fiq ∧ PhysReg.r8 ∈ [PhysReg.r8, .r9, .r10, .r11, .r12, .r13, .r14]
      ∧ PhysReg.r14 ∈ [PhysReg.r8, .r9, .r10, .r11, .r12, .r13, .r14] := by decide

theorem witness_WordByteOrder : field (0 : Word) 0 2 = 0 ∧ field (0xFFFFFFFC : Word) 0 2 = 0 := by decide

theorem witness_MemoryWriteRead :
    Memory.wf plain.mem ∧ ∀ k, k < widthBytes .word → 2 ≠ ((0xFFFFFFFE : Word) + BitVec.ofNat 32 k).toNat := by decide

theorem witness_EndiannessExample :
    ∀ be ∈ [false, true], ∀ s ∈ [machine 0x10 0x8000 be [(0, 0x11223344), (1, 0x100)] []],
      s.cpsr.t = false ∧ s.mode = some .user ∧ s.userLdm = false ∧ s.pc.toNat < 0xFFFFFFF8 ∧ s.platform.memMap = []
        ∧ s.platform.abortRules = [] ∧ s.readReg .user 0 = 0x11223344 ∧ s.readReg .user 1 = 0x100 ∧ s.platform.bigEnd = be := by decide

theorem witness_SkippedInstruction :
    plain.cpsr.t = false ∧ plain.mode = some .user ∧ condPassed (condOf (.addImm .eq 1 0 true 0 1)) plain.cpsr = false
      ∧ notAtTop plain := by unfold notAtTop; decide

theorem witness_LogicalOperations :
    executes .al (1 :: 0 :: operandRegs (.shiftReg 3 .ror 2)) .user plain ∧ operandRefusal true 1 (.shiftReg 3 .ror 2) = none
      ∧ (0 : Reg) ≠ 15 ∧ notAtTop plain := by unfold executes notAtTop; decide

theorem witness_MoveOperations :
    executes .al (15 :: 0 :: operandRegs (.shiftReg 3 .asr 2)) .user plain ∧ operandRefusal false 15 (.shiftReg 3 .asr 2) = none
      ∧ (0 : Reg) ≠ 15 ∧ notAtTop plain := by unfold executes notAtTop; decide

theorem witness_AddAndSubtract :
    executes .hs (15 :: 14 :: operandRegs (.imm 1 3)) .user plain ∧ operandRefusal true 15 (.imm 1 3) = none
      ∧ (14 : Reg) ≠ 15 ∧ notAtTop plain := by unfold executes notAtTop; decide

theorem witness_CarryOperations :
    executes .al (1 :: 1 :: operandRegs (.shiftImm 0 .ror 1)) .user plain ∧ operandRefusal true 1 (.shiftImm 0 .ror 1) = none
      ∧ (1 : Reg) ≠ 15 ∧ notAtTop plain ∧ 1 = plain.cpsr.c.toNat := by unfold executes notAtTop; decide

theorem witness_Comparisons :
    executes .al (1 :: 0 :: operandRegs (.shiftReg 3 .lsl 2)) .user plain ∧ operandRefusal true 1 (.shiftReg 3 .lsl 2) = none
      ∧ notAtTop plain ∧ 0x100 = plain.readReg .user 1 ∧ 0x820 = (shifterOperand plain .user (.shiftReg 3 .lsl 2)).value := by
  unfold executes notAtTop; decide

theorem witness_CompareMeaning :
    executes .al (1 :: 0 :: operandRegs (.imm 0 5)) .user plain ∧ operandRefusal true 1 (.imm 0 5) = none
      ∧ notAtTop plain ∧ 0x100 = plain.readReg .user 1 ∧ 5 = (shifterOperand plain .user (.imm 0 5)).value := by
  unfold executes notAtTop; decide

/-- In User mode: a result that is a multiple of 4, one that is not, and no SPSR. In Supervisor mode: a result that is not, T set, no
mode, and a return. -/
theorem witness_DataProcessingToPc :
    DpOp.add.compares = false ∧ operandRefusal (usesRn .add) 1 (.imm 0 0) = none ∧ operandRefusal (usesRn .add) 1 (.imm 0 1) = none
      ∧ executes .al (1 :: 15 :: operandRegs (.imm 0 0)) .user plain ∧ Mode.user.spsr = none
      ∧ (dpOut .add 1 (.imm 0 0) .user plain).result.extractLsb' 0 2 = 0
      ∧ (dpOut .add 1 (.imm 0 1) .user plain).result.extractLsb' 0 2 ≠ 0
      ∧ (∀ q ∈ [0x10, 0x30, 0x1E], executes .al (1 :: 15 :: operandRegs (.imm 0 0)) .supervisor (handler q)
          ∧ (dpOut .add 1 (.imm 0 0) .supervisor (handler q)).result.extractLsb' 0 2 = 0
          ∧ (dpOut .add 1 (.imm 0 1) .supervisor (handler q)).result.extractLsb' 0 2 ≠ 0)
      ∧ Mode.supervisor.spsr = some .svc
      ∧ ((handler 0x10).spsrs.get .svc).t = false ∧ (Mode.ofBits true ((handler 0x10).spsrs.get .svc).m).isSome = true
      ∧ ((handler 0x30).spsrs.get .svc).t = true
      ∧ ((handler 0x1E).spsrs.get .svc).t = false ∧ Mode.ofBits true ((handler 0x1E).spsrs.get .svc).m = none := by
  unfold executes; decide

theorem witness_RegisterShiftRefusesPc :
    executes .al [1, 0, 15, 2] .user plain ∧ executes .al [1, 0, 3, 15] .user plain
      ∧ executes .al [15, 0, 3, 2] .user plain ∧ usesRn .add = true ∧ (3 : Reg) ≠ 15 := by unfold executes; decide

/-- The ends of the ranges of amounts: 1 to 31, above 32, 32 and above; and an immediate amount of 0 with a register's bottom byte. -/
theorem witness_Shifts :
    (1 ≤ 1 ∧ 1 ≤ 31) ∧ (1 ≤ 31 ∧ 31 ≤ 31) ∧ 32 < 33 ∧ 32 ≤ 32 ∧ 0 = (0 : BitVec 5).toNat
      ∧ 0 = (plain.readReg .user 1).toNat % 256 := by decide

theorem witness_ImmediateOperand : (0 : BitVec 4) = 0 ∧ (15 : BitVec 4) ≠ 0 := by decide

theorem witness_MrsReads :
    executes .al [15] .user plain ∧ executes .al [14] .user plain ∧ (14 : Reg) ≠ 15 ∧ notAtTop plain ∧ Mode.user.spsr = none
      ∧ (if false then Mode.user.spsr.map plain.spsrs.get else some plain.cpsr) = some plain.cpsr
      ∧ executes .al [14] .supervisor (handler 0x10) ∧ notAtTop (handler 0x10)
      ∧ (if true then Mode.supervisor.spsr.map (handler 0x10).spsrs.get else some plain.cpsr) = some (Psr.ofWord 0x10) := by
  unfold executes notAtTop; decide

/-- The control byte of a Supervisor-mode write: User mode, T = 1 and the mode number 30; and a User-mode write. -/
theorem witness_MsrCpsr :
    executes .al [] .supervisor (handler 0x10) ∧ notAtTop (handler 0x10) ∧ executes .al [0] .user plain ∧ (0 : Reg) ≠ 15
      ∧ notAtTop plain ∧ plain.cpsr.t = false ∧ (Mode.ofBits true plain.cpsr.m).isSome = true
      ∧ (true = ((1 : BitVec 4).getLsbD 0 && decide (Mode.supervisor ≠ .user)))
      ∧ (false = ((9 : BitVec 4).getLsbD 0 && decide (Mode.user ≠ .user)))
      ∧ (rotatedImm 0 0x10).getLsbD 5 = false ∧ (Mode.ofBits true ((rotatedImm 0 0x10).extractLsb' 0 5)).isSome = true
      ∧ (rotatedImm 0 0x30).getLsbD 5 = true
      ∧ (rotatedImm 0 0x1E).getLsbD 5 = false ∧ Mode.ofBits true ((rotatedImm 0 0x1E).extractLsb' 0 5) = none := by
  unfold executes notAtTop; decide

theorem witness_MsrSpsr :
    executes .al [0] .user plain ∧ notAtTop plain ∧ Mode.user.spsr = none ∧ executes .al [15] .user plain
      ∧ executes .al [0] .supervisor (handler 0x10) ∧ executes .al [] .supervisor (handler 0x10) ∧ notAtTop (handler 0x10)
      ∧ Mode.supervisor.spsr = some .svc ∧ SpsrName.irq ≠ .svc ∧ (0 : Reg) ≠ 15 := by unfold executes notAtTop; decide

theorem witness_Branch : executes .al [] .user plain := by unfold executes; decide

theorem witness_BranchWithLink :
    executes .al [] .user plain ∧ plain.cpsr.t = false ∧ plain.mode = some .user ∧ condPassed .eq plain.cpsr = false
      ∧ notAtTop plain := by unfold executes notAtTop; decide

/-- On a core with the T variant: a multiple of 4 in r1, bits 01 in r0, bits 10 in r4, and r15; and a core without it. -/
theorem witness_BranchExchange :
    executes .al [1] .user (smallCore plain) ∧ (smallCore plain).platform.hasT = false ∧ plain.platform.hasT = true
      ∧ executes .al [15] .user plain ∧ executes .al [1] .user plain ∧ (plain.readReg .user 1).extractLsb' 0 2 = 0
      ∧ executes .al [0] .user plain ∧ (plain.readReg .user 0).getLsbD 0 = true
      ∧ executes .al [4] .user plain ∧ (plain.readReg .user 4).extractLsb' 0 2 = 2 := by unfold executes; and_intros <;> decide

theorem witness_Multiplies :
    executes .al [2, 0, 3, 1] .user plain ∧ (2 : Reg) ≠ 1 ∧ (2 : Reg) ≠ 15 ∧ (1 : Reg) ≠ 15 ∧ (3 : Reg) ≠ 15 ∧ (0 : Reg) ≠ 15
      ∧ notAtTop plain := by unfold executes notAtTop; decide

theorem witness_LongMultiplies :
    executes .al [1, 0, 3, 2] .user plain ∧ plain.platform.hasM = true ∧ longMultiplyOk 1 0 3 2 = true ∧ notAtTop plain := by
  unfold executes notAtTop; decide

theorem witness_MultiplyRefusals :
    executes .al [1, 0, 3, 1] .user plain ∧ executes .al [15, 0, 3, 1] .user plain ∧ executes .al [2, 0, 3, 15] .user plain
      ∧ executes .al [2, 0, 15, 1] .user plain ∧ executes .al [2, 15, 3, 1] .user plain ∧ executes .al [1, 0, 3, 2] .user (smallCore plain)
      ∧ (smallCore plain).platform.hasM = false ∧ executes .al [1, 1, 3, 2] .user plain ∧ plain.platform.hasM = true
      ∧ longMultiplyOk 1 1 3 2 = false := by unfold executes; and_intros <;> decide

/-- The single transfer of an instruction, for the witnesses below; the default is never used. -/
def transfer (i : Instr) : Transfer :=
  (transferOf i).getD ⟨.al, true, .word, false, false, false, true, .offset, true, 0, 0, .imm 0⟩

/-- A word load post-indexed, an unprivileged one, a signed halfword load at the last halfword of the address space. -/
theorem witness_Loads :
    ∀ y ∈ [(Instr.ldrImmPost .al true 1 0 4, plain), (.ldrtReg .al true 1 0 0 .lsl 3, plain),
        (.ldrshImm .al true true false 1 0 0 0, machine 0x10 0x8000 false [(1, 0xFFFFFFFE)] [])],
      transferOf y.1 = some (transfer y.1) ∧ (transfer y.1).load = true
        ∧ executes (transfer y.1).c (transferRegs (transfer y.1).rn (transfer y.1).rd (transfer y.1).off) .user y.2
        ∧ (transfer y.1).valid = true ∧ ((transfer y.1).half = true → y.2.platform.hasV4 = true)
        ∧ transferRefusal (transfer y.1).wd (transfer y.1).translated (transfer y.1).ix (transfer y.1).rn (transfer y.1).rd
            (transfer y.1).off = none
        ∧ (transfer y.1).rd ≠ 15 ∧ notAtTop y.2
        ∧ aligned (transfer y.1).wd (transferAddress y.2 .user (transfer y.1).ix (transfer y.1).u (transfer y.1).rn (transfer y.1).off) = true
        ∧ answer y.2 .read (Mode.user.privileged && !(transfer y.1).translated)
            (transferAddress y.2 .user (transfer y.1).ix (transfer y.1).u (transfer y.1).rn (transfer y.1).off) (transfer y.1).wd = .ok := by
  unfold executes notAtTop answer; decide

/-- The word at 0x100 is no multiple of 4, the word at 0x104 is one. -/
theorem witness_LoadOfPc :
    ∀ y ∈ [(Instr.ldrImmPre .al true 1 15 0 false), .ldrImmPost .al true 2 15 4],
      transferOf y = some (transfer y) ∧ (transfer y).load = true
        ∧ executes (transfer y).c (transferRegs (transfer y).rn (transfer y).rd (transfer y).off) .user plain
        ∧ transferRefusal (transfer y).wd (transfer y).translated (transfer y).ix (transfer y).rn (transfer y).rd (transfer y).off = none
        ∧ (transfer y).rd = 15
        ∧ aligned .word (transferAddress plain .user (transfer y).ix (transfer y).u (transfer y).rn (transfer y).off) = true
        ∧ answer plain .read Mode.user.privileged
            (transferAddress plain .user (transfer y).ix (transfer y).u (transfer y).rn (transfer y).off) .word = .ok
        ∧ decide ((Memory.read plain.platform.bigEnd plain.mem
            (transferAddress plain .user (transfer y).ix (transfer y).u (transfer y).rn (transfer y).off) .word).extractLsb' 0 2 = 0)
          = decide ((transfer y).rn = 2) := by
  unfold executes answer; decide

theorem witness_Stores :
    ∀ y ∈ [Instr.strRegPre .al true 1 15 0 .lsl 2 true, .strbtImm .al false 1 0 1, .strhImm .al false true false 4 0 0 2],
      transferOf y = some (transfer y) ∧ (transfer y).load = false
        ∧ executes (transfer y).c (transferRegs (transfer y).rn (transfer y).rd (transfer y).off) .user plain
        ∧ (transfer y).valid = true ∧ ((transfer y).half = true → plain.platform.hasV4 = true)
        ∧ transferRefusal (transfer y).wd (transfer y).translated (transfer y).ix (transfer y).rn (transfer y).rd (transfer y).off = none
        ∧ notAtTop plain
        ∧ aligned (transfer y).wd (transferAddress plain .user (transfer y).ix (transfer y).u (transfer y).rn (transfer y).off) = true
        ∧ answer plain .write (Mode.user.privileged && !(transfer y).translated)
            (transferAddress plain .user (transfer y).ix (transfer y).u (transfer y).rn (transfer y).off) (transfer y).wd = .ok := by
  unfold executes notAtTop answer; decide

theorem witness_AbortedTransfer :
    ∀ y ∈ [(Instr.ldrImmPost .al true 1 0 4, AccessKind.read), (.strhReg .al true false true 4 0 3, .write)],
      ∀ s ∈ [rejecting y.2 (machine 0x10 0x8000 false [(1, 0x100), (3, 2), (4, 0x104)] [])],
      transferOf y.1 = some (transfer y.1)
        ∧ executes (transfer y.1).c (transferRegs (transfer y.1).rn (transfer y.1).rd (transfer y.1).off) .user s
        ∧ (transfer y.1).valid = true ∧ ((transfer y.1).half = true → s.platform.hasV4 = true)
        ∧ transferRefusal (transfer y.1).wd (transfer y.1).translated (transfer y.1).ix (transfer y.1).rn (transfer y.1).rd
            (transfer y.1).off = none
        ∧ aligned (transfer y.1).wd (transferAddress s .user (transfer y.1).ix (transfer y.1).u (transfer y.1).rn (transfer y.1).off) = true
        ∧ answer s (if (transfer y.1).load then .read else .write) (Mode.user.privileged && !(transfer y.1).translated)
            (transferAddress s .user (transfer y.1).ix (transfer y.1).u (transfer y.1).rn (transfer y.1).off) (transfer y.1).wd = .abort := by
  unfold executes answer; decide

/-- In turn: P = 0 with W = 1; refused operands; a misaligned address; an absent address; a device's. -/
theorem witness_TransferRefusals :
    (executes .al (transferRegs 1 0 (halfOffset 0 2)) .user plain ∧ plain.platform.hasV4 = true
      ∧ (transfer (.ldrhImm .al false true true 1 0 0 2)).valid = false)
    ∧ (executes .al (transferRegs 1 1 (.imm 4)) .user plain ∧ transferRefusal .word false .postIndexed 1 1 (.imm 4) = some .baseWriteClash
      ∧ transferRefusal .word true .postIndexed 1 15 (.imm 4) = some .translatedPc)
    ∧ transferRefusal .word false .offset 1 0 (.imm 2) = none
    ∧ (executes .al (transferRegs 1 0 (.imm 2)) .user plain
      ∧ aligned .word (transferAddress plain .user .offset true 1 (.imm 2)) = false)
    ∧ (executes .al (transferRegs 1 0 (.imm 0)) .user (mapped .absent plain)
      ∧ aligned .word (transferAddress (mapped .absent plain) .user .offset true 1 (.imm 0)) = true
      ∧ answer (mapped .absent plain) .read false (transferAddress (mapped .absent plain) .user .offset true 1 (.imm 0)) .word = .absent)
    ∧ (executes .al (transferRegs 1 0 (.imm 0)) .user (mapped .device plain)
      ∧ answer (mapped .device plain) .write false (transferAddress (mapped .device plain) .user .offset true 1 (.imm 0)) .word
        = .device) := by
  unfold executes answer; and_intros <;> decide

theorem witness_LoadMultiple :
    executes .al (blockRegs 1 0x000C) .user plain ∧ (0x000C : BitVec 16).getLsbD 15 = false
      ∧ blockRefusal plain .user false true 1 0x000C ((0x000C : BitVec 16).getLsbD (1 : Reg).toNat) false = none
      ∧ 0x100 = blockStart false true (plain.readReg .user 1) 0x000C
      ∧ (∀ k, k < (listRegs 0x000C).length → answer plain .read Mode.user.privileged (0x100 + BitVec.ofNat 32 (4 * k)) .word = .ok)
      ∧ notAtTop plain := by unfold executes notAtTop answer; decide

/-- `LDMIA r1, {r0, pc}` with S = 0 in User mode and with S = 1 in Supervisor mode, where the word is a multiple of 4 and the saved status is a
return, T set, or no mode; and `LDMDA`, where the word for r15 is no multiple of 4. -/
theorem witness_LoadMultiplePc :
    (executes .al (blockRegs 1 0x8001) .user plain ∧ (0x8001 : BitVec 16).getLsbD 15 = true
      ∧ blockRefusal plain .user false false 1 0x8001 ((0x8001 : BitVec 16).getLsbD (1 : Reg).toNat) false = none
      ∧ 0x100 = blockStart false true (plain.readReg .user 1) 0x8001 ∧ 0xFC = blockStart false false (plain.readReg .user 1) 0x8001
      ∧ (∀ k, k < (listRegs 0x8001).length → answer plain .read Mode.user.privileged (0x100 + BitVec.ofNat 32 (4 * k)) .word = .ok)
      ∧ (∀ k, k < (listRegs 0x8001).length → answer plain .read Mode.user.privileged (0xFC + BitVec.ofNat 32 (4 * k)) .word = .ok)
      ∧ (Memory.read plain.platform.bigEnd plain.mem (0x100 + BitVec.ofNat 32 (4 * listRank 0x8001 15)) .word).extractLsb' 0 2 = 0
      ∧ (Memory.read plain.platform.bigEnd plain.mem (0xFC + BitVec.ofNat 32 (4 * listRank 0x8001 15)) .word).extractLsb' 0 2 ≠ 0
      ∧ (if false then Mode.user.spsr.map plain.spsrs.get else some plain.cpsr) = some plain.cpsr
      ∧ plain.cpsr.t = false ∧ (Mode.ofBits true plain.cpsr.m).isSome = true)
    ∧ (∀ q ∈ [0x10, 0x30, 0x1E], executes .al (blockRegs 1 0x8001) .supervisor (handler q)
        ∧ blockRefusal (handler q) .supervisor true false 1 0x8001 ((0x8001 : BitVec 16).getLsbD (1 : Reg).toNat) false = none
        ∧ 0x100 = blockStart false true ((handler q).readReg .supervisor 1) 0x8001
        ∧ (∀ k, k < (listRegs 0x8001).length →
            answer (handler q) .read Mode.supervisor.privileged (0x100 + BitVec.ofNat 32 (4 * k)) .word = .ok)
        ∧ (if true then Mode.supervisor.spsr.map (handler q).spsrs.get else some plain.cpsr) = some (Psr.ofWord (BitVec.ofNat 32 q)))
    ∧ (Psr.ofWord 0x30).t = true ∧ (Psr.ofWord 0x1E).t = false ∧ Mode.ofBits true (Psr.ofWord 0x1E).m = none := by
  unfold executes answer; decide

theorem witness_LoadMultipleUserBank :
    executes .al (blockRegs 1 0x6001) .supervisor (handler 0x10) ∧ (0x6001 : BitVec 16).getLsbD 15 = false
      ∧ blockRefusal (handler 0x10) .supervisor true false 1 0x6001 ((0x6001 : BitVec 16).getLsbD (1 : Reg).toNat) true = none
      ∧ 0xF8 = blockStart false false ((handler 0x10).readReg .supervisor 1) 0x6001
      ∧ (∀ k, k < (listRegs 0x6001).length →
          answer (handler 0x10) .read Mode.supervisor.privileged (0xF8 + BitVec.ofNat 32 (4 * k)) .word = .ok)
      ∧ notAtTop (handler 0x10) := by unfold executes notAtTop answer; decide

/-- With write-back, and of the User bank. -/
theorem witness_StoreMultiple :
    (executes .al (blockRegs 1 0x8006) .user plain
      ∧ blockRefusal plain .user false true 1 0x8006 (baseNotLowest 1 0x8006) false = none
      ∧ 0xF4 = blockStart true false (plain.readReg .user 1) 0x8006
      ∧ (∀ k, k < (listRegs 0x8006).length → answer plain .write Mode.user.privileged (0xF4 + BitVec.ofNat 32 (4 * k)) .word = .ok)
      ∧ notAtTop plain)
    ∧ (executes .al (blockRegs 1 0x6001) .supervisor (handler 0x10)
      ∧ blockRefusal (handler 0x10) .supervisor true false 1 0x6001 (baseNotLowest 1 0x6001) true = none
      ∧ 0x104 = blockStart true true ((handler 0x10).readReg .supervisor 1) 0x6001
      ∧ (∀ k, k < (listRegs 0x6001).length →
          answer (handler 0x10) .write Mode.supervisor.privileged (0x104 + BitVec.ofNat 32 (4 * k)) .word = .ok)
      ∧ notAtTop (handler 0x10)) := by unfold executes notAtTop answer; decide

/-- In turn: an empty list; Rn = 15; a misaligned base; the base in the list; S = 1 in User mode; a user-bank form with write-back. -/
theorem witness_BlockRefusals :
    executes .al (blockRegs 1 0) .user plain
      ∧ (executes .al (blockRegs 15 1) .user plain ∧ (1 : BitVec 16) ≠ 0)
      ∧ (executes .al (blockRegs 4 1) .user plain ∧ (plain.readReg .user 4).extractLsb' 0 2 ≠ 0)
      ∧ (executes .al (blockRegs 1 3) .user plain ∧ (plain.readReg .user 1).extractLsb' 0 2 = 0 ∧ (3 : BitVec 16).getLsbD 1 = true
          ∧ listsBelow 3 1 = true)
      ∧ (executes .al (blockRegs 1 4) .user plain ∧ (4 : BitVec 16).getLsbD 1 = false)
      ∧ (executes .al (blockRegs 1 4) .supervisor (handler 0x10) ∧ ((handler 0x10).readReg .supervisor 1).extractLsb' 0 2 = 0
          ∧ Mode.supervisor ≠ .user ∧ Mode.supervisor ≠ .system ∧ (true && !(4 : BitVec 16).getLsbD 15) = true) := by
  unfold executes; and_intros <;> decide

theorem witness_AbortedBlock :
    ∀ k ∈ [AccessKind.read, .write], ∀ s ∈ [rejectingFrom 0x104 k plain],
      executes .al (blockRegs 1 0x000C) .user s ∧ 0x100 = blockStart false true (s.readReg .user 1) 0x000C
        ∧ 1 < (listRegs 0x000C).length
        ∧ blockRefusal s .user false true 1 0x000C ((0x000C : BitVec 16).getLsbD (1 : Reg).toNat) false = none
        ∧ blockRefusal s .user false true 1 0x000C (baseNotLowest 1 0x000C) false = none
        ∧ (∀ j, j < 1 → answer s k Mode.user.privileged (0x100 + BitVec.ofNat 32 (4 * j)) .word = .ok)
        ∧ answer s k Mode.user.privileged (0x100 + BitVec.ofNat 32 (4 * 1)) .word = .abort := by
  unfold executes answer; decide

/-- Registers that clash; a misaligned word; an accepted exchange; a rejected read; an accepted read with a rejected write. -/
theorem witness_Swaps :
    executes .al [1, 1, 2] .user plain
      ∧ (executes .al [4, 0, 2] .user plain ∧ aligned .word (plain.readReg .user 4) = false)
      ∧ (executes .al [1, 0, 0] .user plain ∧ aligned .word (plain.readReg .user 1) = true ∧ notAtTop plain
          ∧ answer plain .read Mode.user.privileged (plain.readReg .user 1) .word = .ok
          ∧ answer plain .write Mode.user.privileged (plain.readReg .user 1) .word = .ok)
      ∧ (executes .al [1, 0, 2] .user (rejecting .read plain)
          ∧ answer (rejecting .read plain) .read Mode.user.privileged ((rejecting .read plain).readReg .user 1) .byte = .abort)
      ∧ (executes .al [1, 0, 2] .user (rejecting .write plain)
          ∧ answer (rejecting .write plain) .read Mode.user.privileged ((rejecting .write plain).readReg .user 1) .byte = .ok
          ∧ answer (rejecting .write plain) .write Mode.user.privileged ((rejecting .write plain).readReg .user 1) .byte = .abort) := by
  unfold executes notAtTop answer; and_intros <;> decide

theorem witness_SoftwareInterrupt : executes .al [] .user plain := by unfold executes; decide

theorem witness_UndefinedInstructions :
    executes .al [] .user plain ∧ executes .al [1] .user plain
      ∧ (∃ hi lo, Instr.undefined .al 0 0 = .undefined .al hi lo)
      ∧ (∃ p u n w rn crd cp off, [(1 : Reg)] = [rn] ∧ (Instr.ldc .al true true false false 1 3 2 4 = .ldc .al p u n w rn crd cp off
          ∨ Instr.ldc .al true true false false 1 3 2 4 = .stc .al p u n w rn crd cp off)) :=
  ⟨by unfold executes; decide, by unfold executes; decide, ⟨_, _, rfl⟩, _, _, _, _, _, _, _, _, rfl, .inl rfl⟩

theorem witness_SoftwareInterruptReturns : executes .al [] .user plain ∧ field plain.pc 0 2 = 0 := by unfold executes; decide

/-- I set, F set, a FIQ that is taken, an IRQ that is taken. -/
theorem witness_InterruptMasks :
    (∀ s ∈ [pinned false true true (machine 0xD3 0x100 false [] [])],
        s.pins = [⟨false, true, true⟩] ∧ s.cpsr.i = true ∧ s.cpsr.f = true)
      ∧ ∀ s ∈ [pinned false true true plain, pinned false false true plain],
        s.cpsr.t = false ∧ s.mode = some .user ∧ s.cpsr.f = false ∧ s.cpsr.i = false
          ∧ ∃ p ∈ s.pins, p.reset = false ∧ p.irq = true := by decide

theorem witness_InterruptEntry :
    (∀ s ∈ [pinned false true false plain], s.pins = [⟨false, true, false⟩] ∧ s.cpsr.t = false ∧ s.mode = some .user
        ∧ s.cpsr.f = false)
      ∧ ∀ s ∈ [pinned false false true plain], s.pins = [⟨false, false, true⟩] ∧ s.cpsr.t = false ∧ s.mode = some .user
        ∧ s.cpsr.i = false := by decide

theorem witness_PrefetchAbort :
    ∀ s ∈ [rejecting .fetch plain], s.cpsr.t = false ∧ s.mode = some .user ∧ s.sample.reset = false
      ∧ (s.sample.fiq = false ∨ s.cpsr.f = true) ∧ (s.sample.irq = false ∨ s.cpsr.i = true) ∧ field s.pc 0 2 = 0
      ∧ answer s .fetch Mode.user.privileged s.pc .word = .abort := by unfold answer; decide

theorem witness_ResetInput : (pinned true true true plain).pins = [⟨true, true, true⟩] := by decide

theorem witness_StepRunsDecoded :
    ∀ s ∈ [plain.withFetchWord 32 0xE2800001], s.cpsr.t = false ∧ s.mode = some .user ∧ s.sample.reset = false
      ∧ (s.sample.fiq = false ∨ s.cpsr.f = true) ∧ (s.sample.irq = false ∨ s.cpsr.i = true) ∧ field s.pc 0 2 = 0
      ∧ answer s .fetch Mode.user.privileged s.pc .word = .ok ∧ s.pc.toNat / 4 ∉ s.stored
      ∧ decode (Memory.read s.platform.bigEnd s.mem s.pc .word) = .ok (.addImm .al 0 0 false 0 1) := by unfold answer; decide

/-- The steps of the statements about every step: an ADD, and a SWI, from User mode. -/
theorem witness_StepKeepsInvariant :
    Inv (plain.withFetchWord 32 0xE2800001) ∧ ∃ t, step (plain.withFetchWord 32 0xE2800001) = .next t := ⟨by decide, _, rfl⟩

theorem witness_StepKeepsPlatform :
    ∃ t, step (pinned false true false (plain.withFetchWord 32 0xE2800001)) = .next t := ⟨_, rfl⟩

theorem witness_UserModeControlBits :
    (plain.withFetchWord 32 0xE2800001).mode = some .user ∧ (plain.withFetchWord 32 0xEF000000).mode = some .user
      ∧ (∃ t, step (plain.withFetchWord 32 0xE2800001) = .next t) ∧ ∃ t, step (plain.withFetchWord 32 0xEF000000) = .next t :=
  ⟨by decide, by decide, ⟨_, rfl⟩, _, rfl⟩

theorem witness_UserModeIsolation :
    (plain.withFetchWord 32 0xE2800001).mode = some .user
      ∧ (∃ t, step (plain.withFetchWord 32 0xE2800001) = .next t ∧ t.mode = some .user)
      ∧ ∀ i, phys .user i ≠ some .r13_svc := ⟨by decide, ⟨_, rfl, by decide⟩, by decide⟩

end Sys2Proof.Tests
end

section
/-! PROOFS. O12 and O58. Every instruction is `whenExecuted` around one of a few shared rules: said once, constructor by constructor,
so that what a skipped instruction does and what an executed one keeps follow without another walk through `exec`. -/

namespace Sys2Proof.Machine

/-! ## The rules the meanings share -/

/-- What an instruction that executes in mode `m` comes to, from the state `s` in which its rule starts: one constructor per rule
that the meanings share, and the refusals that are made before one. -/
inductive RuleOutcome (m : Mode) (s : State) : Out → Prop where
  | refused (r : Refusal) : RuleOutcome m s (.refused r)
  | dataProcessing (op : DpOp) (sf : Bool) (rn rd : Reg) (o : Operand2) (h : operandRefusal (usesRn op) rn o = none) :
      RuleOutcome m s (dpWrite op sf rd (dpOut op rn o m s) m s)
  | readPsr (r : Bool) (rd : Reg) : RuleOutcome m s (readPsr r rd m s)
  | writePsr (r : Bool) (fmask : BitVec 4) (v : Word) : RuleOutcome m s (writePsr r fmask v m s)
  | exchange (rn : Reg) (h0 : (s.readReg m rn).getLsbD 0 = false) (h1 : (s.readReg m rn).getLsbD 1 = false) :
      RuleOutcome m s (.next { s with cpsr := { s.cpsr with t := false }, pc := s.readReg m rn })
  | multiply (sf : Bool) (rd rs rm : Reg) (usesPc : Bool) (v : Word) : RuleOutcome m s (multiply sf rd rs rm usesPc v m s)
  | longMultiply (sf : Bool) (rdHi rdLo rs rm : Reg) (v : BitVec 64) : RuleOutcome m s (longMultiply sf rdHi rdLo rs rm v m s)
  | swap (wd : Width) (rn rd rm : Reg) : RuleOutcome m s (swap wd rn rd rm m s)
  | load (wd : Width) (signed translated : Bool) (ix : Indexing) (u : Bool) (rn rd : Reg) (off : Offset) :
      RuleOutcome m s (loadSingle wd signed translated ix u rn rd off m s)
  | store (wd : Width) (translated : Bool) (ix : Indexing) (u : Bool) (rn rd : Reg) (off : Offset) :
      RuleOutcome m s (storeSingle wd translated ix u rn rd off m s)
  | loadBlock (p u sb w : Bool) (rn : Reg) (list : BitVec 16) : RuleOutcome m s (loadBlock p u sb w rn list m s)
  | storeBlock (p u sb w : Bool) (rn : Reg) (list : BitVec 16) : RuleOutcome m s (storeBlock p u sb w rn list m s)
  | branch (offset : BitVec 24) : RuleOutcome m s (.next { s with pc := branchTarget s.pc offset })
  | branchLink (offset : BitVec 24) :
      RuleOutcome m s (.next { s.setReg m 14 (s.pc + 4) with pc := branchTarget s.pc offset })
  | trap (e : Exn) (h : e = .softwareInterrupt ∨ e = .undefinedInstruction) :
      RuleOutcome m s (.next (s.takeException e (s.pc + 4)))

/-- A meaning that is `whenExecuted` with condition `c` around one of the shared rules. -/
def FollowsRule (c : Cond) (f : State → Out) : Prop :=
  ∃ (names : List Reg) (body : Mode → State → Out), (∀ s, f s = whenExecuted c names s body) ∧ ∀ m s, RuleOutcome m s (body m s)

theorem dataProcessing_followsRule (op : DpOp) (c : Cond) (rn rd : Reg) (sf : Bool) (o : Operand2) :
    FollowsRule c (dataProcessing op c rn rd sf o) := by
  refine ⟨_, _, fun _ => rfl, fun m s => ?_⟩
  split
  · exact .refused _
  · next hn => exact .dataProcessing op sf rn rd o hn

theorem execMsrReg_followsRule (c : Cond) (r : Bool) (fmask : BitVec 4) (rm : Reg) : FollowsRule c (execMsrReg c r fmask rm) := by
  refine ⟨_, _, fun _ => rfl, fun m s => ?_⟩
  split
  · exact .refused _
  · exact .writePsr r fmask _

theorem execBx_followsRule (c : Cond) (rn : Reg) : FollowsRule c (execBx c rn) := by
  refine ⟨_, _, fun _ => rfl, fun m s => ?_⟩
  split; · exact .refused _
  split; · exact .refused _
  split; · exact .refused _
  next h0 =>
    split; · exact .refused _
    next h1 => exact .exchange rn (by simpa using h0) (by simpa using h1)

/-- The halfword forms add refusals to the rule of the transfer. -/
theorem halfwordForm_ruleOutcome {m : Mode} {s : State} {body : Indexing → Out} (p w : Bool)
    (h : ∀ ix, RuleOutcome m s (body ix)) : RuleOutcome m s (halfwordForm p w s body) := by
  unfold halfwordForm
  split; · exact .refused _
  split; · exact .refused _
  exact h _

/-- Every instruction is conditional and comes to one of the shared rules (R11, R136). -/
theorem exec_followsRule (i : Instr) : FollowsRule (condOf i) (exec i) := by
  change FollowsRule (condOf i) fun s => exec i s
  cases i
  all_goals dsimp only [exec, condOf]
  case andImm | andShiftImm | andShiftReg | eorImm | eorShiftImm | eorShiftReg | subImm | subShiftImm | subShiftReg
      | rsbImm | rsbShiftImm | rsbShiftReg | addImm | addShiftImm | addShiftReg | adcImm | adcShiftImm | adcShiftReg
      | sbcImm | sbcShiftImm | sbcShiftReg | rscImm | rscShiftImm | rscShiftReg | tstImm | tstShiftImm | tstShiftReg
      | teqImm | teqShiftImm | teqShiftReg | cmpImm | cmpShiftImm | cmpShiftReg | cmnImm | cmnShiftImm | cmnShiftReg
      | orrImm | orrShiftImm | orrShiftReg | movImm | movShiftImm | movShiftReg | bicImm | bicShiftImm | bicShiftReg
      | mvnImm | mvnShiftImm | mvnShiftReg => exact dataProcessing_followsRule _ _ _ _ _ _
  case mrs => exact ⟨_, _, fun _ => rfl, fun _ _ => .readPsr _ _⟩
  case msrReg => exact execMsrReg_followsRule _ _ _ _
  case msrImm => exact ⟨_, _, fun _ => rfl, fun _ _ => .writePsr _ _ _⟩
  case bx => exact execBx_followsRule _ _
  case mul | mla => exact ⟨_, _, fun _ => rfl, fun _ _ => .multiply _ _ _ _ _ _⟩
  case umull | umlal | smull | smlal => exact ⟨_, _, fun _ => rfl, fun _ _ => .longMultiply _ _ _ _ _ _⟩
  case swp | swpb => exact ⟨_, _, fun _ => rfl, fun _ _ => .swap _ _ _ _⟩
  case strhImm | strhReg =>
    exact ⟨_, _, fun _ => rfl, fun _ _ => halfwordForm_ruleOutcome _ _ fun _ => .store _ _ _ _ _ _ _⟩
  case ldrhImm | ldrhReg | ldrsbImm | ldrsbReg | ldrshImm | ldrshReg =>
    exact ⟨_, _, fun _ => rfl, fun _ _ => halfwordForm_ruleOutcome _ _ fun _ => .load _ _ _ _ _ _ _ _⟩
  case strImmPre | strImmPost | strtImm | strRegPre | strRegPost | strtReg | strbImmPre | strbImmPost | strbtImm
      | strbRegPre | strbRegPost | strbtReg => exact ⟨_, _, fun _ => rfl, fun _ _ => .store _ _ _ _ _ _ _⟩
  case ldrImmPre | ldrImmPost | ldrtImm | ldrRegPre | ldrRegPost | ldrtReg | ldrbImmPre | ldrbImmPost | ldrbtImm
      | ldrbRegPre | ldrbRegPost | ldrbtReg => exact ⟨_, _, fun _ => rfl, fun _ _ => .load _ _ _ _ _ _ _ _⟩
  case ldm => exact ⟨_, _, fun _ => rfl, fun _ _ => .loadBlock _ _ _ _ _ _⟩
  case stm => exact ⟨_, _, fun _ => rfl, fun _ _ => .storeBlock _ _ _ _ _ _⟩
  case b => exact ⟨_, _, fun _ => rfl, fun _ _ => .branch _⟩
  case bl => exact ⟨_, _, fun _ => rfl, fun _ _ => .branchLink _⟩
  case undefined | cdp | ldc | stc | mcr | mrc => exact ⟨_, _, fun _ => rfl, fun _ _ => .trap .undefinedInstruction (.inr rfl)⟩
  case swi => exact ⟨_, _, fun _ => rfl, fun _ _ => .trap .softwareInterrupt (.inl rfl)⟩

/-- Everything an instruction can do: advance, or come to one of the shared rules in the current mode. -/
theorem exec_next {i : Instr} {s t : State} (h : exec i s = .next t) :
    s.cpsr.t = false ∧ ∃ m, s.mode = some m
      ∧ ((condPassed (condOf i) s.cpsr = false ∧ s.pc ≠ 0xFFFFFFFC ∧ t = { s with pc := s.pc + 4, userLdm := false })
        ∨ (condPassed (condOf i) s.cpsr = true ∧ RuleOutcome m { s with userLdm := false } (.next t))) := by
  obtain ⟨names, body, hf, hb⟩ := exec_followsRule i
  rw [hf] at h
  obtain ⟨ht, m, hm, hs | ⟨⟨-, -, hc, -⟩, ho⟩⟩ := whenExecuted_next h
  · exact ⟨ht, m, hm, .inl hs⟩
  · exact ⟨ht, m, hm, .inr ⟨hc, ho ▸ hb m _⟩⟩

/-- Settles O12: whatever the shared rule of the instruction is, it is not reached. -/
theorem skippedInstruction : Obligations.SkippedInstruction := by
  intro i s m ht hm hc hp
  obtain ⟨names, body, hf, -⟩ := exec_followsRule i
  rw [hf, whenExecuted_skipped ht hm hc]
  exact advance_of_notAtTop hp

/-! ## No rule writes the inputs or the platform -/

theorem keepsInputs.trans {s t u : State} (h : keepsInputs s t) (k : keepsInputs t u) : keepsInputs s u :=
  ⟨k.1.trans h.1, k.2.trans h.2⟩

theorem setReg_keepsInputs (s : State) (m : Mode) (i : Reg) (v : Word) : keepsInputs s (s.setReg m i v) := ⟨by simp, by simp⟩

theorem takeException_keepsInputs (s : State) (e : Exn) (ra : Word) : keepsInputs s (s.takeException e ra) := ⟨rfl, rfl⟩

theorem advance_keepsInputs {s t : State} (h : advance s = .next t) : keepsInputs s t := by
  obtain ⟨-, rfl⟩ := advance_next.mp h
  exact ⟨rfl, rfl⟩

theorem dataAbort_keepsInputs {s t : State} (h : s.dataAbort = .next t) : keepsInputs s t := by
  cases h
  exact takeException_keepsInputs _ _ _

theorem returnFromException_keepsInputs {s t : State} {r : Refusal} {m : Mode} {a : Word}
    (h : s.returnFromException r m a = .next t) : keepsInputs s t := by
  obtain ⟨n, -, -, -, -, rfl⟩ := returnFromException_next h
  exact ⟨rfl, rfl⟩

theorem writeRd_keepsInputs {m : Mode} {rd : Reg} {v : Word} {s t : State} (h : writeRd m rd v s = .next t) : keepsInputs s t := by
  obtain ⟨-, -, rfl⟩ | ⟨-, -, rfl⟩ := writeRd_next h
  · exact ⟨rfl, rfl⟩
  · exact setReg_keepsInputs s m rd v

theorem dpWrite_keepsInputs {op : DpOp} {sf : Bool} {rd : Reg} {out : AluOut} {m : Mode} {s t : State}
    (h : dpWrite op sf rd out m s = .next t) : keepsInputs s t := by
  obtain ⟨-, -, rfl⟩ | ⟨-, -, -, hr⟩ | ⟨-, -, -, -, rfl⟩ | ⟨-, -, -, rfl⟩ := dpWrite_next h
  · exact ⟨rfl, rfl⟩
  · exact returnFromException_keepsInputs hr
  · exact ⟨rfl, rfl⟩
  · exact setReg_keepsInputs s m rd _

theorem readPsr_keepsInputs {r : Bool} {rd : Reg} {m : Mode} {s t : State} (h : readPsr r rd m s = .next t) : keepsInputs s t := by
  obtain ⟨-, -, p, -, rfl⟩ := readPsr_next h
  exact setReg_keepsInputs s m rd _

theorem writePsr_keepsInputs {r : Bool} {fmask : BitVec 4} {v : Word} {m : Mode} {s t : State}
    (h : writePsr r fmask v m s = .next t) : keepsInputs s t := by
  obtain ⟨-, ⟨-, n, -, rfl⟩ | ⟨-, -, -, rfl⟩⟩ := writePsr_next h
  · exact ⟨rfl, rfl⟩
  · exact ⟨rfl, rfl⟩

theorem multiply_keepsInputs {sf : Bool} {rd rs rm : Reg} {usesPc : Bool} {v : Word} {m : Mode} {s t : State}
    (h : multiply sf rd rs rm usesPc v m s = .next t) : keepsInputs s t := by
  obtain ⟨-, -, -, -, -, -, rfl⟩ := multiply_next h
  exact setReg_keepsInputs s m rd v

theorem longMultiply_keepsInputs {sf : Bool} {rdHi rdLo rs rm : Reg} {v : BitVec 64} {m : Mode} {s t : State}
    (h : longMultiply sf rdHi rdLo rs rm v m s = .next t) : keepsInputs s t := by
  obtain ⟨-, -, -, rfl⟩ := longMultiply_next h
  exact ⟨s.setPair_pins m rdHi rdLo v, s.setPair_platform m rdHi rdLo v⟩

theorem swap_keepsInputs {wd : Width} {rn rd rm : Reg} {m : Mode} {s t : State} (h : swap wd rn rd rm m s = .next t) :
    keepsInputs s t := by
  obtain ⟨-, -, ⟨-, rfl⟩ | rfl⟩ := swap_next h
  · exact setReg_keepsInputs (s.stores _ _ _) m rd _
  · exact takeException_keepsInputs _ _ _

/-- A single transfer that aborts keeps the inputs, whether or not its base is free afterwards. -/
theorem abortedTransfer_keepsInputs (s : State) (m : Mode) (ix : Indexing) (rn : Reg) :
    keepsInputs s ((if writesBase ix then s.freeReg m rn else s).takeException .dataAbort
      ((if writesBase ix then s.freeReg m rn else s).pc + 8)) := by
  split
  · exact ⟨by simp, by simp⟩
  · exact takeException_keepsInputs _ _ _

theorem updateBase_keepsInputs (s : State) (m : Mode) (ix : Indexing) (rn : Reg) (v : Word) :
    keepsInputs s (updateBase s m ix rn v) := ⟨by simp, by simp⟩

theorem loadSingle_keepsInputs {wd : Width} {sg tr : Bool} {ix : Indexing} {u : Bool} {rn rd : Reg} {off : Offset} {m : Mode}
    {s t : State} (h : loadSingle wd sg tr ix u rn rd off m s = .next t) : keepsInputs s t := by
  obtain ⟨-, -, ⟨-, hw⟩ | ⟨-, rfl⟩⟩ := loadSingle_next h
  · exact (updateBase_keepsInputs s m ix rn _).trans (writeRd_keepsInputs hw)
  · exact abortedTransfer_keepsInputs s m ix rn

theorem storeSingle_keepsInputs {wd : Width} {tr : Bool} {ix : Indexing} {u : Bool} {rn rd : Reg} {off : Offset} {m : Mode}
    {s t : State} (h : storeSingle wd tr ix u rn rd off m s = .next t) : keepsInputs s t := by
  obtain ⟨-, -, ⟨-, ha⟩ | ⟨-, rfl⟩⟩ := storeSingle_next h
  · exact (updateBase_keepsInputs (s.stores _ _ _) m ix rn _).trans (advance_keepsInputs ha)
  · exact abortedTransfer_keepsInputs s m ix rn

theorem finishLoad_keepsInputs {sb : Bool} {list : BitVec 16} {m : Mode} {s t : State} (h : finishLoad sb list m s = .next t) :
    keepsInputs s t := by
  obtain ⟨-, -, rfl⟩ | ⟨-, -, -, rfl⟩ | ⟨-, -, hr⟩ := finishLoad_next h
  · exact ⟨rfl, rfl⟩
  · exact ⟨rfl, rfl⟩
  · exact returnFromException_keepsInputs hr

theorem loadBlock_keepsInputs {p u sb w : Bool} {rn : Reg} {list : BitVec 16} {m : Mode} {s t : State}
    (h : loadBlock p u sb w rn list m s = .next t) : keepsInputs s t := by
  obtain ⟨-, ⟨vs, -, -, hf⟩ | ha⟩ := loadBlock_next h
  · exact keepsInputs.trans ⟨by simp, by simp⟩ (finishLoad_keepsInputs hf)
  · exact keepsInputs.trans ⟨by simp, by simp⟩ (dataAbort_keepsInputs ha)

theorem storeWords_keepsInputs (vs : List Word) (s : State) (a : Word) : keepsInputs s (s.storeWords a vs) := by
  obtain ⟨-, -, -, -, hpins, -, hplatform⟩ := State.storeWords_rest vs s a
  exact ⟨hpins, hplatform⟩

theorem blockWriteBack_keepsInputs (m : Mode) (w : Bool) (rn : Reg) (v : Word) (s : State) :
    keepsInputs s (blockWriteBack m w rn v s) := ⟨by simp, by simp⟩

theorem freeBase_keepsInputs (m : Mode) (w : Bool) (rn : Reg) (s : State) : keepsInputs s (freeBase m w rn s) := ⟨by simp, by simp⟩

theorem storeBlock_keepsInputs {p u sb w : Bool} {rn : Reg} {list : BitVec 16} {m : Mode} {s t : State}
    (h : storeBlock p u sb w rn list m s = .next t) : keepsInputs s t := by
  obtain ⟨-, vs, ha | hd⟩ := storeBlock_next h
  · exact ((storeWords_keepsInputs vs s _).trans (blockWriteBack_keepsInputs m w rn _ _)).trans (advance_keepsInputs ha)
  · exact ((storeWords_keepsInputs vs s _).trans (freeBase_keepsInputs m w rn _)).trans (dataAbort_keepsInputs hd)

theorem RuleOutcome.keepsInputs {m : Mode} {s t : State} (h : RuleOutcome m s (.next t)) : keepsInputs s t := by
  generalize ho : Host.Outcome.next t = o at h
  cases h with
  | refused r => cases ho
  | dataProcessing op sf rn rd o hn => exact dpWrite_keepsInputs ho.symm
  | readPsr r rd => exact readPsr_keepsInputs ho.symm
  | writePsr r fmask v => exact writePsr_keepsInputs ho.symm
  | exchange rn h0 h1 => cases ho; exact ⟨rfl, rfl⟩
  | multiply sf rd rs rm usesPc v => exact multiply_keepsInputs ho.symm
  | longMultiply sf rdHi rdLo rs rm v => exact longMultiply_keepsInputs ho.symm
  | swap wd rn rd rm => exact swap_keepsInputs ho.symm
  | load wd sg tr ix u rn rd off => exact loadSingle_keepsInputs ho.symm
  | store wd tr ix u rn rd off => exact storeSingle_keepsInputs ho.symm
  | loadBlock p u sb w rn list => exact loadBlock_keepsInputs ho.symm
  | storeBlock p u sb w rn list => exact storeBlock_keepsInputs ho.symm
  | branch offset => cases ho; exact ⟨rfl, rfl⟩
  | branchLink offset => cases ho; exact setReg_keepsInputs s m 14 (s.pc + 4)
  | trap e he => cases ho; exact takeException_keepsInputs _ _ _

theorem exec_keepsInputs {i : Instr} {s t : State} (h : exec i s = .next t) : keepsInputs s t := by
  obtain ⟨-, m, -, ⟨-, -, rfl⟩ | ⟨-, ho⟩⟩ := exec_next h
  · exact ⟨rfl, rfl⟩
  · exact ho.keepsInputs

/-- The boundary takes no sample of its own: `State.sampled` has taken it. -/
theorem boundary_keepsInputs {p : Pins} {s t : State} (h : boundary p s = .done (.next t)) : keepsInputs s t := by
  obtain rfl | ⟨m, -, -, rfl | rfl | ⟨-, rfl | ⟨-, rfl⟩⟩⟩ := boundary_done h
  · exact ⟨rfl, rfl⟩
  · exact takeException_keepsInputs _ _ _
  · exact takeException_keepsInputs _ _ _
  · exact takeException_keepsInputs _ _ _
  · exact ⟨rfl, rfl⟩

/-- Settles O58: the one write to the inputs is `State.sampled`, and what follows it keeps inputs and platform. -/
theorem stepKeepsPlatform : Obligations.StepKeepsPlatform := by
  intro s t h
  have hk : keepsInputs s.sampled t := by
    obtain hd | ⟨i, -, hx⟩ := step_next h
    · exact boundary_keepsInputs hd
    · exact exec_keepsInputs hx
  obtain ⟨hpins, hplatform⟩ := hk
  exact ⟨hplatform, hpins⟩

end Sys2Proof.Machine
end

section
/-! PROOFS. O56 and O57. The invariant but for the pc is kept by every named update of the state; each shared rule then owes only where
the pc is left. -/

namespace Sys2Proof.Machine

/-! ## Addresses that are multiples of 4 -/

theorem aligned_word_iff {a : Word} : aligned .word a = true ↔ field a 0 2 = 0 := beq_iff_eq

theorem field_add_low (a b : Word) (n : Nat) (h : n ≤ 32) : field (a + b) 0 n = field a 0 n + field b 0 n := by
  simp only [field, ← BitVec.setWidth_eq_extractLsb' h, BitVec.setWidth_add _ _ h]

theorem aligned_word_add {a b : Word} (ha : aligned .word a = true) (hb : aligned .word b = true) : aligned .word (a + b) = true := by
  rw [aligned_word_iff] at *
  rw [field_add_low a b 2 (by decide), ha, hb]
  rfl

theorem aligned_word_add_four {a : Word} (h : aligned .word a = true) : aligned .word (a + 4) = true := aligned_word_add h rfl

/-- A value whose two low bits are clear, as BX tests them, is a multiple of 4. -/
theorem aligned_word_of_getLsbD {a : Word} (h0 : a.getLsbD 0 = false) (h1 : a.getLsbD 1 = false) : aligned .word a = true := by
  rw [aligned_word_iff]
  ext k hk
  obtain rfl | rfl : k = 0 ∨ k = 1 := by omega
  · simpa [field] using h0
  · simpa [field] using h1

/-- A branch offset ends in two zeros, so the target of a branch is as aligned as the branch (R143). -/
theorem aligned_branchTarget {pc : Word} (h : aligned .word pc = true) (offset : BitVec 24) :
    aligned .word (branchTarget pc offset) = true := by
  have hoff : aligned .word ((offset ++ (0 : BitVec 2)).signExtend 32) = true := by
    apply aligned_word_of_getLsbD <;> rw [BitVec.getLsbD_signExtend, BitVec.getLsbD_append] <;> rfl
  exact aligned_word_add (aligned_word_add h rfl) hoff

theorem aligned_vector (e : Exn) : aligned .word e.vector = true := by cases e <;> rfl

/-! ## The invariant but for the pc -/

/-- What the invariant says of everything but the pc. Unlike the invariant it holds between the register writes of an LDM that loads
r15 too. -/
structure InvExceptPc (s : State) : Prop where
  mem : Memory.wf s.mem
  mode : s.mode.isSome = true
  arm : s.cpsr.t = false
  stored : s.stored.Nodup
  spsrs : s.platform.hasT = false → ∀ n, (s.spsrs.get n).t = false

theorem inv_iff {s : State} : Inv s ↔ InvExceptPc s ∧ aligned .word s.pc = true := by
  constructor
  · rintro ⟨hmem, hmode, harm, hpc, hstored, hspsrs⟩
    exact ⟨⟨hmem, hmode, harm, hstored, fun hT n => hspsrs hT n (by cases n <;> decide)⟩, hpc⟩
  · rintro ⟨⟨hmem, hmode, harm, hstored, hspsrs⟩, hpc⟩
    exact ⟨hmem, hmode, harm, hpc, hstored, fun hT n _ => hspsrs hT n⟩

namespace InvExceptPc

variable {s t : State}

/-- General registers, pc, inputs, free values and the user-bank bit are no part of it. -/
theorem of_fields (h : InvExceptPc s) (hmem : t.mem = s.mem := by simp) (hcpsr : t.cpsr = s.cpsr := by simp)
    (hspsrs : t.spsrs = s.spsrs := by simp) (hstored : t.stored = s.stored := by simp)
    (hplatform : t.platform = s.platform := by simp) : InvExceptPc t where
  mem := hmem ▸ h.mem
  mode := State.mode_congr hcpsr hplatform ▸ h.mode
  arm := hcpsr ▸ h.arm
  stored := hstored ▸ h.stored
  spsrs := by rw [hplatform, hspsrs]; exact h.spsrs

/-- A status register with a legal mode and no T bit may stand in the CPSR. -/
theorem with_cpsr (h : InvExceptPc s) {p : Psr} (hm : (Mode.ofBits s.platform.hasV4 p.m).isSome = true) (ht : p.t = false) :
    InvExceptPc { s with cpsr := p } :=
  ⟨h.mem, hm, ht, h.stored, h.spsrs⟩

/-- Flags do not matter. -/
theorem with_flags (h : InvExceptPc s) {p : Psr} (hm : p.m = s.cpsr.m) (ht : p.t = s.cpsr.t) : InvExceptPc { s with cpsr := p } :=
  h.with_cpsr (hm ▸ h.mode) (ht.trans h.arm)

theorem set_spsr (h : InvExceptPc s) (n : SpsrName) {p : Psr} (hp : s.platform.hasT = false → p.t = false) :
    InvExceptPc { s with spsrs := s.spsrs.set n p } where
  mem := h.mem
  mode := h.mode
  arm := h.arm
  stored := h.stored
  spsrs hT k := by
    by_cases hk : k = n
    · subst hk
      rw [Spsrs.get_set_same, hp hT]
    · rw [Spsrs.get_set_other _ _ hk, h.spsrs hT k]

theorem stores (h : InvExceptPc s) (a : Word) (wd : Width) (v : Word) : InvExceptPc (s.stores a wd v) :=
  ⟨State.stores_wf h.mem a wd v, h.mode, h.arm, nodup_addStored h.stored _, h.spsrs⟩

theorem storeWords (h : InvExceptPc s) (a : Word) (vs : List Word) : InvExceptPc (s.storeWords a vs) := by
  induction vs generalizing s a with
  | nil => exact h
  | cons v vs ih => exact ih (h.stores a .word v) (a + 4)

/-- An exception saves a CPSR without T and enters a legal mode in ARM state. -/
theorem takeException (h : InvExceptPc s) (e : Exn) (ra : Word) : InvExceptPc (s.takeException e ra) :=
  have hsaved := h.set_spsr e.saved fun _ => h.arm
  ⟨h.mem, by simp, rfl, h.stored, hsaved.spsrs⟩

theorem takeReset (h : InvExceptPc s) : InvExceptPc s.takeReset :=
  have hsaved := h.set_spsr .svc (p := Psr.written s.platform.hasT (Config.freeWord (s.drawn + 1))) fun hT => by rw [hT]; rfl
  ⟨h.mem, by simp, rfl, h.stored, hsaved.spsrs⟩

end InvExceptPc

/-! ## The common endings -/

theorem takeException_inv {s : State} (hs : InvExceptPc s) (e : Exn) (ra : Word) : Inv (s.takeException e ra) :=
  inv_iff.mpr ⟨hs.takeException e ra, aligned_vector e⟩

theorem dataAbort_inv {s t : State} (hs : InvExceptPc s) (h : s.dataAbort = .next t) : Inv t := by
  cases h
  exact takeException_inv hs _ _

/-- The end of every rule that goes on at `cur + 4`. -/
theorem inv_of_pc_add_four {s t : State} (hs : Inv s) (ht : InvExceptPc t) (hpc : t.pc = s.pc + 4 := by rfl) : Inv t :=
  inv_iff.mpr ⟨ht, hpc ▸ aligned_word_add_four (inv_iff.mp hs).2⟩

theorem advance_inv {s t : State} (hs : Inv s) (h : advance s = .next t) : Inv t := by
  obtain ⟨-, rfl⟩ := advance_next.mp h
  exact inv_of_pc_add_four hs (inv_iff.mp hs).1.of_fields

theorem returnFromException_inv {s t : State} {r : Refusal} {m : Mode} {a : Word} (hs : InvExceptPc s)
    (h : s.returnFromException r m a = .next t) : Inv t := by
  obtain ⟨n, -, ha, ht, hm, rfl⟩ := returnFromException_next h
  exact inv_iff.mpr ⟨(hs.with_cpsr hm ht).of_fields rfl rfl rfl rfl rfl, aligned_word_iff.mpr ha⟩

theorem writeRd_inv {m : Mode} {rd : Reg} {v : Word} {s t : State} (hs : Inv s) (h : writeRd m rd v s = .next t) : Inv t := by
  obtain ⟨-, hv, rfl⟩ | ⟨-, -, rfl⟩ := writeRd_next h
  · exact inv_iff.mpr ⟨(inv_iff.mp hs).1.of_fields, aligned_word_iff.mpr hv⟩
  · exact inv_of_pc_add_four hs (inv_iff.mp hs).1.of_fields

/-! ## The shared rules -/

/-- The ALU writes flags alone. -/
theorem alu_flags_control (op : DpOp) (a b : Word) (old : Psr) (sco : Bool) :
    (alu op a b old sco).flags.m = old.m ∧ (alu op a b old sco).flags.t = old.t := by
  cases op <;> exact ⟨rfl, rfl⟩

theorem dataProcessing_inv {op : DpOp} {sf : Bool} {rn rd : Reg} {o : Operand2} {m : Mode} {s t : State} (hs : Inv s)
    (h : dpWrite op sf rd (dpOut op rn o m s) m s = .next t) : Inv t := by
  obtain ⟨hx, -⟩ := inv_iff.mp hs
  obtain ⟨hm, ht⟩ := alu_flags_control op (s.readReg m rn) (shifterOperand s m o).value s.cpsr (shifterOperand s m o).carry
  have hflags : InvExceptPc { s with cpsr := (dpOut op rn o m s).flags } := hx.with_flags hm ht
  obtain ⟨-, -, rfl⟩ | ⟨-, -, -, hr⟩ | ⟨-, -, -, hv, rfl⟩ | ⟨-, -, -, rfl⟩ := dpWrite_next h
  · exact inv_of_pc_add_four hs hflags.of_fields
  · exact returnFromException_inv hx hr
  · exact inv_iff.mpr ⟨hx.of_fields, aligned_word_iff.mpr hv⟩
  · cases sf
    · exact inv_of_pc_add_four hs hx.of_fields
    · exact inv_of_pc_add_four hs hflags.of_fields

theorem readPsr_inv {r : Bool} {rd : Reg} {m : Mode} {s t : State} (hs : Inv s) (h : readPsr r rd m s = .next t) : Inv t := by
  obtain ⟨-, -, p, -, rfl⟩ := readPsr_next h
  exact inv_of_pc_add_four hs (inv_iff.mp hs).1.of_fields

/-- MSR leaves T of the CPSR and writes a legal mode; on a core without the T variant it writes no T bit to an SPSR (R332, R8). -/
theorem writePsr_inv {r : Bool} {fmask : BitVec 4} {v : Word} {m : Mode} {s t : State} (hs : Inv s)
    (h : writePsr r fmask v m s = .next t) : Inv t := by
  obtain ⟨hx, -⟩ := inv_iff.mp hs
  obtain ⟨-, ⟨-, n, -, rfl⟩ | ⟨-, ht, hm, rfl⟩⟩ := writePsr_next h
  · have hset : InvExceptPc { s with spsrs := s.spsrs.set n (mergePsr s.platform.hasT fmask true (s.spsrs.get n) v) } :=
      hx.set_spsr n fun hT => by rw [hT]; exact mergePsr_false_t v (hx.spsrs hT n)
    exact inv_of_pc_add_four hs (hset.of_fields rfl rfl rfl rfl rfl)
  · exact inv_of_pc_add_four hs ((hx.with_cpsr hm (ht.trans hx.arm)).of_fields rfl rfl rfl rfl rfl)

theorem multiply_inv {sf : Bool} {rd rs rm : Reg} {usesPc : Bool} {v : Word} {m : Mode} {s t : State} (hs : Inv s)
    (h : multiply sf rd rs rm usesPc v m s = .next t) : Inv t := by
  obtain ⟨hx, -⟩ := inv_iff.mp hs
  have hflags : InvExceptPc { s with cpsr := mulFlags s.cpsr v (Config.freeBit s.drawn) } := hx.with_flags rfl rfl
  obtain ⟨-, -, -, -, -, -, rfl⟩ := multiply_next h
  cases sf
  · exact inv_of_pc_add_four hs hx.of_fields
  · exact inv_of_pc_add_four hs hflags.of_fields

theorem longMultiply_inv {sf : Bool} {rdHi rdLo rs rm : Reg} {v : BitVec 64} {m : Mode} {s t : State} (hs : Inv s)
    (h : longMultiply sf rdHi rdLo rs rm v m s = .next t) : Inv t := by
  obtain ⟨hx, -⟩ := inv_iff.mp hs
  have hflags : InvExceptPc { s with cpsr := mullFlags s.cpsr v (Config.freeBit s.drawn) (Config.freeBit (s.drawn + 1)) } :=
    hx.with_flags rfl rfl
  obtain ⟨-, -, -, rfl⟩ := longMultiply_next h
  cases sf
  · exact inv_of_pc_add_four hs hx.of_fields
  · exact inv_of_pc_add_four hs hflags.of_fields

theorem swap_inv {wd : Width} {rn rd rm : Reg} {m : Mode} {s t : State} (hs : Inv s) (h : swap wd rn rd rm m s = .next t) : Inv t := by
  obtain ⟨hx, -⟩ := inv_iff.mp hs
  obtain ⟨-, -, ⟨-, rfl⟩ | rfl⟩ := swap_next h
  · exact inv_of_pc_add_four hs (hx.stores (s.readReg m rn) wd (s.readReg m rm)).of_fields
  · exact takeException_inv hx _ _

/-- A single transfer that aborts, whether or not its base is free afterwards. -/
theorem abortedTransfer_inv {s : State} (hs : InvExceptPc s) (m : Mode) (ix : Indexing) (rn : Reg) (ra : Word) :
    Inv ((if writesBase ix then s.freeReg m rn else s).takeException .dataAbort ra) := by
  split
  · exact takeException_inv hs.of_fields _ _
  · exact takeException_inv hs _ _

/-- Moving the base of an allowed transfer: a base that is written is not r15. -/
theorem updateBase_inv {wd : Width} {tr : Bool} {ix : Indexing} {rn rd : Reg} {off : Offset} {s : State} (hs : Inv s) (m : Mode)
    (v : Word) (hn : transferRefusal wd tr ix rn rd off = none) : Inv (updateBase s m ix rn v) := by
  obtain ⟨hx, hpc⟩ := inv_iff.mp hs
  have hbase : (updateBase s m ix rn v).pc = s.pc := updateBase_pc fun hw => (transferRefusal_base hn hw).1
  exact inv_iff.mpr ⟨hx.of_fields, hbase ▸ hpc⟩

theorem loadSingle_inv {wd : Width} {sg tr : Bool} {ix : Indexing} {u : Bool} {rn rd : Reg} {off : Offset} {m : Mode} {s t : State}
    (hs : Inv s) (h : loadSingle wd sg tr ix u rn rd off m s = .next t) : Inv t := by
  obtain ⟨hn, -, ⟨-, hw⟩ | ⟨-, rfl⟩⟩ := loadSingle_next h
  · exact writeRd_inv (updateBase_inv hs m _ hn) hw
  · exact abortedTransfer_inv (inv_iff.mp hs).1 m ix rn _

theorem storeSingle_inv {wd : Width} {tr : Bool} {ix : Indexing} {u : Bool} {rn rd : Reg} {off : Offset} {m : Mode} {s t : State}
    (hs : Inv s) (h : storeSingle wd tr ix u rn rd off m s = .next t) : Inv t := by
  obtain ⟨hx, hpc⟩ := inv_iff.mp hs
  obtain ⟨hn, -, ⟨-, ha⟩ | ⟨-, rfl⟩⟩ := storeSingle_next h
  · exact advance_inv (updateBase_inv (inv_iff.mpr ⟨hx.stores _ wd _, hpc⟩) m _ hn) ha
  · exact abortedTransfer_inv hx m ix rn _

/-- An LDM that leaves the pc to its end: the pc is the loaded word if r15 is in the list, else what it was. -/
theorem finishLoad_inv {sb : Bool} {list : BitVec 16} {m : Mode} {s t : State} (hs : InvExceptPc s)
    (hpc : list.getLsbD 15 = false → aligned .word s.pc = true) (h : finishLoad sb list m s = .next t) : Inv t := by
  obtain ⟨hl, hp, rfl⟩ | ⟨-, -, hv, rfl⟩ | ⟨-, -, hr⟩ := finishLoad_next h
  · exact advance_inv (inv_iff.mpr ⟨hs, hpc hl⟩) (advance_of_notAtTop hp)
  · exact inv_iff.mpr ⟨hs, aligned_word_iff.mpr hv⟩
  · exact returnFromException_inv hs hr

theorem loadBlock_inv {p u sb w : Bool} {rn : Reg} {list : BitVec 16} {m : Mode} {s t : State} (hs : Inv s)
    (h : loadBlock p u sb w rn list m s = .next t) : Inv t := by
  obtain ⟨hx, hpc⟩ := inv_iff.mp hs
  obtain ⟨hn, ⟨vs, hlen, -, hf⟩ | ha⟩ := loadBlock_next h
  · obtain ⟨-, hrn, -⟩ := blockRefusal_none.mp hn
    refine finishLoad_inv hx.of_fields (fun hl => ?_) hf
    have hregs : (15 : Reg) ∉ ((listRegs list).zip vs).map (·.1) := by
      rw [List.map_fst_zip (by omega), mem_listRegs]
      simpa using hl
    simp only [blockWriteBack_pc hrn, State.loadRegs_pc_other _ _ hregs, hpc]
  · exact dataAbort_inv hx.of_fields ha

theorem storeBlock_inv {p u sb w : Bool} {rn : Reg} {list : BitVec 16} {m : Mode} {s t : State} (hs : Inv s)
    (h : storeBlock p u sb w rn list m s = .next t) : Inv t := by
  obtain ⟨hx, hpc⟩ := inv_iff.mp hs
  obtain ⟨hn, vs, hend⟩ := storeBlock_next h
  have hdone := hx.storeWords (blockStart p u (s.readReg m rn) list) vs
  obtain ha | hd := hend
  · obtain ⟨-, hrn, -⟩ := blockRefusal_none.mp hn
    refine advance_inv (inv_iff.mpr ⟨hdone.of_fields, ?_⟩) ha
    obtain ⟨hstay, -⟩ := State.storeWords_rest vs s (blockStart p u (s.readReg m rn) list)
    rw [blockWriteBack_pc hrn, hstay, hpc]
  · exact dataAbort_inv hdone.of_fields hd

theorem RuleOutcome.inv {m : Mode} {s t : State} (hs : Inv s) (h : RuleOutcome m s (.next t)) : Inv t := by
  obtain ⟨hx, hpc⟩ := inv_iff.mp hs
  generalize ho : Host.Outcome.next t = o at h
  cases h with
  | refused r => cases ho
  | dataProcessing op sf rn rd o hn => exact dataProcessing_inv hs ho.symm
  | readPsr r rd => exact readPsr_inv hs ho.symm
  | writePsr r fmask v => exact writePsr_inv hs ho.symm
  | exchange rn h0 h1 =>
    cases ho
    have harm : InvExceptPc { s with cpsr := { s.cpsr with t := false } } := hx.with_cpsr hx.mode rfl
    exact inv_iff.mpr ⟨harm.of_fields, aligned_word_of_getLsbD h0 h1⟩
  | multiply sf rd rs rm usesPc v => exact multiply_inv hs ho.symm
  | longMultiply sf rdHi rdLo rs rm v => exact longMultiply_inv hs ho.symm
  | swap wd rn rd rm => exact swap_inv hs ho.symm
  | load wd sg tr ix u rn rd off => exact loadSingle_inv hs ho.symm
  | store wd tr ix u rn rd off => exact storeSingle_inv hs ho.symm
  | loadBlock p u sb w rn list => exact loadBlock_inv hs ho.symm
  | storeBlock p u sb w rn list => exact storeBlock_inv hs ho.symm
  | branch offset => cases ho; exact inv_iff.mpr ⟨hx.of_fields, aligned_branchTarget hpc offset⟩
  | branchLink offset => cases ho; exact inv_iff.mpr ⟨hx.of_fields, aligned_branchTarget hpc offset⟩
  | trap e he => cases ho; exact takeException_inv hx _ _

theorem exec_inv {i : Instr} {s t : State} (hs : Inv s) (h : exec i s = .next t) : Inv t := by
  obtain ⟨-, m, -, ⟨-, -, rfl⟩ | ⟨-, ho⟩⟩ := exec_next h
  · exact inv_of_pc_add_four hs (inv_iff.mp hs).1.of_fields
  · exact RuleOutcome.inv (s := { s with userLdm := false }) hs ho

theorem boundary_inv {p : Pins} {s t : State} (hs : Inv s) (h : boundary p s = .done (.next t)) : Inv t := by
  obtain ⟨hx, -⟩ := inv_iff.mp hs
  obtain rfl | ⟨m, -, -, rfl | rfl | ⟨-, rfl | ⟨-, rfl⟩⟩⟩ := boundary_done h
  · exact inv_iff.mpr ⟨hx.takeReset, rfl⟩
  · exact takeException_inv hx _ _
  · exact takeException_inv hx _ _
  · exact takeException_inv hx _ _
  · exact inv_of_pc_add_four hs hx.of_fields

/-- Settles O56: the sample is no part of the invariant, and neither the boundary nor an instruction loses it. -/
theorem stepKeepsInvariant : Obligations.StepKeepsInvariant := by
  intro s t hs h
  have hsampled : Inv s.sampled := hs
  obtain hd | ⟨i, -, hx⟩ := step_next h
  · exact boundary_inv hsampled hd
  · exact exec_inv hsampled hx

/-- Settles O57: Supervisor mode, pc 0, empty memory, and the T variant of the standard platform. -/
theorem resetHasInvariant : Obligations.ResetHasInvariant :=
  ⟨State.reset_wf, rfl, rfl, rfl, List.nodup_nil, nofun⟩

end Sys2Proof.Machine
end

section
/-! PROOFS. O60. In User mode every shared rule either keeps the SPSRs and the registers User mode does not see, or takes an exception,
and no exception enters User mode. -/

namespace Sys2Proof.Machine

/-! ## What User mode does not reach -/

/-- The SPSRs and the registers that no number names in User mode are as they were. -/
def keepsPrivileged (s t : State) : Prop :=
  t.spsrs = s.spsrs ∧ ∀ p, (∀ i, phys .user i ≠ some p) → t.regs.get p = s.regs.get p

theorem keepsPrivileged_of_regs {s t : State} (hspsrs : t.spsrs = s.spsrs) (hregs : t.regs = s.regs) : keepsPrivileged s t :=
  ⟨hspsrs, fun p _ => by rw [hregs]⟩

/-- Writing registers by their numbers in User mode reaches no register of another mode. -/
theorem keepsPrivileged_of_regsBut {is : List Reg} {s t : State} (hspsrs : t.spsrs = s.spsrs) (h : keepsRegsBut .user is s t) :
    keepsPrivileged s t :=
  ⟨hspsrs, fun p hp => h p fun i _ => hp i⟩

theorem keepsPrivileged.trans {s t u : State} (h : keepsPrivileged s t) (k : keepsPrivileged t u) : keepsPrivileged s u :=
  ⟨k.1.trans h.1, fun p hp => (k.2 p hp).trans (h.2 p hp)⟩

theorem setReg_keepsPrivileged (s : State) (i : Reg) (v : Word) : keepsPrivileged s (s.setReg .user i v) :=
  keepsPrivileged_of_regsBut (by simp) (keepsRegsBut_setReg s .user i v)

theorem setPair_keepsPrivileged (s : State) (h l : Reg) (v : BitVec 64) : keepsPrivileged s (s.setPair .user h l v) :=
  keepsPrivileged_of_regsBut (by simp) (keepsRegsBut_setPair s .user h l v)

theorem updateBase_keepsPrivileged (s : State) (ix : Indexing) (rn : Reg) (v : Word) :
    keepsPrivileged s (updateBase s .user ix rn v) :=
  keepsPrivileged_of_regsBut (by simp) (keepsRegsBut_updateBase s .user ix rn v)

theorem blockWriteBack_keepsPrivileged (w : Bool) (rn : Reg) (v : Word) (s : State) :
    keepsPrivileged s (blockWriteBack .user w rn v s) :=
  keepsPrivileged_of_regsBut (by simp) (keepsRegsBut_blockWriteBack .user w rn v s)

theorem loadRegs_keepsPrivileged (xs : List (Reg × Word)) (s : State) : keepsPrivileged s (State.loadRegs .user s xs) :=
  keepsPrivileged_of_regsBut (by simp) (keepsRegsBut_loadRegs .user xs s)

theorem storeWords_keepsPrivileged (vs : List Word) (s : State) (a : Word) : keepsPrivileged s (s.storeWords a vs) := by
  obtain ⟨-, -, hspsrs, -⟩ := State.storeWords_rest vs s a
  exact keepsPrivileged_of_regs hspsrs (State.storeWords_regs vs s a)

/-! ## The common endings -/

theorem advance_keepsPrivileged {s t : State} (h : advance s = .next t) : keepsPrivileged s t := by
  obtain ⟨-, rfl⟩ := advance_next.mp h
  exact keepsPrivileged_of_regs rfl rfl

theorem writeRd_keepsPrivileged {rd : Reg} {v : Word} {s t : State} (h : writeRd .user rd v s = .next t) : keepsPrivileged s t := by
  obtain ⟨-, -, rfl⟩ | ⟨-, -, rfl⟩ := writeRd_next h
  · exact keepsPrivileged_of_regs rfl rfl
  · exact setReg_keepsPrivileged s rd v

/-- User mode has no SPSR to return from (R54). -/
theorem returnFromException_user {s t : State} {r : Refusal} {a : Word} : s.returnFromException r .user a ≠ .next t := by
  intro h
  obtain ⟨n, hn, -⟩ := returnFromException_next h
  cases hn

theorem dataAbort_mode {s t : State} (h : s.dataAbort = .next t) : t.mode = some Exn.dataAbort.mode := by
  cases h
  exact State.takeException_mode _ _ _

/-! ## The shared rules in User mode -/

/-- What a step from User mode to `t` can be: it reaches nothing of the privileged modes, or it enters the mode of an exception. -/
def userConfined (s t : State) : Prop := keepsPrivileged s t ∨ ∃ e : Exn, t.mode = some e.mode

theorem takeException_userConfined (s₀ s : State) (e : Exn) (ra : Word) : userConfined s₀ (s.takeException e ra) :=
  .inr ⟨e, State.takeException_mode s e ra⟩

theorem dpWrite_keepsPrivileged {op : DpOp} {sf : Bool} {rd : Reg} {out : AluOut} {s t : State}
    (h : dpWrite op sf rd out .user s = .next t) : keepsPrivileged s t := by
  obtain ⟨-, -, rfl⟩ | ⟨-, -, -, hr⟩ | ⟨-, -, -, -, rfl⟩ | ⟨-, -, -, rfl⟩ := dpWrite_next h
  · exact keepsPrivileged_of_regs rfl rfl
  · exact absurd hr returnFromException_user
  · exact keepsPrivileged_of_regs rfl rfl
  · exact setReg_keepsPrivileged s rd _

theorem readPsr_keepsPrivileged {r : Bool} {rd : Reg} {s t : State} (h : readPsr r rd .user s = .next t) : keepsPrivileged s t := by
  obtain ⟨-, -, p, -, rfl⟩ := readPsr_next h
  exact setReg_keepsPrivileged s rd _

theorem writePsr_keepsPrivileged {r : Bool} {fmask : BitVec 4} {v : Word} {s t : State} (h : writePsr r fmask v .user s = .next t) :
    keepsPrivileged s t := by
  obtain ⟨-, ⟨-, n, hn, -⟩ | ⟨-, -, -, rfl⟩⟩ := writePsr_next h
  · cases hn
  · exact keepsPrivileged_of_regs rfl rfl

theorem multiply_keepsPrivileged {sf : Bool} {rd rs rm : Reg} {usesPc : Bool} {v : Word} {s t : State}
    (h : multiply sf rd rs rm usesPc v .user s = .next t) : keepsPrivileged s t := by
  obtain ⟨-, -, -, -, -, -, rfl⟩ := multiply_next h
  exact setReg_keepsPrivileged s rd v

theorem longMultiply_keepsPrivileged {sf : Bool} {rdHi rdLo rs rm : Reg} {v : BitVec 64} {s t : State}
    (h : longMultiply sf rdHi rdLo rs rm v .user s = .next t) : keepsPrivileged s t := by
  obtain ⟨-, -, -, rfl⟩ := longMultiply_next h
  exact setPair_keepsPrivileged s rdHi rdLo v

theorem swap_userConfined {wd : Width} {rn rd rm : Reg} {s t : State} (h : swap wd rn rd rm .user s = .next t) :
    userConfined s t := by
  obtain ⟨-, -, ⟨-, rfl⟩ | rfl⟩ := swap_next h
  · exact .inl (setReg_keepsPrivileged (s.stores _ _ _) rd _)
  · exact takeException_userConfined _ _ _ _

theorem loadSingle_userConfined {wd : Width} {sg tr : Bool} {ix : Indexing} {u : Bool} {rn rd : Reg} {off : Offset} {s t : State}
    (h : loadSingle wd sg tr ix u rn rd off .user s = .next t) : userConfined s t := by
  obtain ⟨-, -, ⟨-, hw⟩ | ⟨-, rfl⟩⟩ := loadSingle_next h
  · exact .inl ((updateBase_keepsPrivileged s ix rn _).trans (writeRd_keepsPrivileged hw))
  · exact takeException_userConfined _ _ _ _

theorem storeSingle_userConfined {wd : Width} {tr : Bool} {ix : Indexing} {u : Bool} {rn rd : Reg} {off : Offset} {s t : State}
    (h : storeSingle wd tr ix u rn rd off .user s = .next t) : userConfined s t := by
  obtain ⟨-, -, ⟨-, ha⟩ | ⟨-, rfl⟩⟩ := storeSingle_next h
  · exact .inl ((updateBase_keepsPrivileged (s.stores _ _ _) ix rn _).trans (advance_keepsPrivileged ha))
  · exact takeException_userConfined _ _ _ _

theorem finishLoad_keepsPrivileged {sb : Bool} {list : BitVec 16} {s t : State} (h : finishLoad sb list .user s = .next t) :
    keepsPrivileged s t := by
  obtain ⟨-, -, rfl⟩ | ⟨-, -, -, rfl⟩ | ⟨-, -, hr⟩ := finishLoad_next h
  · exact keepsPrivileged_of_regs rfl rfl
  · exact keepsPrivileged_of_regs rfl rfl
  · exact absurd hr returnFromException_user

/-- In User mode the bank an LDM loads is the User bank, whether S is set or not. -/
theorem loadBlock_userConfined {p u sb w : Bool} {rn : Reg} {list : BitVec 16} {s t : State}
    (h : loadBlock p u sb w rn list .user s = .next t) : userConfined s t := by
  obtain ⟨-, ⟨vs, -, -, hf⟩ | ha⟩ := loadBlock_next h
  · rw [ite_self] at hf
    have hload := (loadRegs_keepsPrivileged ((listRegs list).zip vs) s).trans
      (blockWriteBack_keepsPrivileged w rn (blockNewBase u (s.readReg .user rn) list) _)
    have hfinish := finishLoad_keepsPrivileged hf
    exact .inl (hload.trans hfinish)
  · exact .inr ⟨_, dataAbort_mode ha⟩

theorem storeBlock_userConfined {p u sb w : Bool} {rn : Reg} {list : BitVec 16} {s t : State}
    (h : storeBlock p u sb w rn list .user s = .next t) : userConfined s t := by
  obtain ⟨-, vs, ha | hd⟩ := storeBlock_next h
  · exact .inl (((storeWords_keepsPrivileged vs s _).trans (blockWriteBack_keepsPrivileged w rn _ _)).trans (advance_keepsPrivileged ha))
  · exact .inr ⟨_, dataAbort_mode hd⟩

theorem RuleOutcome.userConfined {s t : State} (h : RuleOutcome .user s (.next t)) : userConfined s t := by
  generalize ho : Host.Outcome.next t = o at h
  cases h with
  | refused r => cases ho
  | dataProcessing op sf rn rd o hn => exact .inl (dpWrite_keepsPrivileged ho.symm)
  | readPsr r rd => exact .inl (readPsr_keepsPrivileged ho.symm)
  | writePsr r fmask v => exact .inl (writePsr_keepsPrivileged ho.symm)
  | exchange rn h0 h1 => cases ho; exact .inl (keepsPrivileged_of_regs rfl rfl)
  | multiply sf rd rs rm usesPc v => exact .inl (multiply_keepsPrivileged ho.symm)
  | longMultiply sf rdHi rdLo rs rm v => exact .inl (longMultiply_keepsPrivileged ho.symm)
  | swap wd rn rd rm => exact swap_userConfined ho.symm
  | load wd sg tr ix u rn rd off => exact loadSingle_userConfined ho.symm
  | store wd tr ix u rn rd off => exact storeSingle_userConfined ho.symm
  | loadBlock p u sb w rn list => exact loadBlock_userConfined ho.symm
  | storeBlock p u sb w rn list => exact storeBlock_userConfined ho.symm
  | branch offset => cases ho; exact .inl (keepsPrivileged_of_regs rfl rfl)
  | branchLink offset => cases ho; exact .inl (setReg_keepsPrivileged s 14 (s.pc + 4))
  | trap e he => cases ho; exact takeException_userConfined _ _ _ _

theorem exec_userConfined {i : Instr} {s t : State} (hu : s.mode = some .user) (h : exec i s = .next t) : userConfined s t := by
  obtain ⟨-, m, hm, ⟨-, -, rfl⟩ | ⟨-, ho⟩⟩ := exec_next h
  · exact .inl (keepsPrivileged_of_regs rfl rfl)
  · obtain rfl : Mode.user = m := Option.some.inj (hu.symm.trans hm)
    exact ho.userConfined

theorem boundary_userConfined {p : Pins} {s t : State} (h : boundary p s = .done (.next t)) : userConfined s t := by
  obtain rfl | ⟨m, -, -, rfl | rfl | ⟨-, rfl | ⟨-, rfl⟩⟩⟩ := boundary_done h
  · exact .inr ⟨.reset, State.takeReset_mode s⟩
  · exact takeException_userConfined _ _ _ _
  · exact takeException_userConfined _ _ _ _
  · exact takeException_userConfined _ _ _ _
  · exact .inl (keepsPrivileged_of_regs rfl rfl)

theorem Exn.mode_ne_user (e : Exn) : e.mode ≠ .user := by cases e <;> decide

/-- Settles O60: a step that stays in User mode took no exception, and what is left keeps the privileged state. -/
theorem userModeIsolation : Obligations.UserModeIsolation := by
  intro s t hu h hstays
  have hconf : userConfined s.sampled t := by
    obtain hd | ⟨i, -, hx⟩ := step_next h
    · exact boundary_userConfined hd
    · exact exec_userConfined hu hx
  obtain hkeeps | ⟨e, he⟩ := hconf
  · exact hkeeps
  · exact absurd (Option.some.inj (he.symm.trans hstays)) e.mode_ne_user

end Sys2Proof.Machine
end

section
/-! PROOFS. O5, O6, O7, O50 and O54: the register banks, the layout of a status register, the interrupts, and the state after reset. -/

namespace Sys2Proof.Machine

/-! ## Register banks -/

/-- Numbers 0 to 7 are not banked (R33). -/
theorem phys_of_le_seven {i : Reg} (h : i.toNat ≤ 7) (m m' : Mode) : phys m i = phys m' i := by
  have hbank : ∀ m : Mode, ∀ i : Reg, i.toNat ≤ 7 → phys m i = phys .user i := by intro m; cases m <;> decide
  rw [hbank m i h, hbank m' i h]

theorem readReg_of_le_seven {i : Reg} (h : i.toNat ≤ 7) (s : State) (m m' : Mode) : s.readReg m i = s.readReg m' i := by
  simp only [State.readReg, phys_of_le_seven h m m']

theorem setReg_of_le_seven {i : Reg} (h : i.toNat ≤ 7) (s : State) (m m' : Mode) (v : Word) : s.setReg m i v = s.setReg m' i v := by
  simp only [State.setReg, phys_of_le_seven h m m']

/-- Settles O5: below 8 the mode does not matter, so a write in one mode and a read in another are of one bank. -/
theorem lowRegistersShared : Obligations.LowRegistersShared := by
  refine ⟨fun m => by cases m <;> rfl, fun m m' i j hi hj s v => ?_⟩
  have ne_fifteen : ∀ k : Reg, k.toNat ≤ 7 → k ≠ 15 := by decide
  refine ⟨readReg_of_le_seven hi s m m', setReg_of_le_seven hi s m m' v, ?_⟩
  rw [setReg_of_le_seven hi s m m' v]
  split
  · next h => rw [h, State.readReg_setReg_same v (ne_fifteen i hi)]
  · next h => exact State.readReg_setReg_other v h (ne_fifteen j hj)

/-- Settles O6: the bank map is a table; FIQ entry writes r14_fiq alone. -/
theorem bankedRegisters : Obligations.BankedRegisters := by
  refine ⟨rfl, fun m hm => ?_, rfl, rfl, fun s ra p hp => ?_⟩
  · cases m
    case fiq => exact absurd rfl hm
    all_goals rfl
  · have hne : p ≠ Exn.fiq.link := by
      rintro rfl
      revert hp
      decide
    exact Regs.get_set_other s.regs ra hne

/-! ## The layout of a status register -/

theorem Psr.field_toWord_mode (p : Psr) : field p.toWord 0 5 = p.m := by
  apply BitVec.eq_of_getLsbD_eq
  intro k hk
  simp [field, Psr.getLsbD_toWord, hk]

theorem Psr.field_toWord_reserved (p : Psr) : field p.toWord 8 20 = 0 := by
  apply BitVec.eq_of_getLsbD_eq
  intro k hk
  have hlow : ∀ j, j < 8 → 8 + k ≠ j := by omega
  simp [field, Psr.getLsbD_toWord, hlow, show ¬ 8 + k < 5 by omega, show 8 + k < 28 by omega]

/-- A status register is recovered from its word (R45). -/
theorem Psr.ofWord_toWord (p : Psr) : Psr.ofWord p.toWord = p := by
  simp only [Psr.ofWord, flag, Psr.field_toWord_mode, Psr.getLsbD_toWord]
  rfl

/-- Settles O7: each bit is a row of the table `Psr.getLsbD_toWord`. -/
theorem psrLayout : Obligations.PsrLayout := fun p =>
  ⟨p.ofWord_toWord, p.getLsbD_toWord 31, p.getLsbD_toWord 30, p.getLsbD_toWord 29, p.getLsbD_toWord 28, p.getLsbD_toWord 7,
    p.getLsbD_toWord 6, p.getLsbD_toWord 5, p.field_toWord_mode, p.field_toWord_reserved⟩

/-! ## Interrupts -/

/-- The boundary is reached with the first sample, and with the others still to come. -/
theorem arrive_of_pins {s : State} {p : Pins} {ps : List Pins} (h : s.pins = p :: ps) :
    arrive s = boundary p { s with pins := ps } := by
  simp only [arrive, State.sample, State.sampled, h, List.headD_cons, List.tail_cons]

theorem step_of_arrive_eq {s t : State} (h : arrive s = arrive t) : step s = step t := by
  simp only [step, h]

theorem step_of_done {s : State} {o : Out} (h : arrive s = .done o) : step s = o := by
  simp only [step, h]

theorem boundary_irq_masked {s : State} (h : s.cpsr.i = true) (p : Pins) : boundary p s = boundary { p with irq := false } s := by
  simp [boundary, h]

theorem boundary_fiq_masked {s : State} (h : s.cpsr.f = true) (p : Pins) : boundary p s = boundary { p with fiq := false } s := by
  simp [boundary, h]

section Taken

variable {s : State} {p : Pins} {m : Mode}

theorem boundary_fiq (hr : p.reset = false) (ht : s.cpsr.t = false) (hm : s.mode = some m) (hp : p.fiq = true)
    (hf : s.cpsr.f = false) : boundary p s = .done (.next (s.takeException .fiq (s.pc + 4))) := by
  simp [boundary, hr, ht, hm, hp, hf]

theorem boundary_irq (hr : p.reset = false) (ht : s.cpsr.t = false) (hm : s.mode = some m) (hp : p.irq = true)
    (hi : s.cpsr.i = false) (hf : p.fiq = false ∨ s.cpsr.f = true) :
    boundary p s = .done (.next (s.takeException .irq (s.pc + 4))) := by
  have hnofiq : (p.fiq && !s.cpsr.f) = false := by
    obtain hf | hf := hf <;> simp [hf]
  simp [boundary, hr, ht, hm, hp, hi, hnofiq]

end Taken

/-- Settles O50: a masked input makes no difference at the boundary, an unmasked one is taken there. -/
theorem interruptMasks : Obligations.InterruptMasks := by
  intro s p ps hpins
  refine ⟨fun hi => step_of_arrive_eq ?_, fun hf => step_of_arrive_eq ?_, fun m ht hm hr => ⟨fun hp hf => ?_, fun hp hi hf => ?_⟩⟩
  · calc arrive s = boundary p { s with pins := ps } := arrive_of_pins hpins
      _ = boundary { p with irq := false } { s with pins := ps } := boundary_irq_masked (s := { s with pins := ps }) hi p
      _ = arrive { s with pins := { p with irq := false } :: ps } := rfl
  · calc arrive s = boundary p { s with pins := ps } := arrive_of_pins hpins
      _ = boundary { p with fiq := false } { s with pins := ps } := boundary_fiq_masked (s := { s with pins := ps }) hf p
      _ = arrive { s with pins := { p with fiq := false } :: ps } := rfl
  · have hdone := (arrive_of_pins hpins).trans (boundary_fiq hr ht hm hp hf)
    exact ⟨_, step_of_done hdone, rfl, State.takeException_mode _ .fiq _⟩
  · have hdone := (arrive_of_pins hpins).trans (boundary_irq hr ht hm hp hi hf)
    exact ⟨_, step_of_done hdone, rfl, State.takeException_mode _ .irq _⟩

/-! ## The state after reset -/

/-- A platform without abort rules and without a memory map accepts every access (R95, R96). -/
theorem verdict_ok {pf : Platform} (hrules : pf.abortRules = []) (hmap : pf.memMap = []) (x : Access) : verdict pf x = .ok := by
  simp [verdict, hrules, hmap]

/-- Settles O54: the fields are the ones the reset state is written with, and the standard platform accepts every access. -/
theorem resetState : Obligations.ResetState :=
  ⟨rfl, rfl, rfl, rfl, rfl, rfl, rfl, fun _ _ _ _ => verdict_ok rfl rfl _⟩

end Sys2Proof.Machine
end

section
/-! PROOFS. O8, O9 and O10. A word and its four bytes, a write read back in its width, and a single transfer that the memory system
accepts. -/

namespace Sys2Proof.Machine

/-! ## The four bytes of a word -/

/-- A word is its four bytes in a row, the highest first. -/
theorem append_bytes (v : Word) : v.extractLsb' 24 8 ++ v.extractLsb' 16 8 ++ v.extractLsb' 8 8 ++ v.extractLsb' 0 8 = v := by
  have high : v.extractLsb' 24 8 ++ v.extractLsb' 16 8 = v.extractLsb' 16 (8 + 8) :=
    BitVec.extractLsb'_append_extractLsb'_eq_extractLsb' rfl
  have middle : v.extractLsb' 16 (8 + 8) ++ v.extractLsb' 8 8 = v.extractLsb' 8 (8 + 8 + 8) :=
    BitVec.extractLsb'_append_extractLsb'_eq_extractLsb' rfl
  rw [high, middle]
  exact BitVec.extractLsb'_append_extractLsb'

/-- The bytes of four bytes in a row are those bytes. -/
theorem bytes_of_append (c0 c1 c2 c3 : Byte) :
    [(c3 ++ c2 ++ c1 ++ c0).extractLsb' 0 8, (c3 ++ c2 ++ c1 ++ c0).extractLsb' 8 8, (c3 ++ c2 ++ c1 ++ c0).extractLsb' 16 8,
      (c3 ++ c2 ++ c1 ++ c0).extractLsb' 24 8] = [c0, c1, c2, c3] := by
  have low {n : Nat} (x : BitVec n) (c : Byte) : (x ++ c).extractLsb' 0 8 = c := BitVec.extractLsb'_append_eq_right
  have above {n : Nat} (k : Nat) (x : BitVec n) (c : Byte) : (x ++ c).extractLsb' (8 + k) 8 = x.extractLsb' k 8 := by
    rw [BitVec.extractLsb'_append_eq_of_le (Nat.le_add_right 8 k), Nat.add_sub_cancel_left]
  have h1 : (c3 ++ c2 ++ c1 ++ c0).extractLsb' 8 8 = c1 := (above 0 _ c0).trans (low _ c1)
  have h2 : (c3 ++ c2 ++ c1 ++ c0).extractLsb' 16 8 = c2 := (above 8 _ c0).trans ((above 0 _ c1).trans (low _ c2))
  have h3 : (c3 ++ c2 ++ c1 ++ c0).extractLsb' 24 8 = c3 := (above 16 _ c0).trans ((above 8 _ c1).trans BitVec.extractLsb'_append_eq_left)
  rw [low, h1, h2, h3]

/-- The bytes of a word put together from bytes are those bytes, in either order (R83, R84). -/
theorem bytesOfWord_wordOfBytes (be : Bool) (b0 b1 b2 b3 : Byte) : bytesOfWord be (wordOfBytes be b0 b1 b2 b3) = [b0, b1, b2, b3] := by
  cases be
  · exact bytes_of_append b0 b1 b2 b3
  · exact congrArg List.reverse (bytes_of_append b3 b2 b1 b0)

/-- A word is put together again from its bytes, in either order (R83, R84). -/
theorem wordOfBytes_of_bytesOfWord {be : Bool} {v : Word} {b0 b1 b2 b3 : Byte} (h : [b0, b1, b2, b3] = bytesOfWord be v) :
    wordOfBytes be b0 b1 b2 b3 = v := by
  cases be <;> (cases h; exact append_bytes v)

/-- The bytes of an aligned word stand at consecutive addresses, without wrapping (R82). -/
theorem toNat_add_of_aligned {a : Word} (h : field a 0 2 = 0) {k : Nat} (hk : k < 4) : (a + BitVec.ofNat 32 k).toNat = a.toNat + k := by
  have hmod : a.toNat % 4 = 0 := by simpa [field] using congrArg BitVec.toNat h
  have hlt := a.isLt
  rw [BitVec.toNat_add, BitVec.toNat_ofNat]
  omega

/-- The bytes of the word at an aligned address, in rising order of their addresses (R83, R84). -/
theorem bytesOfWord_read {a : Word} (h : field a 0 2 = 0) (be : Bool) (m : Memory) :
    bytesOfWord be (Memory.read be m a .word) =
      [Memory.get m a.toNat, Memory.get m (a.toNat + 1), Memory.get m (a.toNat + 2), Memory.get m (a.toNat + 3)] := by
  have h1 : (a + 1).toNat = a.toNat + 1 := toNat_add_of_aligned h (by decide)
  have h2 : (a + 2).toNat = a.toNat + 2 := toNat_add_of_aligned h (by decide)
  have h3 : (a + 3).toNat = a.toNat + 3 := toNat_add_of_aligned h (by decide)
  simp only [Memory.read, bytesOfWord_wordOfBytes, h1, h2, h3]

/-- Settles O8: the two lists of bytes, one in the order of the bits and one against it. -/
theorem wordByteOrder : Obligations.WordByteOrder := by
  intro m a ha
  have hle := bytesOfWord_read ha false m
  have hbe := bytesOfWord_read ha true m
  simp only [bytesOfWord, Bool.false_eq_true, if_true, if_false, List.reverse_cons, List.reverse_nil, List.nil_append,
    List.cons_append, List.cons.injEq, and_true] at hle hbe
  obtain ⟨hle0, hle1, hle2, hle3⟩ := hle
  exact ⟨hle0, hle1, hle2, hle3, hbe⟩

/-! ## Reading what was written -/

/-- The low bits of a word, with zeros above them, are the word under a mask. -/
theorem setWidth_extractLsb'_zero (v : Word) {n : Nat} (hn : n ≤ 32) :
    (v.extractLsb' 0 n).setWidth 32 = v &&& BitVec.ofNat 32 (2 ^ n - 1) := by
  have hpow : 2 ^ n ≤ 2 ^ 32 := Nat.pow_le_pow_right (by decide) hn
  have hmask : (2 ^ n - 1) % 2 ^ 32 = 2 ^ n - 1 := Nat.mod_eq_of_lt (by omega)
  have hlow : v.toNat % 2 ^ n % 2 ^ 32 = v.toNat % 2 ^ n := Nat.mod_eq_of_lt ((Nat.mod_lt _ (Nat.two_pow_pos n)).trans_le hpow)
  apply BitVec.eq_of_toNat_eq
  rw [BitVec.toNat_setWidth, BitVec.extractLsb'_toNat, Nat.shiftRight_zero, BitVec.toNat_and, BitVec.toNat_ofNat, hmask,
    Nat.and_two_pow_sub_one_eq_mod, hlow]

/-- Two bytes in a row, put together in either order of the two a write stores, are the halfword (R83, R84). -/
theorem half_of_storedBytes {be : Bool} {v : Word} {b0 b1 : Byte} (h : [b0, b1] = storedBytes be v .half) :
    (if be then b0 ++ b1 else b1 ++ b0) = v.extractLsb' 0 (8 + 8) := by
  cases be <;> (cases h; exact BitVec.extractLsb'_append_extractLsb'_eq_extractLsb' rfl)

/-- The bytes at the addresses of a write, in rising order, are the bytes stored (R89). -/
theorem Memory.bytes_write (be : Bool) (m : Memory) (a : Word) (wd : Width) (v : Word) :
    ((List.range (widthBytes wd)).map fun k => Memory.get (Memory.write be m a wd v) (a + BitVec.ofNat 32 k).toNat)
      = storedBytes be v wd := by
  refine List.ext_getElem (by simp) fun k _ hk => ?_
  rw [List.getElem_map, List.getElem_range]
  exact Memory.get_write_same be m a wd v (by simpa using hk)

/-- What is written is read back in its width (R88, R89). -/
theorem Memory.read_write (be : Bool) (m : Memory) (a : Word) (wd : Width) (v : Word) :
    Memory.read be (Memory.write be m a wd v) a wd = lowBits wd v := by
  have hbytes := Memory.bytes_write be m a wd v
  have hfirst : a.toNat = (a + BitVec.ofNat 32 0).toNat := by rw [BitVec.add_zero]
  cases wd with
  | byte =>
    rw [Memory.read, hfirst]
    exact (congrArg (BitVec.setWidth 32) (List.singleton_inj.mp hbytes)).trans (setWidth_extractLsb'_zero v (n := 8) (by decide))
  | half =>
    rw [Memory.read, hfirst]
    exact (congrArg (BitVec.setWidth 32) (half_of_storedBytes hbytes)).trans (setWidth_extractLsb'_zero v (n := 16) (by decide))
  | word =>
    rw [Memory.read, hfirst]
    exact wordOfBytes_of_bytesOfWord hbytes

/-- Settles O9: the bytes written are read back, the others and the canonical form are kept. -/
theorem memoryWriteRead : Obligations.MemoryWriteRead := fun be m a wd v =>
  ⟨Memory.read_write be m a wd v, fun _ hx => Memory.get_write_other be m a wd v hx, fun hm => Memory.wf_write hm be a wd v⟩

/-! ## Accepted single transfers -/

/-- A load that is allowed, aligned and accepted ends in writing Rd, with the base moved (R263, R264). -/
theorem loadSingle_accepted {wd : Width} {sg tr : Bool} {ix : Indexing} {u : Bool} {rn rd : Reg} {off : Offset} {m : Mode} {s : State}
    {a : Word} (haddr : transferAddress s m ix u rn off = a) (hn : transferRefusal wd tr ix rn rd off = none) (ha : aligned wd a = true)
    (hok : answer s .read (m.privileged && !tr) a wd = .ok) :
    loadSingle wd sg tr ix u rn rd off m s = writeRd m rd (extendLoaded wd sg (Memory.read s.platform.bigEnd s.mem a wd))
      (updateBase s m ix rn (movedBase s m u rn off)) := by
  simp [loadSingle, haddr, hn, ha, State.read_ok hok, MemResult.andThen]

/-- A store that is allowed, aligned and accepted leaves the bytes in memory and advances, with the base moved (R263, R265). -/
theorem storeSingle_accepted {wd : Width} {tr : Bool} {ix : Indexing} {u : Bool} {rn rd : Reg} {off : Offset} {m : Mode} {s : State}
    {a : Word} (haddr : transferAddress s m ix u rn off = a) (hn : transferRefusal wd tr ix rn rd off = none) (ha : aligned wd a = true)
    (hok : answer s .write (m.privileged && !tr) a wd = .ok) :
    storeSingle wd tr ix u rn rd off m s =
      advance (updateBase (s.stores a wd (storedValue s m rd)) m ix rn (movedBase s m u rn off)) := by
  simp [storeSingle, haddr, hn, ha, State.write_ok _ hok, MemResult.andThen]

/-- An instruction that ends in writing a register below r15 leaves the value there. -/
theorem writeRd_readReg {m : Mode} {rd : Reg} {s : State} (v : Word) (hrd : rd ≠ 15) (hpc : s.pc ≠ 0xFFFFFFFC) :
    ∃ t, writeRd m rd v s = .next t ∧ t.readReg m rd = v :=
  ⟨_, writeRd_of_ne hrd hpc, (State.readReg_of_regs (s := s.setReg m rd v) hrd (by rfl)).trans (State.readReg_setReg_same v hrd)⟩

/-- The immediate offset 0 without write-back addresses the base, whatever the bit for a user-bank LDM (R261, R263). -/
theorem transferAddress_zero (s : State) (m : Mode) (rn : Reg) (b : Bool) :
    transferAddress { s with userLdm := b } m (preIndexing false) true rn (.imm ((0 : BitVec 12).setWidth 32)) = s.readReg m rn := by
  rw [transferAddress_userLdm]
  simp [preIndexing, transferAddress, movedBase, offsetValue]

section AtBase

variable {c : Cond} {rn rd : Reg} {m : Mode} {s : State} {a : Word}

/-- `STR rd, [rn]` that executes and is accepted (R265). -/
theorem exec_str_atBase (he : executes c [rn, rd] m s) (hrn : s.readReg m rn = a) (ha : aligned .word a = true)
    (hok : answer s .write m.privileged a .word = .ok) (hpc : s.pc ≠ 0xFFFFFFFC) :
    exec (.strImmPre c true rn rd 0 false) s =
      .next { s.stores a .word (storedValue s m rd) with pc := s.pc + 4, userLdm := false } := by
  have haddr := (transferAddress_zero s m rn false).trans hrn
  have hok' : answer { s with userLdm := false } .write (m.privileged && !false) a .word = .ok := by simpa using hok
  refine (whenExecuted_executes he _).trans ((storeSingle_accepted haddr rfl ha hok').trans ?_)
  rw [storedValue_userLdm]
  exact advance_of_notAtTop hpc

/-- `LDRB rd, [rn]` that executes and is accepted, with Rd below r15 (R266). -/
theorem exec_ldrb_atBase (he : executes c [rn, rd] m s) (hrn : s.readReg m rn = a) (hrd : rd ≠ 15)
    (hok : answer s .read m.privileged a .byte = .ok) (hpc : s.pc ≠ 0xFFFFFFFC) :
    ∃ t, exec (.ldrbImmPre c true rn rd 0 false) s = .next t ∧ t.readReg m rd = (Memory.get s.mem a.toNat).setWidth 32 := by
  have haddr := (transferAddress_zero s m rn false).trans hrn
  have hallowed : transferRefusal .byte false (preIndexing false) rn rd (.imm ((0 : BitVec 12).setWidth 32)) = none := by
    simpa [transferRefusal, preIndexing, writesBase] using hrd
  have hok' : answer { s with userLdm := false } .read (m.privileged && !false) a .byte = .ok := by simpa using hok
  obtain ⟨t, ht, hv⟩ := writeRd_readReg (m := m) (s := { s with userLdm := false }) ((Memory.get s.mem a.toNat).setWidth 32) hrd hpc
  exact ⟨t, (whenExecuted_executes he _).trans ((loadSingle_accepted haddr hallowed rfl hok').trans ht), hv⟩

end AtBase

/-- The lowest byte address of a word holds its first stored byte (R89). -/
theorem Memory.get_write_first (be : Bool) (m : Memory) (a v : Word) :
    Memory.get (Memory.write be m a .word v) a.toNat = if be then v.extractLsb' 24 8 else v.extractLsb' 0 8 := by
  have h := Memory.get_write_same be m a .word v (k := 0) (by decide)
  rw [BitVec.add_zero] at h
  cases be <;> exact h

/-- Settles O10: the LDRB reads the first byte that the STR stored, as the byte order says. -/
theorem endiannessExample : Obligations.EndiannessExample := by
  intro s m ht hm hu hpc hmap hrules hr0 hr1
  have accepted (k : AccessKind) (pr : Bool) (wd : Width) : answer s k pr 0x100 wd = .ok := verdict_ok hrules hmap _
  have hpc1 : s.pc ≠ 0xFFFFFFFC := by bv_omega
  have hpc2 : s.pc + 4 ≠ 0xFFFFFFFC := by bv_omega
  have hexec1 : executes .al [1, 0] m s := ⟨ht, hm, rfl, fun h => absurd (h.symm.trans hu) (by decide)⟩
  have hstr := exec_str_atBase hexec1 hr1 (by decide) (accepted .write _ .word) hpc1
  rw [show storedValue s m 0 = 0x11223344 from hr0] at hstr
  have hexec2 : executes .al [1, 2] m { s.stores 0x100 .word 0x11223344 with pc := s.pc + 4, userLdm := false } :=
    ⟨ht, hm, rfl, nofun⟩
  obtain ⟨u, hldrb, hr2⟩ := exec_ldrb_atBase hexec2 hr1 (by decide) (accepted .read _ .byte) hpc2
  refine ⟨_, u, hstr, hldrb, hr2.trans ?_⟩
  rw [State.stores_mem, Memory.get_write_first]
  split <;> rfl

end Sys2Proof.Machine
end

section
/-! PROOFS. O1 to O4. A format's word is the word whose fields are the format's (`pack_eq_iff_holds`, and one such law per format): read
from left to right the law answers the decoder's tests, read from right to left it encodes again what the decoder read. -/

namespace Sys2Proof

/-! ## A word and its fields -/

theorem fits_cons_iff {n v : Nat} {fs : List (Nat × Nat)} : fits ((n, v) :: fs) ↔ v < 2 ^ n ∧ fits fs := List.forall_mem_cons

/-- The fields of `w` hold these values, the most significant first. -/
def holds (w : Word) : List (Nat × Nat) → Prop
  | [] => True
  | (n, v) :: fs => field w (packWidth fs) n = BitVec.ofNat n v ∧ holds w fs

@[simp] theorem holds_nil (w : Word) : holds w [] ↔ True := Iff.rfl

@[simp] theorem holds_cons (w : Word) (n v : Nat) (fs : List (Nat × Nat)) :
    holds w ((n, v) :: fs) ↔ field w (packWidth fs) n = BitVec.ofNat n v ∧ holds w fs := Iff.rfl

@[simp] theorem packWidth_nil : packWidth [] = 0 := rfl

@[simp] theorem packWidth_cons (n v : Nat) (fs : List (Nat × Nat)) : packWidth ((n, v) :: fs) = n + packWidth fs := rfl

theorem field_eq_ofNat_iff {w : Word} {lo n v : Nat} (hv : v < 2 ^ n) :
    field w lo n = BitVec.ofNat n v ↔ w.toNat / 2 ^ lo % 2 ^ n = v := by
  rw [← BitVec.toNat_inj, field, BitVec.extractLsb'_toNat, BitVec.toNat_ofNat, Nat.mod_eq_of_lt hv, Nat.shiftRight_eq_div_pow]

/-- Fields hold their values where the low bits of the word, as many as the fields take, are the number of the fields. -/
theorem holds_iff_mod_eq (w : Word) {fs : List (Nat × Nat)} (h : fits fs) :
    holds w fs ↔ w.toNat % 2 ^ packWidth fs = packNat 0 fs := by
  induction fs with
  | nil => simp [packNat, Nat.mod_one]
  | cons f fs ih =>
    obtain ⟨n, v⟩ := f
    obtain ⟨hv, hfs⟩ := fits_cons_iff.mp h
    have hlow := packNat_lt hfs
    have hwidth : packWidth ((n, v) :: fs) = packWidth fs + n := Nat.add_comm n _
    have hnum : packNat 0 ((n, v) :: fs) = packNat 0 fs + 2 ^ packWidth fs * v := by
      rw [show packNat 0 ((n, v) :: fs) = packNat v fs by simp [packNat], packNat_eq, Nat.mul_comm, Nat.add_comm]
    rw [holds_cons, field_eq_ofNat_iff hv, ih hfs, hwidth, hnum, Nat.pow_add, Nat.mod_mul]
    constructor
    · rintro ⟨hhigh, hrest⟩
      rw [hhigh, hrest]
    · intro heq
      have hpos : 0 < 2 ^ packWidth fs := Nat.two_pow_pos _
      have hrest := congrArg (· % 2 ^ packWidth fs) heq
      have hhigh := congrArg (· / 2 ^ packWidth fs) heq
      simp only [Nat.add_mul_mod_self_left, Nat.add_mul_div_left _ _ hpos, Nat.mod_mod, Nat.mod_eq_of_lt hlow,
        Nat.div_eq_of_lt hlow, Nat.div_eq_of_lt (Nat.mod_lt _ hpos), Nat.zero_add] at hrest hhigh
      exact ⟨hhigh, hrest⟩

/-- A word is packed from fields exactly if its fields hold their values: one law for reading an encoding and for encoding again what
was read. -/
theorem pack_eq_iff_holds {fs : List (Nat × Nat)} {w : Word} (h : fits fs) (hwidth : packWidth fs = 32) :
    pack fs = w ↔ holds w fs := by
  have hlt := packNat_lt h
  rw [hwidth] at hlt
  rw [holds_iff_mod_eq w h, hwidth, pack_eq, ← BitVec.toNat_inj, BitVec.toNat_ofNat, Nat.mod_eq_of_lt hlt, Nat.mod_eq_of_lt w.isLt,
    eq_comm]

/-! ### Simp rules for the lists of fields that the formats are written with -/

@[simp] theorem fits_empty : fits [] ↔ True := iff_true_intro fits_nil

@[simp] theorem fits_cons_iff_toNat (n v : Nat) (fs : List (Nat × Nat)) :
    fits ((n, v) :: fs) ↔ (BitVec.ofNat n v).toNat = v ∧ fits fs := by
  rw [fits_cons_iff, BitVec.toNat_ofNat, Nat.mod_eq_iff_lt (Nat.two_pow_pos n).ne']

@[simp] theorem ofNat_one_bit (b : Bool) : BitVec.ofNat 1 b.toNat = BitVec.ofBool b := by cases b <;> rfl

@[simp] theorem field_one_eq_bit {w : Word} {i : Nat} {b : Bool} : field w i 1 = BitVec.ofBool b ↔ flag w i = b := by
  rw [← ofNat_one_bit, field_eq_ofNat_iff (Bool.toNat_lt b), flag, BitVec.getLsbD, Nat.testBit_eq_decide_div_mod_eq]
  cases b <;> simp

@[simp] theorem field_one_eq_one {w : Word} {i : Nat} : field w i 1 = 1#1 ↔ flag w i = true := field_one_eq_bit (b := true)

@[simp] theorem field_one_eq_zero {w : Word} {i : Nat} : field w i 1 = 0#1 ↔ flag w i = false := field_one_eq_bit (b := false)

/-! ### Fields inside fields -/

/-- A field of a field is a field of the word. -/
theorem field_of_field {w : Word} {lo n : Nat} {v : BitVec n} (h : field w lo n = v) (k m : Nat) (hk : k + m ≤ n := by decide) :
    field w (lo + k) m = v.extractLsb' k m := by
  subst h
  apply BitVec.eq_of_getLsbD_eq
  intro j hj
  simp [field, hj, show k + j < n by omega, Nat.add_assoc]

/-- A bit of a field is a bit of the word. -/
theorem flag_of_field {w : Word} {lo n : Nat} {v : BitVec n} (h : field w lo n = v) (k : Nat) (hk : k < n := by decide) :
    flag w (lo + k) = v.getLsbD k := by
  subst h
  simp [field, flag, hk]

/-- Two fields side by side are one field. -/
theorem field_eq_append_iff {w : Word} {lo m n : Nat} {a : BitVec m} {b : BitVec n} :
    field w lo (m + n) = a ++ b ↔ field w (lo + n) m = a ∧ field w lo n = b := by
  refine ⟨fun h => ⟨?_, ?_⟩, ?_⟩
  · exact (field_of_field h n m (by omega)).trans BitVec.extractLsb'_append_eq_left
  · exact (field_of_field h 0 n (by omega)).trans BitVec.extractLsb'_append_eq_right
  · rintro ⟨rfl, rfl⟩
    exact (BitVec.extractLsb'_append_extractLsb'_eq_extractLsb' rfl).symm

/-! ## The codes of the small fields -/

theorem Cond.ofBits_eq_some_iff {b : BitVec 4} {c : Cond} : Cond.ofBits b = some c ↔ b = c.bits := by
  revert b
  cases c <;> decide

theorem Cond.ofBits_eq_none_iff {b : BitVec 4} : Cond.ofBits b = none ↔ b = 15 := by
  revert b
  decide

@[simp] theorem DpOp.ofBits_bits (op : DpOp) : DpOp.ofBits op.bits = op := by cases op <;> rfl

@[simp] theorem DpOp.bits_ofBits (b : BitVec 4) : (DpOp.ofBits b).bits = b := by
  revert b
  decide

/-- The comparisons are the operations 10xx (R139, R140). -/
theorem DpOp.compares_ofBits (b : BitVec 4) : (DpOp.ofBits b).compares = (b.extractLsb' 2 2 == 2) := by
  revert b
  decide

@[simp] theorem ShiftType.ofBits_bits (ty : ShiftType) : ShiftType.ofBits ty.bits = ty := by cases ty <;> rfl

@[simp] theorem ShiftType.bits_ofBits (b : BitVec 2) : (ShiftType.ofBits b).bits = b := by
  revert b
  decide

theorem compares_opcode (w : Word) : (DpOp.ofBits (field w 21 4)).compares = (field w 23 2 == 2) := by
  rw [DpOp.compares_ofBits, ← field_of_field (w := w) (lo := 21) rfl 2 2]

/-! ## A word and its row -/

theorem decode_eq_ok_iff {w : Word} {i : Instr} : decode w = .ok i ↔ ∃ c : Cond, field w 28 4 = c.bits ∧ decodeRow c w = some i := by
  simp only [← Cond.ofBits_eq_some_iff]
  unfold decode
  split
  · next h => simp [h]
  · next c h =>
    split
    · next j hj => simp [h, hj]
    · next hj => simp [h, hj]

theorem decode_eq_reserved_iff {w : Word} : decode w = .error .reservedCondition ↔ field w 28 4 = 15 := by
  rw [← Cond.ofBits_eq_none_iff]
  unfold decode
  split
  · next h => simp [h]
  · next c h =>
    split <;> simp [h]

theorem decode_of_row {w : Word} {c : Cond} {i : Instr} (hc : field w 28 4 = c.bits) (hrow : decodeRow c w = some i) :
    decode w = .ok i := decode_eq_ok_iff.mpr ⟨c, hc, hrow⟩

/-! ## The formats, field by field

Each format's word is the one whose fields the format lists. Constant fields are cut where the decoder cuts them. -/

section Formats

variable {w : Word} {c : Cond}

theorem encodeDp_imm_eq_iff {op : DpOp} {sf : Bool} {rn rd : Reg} {rot : BitVec 4} {imm8 : BitVec 8} :
    encodeDp c op sf rn rd (.imm rot imm8) = w ↔ field w 28 4 = c.bits ∧ field w 25 3 = 1 ∧ field w 21 4 = op.bits ∧ flag w 20 = sf
      ∧ field w 16 4 = rn ∧ field w 12 4 = rd ∧ field w 8 4 = rot ∧ field w 0 8 = imm8 := by
  refine (pack_eq_iff_holds (by simp) rfl).trans ?_
  simp

theorem encodeDp_shiftImm_eq_iff {op : DpOp} {sf : Bool} {rn rd rm : Reg} {amount : BitVec 5} {ty : ShiftType} :
    encodeDp c op sf rn rd (.shiftImm amount ty rm) = w ↔ field w 28 4 = c.bits ∧ field w 25 3 = 0 ∧ field w 21 4 = op.bits
      ∧ flag w 20 = sf ∧ field w 16 4 = rn ∧ field w 12 4 = rd ∧ field w 7 5 = amount ∧ field w 5 2 = ty.bits ∧ flag w 4 = false
      ∧ field w 0 4 = rm := by
  refine (pack_eq_iff_holds (by simp) rfl).trans ?_
  simp

theorem encodeDp_shiftReg_eq_iff {op : DpOp} {sf : Bool} {rn rd rs rm : Reg} {ty : ShiftType} :
    encodeDp c op sf rn rd (.shiftReg rs ty rm) = w ↔ field w 28 4 = c.bits ∧ field w 25 3 = 0 ∧ field w 21 4 = op.bits
      ∧ flag w 20 = sf ∧ field w 16 4 = rn ∧ field w 12 4 = rd ∧ field w 8 4 = rs ∧ flag w 7 = false ∧ field w 5 2 = ty.bits
      ∧ flag w 4 = true ∧ field w 0 4 = rm := by
  refine (pack_eq_iff_holds (by simp) rfl).trans ?_
  simp

/-- The PSR-transfer rows and SWP have bits 27:23 = 00010 (R125, R127). -/
theorem field_psrSpace_iff : field w 23 5 = 2 ↔ field w 25 3 = 0 ∧ field w 23 2 = 2 := field_eq_append_iff (a := 0#3) (b := 2#2)

/-- Bits 7:4 = 1001 of a multiply or a swap (R123 to R125). -/
theorem field_mulSwp_iff : field w 4 4 = 9 ↔ flag w 7 = true ∧ field w 5 2 = 0 ∧ flag w 4 = true := by
  have hhigh : field w 4 4 = 9 ↔ field w 7 1 = 1#1 ∧ field w 4 3 = 1 := field_eq_append_iff (a := 1#1) (b := 1#3)
  have hlow : field w 4 3 = 1 ↔ field w 5 2 = 0 ∧ field w 4 1 = 1#1 := field_eq_append_iff (a := 0#2) (b := 1#1)
  rw [hhigh, hlow, field_one_eq_one, field_one_eq_one]

theorem encode_mrs_eq_iff {r : Bool} {rd : Reg} :
    encode (.mrs c r rd) = w ↔ field w 28 4 = c.bits ∧ (field w 25 3 = 0 ∧ field w 23 2 = 2) ∧ flag w 22 = r ∧ field w 20 2 = 0
      ∧ field w 16 4 = 15 ∧ field w 12 4 = rd ∧ field w 0 12 = 0 := by
  rw [← field_psrSpace_iff]
  refine (pack_eq_iff_holds (by simp) rfl).trans ?_
  simp

theorem encode_msrReg_eq_iff {r : Bool} {fmask : BitVec 4} {rm : Reg} :
    encode (.msrReg c r fmask rm) = w ↔ field w 28 4 = c.bits ∧ (field w 25 3 = 0 ∧ field w 23 2 = 2) ∧ flag w 22 = r
      ∧ field w 20 2 = 2 ∧ field w 16 4 = fmask ∧ field w 12 4 = 15 ∧ field w 4 8 = 0 ∧ field w 0 4 = rm := by
  rw [← field_psrSpace_iff]
  refine (pack_eq_iff_holds (by simp) rfl).trans ?_
  simp

theorem encode_msrImm_eq_iff {r : Bool} {fmask rot : BitVec 4} {imm8 : BitVec 8} :
    encode (.msrImm c r fmask rot imm8) = w ↔ field w 28 4 = c.bits ∧ (field w 25 3 = 1 ∧ field w 23 2 = 2) ∧ flag w 22 = r
      ∧ field w 20 2 = 2 ∧ field w 16 4 = fmask ∧ field w 12 4 = 15 ∧ field w 8 4 = rot ∧ field w 0 8 = imm8 := by
  have hop : field w 23 5 = 6 ↔ field w 25 3 = 1 ∧ field w 23 2 = 2 := field_eq_append_iff (a := 1#3) (b := 2#2)
  rw [← hop]
  refine (pack_eq_iff_holds (by simp) rfl).trans ?_
  simp

theorem encode_bx_eq_iff {rn : Reg} :
    encode (.bx c rn) = w ↔ field w 28 4 = c.bits ∧ field w 20 8 = 18 ∧ field w 4 16 = 0xFFF1 ∧ field w 0 4 = rn := by
  have hlow : field w 4 16 = 0xFFF1 ↔ field w 8 12 = 0xFFF ∧ field w 4 4 = 1 := field_eq_append_iff (a := 0xFFF#12) (b := 1#4)
  rw [hlow, and_assoc]
  refine (pack_eq_iff_holds (by simp) rfl).trans ?_
  simp

theorem encodeMul_eq_iff {a sf : Bool} {rd rn rs rm : Reg} :
    encodeMul c a sf rd rn rs rm = w ↔ field w 28 4 = c.bits ∧ (field w 25 3 = 0 ∧ field w 22 3 = 0) ∧ flag w 21 = a ∧ flag w 20 = sf
      ∧ field w 16 4 = rd ∧ field w 12 4 = rn ∧ field w 8 4 = rs ∧ field w 4 4 = 9 ∧ field w 0 4 = rm := by
  have hop : field w 22 6 = 0 ↔ field w 25 3 = 0 ∧ field w 22 3 = 0 := field_eq_append_iff (a := 0#3) (b := 0#3)
  rw [← hop]
  refine (pack_eq_iff_holds (by simp) rfl).trans ?_
  simp

theorem encodeMull_eq_iff {u a sf : Bool} {rdHi rdLo rs rm : Reg} :
    encodeMull c u a sf rdHi rdLo rs rm = w ↔ field w 28 4 = c.bits ∧ (field w 25 3 = 0 ∧ field w 23 2 = 1) ∧ flag w 22 = u
      ∧ flag w 21 = a ∧ flag w 20 = sf ∧ field w 16 4 = rdHi ∧ field w 12 4 = rdLo ∧ field w 8 4 = rs ∧ field w 4 4 = 9
      ∧ field w 0 4 = rm := by
  have hop : field w 23 5 = 1 ↔ field w 25 3 = 0 ∧ field w 23 2 = 1 := field_eq_append_iff (a := 0#3) (b := 1#2)
  rw [← hop]
  refine (pack_eq_iff_holds (by simp) rfl).trans ?_
  simp

theorem encode_swap_eq_iff {b : Bool} {rn rd rm : Reg} :
    encode ((if b then Instr.swpb else Instr.swp) c rn rd rm) = w ↔ field w 28 4 = c.bits ∧ (field w 25 3 = 0 ∧ field w 23 2 = 2)
      ∧ flag w 22 = b ∧ field w 20 2 = 0 ∧ field w 16 4 = rn ∧ field w 12 4 = rd ∧ (field w 8 4 = 0 ∧ field w 4 4 = 9)
      ∧ field w 0 4 = rm := by
  have hlow : field w 4 8 = 9 ↔ field w 8 4 = 0 ∧ field w 4 4 = 9 := field_eq_append_iff (a := 0#4) (b := 9#4)
  rw [← field_psrSpace_iff, ← hlow]
  cases b
  all_goals
    refine (pack_eq_iff_holds (by simp) rfl).trans ?_
    simp

/-- The halfword formats, with the L bit a Boolean and S and H the two bits of `sh` (R128, R129). -/
theorem encodeHalf_eq_iff {p u imm wb load : Bool} {rn rd : Reg} {sh : BitVec 2} {hi lo : BitVec 4} :
    encodeHalf c p u imm wb load.toNat rn rd sh.toNat hi lo = w ↔ field w 28 4 = c.bits ∧ field w 25 3 = 0 ∧ flag w 24 = p
      ∧ flag w 23 = u ∧ flag w 22 = imm ∧ flag w 21 = wb ∧ flag w 20 = load ∧ field w 16 4 = rn ∧ field w 12 4 = rd ∧ field w 8 4 = hi
      ∧ flag w 7 = true ∧ field w 5 2 = sh ∧ flag w 4 = true ∧ field w 0 4 = lo := by
  refine (pack_eq_iff_holds (by simp) rfl).trans ?_
  simp

theorem encodeLsImm_eq_iff {p u b wb l : Bool} {rn rd : Reg} {offset : BitVec 12} :
    encodeLsImm c p u b wb l rn rd offset = w ↔ field w 28 4 = c.bits ∧ field w 25 3 = 2 ∧ flag w 24 = p ∧ flag w 23 = u
      ∧ flag w 22 = b ∧ flag w 21 = wb ∧ flag w 20 = l ∧ field w 16 4 = rn ∧ field w 12 4 = rd ∧ field w 0 12 = offset := by
  refine (pack_eq_iff_holds (by simp) rfl).trans ?_
  simp

theorem encodeLsReg_eq_iff {p u b wb l : Bool} {rn rd rm : Reg} {amount : BitVec 5} {ty : ShiftType} :
    encodeLsReg c p u b wb l rn rd amount ty rm = w ↔ field w 28 4 = c.bits ∧ field w 25 3 = 3 ∧ flag w 24 = p ∧ flag w 23 = u
      ∧ flag w 22 = b ∧ flag w 21 = wb ∧ flag w 20 = l ∧ field w 16 4 = rn ∧ field w 12 4 = rd ∧ field w 7 5 = amount
      ∧ field w 5 2 = ty.bits ∧ flag w 4 = false ∧ field w 0 4 = rm := by
  refine (pack_eq_iff_holds (by simp) rfl).trans ?_
  simp

theorem encode_undefined_eq_iff {hi : BitVec 20} {lo : BitVec 4} :
    encode (.undefined c hi lo) = w ↔ field w 28 4 = c.bits ∧ field w 25 3 = 3 ∧ field w 5 20 = hi ∧ flag w 4 = true
      ∧ field w 0 4 = lo := by
  refine (pack_eq_iff_holds (by simp) rfl).trans ?_
  simp

theorem encode_block_eq_iff {l p u sb wb : Bool} {rn : Reg} {list : BitVec 16} :
    encode ((if l then Instr.ldm else Instr.stm) c p u sb wb rn list) = w ↔ field w 28 4 = c.bits ∧ field w 25 3 = 4 ∧ flag w 24 = p
      ∧ flag w 23 = u ∧ flag w 22 = sb ∧ flag w 21 = wb ∧ flag w 20 = l ∧ field w 16 4 = rn ∧ field w 0 16 = list := by
  cases l
  all_goals
    refine (pack_eq_iff_holds (by simp) rfl).trans ?_
    simp

theorem encode_branch_eq_iff {l : Bool} {offset : BitVec 24} :
    encode ((if l then Instr.bl else Instr.b) c offset) = w ↔ field w 28 4 = c.bits ∧ field w 25 3 = 5 ∧ flag w 24 = l
      ∧ field w 0 24 = offset := by
  cases l
  all_goals
    refine (pack_eq_iff_holds (by simp) rfl).trans ?_
    simp

theorem encode_copTransfer_eq_iff {l p u n wb : Bool} {rn : Reg} {crd cpnum : BitVec 4} {offset : BitVec 8} :
    encode ((if l then Instr.ldc else Instr.stc) c p u n wb rn crd cpnum offset) = w ↔ field w 28 4 = c.bits ∧ field w 25 3 = 6
      ∧ flag w 24 = p ∧ flag w 23 = u ∧ flag w 22 = n ∧ flag w 21 = wb ∧ flag w 20 = l ∧ field w 16 4 = rn ∧ field w 12 4 = crd
      ∧ field w 8 4 = cpnum ∧ field w 0 8 = offset := by
  cases l
  all_goals
    refine (pack_eq_iff_holds (by simp) rfl).trans ?_
    simp

/-- Bits 27:24 = 1110 of the coprocessor rows (R133, R134). -/
theorem field_cop_iff : field w 24 4 = 14 ↔ field w 25 3 = 7 ∧ flag w 24 = false := by
  rw [← field_one_eq_zero]
  exact field_eq_append_iff (a := 7#3) (b := 0#1)

theorem encode_cdp_eq_iff {op1 crn crd cpnum crm : BitVec 4} {op2 : BitVec 3} :
    encode (.cdp c op1 crn crd cpnum op2 crm) = w ↔ field w 28 4 = c.bits ∧ (field w 25 3 = 7 ∧ flag w 24 = false) ∧ field w 20 4 = op1
      ∧ field w 16 4 = crn ∧ field w 12 4 = crd ∧ field w 8 4 = cpnum ∧ field w 5 3 = op2 ∧ flag w 4 = false ∧ field w 0 4 = crm := by
  rw [← field_cop_iff]
  refine (pack_eq_iff_holds (by simp) rfl).trans ?_
  simp

theorem encode_copRegister_eq_iff {l : Bool} {op1 op2 : BitVec 3} {crn cpnum crm : BitVec 4} {rd : Reg} :
    encode ((if l then Instr.mrc else Instr.mcr) c op1 crn rd cpnum op2 crm) = w ↔ field w 28 4 = c.bits
      ∧ (field w 25 3 = 7 ∧ flag w 24 = false) ∧ field w 21 3 = op1 ∧ flag w 20 = l ∧ field w 16 4 = crn ∧ field w 12 4 = rd
      ∧ field w 8 4 = cpnum ∧ field w 5 3 = op2 ∧ flag w 4 = true ∧ field w 0 4 = crm := by
  rw [← field_cop_iff]
  cases l
  all_goals
    refine (pack_eq_iff_holds (by simp) rfl).trans ?_
    simp

theorem encode_swi_eq_iff {number : BitVec 24} :
    encode (.swi c number) = w ↔ field w 28 4 = c.bits ∧ (field w 25 3 = 7 ∧ flag w 24 = true) ∧ field w 0 24 = number := by
  have hop : field w 24 4 = 15 ↔ field w 25 3 = 7 ∧ flag w 24 = true := by
    rw [← field_one_eq_one]
    exact field_eq_append_iff (a := 7#3) (b := 1#1)
  rw [← hop]
  refine (pack_eq_iff_holds (by simp) rfl).trans ?_
  simp

end Formats

/-! ## Rows of one format, by the bits that tell them apart -/

section Rows

variable {w : Word} {c : Cond}

/-- A comparison has S = 1, so the word of its row is its format's word too (R140). -/
theorem encode_dpInstr {op : DpOp} {sf : Bool} {rn rd : Reg} {o : Operand2} (hs : (op.compares && !sf) = false) :
    encode (dpInstr op c rn rd sf o) = encodeDp c op sf rn rd o := by
  cases op
  case tst | teq | cmp | cmn =>
    obtain rfl : sf = true := by simpa [DpOp.compares] using hs
    cases o <;> rfl
  all_goals cases o <;> rfl

theorem encode_mulRow (a : Bool) {sf : Bool} {rd rn rs rm : Reg} :
    encode ((if a then Instr.mla else Instr.mul) c sf rd rn rs rm) = encodeMul c a sf rd rn rs rm := by cases a <;> rfl

theorem encode_mullRow (u a : Bool) {sf : Bool} {rdHi rdLo rs rm : Reg} :
    encode ((if u then (if a then Instr.smlal else Instr.smull) else (if a then Instr.umlal else Instr.umull)) c sf rdHi rdLo rs rm)
      = encodeMull c u a sf rdHi rdLo rs rm := by cases u <;> cases a <;> rfl

/-- The halfword row by bit 22, the L bit and the S and H bits; with a register offset bits 11:8 are 0 (R128, R129, R146). -/
def halfRow (imm load : Bool) (sh : BitVec 2) (c : Cond) (p u wb : Bool) (rn rd : Reg) (hi lo : BitVec 4) : Option Instr :=
  if imm then
    if load then
      if sh = 1 then some (.ldrhImm c p u wb rn rd hi lo)
      else if sh = 2 then some (.ldrsbImm c p u wb rn rd hi lo)
      else some (.ldrshImm c p u wb rn rd hi lo)
    else if sh = 1 then some (.strhImm c p u wb rn rd hi lo) else none
  else if hi = 0 then
    if load then
      if sh = 1 then some (.ldrhReg c p u wb rn rd lo)
      else if sh = 2 then some (.ldrsbReg c p u wb rn rd lo)
      else some (.ldrshReg c p u wb rn rd lo)
    else if sh = 1 then some (.strhReg c p u wb rn rd lo) else none
  else none

theorem decodeHalf_eq_halfRow : decodeHalf c w = halfRow (flag w 22) (flag w 20) (field w 5 2) c (flag w 24) (flag w 23) (flag w 21)
    (field w 16 4) (field w 12 4) (field w 8 4) (field w 0 4) := rfl

theorem encode_of_halfRow {imm load : Bool} {sh : BitVec 2} {p u wb : Bool} {rn rd : Reg} {hi lo : BitVec 4} {i : Instr} (hsh : sh ≠ 0)
    (h : halfRow imm load sh c p u wb rn rd hi lo = some i) : encode i = encodeHalf c p u imm wb load.toNat rn rd sh.toNat hi lo := by
  have hcodes : ∀ sh : BitVec 2, sh ≠ 0 → sh = 1 ∨ sh = 2 ∨ sh = 3 := by decide
  cases imm with
  | true => obtain rfl | rfl | rfl := hcodes sh hsh <;> cases load <;> cases h <;> rfl
  | false =>
    by_cases hhi : hi = 0#4
    · subst hhi
      obtain rfl | rfl | rfl := hcodes sh hsh <;> cases load <;> cases h <;> rfl
    · simp [halfRow, hhi] at h

/-- The word and byte row with an immediate offset by the P, W, L and B bits (R126, R144, R145). -/
def lsImmRow (p wb l b : Bool) (c : Cond) (u : Bool) (rn rd : Reg) (offset : BitVec 12) : Instr :=
  if p then lsImmPre l b c u rn rd offset wb else if wb then lsImmT l b c u rn rd offset else lsImmPost l b c u rn rd offset

theorem decodeLsImm_eq_lsImmRow : decodeLsImm c w = lsImmRow (flag w 24) (flag w 21) (flag w 20) (flag w 22) c (flag w 23)
    (field w 16 4) (field w 12 4) (field w 0 12) := rfl

theorem encode_lsImmRow (p wb l b : Bool) {u : Bool} {rn rd : Reg} {offset : BitVec 12} :
    encode (lsImmRow p wb l b c u rn rd offset) = encodeLsImm c p u b wb l rn rd offset := by
  cases p with
  | true => cases l <;> cases b <;> rfl
  | false => cases wb <;> cases l <;> cases b <;> rfl

/-- The word and byte row with a register offset by the P, W, L and B bits (R126, R144, R145). -/
def lsRegRow (p wb l b : Bool) (c : Cond) (u : Bool) (rn rd : Reg) (amount : BitVec 5) (ty : ShiftType) (rm : Reg) : Instr :=
  if p then lsRegPre l b c u rn rd amount ty rm wb else if wb then lsRegT l b c u rn rd amount ty rm
  else lsRegPost l b c u rn rd amount ty rm

theorem decodeLsReg_eq_ite : decodeLsReg c w = if flag w 4 then .undefined c (field w 5 20) (field w 0 4)
    else lsRegRow (flag w 24) (flag w 21) (flag w 20) (flag w 22) c (flag w 23) (field w 16 4) (field w 12 4) (field w 7 5)
      (.ofBits (field w 5 2)) (field w 0 4) := rfl

theorem encode_lsRegRow (p wb l b : Bool) {u : Bool} {rn rd rm : Reg} {amount : BitVec 5} {ty : ShiftType} :
    encode (lsRegRow p wb l b c u rn rd amount ty rm) = encodeLsReg c p u b wb l rn rd amount ty rm := by
  cases p with
  | true => cases l <;> cases b <;> rfl
  | false => cases wb <;> cases l <;> cases b <;> rfl

end Rows

/-! ## Decoding an encoding -/

section DecodeOfEncode

variable {w : Word} {c : Cond}

/-- The PSR-transfer space: the opcodes 10xx with S = 0 (R140). -/
theorem psrSpace_iff : ((DpOp.ofBits (field w 21 4)).compares && !flag w 20) = true ↔ field w 23 2 = 2 ∧ flag w 20 = false := by
  simp [compares_opcode]

/-- A data-processing word whose operation does not only compare, or has S = 1, is its row (R122, R140). -/
theorem decode_of_encodeDp {op : DpOp} {sf : Bool} {rn rd : Reg} {o : Operand2} (hs : (op.compares && !sf) = false)
    (hw : encodeDp c op sf rn rd o = w) : decode w = .ok (dpInstr op c rn rd sf o) := by
  cases o with
  | imm rot imm8 =>
    have h := encodeDp_imm_eq_iff.mp hw
    exact decode_of_row h.1 (by simp [decodeRow, decodeDpImm, h, hs, dpInstr])
  | shiftImm amount ty rm =>
    have h := encodeDp_shiftImm_eq_iff.mp hw
    exact decode_of_row h.1 (by simp [decodeRow, decodeDpReg, h, hs, dpInstr])
  | shiftReg rs ty rm =>
    have h := encodeDp_shiftReg_eq_iff.mp hw
    exact decode_of_row h.1 (by simp [decodeRow, decodeDpReg, h, hs, dpInstr])

/-- Format DP with a register operand, in the PSR-transfer space (R137, R140). -/
theorem decodeRow_psrReg (hrow : field w 25 3 = 0) (hop : field w 23 2 = 2) (hs : flag w 20 = false)
    (h47 : (flag w 4 && flag w 7) = false) : decodeRow c w = decodePsrReg c w := by
  simp [decodeRow, decodeDpReg, hrow, h47, psrSpace_iff.mpr ⟨hop, hs⟩]

theorem decode_encode_mrs {r : Bool} {rd : Reg} : decode (encode (.mrs c r rd)) = .ok (.mrs c r rd) := by
  generalize hw : encode (.mrs c r rd) = w
  obtain ⟨hc, ⟨hrow, hop⟩, hr, h20, h16, hrd, hlow⟩ := encode_mrs_eq_iff.mp hw
  have hs : flag w 20 = false := flag_of_field h20 0
  have h4 : flag w 4 = false := flag_of_field hlow 4
  refine decode_of_row hc ((decodeRow_psrReg hrow hop hs (by simp [h4])).trans ?_)
  simp [decodePsrReg, h20, h16, hlow, hr, hrd]

theorem decode_encode_msrReg {r : Bool} {fmask : BitVec 4} {rm : Reg} :
    decode (encode (.msrReg c r fmask rm)) = .ok (.msrReg c r fmask rm) := by
  generalize hw : encode (.msrReg c r fmask rm) = w
  obtain ⟨hc, ⟨hrow, hop⟩, hr, h20, hfmask, h12, hmid, hrm⟩ := encode_msrReg_eq_iff.mp hw
  have hs : flag w 20 = false := flag_of_field h20 0
  have h4 : flag w 4 = false := flag_of_field hmid 0
  refine decode_of_row hc ((decodeRow_psrReg hrow hop hs (by simp [h4])).trans ?_)
  simp [decodePsrReg, h20, h12, hmid, hr, hfmask, hrm]

theorem decode_encode_msrImm {r : Bool} {fmask rot : BitVec 4} {imm8 : BitVec 8} :
    decode (encode (.msrImm c r fmask rot imm8)) = .ok (.msrImm c r fmask rot imm8) := by
  generalize hw : encode (.msrImm c r fmask rot imm8) = w
  obtain ⟨hc, ⟨hrow, hop⟩, hr, h20, hfmask, h12, hrot, himm⟩ := encode_msrImm_eq_iff.mp hw
  have hs : flag w 20 = false := flag_of_field h20 0
  refine decode_of_row hc ?_
  simp [decodeRow, decodeDpImm, hrow, psrSpace_iff.mpr ⟨hop, hs⟩, h20, h12, hr, hfmask, hrot, himm]

theorem decode_encode_bx {rn : Reg} : decode (encode (.bx c rn)) = .ok (.bx c rn) := by
  generalize hw : encode (.bx c rn) = w
  obtain ⟨hc, hhigh, hlow, hrn⟩ := encode_bx_eq_iff.mp hw
  have hrow : field w 25 3 = 0 := field_of_field hhigh 5 3
  have hop : field w 23 2 = 2 := field_of_field hhigh 3 2
  have h20 : field w 20 2 = 2 := field_of_field hhigh 0 2
  have hs : flag w 20 = false := flag_of_field hhigh 0
  have h7 : flag w 7 = false := flag_of_field hlow 3
  have hmid : field w 4 8 = 0xF1 := field_of_field hlow 0 8
  refine decode_of_row hc ((decodeRow_psrReg hrow hop hs (by simp [h7])).trans ?_)
  simp [decodePsrReg, h20, hmid, hhigh, hlow, hrn]

/-- The multiply and swap space (R137). -/
theorem decodeRow_mulSwp (hrow : field w 25 3 = 0) (hlow : field w 4 4 = 9) : decodeRow c w = decodeMulSwp c w := by
  obtain ⟨h7, h5, h4⟩ := field_mulSwp_iff.mp hlow
  simp [decodeRow, hrow, h7, h5, h4]

theorem decode_of_encodeMul {a sf : Bool} {rd rn rs rm : Reg} (hw : encodeMul c a sf rd rn rs rm = w) :
    decode w = .ok ((if a then Instr.mla else Instr.mul) c sf rd rn rs rm) := by
  obtain ⟨hc, ⟨hrow, hop⟩, ha, hsf, hrd, hrn, hrs, hlow, hrm⟩ := encodeMul_eq_iff.mp hw
  refine decode_of_row hc ((decodeRow_mulSwp hrow hlow).trans ?_)
  simp [decodeMulSwp, hop, ha, hsf, hrd, hrn, hrs, hrm]

theorem decode_of_encodeMull {u a sf : Bool} {rdHi rdLo rs rm : Reg} (hw : encodeMull c u a sf rdHi rdLo rs rm = w) :
    decode w = .ok ((if u then (if a then Instr.smlal else Instr.smull) else (if a then Instr.umlal else Instr.umull))
      c sf rdHi rdLo rs rm) := by
  obtain ⟨hc, ⟨hrow, hop⟩, hu, ha, hsf, hhi, hlo, hrs, hlow, hrm⟩ := encodeMull_eq_iff.mp hw
  have hmul : field w 22 3 ≠ 0#3 := fun h => absurd (hop.symm.trans (field_of_field h 1 2)) (by decide)
  refine decode_of_row hc ((decodeRow_mulSwp hrow hlow).trans ?_)
  simp [decodeMulSwp, hmul, hop, hu, ha, hsf, hhi, hlo, hrs, hrm]

theorem decode_encode_swap (b : Bool) {rn rd rm : Reg} :
    decode (encode ((if b then Instr.swpb else Instr.swp) c rn rd rm)) = .ok ((if b then Instr.swpb else Instr.swp) c rn rd rm) := by
  generalize hw : encode ((if b then Instr.swpb else Instr.swp) c rn rd rm) = w
  obtain ⟨hc, ⟨hrow, hop⟩, hb, h20, hrn, hrd, ⟨h8, hlow⟩, hrm⟩ := encode_swap_eq_iff.mp hw
  have hmul : field w 22 3 ≠ 0#3 := fun h => absurd (hop.symm.trans (field_of_field h 1 2)) (by decide)
  refine decode_of_row hc ((decodeRow_mulSwp hrow hlow).trans ?_)
  simp [decodeMulSwp, hmul, hop, hb, h20, h8, hrn, hrd, hrm]

theorem decode_of_encodeHalf {imm load : Bool} {sh : BitVec 2} {p u wb : Bool} {rn rd : Reg} {hi lo : BitVec 4} {i : Instr}
    (hw : encodeHalf c p u imm wb load.toNat rn rd sh.toNat hi lo = w) (hsh : sh ≠ 0)
    (hinstr : halfRow imm load sh c p u wb rn rd hi lo = some i) : decode w = .ok i := by
  obtain ⟨hc, hrow, hp, hu, himm, hwb, hl, hrn, hrd, hhi, h7, h5, h4, hlo⟩ := encodeHalf_eq_iff.mp hw
  have hspace : decodeRow c w = decodeHalf c w := by simp [decodeRow, hrow, h7, h4, show field w 5 2 ≠ 0#2 from h5 ▸ hsh]
  exact decode_of_row hc (by rw [hspace, decodeHalf_eq_halfRow, hp, hu, himm, hwb, hl, hrn, hrd, hhi, h5, hlo, hinstr])

theorem decode_of_encodeLsImm {p u b wb l : Bool} {rn rd : Reg} {offset : BitVec 12} (hw : encodeLsImm c p u b wb l rn rd offset = w) :
    decode w = .ok (lsImmRow p wb l b c u rn rd offset) := by
  have h := encodeLsImm_eq_iff.mp hw
  exact decode_of_row h.1 (by simp [decodeRow, decodeLsImm_eq_lsImmRow, h])

theorem decode_of_encodeLsReg {p u b wb l : Bool} {rn rd rm : Reg} {amount : BitVec 5} {ty : ShiftType}
    (hw : encodeLsReg c p u b wb l rn rd amount ty rm = w) : decode w = .ok (lsRegRow p wb l b c u rn rd amount ty rm) := by
  have h := encodeLsReg_eq_iff.mp hw
  exact decode_of_row h.1 (by simp [decodeRow, decodeLsReg_eq_ite, h])

theorem decode_encode_undefined {hi : BitVec 20} {lo : BitVec 4} : decode (encode (.undefined c hi lo)) = .ok (.undefined c hi lo) := by
  generalize hw : encode _ = w
  have h := encode_undefined_eq_iff.mp hw
  exact decode_of_row h.1 (by simp [decodeRow, decodeLsReg_eq_ite, h])

theorem decode_encode_block (l : Bool) {p u sb wb : Bool} {rn : Reg} {list : BitVec 16} :
    decode (encode ((if l then Instr.ldm else Instr.stm) c p u sb wb rn list))
      = .ok ((if l then Instr.ldm else Instr.stm) c p u sb wb rn list) := by
  generalize hw : encode _ = w
  have h := encode_block_eq_iff.mp hw
  exact decode_of_row h.1 (by simp [decodeRow, h])

theorem decode_encode_branch (l : Bool) {offset : BitVec 24} :
    decode (encode ((if l then Instr.bl else Instr.b) c offset)) = .ok ((if l then Instr.bl else Instr.b) c offset) := by
  generalize hw : encode _ = w
  have h := encode_branch_eq_iff.mp hw
  exact decode_of_row h.1 (by simp [decodeRow, h])

theorem decode_encode_copTransfer (l : Bool) {p u n wb : Bool} {rn : Reg} {crd cpnum : BitVec 4} {offset : BitVec 8} :
    decode (encode ((if l then Instr.ldc else Instr.stc) c p u n wb rn crd cpnum offset))
      = .ok ((if l then Instr.ldc else Instr.stc) c p u n wb rn crd cpnum offset) := by
  generalize hw : encode _ = w
  have h := encode_copTransfer_eq_iff.mp hw
  exact decode_of_row h.1 (by simp [decodeRow, h])

theorem decode_encode_cdp {op1 crn crd cpnum crm : BitVec 4} {op2 : BitVec 3} :
    decode (encode (.cdp c op1 crn crd cpnum op2 crm)) = .ok (.cdp c op1 crn crd cpnum op2 crm) := by
  generalize hw : encode _ = w
  have h := encode_cdp_eq_iff.mp hw
  exact decode_of_row h.1 (by simp [decodeRow, decodeCop, h])

theorem decode_encode_copRegister (l : Bool) {op1 op2 : BitVec 3} {crn cpnum crm : BitVec 4} {rd : Reg} :
    decode (encode ((if l then Instr.mrc else Instr.mcr) c op1 crn rd cpnum op2 crm))
      = .ok ((if l then Instr.mrc else Instr.mcr) c op1 crn rd cpnum op2 crm) := by
  generalize hw : encode _ = w
  have h := encode_copRegister_eq_iff.mp hw
  exact decode_of_row h.1 (by simp [decodeRow, decodeCop, h])

theorem decode_encode_swi {number : BitVec 24} : decode (encode (.swi c number)) = .ok (.swi c number) := by
  generalize hw : encode _ = w
  have h := encode_swi_eq_iff.mp hw
  exact decode_of_row h.1 (by simp [decodeRow, h])

end DecodeOfEncode

/-- Settles O1: the word of each instruction is of one format, whose fields say which way the decoder goes. -/
theorem decodeOfEncode : Obligations.DecodeOfEncode := by
  intro i
  cases i
  case andImm | andShiftImm | andShiftReg | eorImm | eorShiftImm | eorShiftReg | subImm | subShiftImm | subShiftReg | rsbImm
      | rsbShiftImm | rsbShiftReg | addImm | addShiftImm | addShiftReg | adcImm | adcShiftImm | adcShiftReg | sbcImm | sbcShiftImm
      | sbcShiftReg | rscImm | rscShiftImm | rscShiftReg | tstImm | tstShiftImm | tstShiftReg | teqImm | teqShiftImm | teqShiftReg
      | cmpImm | cmpShiftImm | cmpShiftReg | cmnImm | cmnShiftImm | cmnShiftReg | orrImm | orrShiftImm | orrShiftReg | movImm
      | movShiftImm | movShiftReg | bicImm | bicShiftImm | bicShiftReg | mvnImm | mvnShiftImm | mvnShiftReg =>
    exact decode_of_encodeDp rfl rfl
  case mrs => exact decode_encode_mrs
  case msrReg => exact decode_encode_msrReg
  case msrImm => exact decode_encode_msrImm
  case bx => exact decode_encode_bx
  case mul | mla => exact decode_of_encodeMul rfl
  case umull | umlal | smull | smlal => exact decode_of_encodeMull rfl
  case swp => exact decode_encode_swap false
  case swpb => exact decode_encode_swap true
  case strhImm => exact decode_of_encodeHalf (imm := true) (load := false) (sh := 1) rfl (by decide) rfl
  case ldrhImm => exact decode_of_encodeHalf (imm := true) (load := true) (sh := 1) rfl (by decide) rfl
  case ldrsbImm => exact decode_of_encodeHalf (imm := true) (load := true) (sh := 2) rfl (by decide) rfl
  case ldrshImm => exact decode_of_encodeHalf (imm := true) (load := true) (sh := 3) rfl (by decide) rfl
  case strhReg => exact decode_of_encodeHalf (imm := false) (load := false) (sh := 1) rfl (by decide) rfl
  case ldrhReg => exact decode_of_encodeHalf (imm := false) (load := true) (sh := 1) rfl (by decide) rfl
  case ldrsbReg => exact decode_of_encodeHalf (imm := false) (load := true) (sh := 2) rfl (by decide) rfl
  case ldrshReg => exact decode_of_encodeHalf (imm := false) (load := true) (sh := 3) rfl (by decide) rfl
  case strImmPre | strImmPost | strtImm | ldrImmPre | ldrImmPost | ldrtImm | strbImmPre | strbImmPost | strbtImm | ldrbImmPre
      | ldrbImmPost | ldrbtImm => exact decode_of_encodeLsImm rfl
  case strRegPre | strRegPost | strtReg | ldrRegPre | ldrRegPost | ldrtReg | strbRegPre | strbRegPost | strbtReg | ldrbRegPre
      | ldrbRegPost | ldrbtReg => exact decode_of_encodeLsReg rfl
  case undefined => exact decode_encode_undefined
  case ldm => exact decode_encode_block true
  case stm => exact decode_encode_block false
  case b => exact decode_encode_branch false
  case bl => exact decode_encode_branch true
  case ldc => exact decode_encode_copTransfer true
  case stc => exact decode_encode_copTransfer false
  case cdp => exact decode_encode_cdp
  case mcr => exact decode_encode_copRegister false
  case mrc => exact decode_encode_copRegister true
  case swi => exact decode_encode_swi

/-! ## Encoding what was decoded -/

section EncodeOfDecode

variable {w : Word} {c : Cond} {i : Instr}

/-- Of the PSR-transfer words with bit 20 clear, those whose bits 21:20 are not 00 have 10 there. -/
theorem field_twenty_eq_two (hs : flag w 20 = false) (h20 : field w 20 2 ≠ 0) : field w 20 2 = 2 := by
  have hzero : field w 20 2 = 0 ↔ field w 21 1 = 0#1 ∧ field w 20 1 = 0#1 := field_eq_append_iff (a := 0#1) (b := 0#1)
  have htwo : field w 20 2 = 2 ↔ field w 21 1 = 1#1 ∧ field w 20 1 = 0#1 := field_eq_append_iff (a := 1#1) (b := 0#1)
  rw [htwo, field_one_eq_one, field_one_eq_zero]
  rw [Ne, hzero, field_one_eq_zero, field_one_eq_zero] at h20
  exact ⟨by simpa [hs] using h20, hs⟩

theorem encode_of_decodePsrReg (hc : field w 28 4 = c.bits) (hrow : field w 25 3 = 0) (hop : field w 23 2 = 2) (hs : flag w 20 = false)
    (h : decodePsrReg c w = some i) : encode i = w := by
  unfold decodePsrReg at h
  split at h
  · next h20 =>
    split at h
    · next hmrs =>
      obtain ⟨h16, hlow⟩ := hmrs
      cases h
      exact encode_mrs_eq_iff.mpr ⟨hc, ⟨hrow, hop⟩, rfl, h20, h16, rfl, hlow⟩
    · cases h
  · next h20 =>
    split at h
    · next hmsr =>
      obtain ⟨h12, hmid⟩ := hmsr
      cases h
      exact encode_msrReg_eq_iff.mpr ⟨hc, ⟨hrow, hop⟩, rfl, field_twenty_eq_two hs h20, rfl, h12, hmid, rfl⟩
    · split at h
      · next hbx =>
        obtain ⟨hhigh, hlow⟩ := hbx
        cases h
        exact encode_bx_eq_iff.mpr ⟨hc, hhigh, hlow, rfl⟩
      · cases h

theorem encode_of_decodeDpReg (hc : field w 28 4 = c.bits) (hrow : field w 25 3 = 0) (h47 : (flag w 4 && flag w 7) = false)
    (h : decodeDpReg c w = some i) : encode i = w := by
  dsimp only [decodeDpReg] at h
  split at h
  · next hpsr =>
    obtain ⟨hop, hs⟩ := psrSpace_iff.mp hpsr
    exact encode_of_decodePsrReg hc hrow hop hs h
  · next hdp =>
    have hop : field w 21 4 = (DpOp.ofBits (field w 21 4)).bits := (DpOp.bits_ofBits _).symm
    have hty : field w 5 2 = (ShiftType.ofBits (field w 5 2)).bits := (ShiftType.bits_ofBits _).symm
    split at h
    · next h4 =>
      have h7 : flag w 7 = false := by simpa [h4] using h47
      cases h
      exact (encode_dpInstr (o := .shiftReg _ _ _) (eq_false_of_ne_true hdp)).trans
        (encodeDp_shiftReg_eq_iff.mpr ⟨hc, hrow, hop, rfl, rfl, rfl, rfl, h7, hty, h4, rfl⟩)
    · next h4 =>
      cases h
      exact (encode_dpInstr (o := .shiftImm _ _ _) (eq_false_of_ne_true hdp)).trans
        (encodeDp_shiftImm_eq_iff.mpr ⟨hc, hrow, hop, rfl, rfl, rfl, rfl, hty, eq_false_of_ne_true h4, rfl⟩)

theorem encode_of_decodeDpImm (hc : field w 28 4 = c.bits) (hrow : field w 25 3 = 1) (h : decodeDpImm c w = some i) : encode i = w := by
  dsimp only [decodeDpImm] at h
  split at h
  · next hpsr =>
    obtain ⟨hop, -⟩ := psrSpace_iff.mp hpsr
    split at h
    · next hmsr =>
      obtain ⟨h20, h12⟩ := hmsr
      cases h
      exact encode_msrImm_eq_iff.mpr ⟨hc, ⟨hrow, hop⟩, rfl, h20, rfl, h12, rfl, rfl⟩
    · cases h
  · next hdp =>
    cases h
    exact (encode_dpInstr (o := .imm _ _) (eq_false_of_ne_true hdp)).trans
      (encodeDp_imm_eq_iff.mpr ⟨hc, hrow, (DpOp.bits_ofBits _).symm, rfl, rfl, rfl, rfl, rfl⟩)

theorem encode_of_decodeMulSwp (hc : field w 28 4 = c.bits) (hrow : field w 25 3 = 0) (hlow : field w 4 4 = 9)
    (h : decodeMulSwp c w = some i) : encode i = w := by
  unfold decodeMulSwp at h
  split at h
  · next hop =>
    cases h
    exact (encode_mulRow _).trans (encodeMul_eq_iff.mpr ⟨hc, ⟨hrow, hop⟩, rfl, rfl, rfl, rfl, rfl, hlow, rfl⟩)
  · split at h
    · next hop =>
      cases h
      exact (encode_mullRow _ _).trans (encodeMull_eq_iff.mpr ⟨hc, ⟨hrow, hop⟩, rfl, rfl, rfl, rfl, rfl, rfl, hlow, rfl⟩)
    · split at h
      · next hswp =>
        obtain ⟨hop, h20, h8⟩ := hswp
        cases h
        exact encode_swap_eq_iff.mpr ⟨hc, ⟨hrow, hop⟩, rfl, h20, rfl, rfl, ⟨h8, hlow⟩, rfl⟩
      · cases h

theorem encode_of_decodeHalf (hc : field w 28 4 = c.bits) (hrow : field w 25 3 = 0) (h7 : flag w 7 = true) (h5 : field w 5 2 ≠ 0)
    (h4 : flag w 4 = true) (h : decodeHalf c w = some i) : encode i = w :=
  (encode_of_halfRow h5 (decodeHalf_eq_halfRow.symm.trans h)).trans
    (encodeHalf_eq_iff.mpr ⟨hc, hrow, rfl, rfl, rfl, rfl, rfl, rfl, rfl, rfl, h7, rfl, h4, rfl⟩)

theorem encode_decodeLsImm (hc : field w 28 4 = c.bits) (hrow : field w 25 3 = 2) : encode (decodeLsImm c w) = w := by
  rw [decodeLsImm_eq_lsImmRow, encode_lsImmRow]
  exact encodeLsImm_eq_iff.mpr ⟨hc, hrow, rfl, rfl, rfl, rfl, rfl, rfl, rfl, rfl⟩

theorem encode_decodeLsReg (hc : field w 28 4 = c.bits) (hrow : field w 25 3 = 3) : encode (decodeLsReg c w) = w := by
  rw [decodeLsReg_eq_ite]
  split
  · next h4 => exact encode_undefined_eq_iff.mpr ⟨hc, hrow, rfl, h4, rfl⟩
  · next h4 =>
    rw [encode_lsRegRow]
    exact encodeLsReg_eq_iff.mpr
      ⟨hc, hrow, rfl, rfl, rfl, rfl, rfl, rfl, rfl, rfl, (ShiftType.bits_ofBits _).symm, eq_false_of_ne_true h4, rfl⟩

theorem encode_decodeCop (hc : field w 28 4 = c.bits) (hrow : field w 25 3 = 7) (h24 : flag w 24 = false) :
    encode (decodeCop c w) = w := by
  unfold decodeCop
  split
  · next h4 => exact encode_copRegister_eq_iff.mpr ⟨hc, ⟨hrow, h24⟩, rfl, rfl, rfl, rfl, rfl, rfl, h4, rfl⟩
  · next h4 => exact encode_cdp_eq_iff.mpr ⟨hc, ⟨hrow, h24⟩, rfl, rfl, rfl, rfl, rfl, eq_false_of_ne_true h4, rfl⟩

/-- The eighth of the values of bits 27:25. -/
theorem eq_seven_of_ne {b : BitVec 3} (h0 : b ≠ 0) (h1 : b ≠ 1) (h2 : b ≠ 2) (h3 : b ≠ 3) (h4 : b ≠ 4) (h5 : b ≠ 5) (h6 : b ≠ 6) :
    b = 7 := by
  bv_omega

/-- Each branch of the tree of R137 gives a row whose format the word has. -/
theorem encode_of_decodeRow (hc : field w 28 4 = c.bits) (h : decodeRow c w = some i) : encode i = w := by
  unfold decodeRow at h
  split at h
  next h0 =>
    split at h
    · next h47 =>
      obtain ⟨h4, h7⟩ := Bool.and_eq_true_iff.mp h47
      split at h
      · next h5 => exact encode_of_decodeMulSwp hc h0 (field_mulSwp_iff.mpr ⟨h7, h5, h4⟩) h
      · next h5 => exact encode_of_decodeHalf hc h0 h7 h5 h4 h
    · next h47 => exact encode_of_decodeDpReg hc h0 (eq_false_of_ne_true h47) h
  next h0 =>
  split at h
  next h1 => exact encode_of_decodeDpImm hc h1 h
  next h1 =>
  split at h
  next h2 => cases h; exact encode_decodeLsImm hc h2
  next h2 =>
  split at h
  next h3 => cases h; exact encode_decodeLsReg hc h3
  next h3 =>
  split at h
  next h4 => cases h; exact encode_block_eq_iff.mpr ⟨hc, h4, rfl, rfl, rfl, rfl, rfl, rfl, rfl⟩
  next h4 =>
  split at h
  next h5 => cases h; exact encode_branch_eq_iff.mpr ⟨hc, h5, rfl, rfl⟩
  next h5 =>
  split at h
  next h6 => cases h; exact encode_copTransfer_eq_iff.mpr ⟨hc, h6, rfl, rfl, rfl, rfl, rfl, rfl, rfl, rfl, rfl⟩
  next h6 =>
  have h7 := eq_seven_of_ne h0 h1 h2 h3 h4 h5 h6
  split at h
  next h24 => cases h; exact encode_swi_eq_iff.mpr ⟨hc, ⟨h7, h24⟩, rfl⟩
  next h24 => cases h; exact encode_decodeCop hc h7 (eq_false_of_ne_true h24)

end EncodeOfDecode

/-- Settles O2: the row the decoder comes to is the one whose format the word's fields are of. -/
theorem encodeOfDecode : Obligations.EncodeOfDecode := by
  intro w i h
  obtain ⟨c, hc, hrow⟩ := decode_eq_ok_iff.mp h
  exact encode_of_decodeRow hc hrow

/-! ## Refused and sample words -/

/-- Settles O3: the condition is looked at before any row (log entry 18). -/
theorem reservedCondition : Obligations.ReservedCondition := fun _ => decode_eq_reserved_iff

/-- Settles O4: eleven words, decoded. -/
theorem sampleWords : Obligations.SampleWords := by
  unfold Obligations.SampleWords
  decide

end Sys2Proof
end

section
/-! PROOFS. O11. What each condition tests, one law per condition: the flag itself or its negation for the first eight codes, two flags
or the comparison of N with V for the next six (R171, with C1 and C2). -/

namespace Sys2Proof.Machine

section Conditions

variable {p : Psr}

@[simp] theorem condPassed_eq_iff : condPassed .eq p = true ↔ p.z = true := Iff.rfl

@[simp] theorem condPassed_ne_iff : condPassed .ne p = true ↔ p.z = false := by
  simp only [condPassed, Bool.not_eq_true']

@[simp] theorem condPassed_hs_iff : condPassed .hs p = true ↔ p.c = true := Iff.rfl

@[simp] theorem condPassed_lo_iff : condPassed .lo p = true ↔ p.c = false := by
  simp only [condPassed, Bool.not_eq_true']

@[simp] theorem condPassed_mi_iff : condPassed .mi p = true ↔ p.n = true := Iff.rfl

@[simp] theorem condPassed_pl_iff : condPassed .pl p = true ↔ p.n = false := by
  simp only [condPassed, Bool.not_eq_true']

@[simp] theorem condPassed_vs_iff : condPassed .vs p = true ↔ p.v = true := Iff.rfl

@[simp] theorem condPassed_vc_iff : condPassed .vc p = true ↔ p.v = false := by
  simp only [condPassed, Bool.not_eq_true']

@[simp] theorem condPassed_hi_iff : condPassed .hi p = true ↔ p.c = true ∧ p.z = false := by
  simp only [condPassed, Bool.and_eq_true, Bool.not_eq_true']

@[simp] theorem condPassed_ls_iff : condPassed .ls p = true ↔ p.c = false ∨ p.z = true := by
  simp only [condPassed, Bool.or_eq_true, Bool.not_eq_true']

@[simp] theorem condPassed_ge_iff : condPassed .ge p = true ↔ p.n = p.v := beq_iff_eq

@[simp] theorem condPassed_lt_iff : condPassed .lt p = true ↔ p.n ≠ p.v := bne_iff_ne

@[simp] theorem condPassed_gt_iff : condPassed .gt p = true ↔ p.z = false ∧ p.n = p.v := by
  simp only [condPassed, Bool.and_eq_true, Bool.not_eq_true', beq_iff_eq]

@[simp] theorem condPassed_le_iff : condPassed .le p = true ↔ p.z = true ∨ p.n ≠ p.v := by
  simp only [condPassed, Bool.or_eq_true, bne_iff_ne]

@[simp] theorem condPassed_al : condPassed .al p = true := rfl

end Conditions

/-- Settles O11: the sixteen codes are looked up, and each condition has its law. -/
theorem conditionTable : Obligations.ConditionTable := by
  refine ⟨by decide, fun p => ?_⟩
  exact ⟨condPassed_eq_iff, condPassed_ne_iff, condPassed_hs_iff, condPassed_lo_iff, condPassed_mi_iff, condPassed_pl_iff,
    condPassed_vs_iff, condPassed_vc_iff, condPassed_hi_iff, condPassed_ls_iff, condPassed_ge_iff, condPassed_lt_iff,
    condPassed_gt_iff, condPassed_le_iff, condPassed_al⟩

end Sys2Proof.Machine
end

section
/-! PROOFS. O27 to O29. The offset a branch adds is a number of words, read as a signed integer; the words of B and BL differ in the bit
L; and of the target of BX the two low bits decide. -/

namespace Sys2Proof.Machine

/-- The offset field followed by two zeros counts bytes, so the target of a branch is an integer sum modulo 2^32 (R143, R180). -/
theorem branchTarget_eq_ofInt (pc : Word) (offset : BitVec 24) :
    branchTarget pc offset = BitVec.ofInt 32 (pc.toNat + 8 + 4 * offset.toInt) := by
  have hbytes : (offset ++ (0 : BitVec 2)).toInt = 4 * offset.toInt := BitVec.toInt_append_zero
  have hpc : BitVec.ofInt 32 pc.toNat = pc := by rw [BitVec.ofInt_natCast, BitVec.ofNat_toNat, BitVec.setWidth_eq]
  rw [BitVec.ofInt_add, BitVec.ofInt_add, hpc, ← hbytes]
  rfl

section Branches

variable {c : Cond} {offset : BitVec 24} {rn : Reg} {m : Mode} {s : State}

/-- Bits 27:24 of B and BL are 101 and the bit L (R180, R181). -/
theorem field_encode_branch (l : Bool) :
    field (encode ((if l then Instr.bl else Instr.b) c offset)) 24 4 = (5 : BitVec 3) ++ BitVec.ofBool l := by
  obtain ⟨-, hformat, hl, -⟩ := encode_branch_eq_iff.mp (rfl : encode ((if l then Instr.bl else Instr.b) c offset) = _)
  exact field_eq_append_iff.mpr ⟨hformat, field_one_eq_bit.mpr hl⟩

/-- B that executes (R180). -/
theorem exec_b (he : executes c [] m s) :
    exec (.b c offset) s = .next { s with pc := branchTarget s.pc offset, userLdm := false } := by
  change execB c offset s = _
  exact whenExecuted_executes he _

/-- BL that executes (R181). -/
theorem exec_bl (he : executes c [] m s) :
    exec (.bl c offset) s =
      .next { State.setReg { s with userLdm := false } m 14 (s.pc + 4) with pc := branchTarget s.pc offset } := by
  change execBl c offset s = _
  exact whenExecuted_executes he _

/-- BX that executes: each refusal in its order, else the branch; T is already clear, so clearing it writes nothing (R183). -/
theorem exec_bx (he : executes c [rn] m s) :
    exec (.bx c rn) s =
      if !s.platform.hasT then .refused .noInstruction
      else if rn = 15 then .refused .branchExchangeTarget
      else if (s.readReg m rn).getLsbD 0 then .refused .thumbState
      else if (s.readReg m rn).getLsbD 1 then .refused .branchExchangeTarget
      else .next { s with pc := s.readReg m rn, userLdm := false } := by
  have hcpsr : { s.cpsr with t := false } = s.cpsr := by rw [← he.1]
  change execBx c rn s = _
  rw [execBx, whenExecuted_executes he]
  simp only [State.readReg_userLdm, hcpsr]

end Branches

/-- Settles O27: the target is the integer sum, and L = 0. -/
theorem branch : Obligations.Branch := by
  intro c offset m s he
  rw [exec_b he, branchTarget_eq_ofInt]
  exact ⟨rfl, field_encode_branch false⟩

/-- Settles O28: the link is a register write, whose frame is known, and the skipped case is O12. -/
theorem branchWithLink : Obligations.BranchWithLink := by
  intro c offset m s
  refine ⟨field_encode_branch true, fun he => ⟨_, exec_bl he, ?link, ?otherRegs, branchTarget_eq_ofInt s.pc offset, ?cpsr, ?frame⟩,
    fun ht hm hc hp => ?skipped⟩
  case link =>
    have h14 : (14 : Reg) ≠ 15 := by decide
    exact (State.readReg_of_regs h14 rfl).trans (State.readReg_setReg_same (s.pc + 4) h14)
  case otherRegs => exact keepsRegsBut_setReg { s with userLdm := false } m 14 (s.pc + 4)
  case cpsr => simp
  case frame => exact ⟨by simp, keepsMemory_of (by simp) (by simp), ⟨by simp, by simp⟩, by simp, by simp⟩
  case skipped => exact ⟨_, skippedInstruction (.bl c offset) s m ht hm hc hp, rfl, rfl⟩

/-- Settles O29: the clauses are the branches of `exec_bx`, the two low bits of the target read one by one. -/
theorem branchExchange : Obligations.BranchExchange := by
  intro c rn m s he
  rw [exec_bx he]
  refine ⟨fun hT => ?noVariant, fun hT hrn => ?pc, fun hT hrn hlow => ?aligned, fun hT hrn h0 => ?thumb, fun hT hrn hlow => ?half⟩
  case noVariant => simp [hT]
  case pc => simp [hT, hrn]
  case aligned =>
    have h0 : (s.readReg m rn).getLsbD 0 = false := flag_of_field hlow 0
    have h1 : (s.readReg m rn).getLsbD 1 = false := flag_of_field hlow 1
    simp only [hT, hrn, h0, h1, Bool.not_true, Bool.false_eq_true, if_false]
  case thumb => simp only [hT, hrn, h0, Bool.not_true, Bool.false_eq_true, if_false, if_true]
  case half =>
    have h0 : (s.readReg m rn).getLsbD 0 = false := flag_of_field hlow 0
    have h1 : (s.readReg m rn).getLsbD 1 = true := flag_of_field hlow 1
    simp only [hT, hrn, h0, h1, Bool.not_true, Bool.false_eq_true, if_false, if_true]

end Sys2Proof.Machine
end

section
/-! PROOFS. O13 to O20. A data-processing instruction that executes is its ALU output written to one of three places: a register below r15,
the flags alone, or the pc. Each place has its rule over an arbitrary output; what remains of a statement is then what the ALU computes,
and for that the adder's sums are the differences and ranges of integers. -/

namespace Sys2Proof.Machine

/-! ## Where the output goes -/

section Executes

variable {op : DpOp} {c : Cond} {rn rd : Reg} {o : Operand2} {m : Mode} {s : State} {r : Word} {p : Psr}

/-- A data-processing instruction that executes and is allowed writes its ALU output (R190). -/
theorem exec_dpInstr_executes (sf : Bool) (he : executes c (rn :: rd :: operandRegs o) m s)
    (hn : operandRefusal (usesRn op) rn o = none) :
    exec (dpInstr op c rn rd sf o) s = dpWrite op sf rd (dpOut op rn o m s) m { s with userLdm := false } :=
  (exec_dpInstr op c rn rd sf o s).trans (dataProcessing_executes sf he hn)

/-- With a destination below r15: the result in Rd, the flags if S = 1, and nothing else (R190, R33). -/
theorem exec_dpInstr_reg (sf : Bool) (he : executes c (rn :: rd :: operandRegs o) m s) (hn : operandRefusal (usesRn op) rn o = none)
    (hc : op.compares = false) (hrd : rd ≠ 15) (hp : notAtTop s) (hout : dpOut op rn o m s = ⟨r, p⟩) :
    ∃ t, exec (dpInstr op c rn rd sf o) s = .next t ∧ t.readReg m rd = r ∧ keepsRegsBut m [rd] s t ∧ t.pc = s.pc + 4
      ∧ t.cpsr = (if sf then p else s.cpsr) ∧ keepsAllButRegs s t := by
  have hexec : exec (dpInstr op c rn rd sf o) s =
      .next { State.setReg { s with userLdm := false } m rd r with cpsr := if sf then p else s.cpsr, pc := s.pc + 4 } := by
    rw [exec_dpInstr_executes sf he hn, hout]
    exact dpWrite_reg sf _ hc hrd hp
  refine ⟨_, hexec, ?readBack, ?otherRegs, rfl, rfl, ?frame⟩
  case readBack => exact (State.readReg_of_regs hrd (by rfl)).trans (State.readReg_setReg_same (s := { s with userLdm := false }) r hrd)
  case otherRegs => exact keepsRegsBut_setReg { s with userLdm := false } m rd r
  case frame => exact ⟨by simp, keepsMemory_of (by simp) (by simp), ⟨by simp, by simp⟩, by simp, by simp⟩

/-- A comparison: the flags, and nothing else (R204). -/
theorem exec_dpInstr_compare (sf : Bool) (he : executes c (rn :: rd :: operandRegs o) m s) (hn : operandRefusal (usesRn op) rn o = none)
    (hc : op.compares = true) (hp : notAtTop s) (hout : dpOut op rn o m s = ⟨r, p⟩) :
    exec (dpInstr op c rn rd sf o) s = .next { s with pc := s.pc + 4, userLdm := false, cpsr := p } := by
  rw [exec_dpInstr_executes sf he hn, hout, dpWrite, if_pos hc]
  exact advance_of_notAtTop hp

/-- With Rd = 15 and S = 0: a branch to the result (R43, R194). -/
theorem exec_dpInstr_branch (he : executes c (rn :: 15 :: operandRegs o) m s) (hn : operandRefusal (usesRn op) rn o = none)
    (hc : op.compares = false) :
    exec (dpInstr op c rn 15 false o) s = branchTo (dpOut op rn o m s).result { s with userLdm := false } := by
  rw [exec_dpInstr_executes false he hn, dpWrite, hc]
  rfl

/-- With Rd = 15 and S = 1: a return from an exception to the result (R194, R358). -/
theorem exec_dpInstr_return (he : executes c (rn :: 15 :: operandRegs o) m s) (hn : operandRefusal (usesRn op) rn o = none)
    (hc : op.compares = false) :
    exec (dpInstr op c rn 15 true o) s =
      State.returnFromException { s with userLdm := false } .returnWithoutSpsr m (dpOut op rn o m s).result := by
  rw [exec_dpInstr_executes true he hn, dpWrite, hc]
  rfl

/-- An operand combination the spec refuses is refused under its name, whatever the operation does (R195). -/
theorem exec_dpInstr_refused {e : Refusal} (sf : Bool) (he : executes c (rn :: rd :: operandRegs o) m s)
    (hn : operandRefusal (usesRn op) rn o = some e) : exec (dpInstr op c rn rd sf o) s = .refused e := by
  rw [exec_dpInstr, dataProcessing, whenExecuted_executes he]
  simp only [hn]

end Executes

/-! ## Refused operands -/

theorem operandRefusal_amount_pc (u : Bool) (rn : Reg) (ty : ShiftType) (rm : Reg) :
    operandRefusal u rn (.shiftReg 15 ty rm) = some .shiftAmountInPc := rfl

theorem operandRefusal_operand_pc {u : Bool} {rn rs rm : Reg} (ty : ShiftType) (hrs : rs ≠ 15) (h : rm = 15 ∨ (u = true ∧ rn = 15)) :
    operandRefusal u rn (.shiftReg rs ty rm) = some .pcWithRegisterShift := by
  rw [operandRefusal, if_neg hrs, if_pos (by simpa using h)]

/-- Settles O20: the two refusals of `operandRefusal`, in their order. -/
theorem registerShiftRefusesPc : Obligations.RegisterShiftRefusesPc := by
  intro op c rn rd sf rs ty rm m s he
  refine ⟨fun hrs => ?amount, fun hrs hpc => ?operand⟩
  case amount =>
    subst hrs
    exact exec_dpInstr_refused (o := .shiftReg 15 ty rm) sf he (operandRefusal_amount_pc _ _ _ _)
  case operand => exact exec_dpInstr_refused (o := .shiftReg rs ty rm) sf he (operandRefusal_operand_pc ty hrs hpc)

/-! ## What the adder computes -/

/-- An addition with the carry `k` (R191, R201). -/
theorem addWithCarry_adc (a b : Word) (k : Bool) :
    addWithCarry a b k = { result := a + b + BitVec.ofNat 32 k.toNat
                           c := decide (a.toNat + b.toNat + k.toNat ≥ 2 ^ 32)
                           v := decide (a.toInt + b.toInt + k.toNat < -2 ^ 31 ∨ a.toInt + b.toInt + k.toNat > 2 ^ 31 - 1) } := by
  rw [Bool.decide_or, ← addWithCarry_result]
  rfl

/-- An addition without a carry: the unsigned sum's carry, the signed sum's overflow (R50, R191). -/
theorem addWithCarry_add (a b : Word) :
    addWithCarry a b false = { result := a + b
                               c := decide (a.toNat + b.toNat ≥ 2 ^ 32)
                               v := decide (a.toInt + b.toInt < -2 ^ 31 ∨ a.toInt + b.toInt > 2 ^ 31 - 1) } := by
  simpa using addWithCarry_adc a b false

/-- A subtraction with the carry `k`, which stands for no borrow: adding the complement is subtracting and taking one away
(R202, R203). -/
theorem addWithCarry_sbc (x y : Word) (k : Bool) :
    addWithCarry x (~~~y) k = { result := x - y + BitVec.ofNat 32 k.toNat - 1
                                c := decide (x.toNat + k.toNat ≥ y.toNat + 1)
                                v := decide (x.toInt - y.toInt + k.toNat - 1 < -2 ^ 31
                                  ∨ x.toInt - y.toInt + k.toNat - 1 > 2 ^ 31 - 1) } := by
  have hnat : (~~~y).toNat = 2 ^ 32 - 1 - y.toNat := BitVec.toNat_not
  have hcomplement : ~~~y = -y - 1 := BitVec.not_eq_neg_add y
  rw [addWithCarry_adc, Sum.mk.injEq]
  refine ⟨?difference, ?carry, ?overflow⟩
  case difference => rw [hcomplement]; ring
  case carry => rw [hnat, decide_eq_decide]; omega
  case overflow => rw [toInt_not, decide_eq_decide]; omega

/-! ## What the ALU computes -/

/-- The difference, with Z said as the equality of the operands (R193, R198). -/
theorem arithOut_sub (old : Psr) (x y : Word) :
    arithOut old (addWithCarry x (~~~y) true) =
      ⟨x - y, { old with n := (x - y).msb, z := decide (x = y), c := decide (x.toNat ≥ y.toNat)
                         v := decide (x.toInt - y.toInt < -2 ^ 31 ∨ x.toInt - y.toInt > 2 ^ 31 - 1) }⟩ := by
  have hzero : (x - y == 0) = decide (x = y) := decide_eq_decide.mpr sub_eq_zero
  rw [addWithCarry_sub, arithOut, arithFlags, hzero, Bool.decide_or]
  rfl

/-- The exclusive or, with Z said as the equality of the operands (R192, R205). -/
theorem logicalOut_xor (old : Psr) (sco : Bool) (a b : Word) :
    logicalOut old sco (a ^^^ b) = ⟨a ^^^ b, { old with n := (a ^^^ b).msb, z := decide (a = b), c := sco }⟩ := by
  have hzero : (a ^^^ b == 0) = decide (a = b) := decide_eq_decide.mpr BitVec.xor_eq_zero_iff
  rw [logicalOut, logicalFlags, hzero]

/-- Settles O13: each of the four is a logical output of its result. -/
theorem logicalOperations : Obligations.LogicalOperations := by
  intro c rn rd sf o m s he hn hrd hp op r hmem
  simp only [List.mem_cons, Prod.mk.injEq, List.not_mem_nil, or_false] at hmem
  obtain ⟨rfl, rfl⟩ | ⟨rfl, rfl⟩ | ⟨rfl, rfl⟩ | ⟨rfl, rfl⟩ := hmem
  all_goals exact exec_dpInstr_reg sf he hn rfl hrd hp rfl

/-- Settles O14: MOV and MVN are logical outputs of the second operand alone. -/
theorem moveOperations : Obligations.MoveOperations := by
  intro c rn rd sf o m s he hn hrd hp op r hmem
  simp only [List.mem_cons, Prod.mk.injEq, List.not_mem_nil, or_false] at hmem
  obtain ⟨rfl, rfl⟩ | ⟨rfl, rfl⟩ := hmem
  all_goals exact exec_dpInstr_reg sf he hn rfl hrd hp rfl

/-- Settles O15: ADD's output is that of the sum, SUB's and RSB's that of the difference. -/
theorem addAndSubtract : Obligations.AddAndSubtract := by
  intro c rn rd sf o m s he hn hrd hp
  refine ⟨?sum, fun op x y hmem => ?difference⟩
  case sum =>
    rintro _ _ rfl rfl
    exact exec_dpInstr_reg sf he hn rfl hrd hp (congrArg (arithOut s.cpsr) (addWithCarry_add _ _))
  case difference =>
    simp only [List.mem_cons, Prod.mk.injEq, List.not_mem_nil, or_false] at hmem
    obtain ⟨rfl, rfl, rfl⟩ | ⟨rfl, rfl, rfl⟩ := hmem
    all_goals exact exec_dpInstr_reg sf he hn rfl hrd hp (arithOut_sub _ _ _)

/-- Settles O16: as O15, with the C flag as the third operand. -/
theorem carryOperations : Obligations.CarryOperations := by
  intro c rn rd sf o m s he hn hrd hp
  refine ⟨?sum, ?difference⟩
  case sum =>
    rintro _ _ _ rfl rfl rfl
    exact exec_dpInstr_reg sf he hn rfl hrd hp (congrArg (arithOut s.cpsr) (addWithCarry_adc _ _ _))
  case difference =>
    rintro op x y _ rfl hmem
    simp only [List.mem_cons, Prod.mk.injEq, List.not_mem_nil, or_false] at hmem
    obtain ⟨rfl, rfl, rfl⟩ | ⟨rfl, rfl, rfl⟩ := hmem
    all_goals exact exec_dpInstr_reg sf he hn rfl hrd hp (congrArg (arithOut s.cpsr) (addWithCarry_sbc _ _ _))

/-- Settles O17: the outputs of AND, EOR, SUB and ADD again, of which a comparison keeps the flags. -/
theorem comparisons : Obligations.Comparisons := by
  rintro c rn rd o m s _ _ he hn hp rfl rfl
  refine ⟨?tst, ?teq, ?cmp, ?cmn⟩
  case tst => exact exec_dpInstr_compare true he hn rfl hp rfl
  case teq => exact exec_dpInstr_compare true he hn rfl hp (logicalOut_xor _ _ _ _)
  case cmp => exact exec_dpInstr_compare true he hn rfl hp (arithOut_sub _ _ _)
  case cmn =>
    exact exec_dpInstr_compare (r := s.readReg m rn + (shifterOperand s m o).value) true he hn rfl hp
      (congrArg (arithOut s.cpsr) (addWithCarry_add _ _))

/-! ## What the flags of a difference mean -/

/-- The sign of the 32-bit difference is wrong exactly when the signed difference is out of range: so N and V together tell the signed
order (R171, R206). -/
theorem msb_sub_eq_overflow_iff (a b : Word) :
    (a - b).msb = decide (a.toInt - b.toInt < -2 ^ 31 ∨ a.toInt - b.toInt > 2 ^ 31 - 1) ↔ b.toInt ≤ a.toInt := by
  rw [BitVec.msb_eq_decide, decide_eq_decide, BitVec.toNat_sub, BitVec.toInt_eq_toNat_cond, BitVec.toInt_eq_toNat_cond]
  omega

/-- Settles O18: the conditions' laws (O11) over the flags CMP writes (O17). -/
theorem compareMeaning : Obligations.CompareMeaning := by
  intro c rn rd o m s a b he hn hp ha hb
  obtain ⟨-, -, hcmp, -⟩ := comparisons c rn rd o m s a b he hn hp ha hb
  have hsigned := msb_sub_eq_overflow_iff a b
  have hunsigned : a = b ↔ a.toNat = b.toNat := BitVec.toNat_inj.symm
  have hint : a = b ↔ a.toInt = b.toInt := BitVec.toInt_inj.symm
  refine ⟨_, hcmp, ?_⟩
  simp only [condPassed_eq_iff, condPassed_ne_iff, condPassed_hs_iff, condPassed_lo_iff, condPassed_hi_iff, condPassed_ls_iff,
    condPassed_ge_iff, condPassed_lt_iff, condPassed_gt_iff, condPassed_le_iff, decide_eq_true_eq, decide_eq_false_iff_not, hsigned,
    ge_iff_le, Nat.not_le, Int.not_le, ne_eq, true_and]
  refine ⟨?hi, ?ls, ?gt, ?le⟩
  case hi => rw [hunsigned]; omega
  case ls => rw [hunsigned]; omega
  case gt => rw [hint]; omega
  case le => rw [hint]; omega

/-! ## Rd = 15 -/

theorem returnFromException_of_noSpsr {m : Mode} (s : State) (e : Refusal) (a : Word) (hm : m.spsr = none) :
    s.returnFromException e m a = .refused e := by
  rw [State.returnFromException, hm]

/-- A return in a mode with an SPSR: the checks in their order, then CPSR and pc together (R358). -/
theorem returnFromException_of_spsr {m : Mode} {n : SpsrName} (s : State) (e : Refusal) (a : Word) (hm : m.spsr = some n) :
    s.returnFromException e m a =
      if field a 0 2 ≠ 0 then .refused .pcNotWordAligned
      else if (s.spsrs.get n).t then .refused .thumbState
      else if (Mode.ofBits s.platform.hasV4 (s.spsrs.get n).m).isNone then .refused .illegalMode
      else .next { s with cpsr := s.spsrs.get n, pc := a } := by
  rw [State.returnFromException, hm]

/-- Settles O19: S = 0 is `branchTo`, S = 1 `returnFromException`, and the clauses are their branches. -/
theorem dataProcessingToPc : Obligations.DataProcessingToPc := by
  rintro op c rn o m s r hc he hn rfl
  rw [exec_dpInstr_branch he hn hc, exec_dpInstr_return he hn hc]
  refine ⟨fun hr => ?branch, fun hr => ?notAligned, fun hm => returnFromException_of_noSpsr _ _ _ hm, ?withSpsr⟩
  case branch => exact if_pos hr
  case notAligned => exact if_neg hr
  case withSpsr =>
    rintro n _ hm rfl
    rw [returnFromException_of_spsr _ _ _ hm]
    refine ⟨fun hr => ?notAlignedReturn, fun hr ht => ?thumb, fun hr ht hmode => ?noMode, fun hr ht hmode => ?returns⟩
    case notAlignedReturn => exact if_pos hr
    case thumb => exact (if_neg (not_not.mpr hr)).trans (if_pos ht)
    case noMode =>
      have hnone := Option.isNone_iff_eq_none.mpr hmode
      exact (if_neg (not_not.mpr hr)).trans ((if_neg (ne_true_of_eq_false ht)).trans (if_pos hnone))
    case returns =>
      have hsome := Option.isNone_iff_eq_none.not.mpr (Option.isSome_iff_ne_none.mp hmode)
      exact (if_neg (not_not.mpr hr)).trans ((if_neg (ne_true_of_eq_false ht)).trans (if_neg hsome))

end Sys2Proof.Machine
end

section
/-! PROOFS. O21 to O23. Each shift has one equation per range of its amount, and what remains of a shift statement is what the word
operation of that range computes. A rotation has one equation for every amount but 0, and one law says which bit it moves where, for
ROR and for the immediate operand. -/

namespace Sys2Proof.Machine

section Shifts

variable (v : Word) {n : Nat} (c : Bool)

/-! ## Which bit a rotation moves where -/

/-- The rotation by an amount of any size is modulo 32 (R224). -/
theorem getLsbD_rotateRight_word (n : Nat) {i : Nat} (hi : i < 32) : (v.rotateRight n).getLsbD i = v.getLsbD ((i + n) % 32) := by
  rw [BitVec.getLsbD_rotateRight, Bool.cond_decide]
  by_cases hwrap : i < 32 - n % 32
  · have hplace : (i + n) % 32 = n % 32 + i := by omega
    rw [if_pos hwrap, hplace]
  · have hplace : (i + n) % 32 = i - (32 - n % 32) := by omega
    rw [if_neg hwrap, hplace, decide_eq_true hi, Bool.true_and]

/-! ## LSL (R221) -/

theorem shiftLsl_zero : shiftLsl v 0 c = ⟨v, c⟩ := rfl

theorem shiftLsl_of_lt (h0 : n ≠ 0) (h : n < 32) : shiftLsl v n c = ⟨v <<< n, v.getLsbD (32 - n)⟩ := by
  rw [shiftLsl, if_neg h0, if_pos h]

theorem shiftLsl_word : shiftLsl v 32 c = ⟨0, v.getLsbD 0⟩ := rfl

theorem shiftLsl_of_gt (h : 32 < n) : shiftLsl v n c = ⟨0, false⟩ := by
  rw [shiftLsl, if_neg (Nat.ne_zero_of_lt h), if_neg (Nat.lt_asymm h), if_neg (Nat.ne_of_gt h)]

/-! ## LSR (R222) -/

theorem shiftLsr_zero : shiftLsr v 0 c = ⟨v, c⟩ := rfl

theorem shiftLsr_of_lt (h0 : n ≠ 0) (h : n < 32) : shiftLsr v n c = ⟨v >>> n, v.getLsbD (n - 1)⟩ := by
  rw [shiftLsr, if_neg h0, if_pos h]

theorem shiftLsr_word : shiftLsr v 32 c = ⟨0, v.getLsbD 31⟩ := rfl

theorem shiftLsr_of_gt (h : 32 < n) : shiftLsr v n c = ⟨0, false⟩ := by
  rw [shiftLsr, if_neg (Nat.ne_zero_of_lt h), if_neg (Nat.lt_asymm h), if_neg (Nat.ne_of_gt h)]

/-! ## ASR (R223) -/

theorem shiftAsr_zero : shiftAsr v 0 c = ⟨v, c⟩ := rfl

theorem shiftAsr_of_lt (h0 : n ≠ 0) (h : n < 32) : shiftAsr v n c = ⟨v.sshiftRight n, v.getLsbD (n - 1)⟩ := by
  rw [shiftAsr, if_neg h0, if_pos h]

theorem shiftAsr_of_ge (h : 32 ≤ n) : shiftAsr v n c = ⟨if v.getLsbD 31 then 0xFFFFFFFF else 0, v.getLsbD 31⟩ := by
  rw [shiftAsr, if_neg (by omega), if_neg (Nat.not_lt.mpr h)]

/-- All bits of a word of 32 copies of `b` are `b`. -/
theorem getLsbD_copies (b : Bool) {i : Nat} (hi : i < 32) : (if b then 0xFFFFFFFF else 0 : Word).getLsbD i = b := by
  cases b with
  | false => exact BitVec.getLsbD_zero
  | true => exact (BitVec.getLsbD_allOnes (v := 32)).trans (decide_eq_true hi)

/-! ## ROR (R224) -/

theorem shiftRor_zero : shiftRor v 0 c = ⟨v, c⟩ := rfl

/-- A multiple of 32 is no special case: the rotation by it keeps the word, and bit 31 is the last bit rotated out. -/
theorem shiftRor_of_ne_zero (h0 : n ≠ 0) : shiftRor v n c = ⟨v.rotateRight n, v.getLsbD ((n - 1) % 32)⟩ := by
  rw [shiftRor, if_neg h0]
  by_cases hmod : n % 32 = 0
  · have hcarry : (n - 1) % 32 = 31 := by omega
    have hkeep : v.rotateRight n = v := by
      refine BitVec.eq_of_getLsbD_eq fun i hi => ?_
      rw [getLsbD_rotateRight_word v n hi, Nat.add_mod, hmod, Nat.add_zero, Nat.mod_mod, Nat.mod_eq_of_lt hi]
    rw [if_pos hmod, hcarry, hkeep]
  · have hcarry : (n - 1) % 32 = n % 32 - 1 := by omega
    rw [if_neg hmod, hcarry, BitVec.rotateRight_mod_eq_rotateRight]

/-- The value of ROR bit by bit, for an amount of 0 too. -/
theorem getLsbD_shiftRor (n : Nat) {i : Nat} (hi : i < 32) : (shiftRor v n c).value.getLsbD i = v.getLsbD ((i + n) % 32) := by
  by_cases h0 : n = 0
  · rw [h0, shiftRor_zero, Nat.add_zero, Nat.mod_eq_of_lt hi]
  · rw [shiftRor_of_ne_zero v c h0, getLsbD_rotateRight_word v n hi]

/-! ## RRX and the shift by an immediate amount (R225, R226) -/

theorem shiftByImm_ror_zero : shiftByImm .ror v 0 c = shiftRrx v c := rfl

theorem amount_toNat_eq_zero_iff (amount : BitVec 5) : amount.toNat = 0 ↔ amount = 0 := BitVec.toNat_inj (y := 0#5)

/-- The shift by a register takes the bottom byte of Rs (R227). -/
theorem toNat_field_byte (w : Word) : (field w 0 8).toNat = w.toNat % 256 := BitVec.extractLsb'_toNat 0 8 w

end Shifts

/-! ## The statements -/

/-- Settles O22: both are how `shiftRrx` and `shiftByImm` are defined. -/
theorem rotateExtended : Obligations.RotateExtended :=
  fun v c => ⟨rfl, rfl, shiftByImm_ror_zero v c⟩

/-- Settles O23: a bit of the rotation is bit (i + 2 * rot) mod 32 of the constant extended with zeros. -/
theorem immediateOperand : Obligations.ImmediateOperand := by
  intro s m rot imm8
  refine ⟨fun i hi => ?value, fun hrot => if_pos hrot, fun hrot => if_neg hrot⟩
  case value =>
    have hplace : (i + 2 * rot.toNat) % 32 < 32 := Nat.mod_lt _ (by decide)
    calc (rotatedImm rot imm8).getLsbD i
        = (imm8.setWidth 32).getLsbD ((i + 2 * rot.toNat) % 32) := getLsbD_rotateRight_word _ _ hi
      _ = imm8.getLsbD ((i + 2 * rot.toNat) % 32) := by rw [BitVec.getLsbD_setWidth, decide_eq_true hplace, Bool.true_and]

/-- Settles O21: the equations of the shifts range by range, and the arithmetic of the word operations in them. -/
theorem shifts : Obligations.Shifts := by
  refine ⟨fun v c => ⟨shiftLsl_zero v c, shiftLsr_zero v c, shiftAsr_zero v c, shiftRor_zero v c⟩, ?below,
    fun v c => ⟨shiftLsl_word v c, shiftLsr_word v c⟩, fun v n c h => ⟨shiftLsl_of_gt v c h, shiftLsr_of_gt v c h⟩, ?fromWord, ?operand⟩
  case below =>
    intro v n c h1 h31
    have h0 : n ≠ 0 := Nat.ne_zero_of_lt h1
    have hlt : n < 32 := Nat.lt_succ_of_le h31
    rw [shiftLsl_of_lt v c h0 hlt, shiftLsr_of_lt v c h0 hlt, shiftAsr_of_lt v c h0 hlt]
    refine ⟨?lsl, rfl, ?lsr, rfl, ?asr, rfl, fun i hi => getLsbD_shiftRor v c n hi, ?rorCarry⟩
    case lsl => exact BitVec.toNat_shiftLeft.trans (by rw [Nat.shiftLeft_eq])
    case lsr => exact (BitVec.toNat_ushiftRight v n).trans (Nat.shiftRight_eq_div_pow _ n)
    case asr =>
      calc (v.sshiftRight n).toInt
          = v.toInt >>> n := BitVec.toInt_sshiftRight
        _ = v.toInt / 2 ^ n := by rw [Int.shiftRight_eq_div_pow, Nat.cast_pow, Nat.cast_ofNat]
    case rorCarry =>
      have hmod : (n - 1) % 32 = n - 1 := Nat.mod_eq_of_lt (by omega)
      rw [shiftRor_of_ne_zero v c h0, hmod]
  case fromWord =>
    intro v n c h
    rw [shiftAsr_of_ge v c h]
    refine ⟨fun i hi => getLsbD_copies _ hi, rfl, fun i hi => getLsbD_shiftRor v c n hi, ?rorCarry⟩
    case rorCarry => rw [shiftRor_of_ne_zero v c (by omega)]
  case operand =>
    rintro s m rs rm amount _ _ _ _ rfl rfl rfl rfl
    simp only [amount_toNat_eq_zero_iff, ← toNat_field_byte]
    exact ⟨rfl, rfl, rfl, rfl, rfl, rfl, rfl, rfl⟩

end Sys2Proof.Machine
end

section
/-! PROOFS. O30 to O32. MUL and MLA come to `multiply`, the four long multiplies to `longMultiply`. Of each rule it is said once which
operands it refuses and what it does with the others, over an arbitrary result; what remains of a statement is that the result is the
product and sum of numbers it names. -/

namespace Sys2Proof.Machine

/-! ## MUL and MLA -/

section Multiply

variable {rd rs rm : Reg} {m : Mode} {s : State}

/-- The first refusal of MUL and MLA (R242, U4). -/
theorem multiply_of_rd_eq_rm (sf usesPc : Bool) (r : Word) (h : rd = rm) :
    multiply sf rd rs rm usesPc r m s = .refused .mulRdIsRm := by
  rw [multiply, if_pos h]

/-- The second refusal of MUL and MLA: r15 in any place that is used (R242, U5). -/
theorem multiply_of_pc {usesPc : Bool} (sf : Bool) (r : Word) (h : rd ≠ rm) (hpc : rd = 15 ∨ rm = 15 ∨ rs = 15 ∨ usesPc = true) :
    multiply sf rd rs rm usesPc r m s = .refused .mulUsesPc := by
  rw [multiply, if_neg h, if_pos (by simpa [or_assoc] using hpc)]

/-- With the operands the spec allows: the result in Rd, the flags and a free value drawn for C if S = 1 (R240, R241). -/
theorem multiply_allowed (sf : Bool) (r : Word) (h : rd ≠ rm) (hrd : rd ≠ 15) (hrm : rm ≠ 15) (hrs : rs ≠ 15) (hp : notAtTop s) :
    multiply sf rd rs rm false r m s =
      .next { s.setReg m rd r with
        cpsr := if sf then mulFlags s.cpsr r (Config.freeBit s.drawn) else s.cpsr
        drawn := if sf then s.drawn + 1 else s.drawn
        pc := s.pc + 4 } := by
  have hnext : ∃ t, multiply sf rd rs rm false r m s = .next t := by
    have hnames : ¬(rd = 15 || rm = 15 || rs = 15 || false) = true := by
      simp only [Bool.or_eq_true, decide_eq_true_eq, not_or]
      exact ⟨⟨⟨hrd, hrm⟩, hrs⟩, Bool.false_ne_true⟩
    rw [multiply, if_neg h, if_neg hnames]
    cases sf
    all_goals exact ⟨_, advance_of_notAtTop (by rw [State.setReg_pc _ hrd]; exact hp)⟩
  obtain ⟨t, ht⟩ := hnext
  obtain ⟨-, -, -, -, -, -, rfl⟩ := multiply_next ht
  exact ht

variable {c : Cond} {rn : Reg}

/-- MUL that executes (R240). -/
theorem exec_mul (sf : Bool) (he : executes c [rd, rn, rs, rm] m s) :
    exec (.mul c sf rd rn rs rm) s =
      multiply sf rd rs rm false (BitVec.ofNat 32 ((s.readReg m rm).toNat * (s.readReg m rs).toNat)) m { s with userLdm := false } := by
  change execMul c sf rd rn rs rm s = _
  rw [execMul, whenExecuted_executes he]
  simp only [State.readReg_userLdm, BitVec.ofNat_mul, BitVec.ofNat_toNat, BitVec.setWidth_eq]

/-- MLA that executes (R241). -/
theorem exec_mla (sf : Bool) (he : executes c [rd, rn, rs, rm] m s) :
    exec (.mla c sf rd rn rs rm) s =
      multiply sf rd rs rm (rn == 15)
        (BitVec.ofNat 32 ((s.readReg m rm).toNat * (s.readReg m rs).toNat + (s.readReg m rn).toNat)) m { s with userLdm := false } := by
  change execMla c sf rd rn rs rm s = _
  rw [execMla, whenExecuted_executes he]
  simp only [State.readReg_userLdm, BitVec.ofNat_add, BitVec.ofNat_mul, BitVec.ofNat_toNat, BitVec.setWidth_eq]

end Multiply

/-- Settles O30: both are `multiply` of the result named, and what that writes is known field by field. -/
theorem multiplies : Obligations.Multiplies := by
  intro c sf rd rn rs rm m s he hne hrd hrm hrs hp i r hi
  have hexec : exec i s = multiply sf rd rs rm false r m { s with userLdm := false } := by
    obtain ⟨rfl, rfl⟩ | ⟨rfl, hrn, rfl⟩ := hi
    · exact exec_mul sf he
    · rw [exec_mla sf he, beq_false_of_ne hrn]
  refine ⟨_, hexec.trans (multiply_allowed sf r hne hrd hrm hrs hp), ?readBack, ?otherRegs, rfl, ⟨_, rfl⟩, ?frame⟩
  case readBack => exact (State.readReg_of_regs hrd (by rfl)).trans (State.readReg_setReg_same (s := { s with userLdm := false }) r hrd)
  case otherRegs => exact keepsRegsBut_setReg { s with userLdm := false } m rd r
  case frame => exact ⟨by simp, keepsMemory_of (by simp) (by simp), ⟨by simp, by simp⟩, by simp⟩

/-! ## The long multiplies -/

theorem State.setPair_pc {s : State} {m : Mode} {rdHi rdLo : Reg} (p : BitVec 64) (hhi : rdHi ≠ 15) (hlo : rdLo ≠ 15) :
    (s.setPair m rdHi rdLo p).pc = s.pc := by
  rw [State.setPair, State.setReg_pc _ hhi, State.setReg_pc _ hlo]

/-- The pair RdHi : RdLo reads as it was written, as a number, whatever else is written besides the registers (R244). -/
theorem State.readPair_of_setPair {s t : State} {m : Mode} {rdHi rdLo : Reg} {p : BitVec 64} (hne : rdHi ≠ rdLo) (hhi : rdHi ≠ 15)
    (hlo : rdLo ≠ 15) (ht : t.regs = (s.setPair m rdHi rdLo p).regs) :
    (t.readReg m rdHi).toNat * 2 ^ 32 + (t.readReg m rdLo).toNat = p.toNat := by
  have hbound : p.toNat < 2 ^ 64 := p.isLt
  rw [State.readReg_of_regs hhi ht, State.readReg_of_regs hlo ht, State.setPair, State.readReg_setReg_same _ hhi,
    State.readReg_setReg_other _ hne.symm hlo, State.readReg_setReg_same _ hlo, BitVec.extractLsb'_toNat, BitVec.extractLsb'_toNat,
    Nat.shiftRight_eq_div_pow, Nat.shiftRight_zero]
  omega

/-- The register restrictions of R248, one by one. -/
theorem longMultiplyOk_iff {rdHi rdLo rs rm : Reg} :
    longMultiplyOk rdHi rdLo rs rm = true ↔
      rdHi ≠ rdLo ∧ rdHi ≠ rm ∧ rdLo ≠ rm ∧ rdHi ≠ 15 ∧ rdLo ≠ 15 ∧ rs ≠ 15 ∧ rm ≠ 15 := by
  simp only [longMultiplyOk, Bool.and_eq_true, bne_iff_ne, and_assoc]

section LongMultiply

variable {rdHi rdLo rs rm : Reg} {m : Mode} {s : State}

/-- The rule in terms of the well-formedness of the instruction: the core without the long multiplier (R250, U3), the registers that
clash (R248, U23), and the pair written, with the flags if S = 1 (R244). -/
theorem longMultiply_eq (sf : Bool) (p : BitVec 64) :
    longMultiply sf rdHi rdLo rs rm p m s =
      if !s.platform.hasM then .refused .noLongMultiplier
      else if !longMultiplyOk rdHi rdLo rs rm then .refused .longMultiplyClash
      else if sf then
        advance (State.setPair { s with cpsr := mullFlags s.cpsr p (Config.freeBit s.drawn) (Config.freeBit (s.drawn + 1))
                                        drawn := s.drawn + 2 } m rdHi rdLo p)
      else advance (s.setPair m rdHi rdLo p) := by
  rw [longMultiply]
  simp only [longMultiplyOk, bne, Bool.not_and, Bool.not_not]
  rfl

theorem longMultiply_of_noMultiplier (sf : Bool) (p : BitVec 64) (h : s.platform.hasM = false) :
    longMultiply sf rdHi rdLo rs rm p m s = .refused .noLongMultiplier := by
  rw [longMultiply_eq, h]
  rfl

theorem longMultiply_of_clash (sf : Bool) (p : BitVec 64) (h : s.platform.hasM = true) (hok : longMultiplyOk rdHi rdLo rs rm = false) :
    longMultiply sf rdHi rdLo rs rm p m s = .refused .longMultiplyClash := by
  rw [longMultiply_eq, h, hok]
  rfl

/-- With the operands the spec allows: the result in RdHi : RdLo, the flags and two free values drawn if S = 1 (R244). -/
theorem longMultiply_allowed (sf : Bool) (p : BitVec 64) (h : s.platform.hasM = true) (hok : longMultiplyOk rdHi rdLo rs rm = true)
    (hp : notAtTop s) :
    longMultiply sf rdHi rdLo rs rm p m s =
      .next { s.setPair m rdHi rdLo p with
        cpsr := if sf then mullFlags s.cpsr p (Config.freeBit s.drawn) (Config.freeBit (s.drawn + 1)) else s.cpsr
        drawn := if sf then s.drawn + 2 else s.drawn
        pc := s.pc + 4 } := by
  obtain ⟨-, -, -, hhi, hlo, -, -⟩ := longMultiplyOk_iff.mp hok
  have hnext : ∃ t, longMultiply sf rdHi rdLo rs rm p m s = .next t := by
    rw [longMultiply_eq, h, hok]
    cases sf
    all_goals exact ⟨_, advance_of_notAtTop (by rw [State.setPair_pc _ hhi hlo]; exact hp)⟩
  obtain ⟨t, ht⟩ := hnext
  obtain ⟨-, -, -, rfl⟩ := longMultiply_next ht
  exact ht

end LongMultiply

/-! ### The results as numbers -/

@[simp] theorem unsignedProduct_userLdm (s : State) (m : Mode) (rs rm : Reg) (b : Bool) :
    unsignedProduct { s with userLdm := b } m rs rm = unsignedProduct s m rs rm := by
  simp only [unsignedProduct, State.readReg_userLdm]

@[simp] theorem signedProduct_userLdm (s : State) (m : Mode) (rs rm : Reg) (b : Bool) :
    signedProduct { s with userLdm := b } m rs rm = signedProduct s m rs rm := by
  simp only [signedProduct, State.readReg_userLdm]

@[simp] theorem accumulator_userLdm (s : State) (m : Mode) (rdHi rdLo : Reg) (b : Bool) :
    accumulator { s with userLdm := b } m rdHi rdLo = accumulator s m rdHi rdLo := by
  simp only [accumulator, State.readReg_userLdm]

section Accumulate

variable (s : State) (m : Mode) (rdHi rdLo rs rm : Reg)

/-- The accumulator is the number whose high word is RdHi (R245). -/
theorem toNat_accumulator :
    (accumulator s m rdHi rdLo).toNat = (s.readReg m rdHi).toNat * 2 ^ 32 + (s.readReg m rdLo).toNat := by
  rw [accumulator, BitVec.toNat_append, ← Nat.shiftLeft_add_eq_or_of_lt (s.readReg m rdLo).isLt, Nat.shiftLeft_eq]

/-- UMLAL's sum is taken of the numbers, then modulo 2^64 (R245). -/
theorem unsignedProduct_add_accumulator :
    unsignedProduct s m rs rm + accumulator s m rdHi rdLo =
      BitVec.ofNat 64 ((s.readReg m rm).toNat * (s.readReg m rs).toNat
        + ((s.readReg m rdHi).toNat * 2 ^ 32 + (s.readReg m rdLo).toNat)) := by
  rw [← toNat_accumulator, BitVec.ofNat_add, BitVec.ofNat_toNat, BitVec.setWidth_eq, unsignedProduct]

/-- SMLAL's sum is taken of the signed product and the accumulator as an unsigned number, then modulo 2^64 (R247). -/
theorem signedProduct_add_accumulator :
    signedProduct s m rs rm + accumulator s m rdHi rdLo =
      BitVec.ofInt 64 ((s.readReg m rm).toInt * (s.readReg m rs).toInt
        + ((s.readReg m rdHi).toNat * 2 ^ 32 + (s.readReg m rdLo).toNat)) := by
  have hcast : ((s.readReg m rdHi).toNat * 2 ^ 32 + (s.readReg m rdLo).toNat : Int) = ((accumulator s m rdHi rdLo).toNat : Int) := by
    rw [toNat_accumulator]
    push_cast
    rfl
  rw [hcast, BitVec.ofInt_add, BitVec.ofInt_natCast, BitVec.ofNat_toNat, BitVec.setWidth_eq, signedProduct]

end Accumulate

/-- The four long multiplies with their results, as the spec's sums of numbers modulo 2^64 (R244 to R247). -/
def longProducts (c : Cond) (sf : Bool) (rdHi rdLo rs rm : Reg) (m : Mode) (s : State) : List (Instr × BitVec 64) :=
  [(.umull c sf rdHi rdLo rs rm, BitVec.ofNat 64 ((s.readReg m rm).toNat * (s.readReg m rs).toNat)),
    (.umlal c sf rdHi rdLo rs rm, BitVec.ofNat 64 ((s.readReg m rm).toNat * (s.readReg m rs).toNat
      + ((s.readReg m rdHi).toNat * 2 ^ 32 + (s.readReg m rdLo).toNat))),
    (.smull c sf rdHi rdLo rs rm, BitVec.ofInt 64 ((s.readReg m rm).toInt * (s.readReg m rs).toInt)),
    (.smlal c sf rdHi rdLo rs rm, BitVec.ofInt 64 ((s.readReg m rm).toInt * (s.readReg m rs).toInt
      + ((s.readReg m rdHi).toNat * 2 ^ 32 + (s.readReg m rdLo).toNat)))]

/-- A long multiply that executes comes to `longMultiply` of its result. -/
theorem exec_of_mem_longProducts {c : Cond} {sf : Bool} {rdHi rdLo rs rm : Reg} {m : Mode} {s : State} {i : Instr} {p : BitVec 64}
    (he : executes c [rdHi, rdLo, rs, rm] m s) (hi : (i, p) ∈ longProducts c sf rdHi rdLo rs rm m s) :
    exec i s = longMultiply sf rdHi rdLo rs rm p m { s with userLdm := false } := by
  simp only [longProducts, List.mem_cons, Prod.mk.injEq, List.not_mem_nil, or_false] at hi
  obtain ⟨rfl, rfl⟩ | ⟨rfl, rfl⟩ | ⟨rfl, rfl⟩ | ⟨rfl, rfl⟩ := hi
  · change execUmull c sf rdHi rdLo rs rm s = _
    rw [execUmull, whenExecuted_executes he, unsignedProduct_userLdm, unsignedProduct]
  · change execUmlal c sf rdHi rdLo rs rm s = _
    rw [execUmlal, whenExecuted_executes he, unsignedProduct_userLdm, accumulator_userLdm, unsignedProduct_add_accumulator]
  · change execSmull c sf rdHi rdLo rs rm s = _
    rw [execSmull, whenExecuted_executes he, signedProduct_userLdm, signedProduct]
  · change execSmlal c sf rdHi rdLo rs rm s = _
    rw [execSmlal, whenExecuted_executes he, signedProduct_userLdm, accumulator_userLdm, signedProduct_add_accumulator]

/-- Settles O31: each of the four is `longMultiply` of its result, and what that writes is known field by field. -/
theorem longMultiplies : Obligations.LongMultiplies := by
  intro c sf rdHi rdLo rs rm m s he hM hok hp i p hi
  obtain ⟨hne, -, -, hhi, hlo, -, -⟩ := longMultiplyOk_iff.mp hok
  refine ⟨_, (exec_of_mem_longProducts he hi).trans (longMultiply_allowed sf p hM hok hp), ?readBack, ?otherRegs, rfl, ⟨_, _, rfl⟩,
    ?frame⟩
  case readBack => exact State.readPair_of_setPair (s := { s with userLdm := false }) hne hhi hlo rfl
  case otherRegs => exact keepsRegsBut_setPair { s with userLdm := false } m rdHi rdLo p
  case frame => exact ⟨by simp, keepsMemory_of (by simp) (by simp), ⟨by simp, by simp⟩, by simp⟩

/-- Settles O32: the refusals of the two rules, for every result. -/
theorem multiplyRefusals : Obligations.MultiplyRefusals := by
  intro c sf a b rs rm m s he
  rw [exec_mul sf he, exec_mla sf he]
  refine ⟨fun h => ?rdIsRm, fun h hpc => ?pc, fun h hb => ?addendPc, fun i hi => ?long⟩
  case rdIsRm => exact ⟨multiply_of_rd_eq_rm _ _ _ h, multiply_of_rd_eq_rm _ _ _ h⟩
  case pc =>
    have hnames (usesPc : Bool) : a = 15 ∨ rm = 15 ∨ rs = 15 ∨ usesPc = true := hpc.imp_right (Or.imp_right Or.inl)
    exact ⟨multiply_of_pc _ _ h (hnames _), multiply_of_pc _ _ h (hnames _)⟩
  case addendPc => exact multiply_of_pc _ _ h (.inr (.inr (.inr (beq_iff_eq.mpr hb))))
  case long =>
    have hi' : i ∈ (longProducts c sf a b rs rm m s).map Prod.fst := hi
    obtain ⟨⟨_, p⟩, hmem, rfl⟩ := List.mem_map.mp hi'
    rw [exec_of_mem_longProducts he hmem]
    exact ⟨fun hM => longMultiply_of_noMultiplier sf p hM, fun hM hok => longMultiply_of_clash sf p hM hok⟩

end Sys2Proof.Machine
end

section
/-! PROOFS. O33 to O36 and O38. A single transfer is the shared load or the shared store of its row, and the two have their checks in
common: each check that stops a transfer is said once for both. An accepted transfer is then a memory access, the base, and for a load
Rd. -/

namespace Sys2Proof.Machine

/-! ## The moved base -/

/-- An allowed transfer that writes its base leaves the moved base there, whatever is written besides the registers (R263). -/
theorem readReg_of_updateBase {wd : Width} {tr : Bool} {ix : Indexing} {rn rd : Reg} {off : Offset} {m : Mode} {s t : State} {v : Word}
    (hn : transferRefusal wd tr ix rn rd off = none) (hw : writesBase ix = true) (ht : t.regs = (updateBase s m ix rn v).regs) :
    t.readReg m rn = v := by
  obtain ⟨hrn, -⟩ := transferRefusal_base hn hw
  rw [State.readReg_of_regs hrn ht, updateBase, if_pos hw, State.readReg_setReg_same v hrn]

/-- The halfword form's two fields are the digits of the offset in base 16 (R272). -/
theorem toNat_offsetValue_halfOffset (s : State) (m : Mode) (hi lo : BitVec 4) :
    (offsetValue s m (halfOffset hi lo)).toNat = 16 * hi.toNat + lo.toNat := by
  have hbound : (hi ++ lo).toNat < 2 ^ 32 := (hi ++ lo).isLt.trans (by decide)
  calc ((hi ++ lo).setWidth 32).toNat
      = (hi ++ lo).toNat := by rw [BitVec.toNat_setWidth, Nat.mod_eq_of_lt hbound]
    _ = hi.toNat * 2 ^ 4 + lo.toNat := by rw [BitVec.toNat_append, ← Nat.shiftLeft_add_eq_or_of_lt lo.isLt, Nat.shiftLeft_eq]
    _ = 16 * hi.toNat + lo.toNat := by omega

/-- Settles O33: the two forms of an immediate as numbers; the rest is how the operands are defined. -/
theorem transferAddresses : Obligations.TransferAddresses := by
  intro s m u rn off
  refine ⟨rfl, rfl, rfl, rfl, fun x => ?imm, toNat_offsetValue_halfOffset s m, fun _ _ _ => rfl, fun rm => ?unshifted⟩
  case imm =>
    have hbound : x.toNat < 2 ^ 32 := x.isLt.trans (by decide)
    exact (BitVec.toNat_setWidth 32 x).trans (Nat.mod_eq_of_lt hbound)
  case unshifted => exact congrArg Shifted.value (shiftLsl_zero (s.readReg m rm) s.cpsr.c)

/-! ## The checks that loads and stores share -/

/-- The rule a transfer of row `x` comes to, a load or a store. -/
def Transfer.run (x : Transfer) (m : Mode) (s : State) : Out :=
  if x.load then loadSingle x.wd x.signed x.translated x.ix x.u x.rn x.rd x.off m s
  else storeSingle x.wd x.translated x.ix x.u x.rn x.rd x.off m s

/-- The kind of access a transfer of row `x` makes. -/
abbrev Transfer.kind (x : Transfer) : AccessKind := if x.load then .read else .write

section Transfers

variable {i : Instr} {x : Transfer} {m : Mode} {s : State} {a : Word}

theorem Transfer.run_load (hl : x.load = true) :
    x.run m s = loadSingle x.wd x.signed x.translated x.ix x.u x.rn x.rd x.off m s := if_pos hl

theorem Transfer.run_store (hl : x.load = false) :
    x.run m s = storeSingle x.wd x.translated x.ix x.u x.rn x.rd x.off m s := if_neg (by simp [hl])

/-- A valid row that executes comes to its rule. -/
theorem exec_eq_run (h : transferOf i = some x) (he : executes x.c (transferRegs x.rn x.rd x.off) m s)
    (hh : x.half = true → s.platform.hasV4 = true) (hv : x.valid = true) : exec i s = x.run m { s with userLdm := false } :=
  (exec_transfer h he hh).trans (if_pos hv)

/-- Refused operands stop a transfer before its address is looked at (R277). -/
theorem Transfer.run_of_refusal {r : Refusal} (hr : transferRefusal x.wd x.translated x.ix x.rn x.rd x.off = some r) :
    x.run m s = .refused r := by
  cases hl : x.load
  case true => simp only [run_load hl, loadSingle, hr]
  case false => simp only [run_store hl, storeSingle, hr]

/-- An address that is not aligned stops a transfer before the memory system is asked (R91). -/
theorem Transfer.run_of_misaligned (hn : transferRefusal x.wd x.translated x.ix x.rn x.rd x.off = none)
    (ha : aligned x.wd (transferAddress s m x.ix x.u x.rn x.off) = false) : x.run m s = .refused .misalignedAccess := by
  cases hl : x.load
  case true => simp [run_load hl, loadSingle, hn, ha]
  case false => simp [run_store hl, storeSingle, hn, ha]

/-- An access that the map says is absent or a device's ends in the fault or the refusal of its name, whatever the kind (D8). -/
theorem Transfer.run_of_unmapped (haddr : transferAddress s m x.ix x.u x.rn x.off = a)
    (hn : transferRefusal x.wd x.translated x.ix x.rn x.rd x.off = none) (ha : aligned x.wd a = true) :
    (answer s x.kind (m.privileged && !x.translated) a x.wd = .absent → x.run m s = .fault .absentAddress)
      ∧ (answer s x.kind (m.privileged && !x.translated) a x.wd = .device → x.run m s = .refused .deviceAccess) := by
  cases hl : x.load
  case true =>
    have hkind : x.kind = .read := if_pos hl
    rw [hkind, run_load hl]
    exact ⟨fun hk => by simp [loadSingle, haddr, hn, ha, State.read_eq, hk, MemResult.andThen],
      fun hk => by simp [loadSingle, haddr, hn, ha, State.read_eq, hk, MemResult.andThen]⟩
  case false =>
    have hkind : x.kind = .write := if_neg (by simp [hl])
    rw [hkind, run_store hl]
    exact ⟨fun hk => by simp [storeSingle, haddr, hn, ha, State.write_eq, hk, MemResult.andThen],
      fun hk => by simp [storeSingle, haddr, hn, ha, State.write_eq, hk, MemResult.andThen]⟩

/-- A row that moves a word is none of the halfword forms: version 4 is not asked for, and no form of it is refused (R272). -/
theorem transferOf_word (h : transferOf i = some x) (hw : x.wd = .word) : x.half = false ∧ x.valid = true := by
  cases i
  case strhImm | strhReg | ldrhImm | ldrhReg | ldrsbImm | ldrsbReg | ldrshImm | ldrshReg => cases h; cases hw
  all_goals cases h
  all_goals exact ⟨rfl, rfl⟩

end Transfers

/-- Settles O38: the checks in their order, each for loads and stores at once. -/
theorem transferRefusals : Obligations.TransferRefusals := by
  intro i x m s a h he hh haddr
  have haddr' := (transferAddress_userLdm s m x.ix x.u x.rn x.off false).trans haddr.symm
  refine ⟨fun hv => ?invalid, fun hv r hr => ?operands, fun hv hn => ⟨fun ha => ?misaligned, fun ha => ?absent, fun ha => ?device⟩⟩
  case invalid => rw [exec_transfer h he hh, hv]; rfl
  all_goals rw [exec_eq_run h he hh hv]
  case operands => exact Transfer.run_of_refusal hr
  case misaligned => exact Transfer.run_of_misaligned hn (haddr' ▸ ha)
  case absent => exact (Transfer.run_of_unmapped haddr' hn ha).1
  case device => exact (Transfer.run_of_unmapped haddr' hn ha).2

/-! ## Accepted transfers -/

section Accepted

variable {i : Instr} {x : Transfer} {m : Mode} {s : State} {a : Word}
  (h : transferOf i = some x) (he : executes x.c (transferRegs x.rn x.rd x.off) m s) (hv : x.valid = true)
  (hh : x.half = true → s.platform.hasV4 = true) (hn : transferRefusal x.wd x.translated x.ix x.rn x.rd x.off = none)
  (haddr : a = transferAddress s m x.ix x.u x.rn x.off) (ha : aligned x.wd a = true)

include h he hv hh hn haddr ha

/-- A load that executes and is accepted ends in writing Rd, with the base moved (R263, R264). -/
theorem exec_load_accepted (hl : x.load = true) (hok : answer s .read (m.privileged && !x.translated) a x.wd = .ok) :
    exec i s = writeRd m x.rd (extendLoaded x.wd x.signed (Memory.read s.platform.bigEnd s.mem a x.wd))
      (updateBase { s with userLdm := false } m x.ix x.rn (movedBase s m x.u x.rn x.off)) := by
  have haddr' := (transferAddress_userLdm s m x.ix x.u x.rn x.off false).trans haddr.symm
  rw [exec_eq_run h he hh hv, Transfer.run_load hl, loadSingle_accepted haddr' hn ha hok, movedBase_userLdm]

/-- A load below r15 that executes and is accepted: Rd is written after the base (R263, R264). -/
theorem exec_load_accepted_reg (hl : x.load = true) (hok : answer s .read (m.privileged && !x.translated) a x.wd = .ok)
    (hrd : x.rd ≠ 15) (hp : notAtTop s) :
    exec i s = .next { (updateBase { s with userLdm := false } m x.ix x.rn (movedBase s m x.u x.rn x.off)).setReg m x.rd
      (extendLoaded x.wd x.signed (Memory.read s.platform.bigEnd s.mem a x.wd)) with pc := s.pc + 4 } := by
  have hpc : (updateBase { s with userLdm := false } m x.ix x.rn (movedBase s m x.u x.rn x.off)).pc = s.pc :=
    updateBase_pc fun hw => (transferRefusal_base hn hw).1
  rw [exec_load_accepted h he hv hh hn haddr ha hl hok, writeRd_of_ne hrd (by rw [hpc]; exact hp), hpc]

/-- A store that executes and is accepted leaves its bytes in memory and moves the base (R263, R265). -/
theorem exec_store_accepted (hl : x.load = false) (hok : answer s .write (m.privileged && !x.translated) a x.wd = .ok)
    (hp : notAtTop s) :
    exec i s = .next { updateBase (State.stores { s with userLdm := false } a x.wd (storedValue s m x.rd)) m x.ix x.rn
      (movedBase s m x.u x.rn x.off) with pc := s.pc + 4 } := by
  have haddr' := (transferAddress_userLdm s m x.ix x.u x.rn x.off false).trans haddr.symm
  have hpc : (updateBase (State.stores { s with userLdm := false } a x.wd (storedValue s m x.rd)) m x.ix x.rn
      (movedBase s m x.u x.rn x.off)).pc = s.pc := updateBase_pc fun hw => (transferRefusal_base hn hw).1
  rw [exec_eq_run h he hh hv, Transfer.run_store hl, storeSingle_accepted haddr' hn ha hok, movedBase_userLdm, storedValue_userLdm,
    advance_of_notAtTop (by rw [hpc]; exact hp), hpc]

end Accepted

/-- Settles O34: the base is moved, then Rd written; an allowed load has them in two registers. -/
theorem loads : Obligations.Loads := by
  intro i x m s h hl he hv hh hn hrd hp a haddr ha hok
  refine ⟨_, exec_load_accepted_reg h he hv hh hn haddr ha hl hok hrd hp, ?datum, fun hw => ?base, ?otherRegs, rfl, by simp, ?frame⟩
  case datum => exact (State.readReg_of_regs hrd (by rfl)).trans (State.readReg_setReg_same _ hrd)
  case base =>
    obtain ⟨hrn, hne⟩ := transferRefusal_base hn hw
    exact (State.readReg_of_regs hrn (by rfl)).trans
      ((State.readReg_setReg_other _ hne hrn).trans (readReg_of_updateBase hn hw (by rfl)))
  case otherRegs =>
    have hbase := keepsRegsBut_updateBase { s with userLdm := false } m x.ix x.rn (movedBase s m x.u x.rn x.off)
    exact (hbase.mono (by split <;> simp)).trans ((keepsRegsBut_setReg _ m x.rd _).mono (by split <;> simp))
  case frame => exact ⟨by simp, keepsMemory_of (by simp) (by simp), ⟨by simp, by simp⟩, by simp, by simp⟩

/-- Settles O35: a transfer of r15 is a word's, so it is never one of the halfword forms, and its end is `branchTo`. -/
theorem loadOfPc : Obligations.LoadOfPc := by
  intro i x m s h hl he hn hrd a v haddr ha hok hv
  obtain ⟨hword, htr⟩ := transferRefusal_pc hn hrd
  obtain ⟨hhalf, hvalid⟩ := transferOf_word h hword
  have hexec : exec i s =
      branchTo v (updateBase { s with userLdm := false } m x.ix x.rn (movedBase s m x.u x.rn x.off)) := by
    have hh : x.half = true → s.platform.hasV4 = true := by simp [hhalf]
    have hok' : answer s .read (m.privileged && !x.translated) a x.wd = .ok := by rw [hword, htr]; simpa using hok
    rw [exec_load_accepted h he hvalid hh hn haddr (hword ▸ ha) hl hok', writeRd, if_pos hrd, hword, hv]
    rfl
  refine ⟨fun hlow => hexec.trans (if_neg hlow),
    fun hlow => ⟨_, hexec.trans (if_pos hlow), rfl, fun hw => ?base, keepsRegsBut_updateBase _ m x.ix x.rn _, by simp, ?frame⟩⟩
  case base => exact readReg_of_updateBase hn hw (by rfl)
  case frame => exact ⟨by simp, keepsMemory_of (by simp) (by simp), ⟨by simp, by simp⟩, by simp, by simp⟩

/-- Settles O36: what a write leaves in memory is O9's, and the base is the one register written. -/
theorem stores : Obligations.Stores := by
  intro i x m s h hl he hv hh hn hp a haddr ha hok
  refine ⟨_, exec_store_accepted h he hv hh hn haddr ha hl hok hp, ?readBack, fun y hy => ?otherBytes, fun k => ?stored,
    fun hw => ?base, keepsRegsBut_updateBase _ m x.ix x.rn _, rfl, by simp, by simp, ⟨by simp, by simp⟩, by simp, by simp⟩
  case readBack => simpa using Memory.read_write s.platform.bigEnd s.mem a x.wd (storedValue s m x.rd)
  case otherBytes => simpa using Memory.get_write_other s.platform.bigEnd s.mem a x.wd (storedValue s m x.rd) hy
  case stored => simpa using mem_addStored
  case base => exact readReg_of_updateBase hn hw (by rfl)

end Sys2Proof.Machine
end

section
/-! PROOFS. O39 to O43. A block transfer stops at the first of its checks that fails. One that passes them, with every access accepted,
ends from one state: for an LDM the one with the words in their registers and the base moved, for an STM the one with the words in memory
and the base moved. What the statements say of registers, memory and pc is said of these two states. -/

namespace Sys2Proof.Machine

/-! ## Refused block transfers -/

theorem Mode.spsr_eq_none {m : Mode} : m.spsr = none ↔ m = .user ∨ m = .system := by
  cases m <;> simp [Mode.spsr]

/-- A base that is in the list is not its lowest register if the list has a register below it (R294). -/
theorem baseNotLowest_eq (rn : Reg) (list : BitVec 16) :
    baseNotLowest rn list = (list.getLsbD rn.toNat && listsBelow list rn) := by
  have hbelow : ((listRegs list).any fun i => decide (i.toNat < rn.toNat)) = listsBelow list rn := by
    rw [listsBelow, Bool.eq_iff_iff, List.any_eq_true, List.any_eq_true]
    simp only [mem_listRegs, decide_eq_true_eq, List.mem_range]
    constructor
    · rintro ⟨i, hi, hlt⟩
      exact ⟨i.toNat, hlt, hi⟩
    · rintro ⟨k, hlt, hk⟩
      have hnum : (BitVec.ofNat 4 k).toNat = k := Nat.mod_eq_of_lt (hlt.trans rn.isLt)
      exact ⟨BitVec.ofNat 4 k, by rwa [hnum], by rwa [hnum]⟩
  rw [baseNotLowest, hbelow]

section Refused

variable {c : Cond} {p u sb w : Bool} {rn : Reg} {list : BitVec 16} {m : Mode} {s : State} {r : Refusal}

theorem exec_ldm_refused (he : executes c (blockRegs rn list) m s)
    (hr : blockRefusal s m sb w rn list (list.getLsbD rn.toNat) (loadsUserBank sb list) = some r) :
    exec (.ldm c p u sb w rn list) s = .refused r := by
  rw [exec_ldm he, loadBlock]
  simp only [blockRefusal_userLdm, hr]

theorem exec_stm_refused (he : executes c (blockRegs rn list) m s)
    (hr : blockRefusal s m sb w rn list (baseNotLowest rn list) sb = some r) :
    exec (.stm c p u sb w rn list) s = .refused r := by
  rw [exec_stm he, storeBlock]
  simp only [blockRefusal_userLdm, hr]

end Refused

/-- Settles O43: LDM and STM make the checks of `blockRefusal`, and each clause is the first of them that fails. -/
theorem blockRefusals : Obligations.BlockRefusals := by
  intro c p u sb w rn list m s i clash userBank he hi
  have stops {r : Refusal} (hr : blockRefusal s m sb w rn list clash userBank = some r) : exec i s = .refused r := by
    obtain ⟨rfl, rfl, rfl⟩ | ⟨rfl, rfl, rfl⟩ := hi
    · exact exec_ldm_refused he hr
    · exact exec_stm_refused he (baseNotLowest_eq rn list ▸ hr)
  refine ⟨fun h0 => stops ?emptyList, fun h0 h15 => stops ?baseIsPc, fun h0 h15 ha => stops ?misaligned, fun h0 h15 ha => ?aligned⟩
  case emptyList => exact if_pos h0
  case baseIsPc => rw [blockRefusal, if_neg h0, if_pos h15]
  case misaligned =>
    have halign : (!aligned .word (s.readReg m rn)) = true := by simpa [aligned, field] using ha
    rw [blockRefusal, if_neg h0, if_neg h15, if_pos halign]
  case aligned =>
    have halign : ¬(!aligned .word (s.readReg m rn)) = true := by simpa [aligned, field] using ha
    refine ⟨fun hw hc => stops ?baseInList, fun hwc hsb hm => stops ?noSpsr, fun hwc hu hs hub hw => stops ?writeBack⟩
    all_goals rw [blockRefusal, if_neg h0, if_neg h15, if_neg halign]
    case baseInList => simp [hw, hc]
    case noSpsr => simp [hwc, hsb, Mode.spsr_eq_none.mpr hm]
    case writeBack =>
      have hspsr : m.spsr ≠ none := fun h => (Mode.spsr_eq_none.mp h).elim hu hs
      have hclash : clash = false := by simpa [hw] using hwc
      simp [hclash, hspsr, hub, hw]

/-! ## The common end of block transfers -/

/-- The base of a block transfer with W = 1 holds the new base (R295). -/
theorem readReg_blockWriteBack {m : Mode} {w : Bool} {rn : Reg} (v : Word) (s : State) (hw : w = true) (hrn : rn ≠ 15) :
    (blockWriteBack m w rn v s).readReg m rn = v := by
  rw [blockWriteBack, if_pos hw, State.readReg_setReg_same v hrn]

theorem blockWriteBack_of_not {m : Mode} {w : Bool} {rn : Reg} (v : Word) (s : State) (hw : w = false) :
    blockWriteBack m w rn v s = s := by
  rw [blockWriteBack, hw]; rfl

/-- The advance from a state whose pc is known to be `a`. -/
theorem advance_of_pc {s : State} {a : Word} (h : s.pc = a) (ha : a ≠ 0xFFFFFFFC) : advance s = .next { s with pc := a + 4 } := by
  subst h
  exact advance_of_notAtTop ha

/-! ## Accepted loads -/

/-- In a list without r15 every register is below it. -/
theorem ne_fifteen_of_mem {list : BitVec 16} {i : Reg} (h15 : list.getLsbD 15 = false) (hi : i ∈ listRegs list) : i ≠ 15 := by
  rintro rfl
  exact Bool.false_ne_true (h15.symm.trans (mem_listRegs.mp hi))

theorem nodup_fst_blockWords (s : State) (start : Word) (list : BitVec 16) :
    (((listRegs list).zip (blockWords s start list)).map (·.1)).Nodup := by
  rw [map_fst_blockWords]
  exact listRegs_nodup list

/-- The state an LDM ends from: the words of the block in the registers of `bank`, then the base moved (R293, R295). -/
def loadedBlock (bank : Mode) (userBank u w : Bool) (rn : Reg) (list : BitVec 16) (m : Mode) (s : State) (start : Word) : State :=
  { blockWriteBack m w rn (blockNewBase u (s.readReg m rn) list)
      (State.loadRegs bank { s with userLdm := false } ((listRegs list).zip (blockWords s start list))) with
    userLdm := userBank }

section Loads

variable {c : Cond} {p u sb w userBank : Bool} {rn : Reg} {list : BitVec 16} {m bank : Mode} {s : State} {start : Word}

/-- An LDM that executes, is allowed and is accepted ends from `loadedBlock` (R293). -/
theorem exec_ldm_accepted (he : executes c (blockRegs rn list) m s) (hu : loadsUserBank sb list = userBank)
    (hbank : bank = if userBank then .user else m)
    (hn : blockRefusal s m sb w rn list (list.getLsbD rn.toNat) userBank = none)
    (hstart : start = blockStart p u (s.readReg m rn) list)
    (ha : ∀ k, k < (listRegs list).length → answer s .read m.privileged (start + BitVec.ofNat 32 (4 * k)) .word = .ok) :
    exec (.ldm c p u sb w rn list) s = finishLoad sb list m (loadedBlock bank userBank u w rn list m s start) := by
  subst hu hbank hstart
  exact (exec_ldm he).trans (loadBlock_ok (s := { s with userLdm := false }) hn ha)

@[simp] theorem loadedBlock_cpsr : (loadedBlock bank userBank u w rn list m s start).cpsr = s.cpsr := by simp [loadedBlock]

@[simp] theorem loadedBlock_spsrs : (loadedBlock bank userBank u w rn list m s start).spsrs = s.spsrs := by simp [loadedBlock]

@[simp] theorem loadedBlock_platform : (loadedBlock bank userBank u w rn list m s start).platform = s.platform := by simp [loadedBlock]

/-- Beside registers, pc and the bit for a user-bank LDM, a load changes nothing. -/
theorem loadedBlock_frame (bank : Mode) (userBank u w : Bool) (rn : Reg) (list : BitVec 16) (m : Mode) (s : State) (start : Word) :
    (loadedBlock bank userBank u w rn list m s start).spsrs = s.spsrs
      ∧ keepsMemory s (loadedBlock bank userBank u w rn list m s start)
      ∧ keepsInputs s (loadedBlock bank userBank u w rn list m s start)
      ∧ (loadedBlock bank userBank u w rn list m s start).drawn = s.drawn
      ∧ (loadedBlock bank userBank u w rn list m s start).userLdm = userBank :=
  ⟨loadedBlock_spsrs, keepsMemory_of (by simp [loadedBlock]) (by simp [loadedBlock]), ⟨by simp [loadedBlock], by simp [loadedBlock]⟩,
    by simp [loadedBlock], rfl⟩

/-- r15 gets the word at its place (R293). -/
theorem loadedBlock_pc_of_listed (hrn : rn ≠ 15) (h15 : (15 : Reg) ∈ listRegs list) :
    (loadedBlock bank userBank u w rn list m s start).pc =
      Memory.read s.platform.bigEnd s.mem (start + BitVec.ofNat 32 (4 * listRank list 15)) .word :=
  (blockWriteBack_pc hrn).trans (State.loadRegs_pc _ _ (nodup_fst_blockWords s start list) (mem_zip_blockWords s start h15))

/-- A load without r15 leaves the pc. -/
theorem loadedBlock_pc_of_not_listed (hrn : rn ≠ 15) (h15 : (15 : Reg) ∉ listRegs list) :
    (loadedBlock bank userBank u w rn list m s start).pc = s.pc :=
  (blockWriteBack_pc hrn).trans (State.loadRegs_pc_other _ _ (by rwa [map_fst_blockWords]))

/-- The base holds the new base (R292, R295). -/
theorem loadedBlock_base (hrn : rn ≠ 15) (hw : w = true) :
    (loadedBlock bank userBank u w rn list m s start).readReg m rn = blockNewBase u (s.readReg m rn) list :=
  (State.readReg_userLdm _ m rn userBank).trans (readReg_blockWriteBack _ _ hw hrn)

section Allowed

variable (hbank : bank = if userBank then .user else m)
  (hn : blockRefusal s m sb w rn list (list.getLsbD rn.toNat) userBank = none)

include hbank hn

/-- With write-back, the base is a register of the bank that is loaded, and not in the list (R296, R299). -/
theorem writeBack_allowed (hw : w = true) : bank = m ∧ rn ∉ listRegs list := by
  obtain ⟨-, -, -, hclash, -, huser⟩ := blockRefusal_none.mp hn
  have huserBank : ¬userBank = true := fun h => huser ⟨h, hw⟩
  exact ⟨hbank.trans (if_neg huserBank), fun hmem => hclash ⟨hw, mem_listRegs.mp hmem⟩⟩

/-- Each register of the list below r15 holds the word at its place: the base, written last, is none of them (R292, R293). -/
theorem loadedBlock_readReg {i : Reg} (hi : i ∈ listRegs list) (hi15 : i ≠ 15) :
    (loadedBlock bank userBank u w rn list m s start).readReg bank i =
      Memory.read s.platform.bigEnd s.mem (start + BitVec.ofNat 32 (4 * listRank list i)) .word := by
  have hloaded := State.readReg_loadRegs (m := bank) _ { s with userLdm := false } hi15 (nodup_fst_blockWords s start list)
    (mem_zip_blockWords s start hi)
  rw [loadedBlock, State.readReg_userLdm]
  cases hw : w
  case false => rwa [blockWriteBack_of_not _ _ rfl]
  case true =>
    obtain ⟨rfl, hnot⟩ := writeBack_allowed hbank hn hw
    have hne : i ≠ rn := fun h => hnot (h ▸ hi)
    rw [blockWriteBack, if_pos rfl, State.readReg_setReg_other _ hne hi15, hloaded]

/-- A load changes the registers of the list and a written base, and no other. -/
theorem loadedBlock_keepsRegsBut :
    keepsRegsBut bank (if w then rn :: listRegs list else listRegs list) s (loadedBlock bank userBank u w rn list m s start) := by
  have hloaded := keepsRegsBut_loadRegs bank ((listRegs list).zip (blockWords s start list)) { s with userLdm := false }
  rw [map_fst_blockWords] at hloaded
  cases hw : w
  case false =>
    rw [loadedBlock, blockWriteBack_of_not _ _ rfl]
    exact hloaded
  case true =>
    obtain ⟨rfl, -⟩ := writeBack_allowed hbank hn hw
    have hbase := keepsRegsBut_blockWriteBack bank true rn (blockNewBase u (s.readReg bank rn) list)
      (State.loadRegs bank { s with userLdm := false } ((listRegs list).zip (blockWords s start list)))
    exact (hloaded.mono fun _ hi => List.mem_cons_of_mem rn hi).trans (hbase.mono (by simp))

end Allowed

/-- An LDM below r15 that executes, is allowed and is accepted only advances after `loadedBlock` (R293). -/
theorem exec_ldm_advances (he : executes c (blockRegs rn list) m s) (h15 : list.getLsbD 15 = false) (hsb : sb = userBank)
    (hbank : bank = if userBank then .user else m)
    (hn : blockRefusal s m sb w rn list (list.getLsbD rn.toNat) userBank = none)
    (hstart : start = blockStart p u (s.readReg m rn) list)
    (ha : ∀ k, k < (listRegs list).length → answer s .read m.privileged (start + BitVec.ofNat 32 (4 * k)) .word = .ok)
    (hp : notAtTop s) :
    exec (.ldm c p u sb w rn list) s = .next { loadedBlock bank userBank u w rn list m s start with pc := s.pc + 4 } := by
  have hu : loadsUserBank sb list = userBank := by rw [loadsUserBank, h15, hsb, Bool.not_false, Bool.and_true]
  obtain ⟨-, hrn, -⟩ := blockRefusal_none.mp hn
  have hpc : (loadedBlock bank userBank u w rn list m s start).pc = s.pc :=
    loadedBlock_pc_of_not_listed hrn fun h => ne_fifteen_of_mem h15 h rfl
  rw [exec_ldm_accepted he hu hbank hn hstart ha, finishLoad, h15]
  exact advance_of_pc hpc hp

end Loads

/-- Settles O39: the LDM ends from `loadedBlock`, of the current mode's bank, and advances. -/
theorem loadMultiple : Obligations.LoadMultiple := by
  intro c p u w rn list m s start he h15 hn hstart ha hp
  obtain ⟨-, hrn, -⟩ := blockRefusal_none.mp hn
  refine ⟨_, exec_ldm_advances (bank := m) he h15 rfl rfl hn hstart ha hp, fun i hi => ?words, fun hw => ?base, ?otherRegs, rfl,
    by simp, loadedBlock_frame m false u w rn list m s start⟩
  case words =>
    have hi15 := ne_fifteen_of_mem h15 hi
    exact (State.readReg_of_regs hi15 (by rfl)).trans (loadedBlock_readReg rfl hn hi hi15)
  case base => exact (State.readReg_of_regs hrn (by rfl)).trans (loadedBlock_base (userBank := false) hrn hw)
  case otherRegs => exact loadedBlock_keepsRegsBut rfl hn

/-- Settles O41: the LDM ends from `loadedBlock`, of the User bank and without write-back, and advances. -/
theorem loadMultipleUserBank : Obligations.LoadMultipleUserBank := by
  intro c p u rn list m s start he h15 hn hstart ha hp
  obtain ⟨hspsrs, hmem, hinputs, hdrawn, huser⟩ := loadedBlock_frame .user true u false rn list m s start
  refine ⟨_, exec_ldm_advances (bank := .user) he h15 rfl rfl hn hstart ha hp, fun i hi => ?words,
    loadedBlock_keepsRegsBut rfl hn, huser, rfl, by simp, hspsrs, hmem, hinputs, hdrawn⟩
  case words =>
    have hi15 := ne_fifteen_of_mem h15 hi
    exact (State.readReg_of_regs hi15 (by rfl)).trans (loadedBlock_readReg rfl hn hi hi15)

/-! ## Loads of r15 -/

/-- The end of an LDM that has loaded `v` to r15, where `q` is the CPSR afterwards: the checks of R299 in their order. With S = 0 the CPSR
stays, and it passes those on T and on the mode. -/
theorem finishLoad_of_listed {sb : Bool} {list : BitVec 16} {m : Mode} {s : State} {v : Word} {q : Psr} (h15 : list.getLsbD 15 = true)
    (hpc : s.pc = v) (ht : s.cpsr.t = false) (hm : s.mode = some m)
    (hq : (if sb then m.spsr.map s.spsrs.get else some s.cpsr) = some q) :
    finishLoad sb list m s =
      if field v 0 2 ≠ 0 then .refused .pcNotWordAligned
      else if q.t then .refused .thumbState
      else if (Mode.ofBits s.platform.hasV4 q.m).isNone then .refused .illegalMode
      else .next { s with cpsr := q } := by
  subst hpc
  rw [finishLoad, if_pos h15]
  cases sb
  case true =>
    obtain ⟨n, hspsr, rfl⟩ := Option.map_eq_some_iff.mp hq
    exact returnFromException_of_spsr s _ s.pc hspsr
  case false =>
    cases hq
    have hlegal : (Mode.ofBits s.platform.hasV4 s.cpsr.m).isNone = false := by
      rw [show Mode.ofBits s.platform.hasV4 s.cpsr.m = some m from hm]; rfl
    simp only [branchTo, ht, hlegal, ne_eq, ite_not, Bool.false_eq_true, if_false]

/-- Settles O40: the LDM ends from `loadedBlock`, whose pc is the word of r15, and the clauses are the branches of its end. -/
theorem loadMultiplePc : Obligations.LoadMultiplePc := by
  intro c p u sb w rn list m s start v q he h15 hn hstart ha hv hq
  have ⟨ht, hm, _, _⟩ := he
  obtain ⟨-, hrn, -⟩ := blockRefusal_none.mp hn
  have hu : loadsUserBank sb list = false := by rw [loadsUserBank, h15, Bool.not_true, Bool.and_false]
  have hpc : (loadedBlock m false u w rn list m s start).pc = v :=
    (loadedBlock_pc_of_listed hrn (mem_listRegs.mpr h15)).trans hv.symm
  have hplatform : (loadedBlock m false u w rn list m s start).platform = s.platform := loadedBlock_platform
  have hend := finishLoad_of_listed (s := loadedBlock m false u w rn list m s start) h15 hpc (by simpa using ht)
    ((State.mode_congr (by simp) (by simp)).trans hm) (by simpa using hq)
  have hexec := (exec_ldm_accepted (bank := m) he hu rfl hn hstart ha).trans hend
  refine ⟨fun hlow => ?notAligned, fun hlow hqt => ?thumb, fun hlow hqt hmode => ?noMode, fun hlow hqt hmode => ?returns⟩
  case notAligned => exact hexec.trans (if_pos hlow)
  case thumb => exact hexec.trans ((if_neg (not_not.mpr hlow)).trans (if_pos hqt))
  case noMode =>
    rw [← hplatform] at hmode
    have hnone := Option.isNone_iff_eq_none.mpr hmode
    exact hexec.trans ((if_neg (not_not.mpr hlow)).trans ((if_neg (ne_true_of_eq_false hqt)).trans (if_pos hnone)))
  case returns =>
    rw [← hplatform] at hmode
    have hsome := Option.isNone_iff_eq_none.not.mpr (Option.isSome_iff_ne_none.mp hmode)
    refine ⟨_, hexec.trans ((if_neg (not_not.mpr hlow)).trans ((if_neg (ne_true_of_eq_false hqt)).trans (if_neg hsome))), hpc, rfl,
      fun i hi hi15 r hr => ?words, fun hw r hr => ?base, loadedBlock_keepsRegsBut rfl hn,
      loadedBlock_frame m false u w rn list m s start⟩
    case words => exact (State.readReg_of_phys hr).symm.trans (loadedBlock_readReg rfl hn hi hi15)
    case base => exact (State.readReg_of_phys hr).symm.trans (loadedBlock_base (userBank := false) hrn hw)

/-! ## Accepted stores -/

/-- Words stored without overlap are read back, each at its place (R292, R294). -/
theorem State.read_storeWords (vs : List Word) (s : State) (a : Word) (hl : vs.length ≤ 16) {k : Nat} (hk : k < vs.length) :
    Memory.read s.platform.bigEnd (s.storeWords a vs).mem (a + BitVec.ofNat 32 (4 * k)) .word = vs[k] := by
  have hbytes : ((List.range 4).map fun j =>
      Memory.get (s.storeWords a vs).mem (a + BitVec.ofNat 32 (4 * k) + BitVec.ofNat 32 j).toNat)
        = bytesOfWord s.platform.bigEnd vs[k] := by
    refine List.ext_getElem ?length fun j hj _ => ?bytes
    case length =>
      rw [List.length_map, List.length_range]
      exact (length_storedBytes s.platform.bigEnd vs[k] .word).symm
    case bytes =>
      rw [List.getElem_map, List.getElem_range]
      exact State.get_storeWords vs s a hl hk (by simpa using hj)
  have hfirst : (a + BitVec.ofNat 32 (4 * k)).toNat = (a + BitVec.ofNat 32 (4 * k) + BitVec.ofNat 32 0).toNat := by
    rw [BitVec.add_zero]
  rw [Memory.read, hfirst]
  exact wordOfBytes_of_bytesOfWord hbytes

/-- The values an STM stores, in the order of their places in the block (R294). -/
abbrev storedBlock (s : State) (bank : Mode) (list : BitVec 16) : List Word := (listRegs list).map (storedValue s bank)

/-- The value at the place of a register in the block is that register's (R292, R294). -/
theorem getElem_storedBlock {list : BitVec 16} {i : Reg} (s : State) (bank : Mode) (hi : i ∈ listRegs list)
    (hk : listRank list i < (storedBlock s bank list).length) :
    (storedBlock s bank list)[listRank list i] = storedValue s bank i := by
  rw [List.getElem_map, (List.getElem?_eq_some_iff.mp (getElem?_listRank hi)).2]

/-- An STM that executes, is allowed and is accepted stores the values the registers held and moves the base (R294, R295). -/
theorem exec_stm_accepted {c : Cond} {p u sb w : Bool} {rn : Reg} {list : BitVec 16} {m bank : Mode} {s : State} {start : Word}
    (he : executes c (blockRegs rn list) m s) (hbank : bank = if sb then .user else m)
    (hn : blockRefusal s m sb w rn list (baseNotLowest rn list) sb = none)
    (hstart : start = blockStart p u (s.readReg m rn) list)
    (ha : ∀ k, k < (listRegs list).length → answer s .write m.privileged (start + BitVec.ofNat 32 (4 * k)) .word = .ok)
    (hp : notAtTop s) :
    exec (.stm c p u sb w rn list) s =
      .next { blockWriteBack m w rn (blockNewBase u (s.readReg m rn) list)
        (State.storeWords { s with userLdm := false } start (storedBlock s bank list)) with pc := s.pc + 4 } := by
  subst hbank hstart
  obtain ⟨-, hrn, -⟩ := blockRefusal_none.mp hn
  obtain ⟨hstorePc, -⟩ := State.storeWords_rest (storedBlock s (if sb then .user else m) list) { s with userLdm := false }
    (blockStart p u (s.readReg m rn) list)
  have hpc := (blockWriteBack_pc (m := m) (w := w) (v := blockNewBase u (s.readReg m rn) list) hrn).trans hstorePc
  rw [exec_stm he, storeBlock_ok (s := { s with userLdm := false }) hn ha]
  exact advance_of_pc hpc hp

/-- Settles O42: what the words stored leave in memory, and the base as the one register written. -/
theorem storeMultiple : Obligations.StoreMultiple := by
  intro c p u sb w rn list m bank s start he hbank hn hstart ha hp
  obtain ⟨-, hrn, -⟩ := blockRefusal_none.mp hn
  have hlength : (storedBlock s bank list).length = (listRegs list).length := List.length_map _
  have hregs := State.storeWords_regs (storedBlock s bank list) { s with userLdm := false } start
  obtain ⟨-, hcpsr, hspsrs, huser, -, hdrawn, -⟩ :=
    State.storeWords_rest (storedBlock s bank list) { s with userLdm := false } start
  refine ⟨_, exec_stm_accepted he hbank hn hstart ha hp, fun i hi => ?words, ?otherBytes, fun x => ?stored, fun hw => ?base,
    ?otherRegs, rfl, (blockWriteBack_cpsr ..).trans hcpsr, (blockWriteBack_spsrs ..).trans hspsrs, ?inputs,
    (blockWriteBack_drawn ..).trans hdrawn, (blockWriteBack_userLdm ..).trans huser⟩
  case words =>
    have hk : listRank list i < (storedBlock s bank list).length := hlength ▸ listRank_lt hi
    have hread := State.read_storeWords (storedBlock s bank list) { s with userLdm := false } start
      (hlength ▸ length_listRegs list) hk
    simpa only [blockWriteBack_mem, getElem_storedBlock s bank hi hk] using hread
  case otherBytes =>
    have hkeeps := State.storeWords_keeps (storedBlock s bank list) { s with userLdm := false } start
    rw [hlength] at hkeeps
    intro x hx
    simpa only [blockWriteBack_mem] using hkeeps x hx
  case stored =>
    have hjoined := State.mem_storeWords_stored (storedBlock s bank list) { s with userLdm := false } start x
    simpa only [blockWriteBack_stored, hlength] using hjoined
  case base => exact (State.readReg_of_regs hrn (by rfl)).trans (readReg_blockWriteBack _ _ hw hrn)
  case otherRegs =>
    have hkept : keepsRegsBut m (if w then [rn] else []) s
        (State.storeWords { s with userLdm := false } start (storedBlock s bank list)) := keepsRegsBut_of_regs hregs
    exact hkept.trans (keepsRegsBut_blockWriteBack m w rn _ _)
  case inputs =>
    exact (storeWords_keepsInputs _ { s with userLdm := false } start).trans (blockWriteBack_keepsInputs m w rn _ _)

end Sys2Proof.Machine
end

section
/-! PROOFS. O59. In User mode every shared rule either keeps the control bits of the CPSR or takes an exception from a state that still
has the old CPSR: MSR may not write the control byte, and there is no SPSR to return to. -/

namespace Sys2Proof.Machine

/-! ## What a step from User mode may do to the control bits -/

/-- The control bits I, F, T and M of the CPSR are as they were (R45). -/
def keepsControl (s t : State) : Prop :=
  t.cpsr.i = s.cpsr.i ∧ t.cpsr.f = s.cpsr.f ∧ t.cpsr.t = s.cpsr.t ∧ t.cpsr.m = s.cpsr.m

/-- An exception was taken with the CPSR of `s`: its mode, its vector, I set, T clear and, but for reset, that CPSR saved (R356). -/
def tookException (s t : State) : Prop :=
  ∃ e : Exn, t.cpsr.m = e.mode.bits ∧ t.pc = e.vector ∧ t.cpsr.i = true ∧ t.cpsr.t = false
    ∧ (e = .reset ∨ t.spsrs.get e.saved = s.cpsr)

/-- All that a step from User mode does to the control bits (R374). -/
def controlConfined (s t : State) : Prop := keepsControl s t ∨ tookException s t

theorem controlConfined_of_cpsr {s t : State} (h : t.cpsr = s.cpsr) : controlConfined s t := by
  refine .inl ?_
  rw [keepsControl, h]
  exact ⟨rfl, rfl, rfl, rfl⟩

/-- An exception may be taken after other writes, if they leave the CPSR to be saved. -/
theorem takeException_controlConfined {s u : State} (h : u.cpsr = s.cpsr) (e : Exn) (ra : Word) :
    controlConfined s (u.takeException e ra) :=
  .inr ⟨e, rfl, rfl, rfl, rfl, .inr ((Spsrs.get_set_same u.spsrs e.saved u.cpsr).trans h)⟩

theorem dataAbort_controlConfined {s u t : State} (hu : u.cpsr = s.cpsr) (h : u.dataAbort = .next t) : controlConfined s t := by
  cases h
  exact takeException_controlConfined hu _ _

theorem advance_cpsr {s t : State} (h : advance s = .next t) : t.cpsr = s.cpsr := by
  obtain ⟨-, rfl⟩ := advance_next.mp h
  rfl

/-! ## The shared rules in User mode -/

/-- The flags the ALU writes are no control bits. -/
theorem alu_flags_keepsControl (op : DpOp) (a b : Word) (s : State) (sco : Bool) :
    keepsControl s { s with cpsr := (alu op a b s.cpsr sco).flags } := by
  cases op <;> exact ⟨rfl, rfl, rfl, rfl⟩

theorem dataProcessing_controlConfined {op : DpOp} {sf : Bool} {rn rd : Reg} {o : Operand2} {s t : State}
    (h : dpWrite op sf rd (dpOut op rn o .user s) .user s = .next t) : controlConfined s t := by
  have hflags : keepsControl s { s with cpsr := (dpOut op rn o .user s).flags } := alu_flags_keepsControl op _ _ s _
  obtain ⟨-, -, rfl⟩ | ⟨-, -, -, hr⟩ | ⟨-, -, -, -, rfl⟩ | ⟨-, -, -, rfl⟩ := dpWrite_next h
  · exact .inl hflags
  · exact absurd hr returnFromException_user
  · exact controlConfined_of_cpsr rfl
  · cases sf
    · exact controlConfined_of_cpsr rfl
    · exact .inl hflags

/-- MSR in User mode: there is no SPSR, and a write of the control byte of the CPSR is ignored (R54, R55). -/
theorem writePsr_controlConfined {r : Bool} {fmask : BitVec 4} {v : Word} {s t : State} (h : writePsr r fmask v .user s = .next t) :
    controlConfined s t := by
  obtain ⟨-, ⟨-, n, hn, -⟩ | ⟨-, -, -, rfl⟩⟩ := writePsr_next h
  · cases hn
  · have hctl : (fmask.getLsbD 0 && Mode.user.privileged) = false := Bool.and_false _
    refine .inl ?_
    simp only [keepsControl, mergePsr, hctl, Bool.false_eq_true, if_false, and_self]

theorem multiply_controlConfined {sf : Bool} {rd rs rm : Reg} {usesPc : Bool} {v : Word} {m : Mode} {s t : State}
    (h : multiply sf rd rs rm usesPc v m s = .next t) : controlConfined s t := by
  obtain ⟨-, -, -, -, -, -, rfl⟩ := multiply_next h
  cases sf
  · exact controlConfined_of_cpsr rfl
  · exact .inl ⟨rfl, rfl, rfl, rfl⟩

theorem longMultiply_controlConfined {sf : Bool} {rdHi rdLo rs rm : Reg} {v : BitVec 64} {m : Mode} {s t : State}
    (h : longMultiply sf rdHi rdLo rs rm v m s = .next t) : controlConfined s t := by
  obtain ⟨-, -, -, rfl⟩ := longMultiply_next h
  cases sf
  · exact controlConfined_of_cpsr rfl
  · exact .inl ⟨rfl, rfl, rfl, rfl⟩

theorem swap_controlConfined {wd : Width} {rn rd rm : Reg} {m : Mode} {s t : State} (h : swap wd rn rd rm m s = .next t) :
    controlConfined s t := by
  obtain ⟨-, -, ⟨-, rfl⟩ | rfl⟩ := swap_next h
  · exact controlConfined_of_cpsr (by simp)
  · exact takeException_controlConfined rfl _ _

theorem abortedTransfer_controlConfined (s : State) (m : Mode) (ix : Indexing) (rn : Reg) (ra : Word) :
    controlConfined s ((if writesBase ix then s.freeReg m rn else s).takeException .dataAbort ra) := by
  refine takeException_controlConfined ?_ _ _
  split
  · exact State.freeReg_cpsr s m rn
  · rfl

theorem loadSingle_controlConfined {wd : Width} {sg tr : Bool} {ix : Indexing} {u : Bool} {rn rd : Reg} {off : Offset} {m : Mode}
    {s t : State} (h : loadSingle wd sg tr ix u rn rd off m s = .next t) : controlConfined s t := by
  obtain ⟨-, -, ⟨-, hw⟩ | ⟨-, rfl⟩⟩ := loadSingle_next h
  · obtain ⟨-, -, rfl⟩ | ⟨-, -, rfl⟩ := writeRd_next hw
    all_goals exact controlConfined_of_cpsr (by simp)
  · exact abortedTransfer_controlConfined s m ix rn _

theorem storeSingle_controlConfined {wd : Width} {tr : Bool} {ix : Indexing} {u : Bool} {rn rd : Reg} {off : Offset} {m : Mode}
    {s t : State} (h : storeSingle wd tr ix u rn rd off m s = .next t) : controlConfined s t := by
  obtain ⟨-, -, ⟨-, ha⟩ | ⟨-, rfl⟩⟩ := storeSingle_next h
  · exact controlConfined_of_cpsr ((advance_cpsr ha).trans (by simp))
  · exact abortedTransfer_controlConfined s m ix rn _

theorem finishLoad_user_cpsr {sb : Bool} {list : BitVec 16} {s t : State} (h : finishLoad sb list .user s = .next t) :
    t.cpsr = s.cpsr := by
  obtain ⟨-, -, rfl⟩ | ⟨-, -, -, rfl⟩ | ⟨-, -, hr⟩ := finishLoad_next h
  · rfl
  · rfl
  · exact absurd hr returnFromException_user

theorem loadBlock_controlConfined {p u sb w : Bool} {rn : Reg} {list : BitVec 16} {s t : State}
    (h : loadBlock p u sb w rn list .user s = .next t) : controlConfined s t := by
  obtain ⟨-, ⟨vs, -, -, hf⟩ | ha⟩ := loadBlock_next h
  · exact controlConfined_of_cpsr ((finishLoad_user_cpsr hf).trans (by simp))
  · exact dataAbort_controlConfined (by simp) ha

theorem storeBlock_controlConfined {p u sb w : Bool} {rn : Reg} {list : BitVec 16} {m : Mode} {s t : State}
    (h : storeBlock p u sb w rn list m s = .next t) : controlConfined s t := by
  obtain ⟨-, vs, hend⟩ := storeBlock_next h
  obtain ⟨-, hcpsr, -⟩ := State.storeWords_rest vs s (blockStart p u (s.readReg m rn) list)
  obtain ha | hd := hend
  · exact controlConfined_of_cpsr ((advance_cpsr ha).trans ((blockWriteBack_cpsr ..).trans hcpsr))
  · exact dataAbort_controlConfined ((freeBase_cpsr ..).trans hcpsr) hd

/-- BX clears a T that ARM state has clear (R52, R183). -/
theorem RuleOutcome.controlConfined {s t : State} (harm : s.cpsr.t = false) (h : RuleOutcome .user s (.next t)) :
    controlConfined s t := by
  generalize ho : Host.Outcome.next t = o at h
  cases h with
  | refused r => cases ho
  | dataProcessing op sf rn rd o hn => exact dataProcessing_controlConfined ho.symm
  | readPsr r rd =>
    obtain ⟨-, -, p, -, rfl⟩ := readPsr_next ho.symm
    exact controlConfined_of_cpsr (by simp)
  | writePsr r fmask v => exact writePsr_controlConfined ho.symm
  | exchange rn h0 h1 => cases ho; exact .inl ⟨rfl, rfl, harm.symm, rfl⟩
  | multiply sf rd rs rm usesPc v => exact multiply_controlConfined ho.symm
  | longMultiply sf rdHi rdLo rs rm v => exact longMultiply_controlConfined ho.symm
  | swap wd rn rd rm => exact swap_controlConfined ho.symm
  | load wd sg tr ix u rn rd off => exact loadSingle_controlConfined ho.symm
  | store wd tr ix u rn rd off => exact storeSingle_controlConfined ho.symm
  | loadBlock p u sb w rn list => exact loadBlock_controlConfined ho.symm
  | storeBlock p u sb w rn list => exact storeBlock_controlConfined ho.symm
  | branch offset => cases ho; exact controlConfined_of_cpsr rfl
  | branchLink offset => cases ho; exact controlConfined_of_cpsr (by simp)
  | trap e he => cases ho; exact takeException_controlConfined rfl _ _

theorem exec_controlConfined {i : Instr} {s t : State} (hu : s.mode = some .user) (h : exec i s = .next t) : controlConfined s t := by
  obtain ⟨harm, m, hm, ⟨-, -, rfl⟩ | ⟨-, ho⟩⟩ := exec_next h
  · exact controlConfined_of_cpsr rfl
  · obtain rfl : Mode.user = m := Option.some.inj (hu.symm.trans hm)
    exact RuleOutcome.controlConfined (s := { s with userLdm := false }) harm ho

theorem boundary_controlConfined {p : Pins} {s t : State} (h : boundary p s = .done (.next t)) : controlConfined s t := by
  obtain rfl | ⟨m, -, -, rfl | rfl | ⟨-, rfl | ⟨-, rfl⟩⟩⟩ := boundary_done h
  · exact .inr ⟨.reset, rfl, rfl, rfl, rfl, .inl rfl⟩
  · exact takeException_controlConfined rfl _ _
  · exact takeException_controlConfined rfl _ _
  · exact takeException_controlConfined rfl _ _
  · exact controlConfined_of_cpsr rfl

/-- Settles O59: taking the sample leaves the CPSR, and neither the boundary nor an instruction in User mode does more. -/
theorem userModeControlBits : Obligations.UserModeControlBits := by
  intro s t hu h
  obtain hd | ⟨i, -, hx⟩ := step_next h
  · exact boundary_controlConfined (s := s.sampled) hd
  · exact exec_controlConfined (s := s.sampled) hu hx

end Sys2Proof.Machine
end

section
/-! PROOFS. O37, O44 and O45. What a rejected transfer leaves is Data Abort entered from one state: the one in which the registers without
a usable value are free and the stores made before the rejected one stand. What the entry does beside that state is said once. -/

namespace Sys2Proof.Machine

/-! ## Data Abort from a state -/

/-- A Data Abort taken in a state `u` that has the pc, the status registers and the inputs of `s`: beside r14_abt, registers and memory
are those of `u` (R356, R370). -/
theorem dataAbort_from {s u : State} (hpc : u.pc = s.pc) (hcpsr : u.cpsr = s.cpsr) (hspsrs : u.spsrs = s.spsrs)
    (hinputs : keepsInputs s u) :
    ∃ t, u.dataAbort = .next t ∧ abortEntered s t ∧ t.mem = u.mem ∧ t.stored = u.stored
      ∧ ∀ r, r ≠ .r14_abt → t.regs.get r = u.regs.get r := by
  obtain ⟨hsaved, hothers, hentered, hlink, hvector, hkept⟩ := abortEntered_takeException u
  refine ⟨_, rfl, ⟨hsaved.trans hcpsr, fun n hn => ?_, ?_, ?_, hvector, hinputs.trans hkept⟩, rfl, rfl, fun r hr => ?_⟩
  · rw [hothers n hn, hspsrs]
  · rw [hentered, hcpsr]
  · rw [hlink, hpc]
  · exact Regs.get_set_other u.regs _ hr

/-- A free base is no r15, so the pc stays. -/
theorem freeBase_pc {m : Mode} {w : Bool} {rn : Reg} (s : State) (h : w = true → rn ≠ 15) : (freeBase m w rn s).pc = s.pc := by
  unfold freeBase
  split
  · next hw => exact State.setReg_pc _ (h hw)
  · rfl

theorem freeBase_regs_get {m : Mode} {w : Bool} {rn : Reg} (s : State) {r : PhysReg} (h : w = true → phys m rn ≠ some r) :
    (freeBase m w rn s).regs.get r = s.regs.get r := by
  refine keepsRegsBut_freeBase m w rn s r fun i hi => ?_
  cases w
  · cases hi
  · rw [List.mem_singleton.mp hi]
    exact h rfl

theorem State.freeRegs_pc (m : Mode) (is : List Reg) (s : State) (h : (15 : Reg) ∉ is) : (State.freeRegs m s is).pc = s.pc := by
  induction is generalizing s with
  | nil => rfl
  | cons i is ih =>
    rw [List.mem_cons, not_or] at h
    exact (ih _ h.2).trans (State.setReg_pc _ (Ne.symm h.1))

/-! ## Single transfers -/

/-- A single transfer that is allowed and aligned, and whose access is rejected (R370). -/
theorem Transfer.run_of_abort {x : Transfer} {m : Mode} {s : State} {a : Word} (haddr : transferAddress s m x.ix x.u x.rn x.off = a)
    (hn : transferRefusal x.wd x.translated x.ix x.rn x.rd x.off = none) (ha : aligned x.wd a = true)
    (hk : answer s x.kind (m.privileged && !x.translated) a x.wd = .abort) :
    x.run m s = (freeBase m (writesBase x.ix) x.rn s).dataAbort := by
  have hend : (if writesBase x.ix then (s.freeReg m x.rn).dataAbort else s.dataAbort)
      = (freeBase m (writesBase x.ix) x.rn s).dataAbort := (apply_ite State.dataAbort _ _ _).symm
  cases hl : x.load
  case true =>
    rw [show x.kind = .read from if_pos hl] at hk
    simp [run_load hl, loadSingle, haddr, hn, ha, State.read_abort hk, MemResult.andThen, hend]
  case false =>
    rw [show x.kind = .write from if_neg (by simp [hl])] at hk
    simp [run_store hl, storeSingle, haddr, hn, ha, State.write_abort _ hk, MemResult.andThen, hend]

/-- Settles O37: Data Abort from the state with the base of a write-back form free. -/
theorem abortedTransfer : Obligations.AbortedTransfer := by
  intro i x m s h he hv hh hn a haddr ha hk
  have haddr' := (transferAddress_userLdm s m x.ix x.u x.rn x.off false).trans haddr.symm
  obtain ⟨t, ht, hentered, hmem, hstored, hregs⟩ :=
    dataAbort_from (s := s) (u := freeBase m (writesBase x.ix) x.rn { s with userLdm := false })
      (freeBase_pc _ fun hw => (transferRefusal_base hn hw).1) (by simp) (by simp) (freeBase_keepsInputs ..)
  refine ⟨t, ?_, hentered, keepsMemory_of (hmem.trans (freeBase_mem ..)) (hstored.trans (freeBase_stored ..)), fun r hr hbase => ?_⟩
  · rw [exec_eq_run h he hh hv, Transfer.run_of_abort haddr' hn ha hk, ht]
  · exact (hregs r hr).trans (freeBase_regs_get _ hbase)

/-! ## Block transfers -/

section Blocks

variable {c : Cond} {p u sb w : Bool} {rn : Reg} {list : BitVec 16} {m bank : Mode} {s : State} {start : Word} {k : Nat}

/-- The state in which an LDM takes Data Abort: the registers of the list below r15 free, and the base of a write-back form (R370). -/
def freedBlock (bank : Mode) (userBank w : Bool) (rn : Reg) (list : BitVec 16) (m : Mode) (s : State) : State :=
  { freeBase m w rn (State.freeRegs bank { s with userLdm := false } ((listRegs list).filter (· != 15))) with userLdm := userBank }

/-- An LDM that executes, is allowed, and whose word `k` is rejected after the words before it were accepted (R293, R370). -/
theorem exec_ldm_aborted (he : executes c (blockRegs rn list) m s) (hbank : bank = if loadsUserBank sb list then .user else m)
    (hn : blockRefusal s m sb w rn list (list.getLsbD rn.toNat) (loadsUserBank sb list) = none)
    (hstart : start = blockStart p u (s.readReg m rn) list) (hk : k < (listRegs list).length)
    (hok : ∀ j, j < k → answer s .read m.privileged (start + BitVec.ofNat 32 (4 * j)) .word = .ok)
    (ha : answer s .read m.privileged (start + BitVec.ofNat 32 (4 * k)) .word = .abort) :
    exec (.ldm c p u sb w rn list) s = (freedBlock bank (loadsUserBank sb list) w rn list m s).dataAbort := by
  subst hbank hstart
  have hwords := State.readWords_abort { s with userLdm := false } m.privileged _ _ k hk hok ha
  rw [exec_ldm he, loadBlock]
  simp only [blockRefusal_userLdm, hn, State.readReg_userLdm, hwords, MemResult.andThen]
  rfl

/-- An STM that executes, is allowed, and whose word `k` is rejected after the words before it were accepted: those before it are stored
(R294, R370). -/
theorem exec_stm_aborted (he : executes c (blockRegs rn list) m s) (hbank : bank = if sb then .user else m)
    (hn : blockRefusal s m sb w rn list (baseNotLowest rn list) sb = none)
    (hstart : start = blockStart p u (s.readReg m rn) list) (hk : k < (listRegs list).length)
    (hok : ∀ j, j < k → answer s .write m.privileged (start + BitVec.ofNat 32 (4 * j)) .word = .ok)
    (ha : answer s .write m.privileged (start + BitVec.ofNat 32 (4 * k)) .word = .abort) :
    exec (.stm c p u sb w rn list) s =
      (freeBase m w rn (State.storeWords { s with userLdm := false } start ((storedBlock s bank list).take k))).dataAbort := by
  subst hbank hstart
  have hwords := State.writeWords_abort m.privileged (storedBlock s (if sb then .user else m) list) { s with userLdm := false }
    (blockStart p u (s.readReg m rn) list) k (by simpa using hk) hok ha
  rw [exec_stm he, storeBlock]
  simp only [blockRefusal_userLdm, hn, State.readReg_userLdm, storedValue_userLdm, hwords]

/-- The registers outside the list, but for the base of a write-back form, hold what they held. -/
theorem freedBlock_regs_get {userBank : Bool} {r : PhysReg} (hlist : ∀ i ∈ listRegs list, phys bank i ≠ some r)
    (hbase : w = true → phys m rn ≠ some r) : (freedBlock bank userBank w rn list m s).regs.get r = s.regs.get r :=
  (freeBase_regs_get _ hbase).trans
    (keepsRegsBut_freeRegs bank _ { s with userLdm := false } r fun i hi => hlist i (List.mem_of_mem_filter hi))

theorem freedBlock_pc {userBank : Bool} (hrn : rn ≠ 15) : (freedBlock bank userBank w rn list m s).pc = s.pc :=
  (freeBase_pc _ fun _ => hrn).trans (State.freeRegs_pc bank _ { s with userLdm := false } (by simp))

end Blocks

/-- Settles O44: Data Abort from `freedBlock` for an LDM, and from the state with the first `k` words stored for an STM. -/
theorem abortedBlock : Obligations.AbortedBlock := by
  intro c p u sb w rn list m bank s start k he hstart hk
  refine ⟨fun hn hbank hok ha => ?load, fun hn hbank hok ha => ?store⟩
  case load =>
    obtain ⟨-, hrn, -⟩ := blockRefusal_none.mp hn
    obtain ⟨t, ht, hentered, hmem, hstored, hregs⟩ :=
      dataAbort_from (s := s) (u := freedBlock bank (loadsUserBank sb list) w rn list m s) (freedBlock_pc hrn) (by simp [freedBlock])
        (by simp [freedBlock]) ⟨by simp [freedBlock], by simp [freedBlock]⟩
    refine ⟨t, (exec_ldm_aborted he hbank hn hstart hk hok ha).trans ht, hentered,
      keepsMemory_of (hmem.trans (by simp [freedBlock])) (hstored.trans (by simp [freedBlock])), fun r hr hlist hbase => ?_⟩
    exact (hregs r hr).trans (freedBlock_regs_get hlist hbase)
  case store =>
    obtain ⟨-, hrn, -⟩ := blockRefusal_none.mp hn
    have hlength : ((storedBlock s bank list).take k).length = k := by
      rw [List.length_take, List.length_map, Nat.min_eq_left hk.le]
    have hstoreRegs := State.storeWords_regs ((storedBlock s bank list).take k) { s with userLdm := false } start
    obtain ⟨hpc, hcpsr, hspsrs, -⟩ := State.storeWords_rest ((storedBlock s bank list).take k) { s with userLdm := false } start
    obtain ⟨t, ht, hentered, hmem, hstored, hregs⟩ :=
      dataAbort_from (s := s)
        (u := freeBase m w rn (State.storeWords { s with userLdm := false } start ((storedBlock s bank list).take k)))
        ((freeBase_pc _ fun _ => hrn).trans hpc) ((freeBase_cpsr ..).trans hcpsr) ((freeBase_spsrs ..).trans hspsrs)
        ((storeWords_keepsInputs _ { s with userLdm := false } start).trans (freeBase_keepsInputs ..))
    rw [freeBase_mem] at hmem
    rw [freeBase_stored] at hstored
    refine ⟨t, (exec_stm_aborted he hbank hn hstart hk hok ha).trans ht, hentered, fun i hi hrank => ?words, ?otherBytes,
      fun x => ?stored, fun r hr hbase => ?otherRegs⟩
    case words =>
      have hplace : listRank list i < ((storedBlock s bank list).take k).length := hlength.symm ▸ hrank
      have hread := State.read_storeWords ((storedBlock s bank list).take k) { s with userLdm := false } start
        (hlength.le.trans (hk.le.trans (length_listRegs list))) hplace
      rw [hmem]
      exact hread.trans (List.getElem_take.trans (getElem_storedBlock s bank hi _))
    case otherBytes =>
      have hkeeps := State.storeWords_keeps ((storedBlock s bank list).take k) { s with userLdm := false } start
      rw [hlength] at hkeeps
      intro x hx
      rw [hmem]
      exact hkeeps x hx
    case stored =>
      have hjoined := State.mem_storeWords_stored ((storedBlock s bank list).take k) { s with userLdm := false } start x
      rwa [hlength, ← hstored] at hjoined
    case otherRegs => rw [hregs r hr, freeBase_regs_get _ hbase, hstoreRegs]

/-! ## Swaps -/

section Swaps

variable {wd : Width} {rn rd rm : Reg} {m : Mode} {s : State} {a : Word}

/-- SWP and SWPB that execute come to the shared rule (R310, R311). -/
theorem exec_swap {c : Cond} {i : Instr} (he : executes c [rn, rd, rm] m s)
    (hi : (i, wd) ∈ [(Instr.swp c rn rd rm, Width.word), (.swpb c rn rd rm, .byte)]) :
    exec i s = swap wd rn rd rm m { s with userLdm := false } := by
  simp only [List.mem_cons, Prod.mk.injEq, List.not_mem_nil, or_false] at hi
  obtain ⟨rfl, rfl⟩ | ⟨rfl, rfl⟩ := hi
  all_goals exact whenExecuted_executes he _

theorem swap_of_clash (h : rd = 15 ∨ rm = 15 ∨ rn = 15 ∨ rn = rd ∨ rn = rm) : swap wd rn rd rm m s = .refused .swapClash := by
  rw [swap, if_pos (by simpa [or_assoc] using h)]

/-- Registers that do not clash leave the check on the address and the two accesses (R310, R313). -/
theorem swap_of_distinct (hrd : rd ≠ 15) (hrm : rm ≠ 15) (hrn : rn ≠ 15) (hnd : rn ≠ rd) (hnm : rn ≠ rm)
    (haddr : s.readReg m rn = a) :
    swap wd rn rd rm m s =
      if !aligned wd a then .refused .misalignedAccess
      else (s.read m.privileged a wd).andThen s.dataAbort fun v =>
        (s.write m.privileged a wd (s.readReg m rm)).andThen s.dataAbort fun t => advance (t.setReg m rd v) := by
  have hnames : ¬(rd = 15 || rm = 15 || rn = 15 || rn = rd || rn = rm) = true := by
    simp only [Bool.or_eq_true, decide_eq_true_eq, not_or]
    exact ⟨⟨⟨⟨hrd, hrm⟩, hrn⟩, hnd⟩, hnm⟩
  subst haddr
  rw [swap, if_neg hnames]

end Swaps

/-- Settles O45: the clauses are the ends of `swap`; the exchange is a store, then a register write. -/
theorem swaps : Obligations.Swaps := by
  intro c rn rd rm m s i wd a he hi haddr
  have haddr' := (State.readReg_userLdm s m rn false).trans haddr.symm
  rw [exec_swap he hi]
  refine ⟨fun hclash => swap_of_clash hclash, fun hrd hrm hrn hnd hnm => ?_⟩
  rw [swap_of_distinct hrd hrm hrn hnd hnm haddr']
  refine ⟨fun ha => ?misaligned, fun ha hp hread hwrite => ?exchange, fun ha hk => ?aborted⟩
  case misaligned => rw [ha]; rfl
  case exchange =>
    have hpc : (State.setReg (State.stores { s with userLdm := false } a wd (s.readReg m rm)) m rd
        (Memory.read s.platform.bigEnd s.mem a wd)).pc = s.pc := State.setReg_pc _ hrd
    rw [ha, State.read_ok (s := { s with userLdm := false }) hread, State.write_ok (s := { s with userLdm := false }) _ hwrite,
      State.readReg_userLdm]
    refine ⟨_, advance_of_pc hpc hp, ?datum, ?readBack, fun x hx => ?otherBytes, fun k => ?stored,
      keepsRegsBut_setReg (State.stores { s with userLdm := false } a wd (s.readReg m rm)) m rd _, rfl, by simp, by simp,
      ⟨by simp, by simp⟩, by simp, by simp⟩
    case datum => exact (State.readReg_of_regs hrd (by rfl)).trans (State.readReg_setReg_same _ hrd)
    case readBack => simpa using Memory.read_write s.platform.bigEnd s.mem a wd (s.readReg m rm)
    case otherBytes => simpa using Memory.get_write_other s.platform.bigEnd s.mem a wd (s.readReg m rm) hx
    case stored => simpa using mem_addStored
  case aborted =>
    refine ⟨_, ?_, entered_takeException .dataAbort (s.pc + 8) { s with userLdm := false }⟩
    obtain hread | ⟨hread, hwrite⟩ := hk
    · rw [ha, State.read_abort (s := { s with userLdm := false }) hread]
      rfl
    · rw [ha, State.read_ok (s := { s with userLdm := false }) hread, MemResult.andThen,
        State.write_abort (s := { s with userLdm := false }) _ hwrite]
      rfl

end Sys2Proof.Machine
end

section
/-! PROOFS. O24 to O26. MRS and MSR that execute come to `readPsr` and `writePsr`, and each of the two ends as its checks say. What MSR
leaves in an SPSR is said of the word: the bits the mask selects, and no others, come from the operand. -/

namespace Sys2Proof.Machine

/-! ## MRS -/

section Mrs

variable {c : Cond} {r : Bool} {rd : Reg} {m : Mode} {s : State}

/-- MRS that executes (R331). -/
theorem exec_mrs (he : executes c [rd] m s) : exec (.mrs c r rd) s = readPsr r rd m { s with userLdm := false } :=
  whenExecuted_executes he _

theorem readPsr_of_pc (h : rd = 15) : readPsr r rd m s = .refused .psrTransfer := if_pos h

theorem readPsr_of_noSpsr (hrd : rd ≠ 15) (hr : r = true) (hm : m.spsr = none) : readPsr r rd m s = .refused .noSpsr := by
  rw [readPsr, if_neg hrd, if_pos hr, hm]

/-- A status register that the mode has is read (R331). -/
theorem readPsr_reads {p : Psr} (hrd : rd ≠ 15) (hp : (if r then m.spsr.map s.spsrs.get else some s.cpsr) = some p)
    (hpc : s.pc ≠ 0xFFFFFFFC) : readPsr r rd m s = .next { s.setReg m rd p.toWord with pc := s.pc + 4 } := by
  have hend : readPsr r rd m s = advance (s.setReg m rd p.toWord) := by
    rw [readPsr, if_neg hrd]
    cases r
    case false => cases hp; rfl
    case true =>
      obtain ⟨n, hn, rfl⟩ := Option.map_eq_some_iff.mp hp
      rw [if_pos rfl, hn]
  rw [hend, advance_of_pc (State.setReg_pc _ hrd) hpc]

end Mrs

/-- Settles O24: the refusals of `readPsr` in their order, then a register write. -/
theorem mrsReads : Obligations.MrsReads := by
  intro c r rd m s he
  rw [exec_mrs he]
  refine ⟨readPsr_of_pc, fun hrd hr hm => readPsr_of_noSpsr hrd hr hm, fun hrd hpc p hp =>
    ⟨_, readPsr_reads (s := { s with userLdm := false }) hrd hp hpc, ?readBack, ?otherRegs, rfl, by simp, ?frame⟩⟩
  case readBack =>
    exact (State.readReg_of_regs hrd (by rfl)).trans (State.readReg_setReg_same (s := { s with userLdm := false }) p.toWord hrd)
  case otherRegs => exact keepsRegsBut_setReg { s with userLdm := false } m rd p.toWord
  case frame => exact ⟨by simp, keepsMemory_of (by simp) (by simp), ⟨by simp, by simp⟩, by simp, by simp⟩

/-! ## MSR -/

section Msr

variable {c : Cond} {r : Bool} {fmask : BitVec 4} {m : Mode} {s : State} {v : Word}

/-- MSR that executes, of either form, is in ARM state and writes its operand; a register operand is not r15 (R332, R333). -/
theorem exec_msr {i : Instr}
    (h : (∃ rm, i = .msrReg c r fmask rm ∧ rm ≠ 15 ∧ v = s.readReg m rm ∧ executes c [rm] m s)
      ∨ (∃ rot imm8, i = .msrImm c r fmask rot imm8 ∧ v = rotatedImm rot imm8 ∧ executes c [] m s)) :
    s.cpsr.t = false ∧ exec i s = writePsr r fmask v m { s with userLdm := false } := by
  obtain ⟨rm, rfl, hrm, rfl, he⟩ | ⟨rot, imm8, rfl, rfl, he⟩ := h
  · refine ⟨he.1, ?_⟩
    change execMsrReg c r fmask rm s = _
    rw [execMsrReg, whenExecuted_executes he, if_neg hrm, State.readReg_userLdm]
  · exact ⟨he.1, whenExecuted_executes he _⟩

/-- MSR from r15 is refused, whichever register it writes (R332). -/
theorem exec_msrReg_pc (he : executes c [15] m s) : exec (.msrReg c r fmask 15) s = .refused .psrTransfer := by
  change execMsrReg c r fmask 15 s = _
  rw [execMsrReg, whenExecuted_executes he, if_pos rfl]

/-- A write of the CPSR: the checks on T and on the mode, then the new CPSR `p` (R332). -/
theorem writePsr_cpsr {p : Psr} (hp : mergePsr s.platform.hasT fmask m.privileged s.cpsr v = p) :
    writePsr false fmask v m s =
      if p.t ≠ s.cpsr.t then .refused .psrTransfer
      else if (Mode.ofBits s.platform.hasV4 p.m).isNone then .refused .illegalMode
      else advance { s with cpsr := p } := by
  subst hp
  rfl

theorem writePsr_spsr_none (hm : m.spsr = none) : writePsr true fmask v m s = .refused .noSpsr := by
  rw [writePsr, if_pos rfl, hm]

/-- A write of the SPSR of a mode that has one (R332). -/
theorem writePsr_spsr {n : SpsrName} (hm : m.spsr = some n) :
    writePsr true fmask v m s =
      advance { s with spsrs := s.spsrs.set n (mergePsr s.platform.hasT fmask true (s.spsrs.get n) v) } := by
  rw [writePsr, if_pos rfl, hm]

end Msr

theorem Mode.privileged_eq (m : Mode) : m.privileged = decide (m ≠ .user) := by cases m <;> rfl

/-- Settles O25: the new CPSR is the merged one, and the clauses are the branches of the write. -/
theorem msrCpsr : Obligations.MsrCpsr := by
  intro c fmask m s i v ctl hi hpc hctl p hp
  obtain ⟨harm, hexec⟩ := exec_msr hi
  have hmerge : mergePsr s.platform.hasT fmask m.privileged s.cpsr v = p := by
    rw [hp, hctl, ← Mode.privileged_eq]
    rfl
  rw [hexec, writePsr_cpsr (s := { s with userLdm := false }) hmerge]
  refine ⟨fun ht hmode => ?written, fun ht => ?thumb, fun ht hmode => ?noMode⟩
  case written =>
    have hsome := Option.isNone_iff_eq_none.not.mpr (Option.isSome_iff_ne_none.mp hmode)
    exact (if_neg (not_not.mpr (ht.trans harm.symm))).trans ((if_neg hsome).trans (advance_of_notAtTop hpc))
  case thumb =>
    refine if_pos ?_
    simp [ht, harm]
  case noMode => exact (if_neg (not_not.mpr (ht.trans harm.symm))).trans (if_pos (Option.isNone_iff_eq_none.mpr hmode))

/-! ## The word of a written status register -/

/-- A status register has one word: the one whose bits are its bits and whose bits 27:8 are 0 (R45, R53). -/
theorem Psr.toWord_eq {p : Psr} {w : Word} (hbits : Psr.ofWord w = p) (hreserved : field w 8 20 = 0) : p.toWord = w := by
  subst hbits
  refine BitVec.eq_of_getLsbD_eq fun k hk => ?_
  rw [Psr.getLsbD_toWord]
  split_ifs with hmode ht hf hi hmiddle hv hc hz
  · simp [Psr.ofWord, field, hmode]
  · subst ht; rfl
  · subst hf; rfl
  · subst hi; rfl
  · have hbit := flag_of_field hreserved (k - 8) (by omega)
    rw [show 8 + (k - 8) = k by omega] at hbit
    exact (hbit.trans BitVec.getLsbD_zero).symm
  · subst hv; rfl
  · subst hc; rfl
  · subst hz; rfl
  · obtain rfl : k = 31 := by omega
    rfl

/-- A mask of ones over a field leaves it. -/
theorem field_and_of_ones (w : Word) {mask : Word} {lo n : Nat} (h : field mask lo n = BitVec.allOnes n) :
    field (w &&& mask) lo n = field w lo n := by
  rw [field, BitVec.extractLsb'_and]
  exact (congrArg (field w lo n &&& ·) h).trans BitVec.and_allOnes

/-- The status register of a word put together from the flag byte of `a` and the control byte of `b`. -/
theorem Psr.ofWord_flags_or_control (a b : Word) :
    Psr.ofWord ((a &&& 0xF0000000) ||| (b &&& 0x000000FF)) =
      { Psr.ofWord b with n := (Psr.ofWord a).n, z := (Psr.ofWord a).z, c := (Psr.ofWord a).c, v := (Psr.ofWord a).v } := by
  have hmode : field ((a &&& 0xF0000000) ||| (b &&& 0x000000FF)) 0 5 = field b 0 5 := by
    have hflags : field (a &&& 0xF0000000) 0 5 = 0 := by simp [field, BitVec.extractLsb'_and]
    have hcontrol : field (b &&& 0x000000FF) 0 5 = field b 0 5 := field_and_of_ones b rfl
    rw [field, BitVec.extractLsb'_or, ← hcontrol]
    exact (congrArg (· ||| field (b &&& 0x000000FF) 0 5) hflags).trans BitVec.zero_or
  rw [Psr.ofWord, hmode]
  simp [Psr.ofWord, flag]

theorem field_flags_or_control (a b : Word) : field ((a &&& 0xF0000000) ||| (b &&& 0x000000FF)) 8 20 = 0 := by
  simp [field, BitVec.extractLsb'_or, BitVec.extractLsb'_and]

/-- Writing without the T variant is writing the word with bit 5 clear (R8). -/
theorem Psr.written_eq_ofWord (hasT : Bool) (v : Word) :
    Psr.written hasT v = Psr.ofWord (if hasT then v else v &&& 0xFFFFFFDF) := by
  cases hasT
  case true => rfl
  case false =>
    have hmode : field (v &&& 0xFFFFFFDF) 0 5 = field v 0 5 := field_and_of_ones v rfl
    rw [if_neg Bool.false_ne_true, Psr.ofWord, hmode]
    simp [Psr.written, Psr.ofWord, flag]

/-- The word of a status register written through a mask (R332, R8). -/
theorem toWord_mergePsr (hasT : Bool) (fmask : BitVec 4) (old : Psr) (v : Word) :
    (mergePsr hasT fmask true old v).toWord =
      ((if fmask.getLsbD 3 then v else old.toWord) &&& 0xF0000000)
        ||| ((if fmask.getLsbD 0 then (if hasT then v else v &&& 0xFFFFFFDF) else old.toWord) &&& 0x000000FF) := by
  have hflags : Psr.ofWord (if fmask.getLsbD 3 then v else old.toWord) = if fmask.getLsbD 3 then Psr.ofWord v else old := by
    rw [apply_ite Psr.ofWord, Psr.ofWord_toWord]
  have hcontrol : Psr.ofWord (if fmask.getLsbD 0 then (if hasT then v else v &&& 0xFFFFFFDF) else old.toWord)
      = if fmask.getLsbD 0 then Psr.written hasT v else old := by
    rw [apply_ite Psr.ofWord, ← Psr.written_eq_ofWord, Psr.ofWord_toWord]
  refine Psr.toWord_eq ?_ (field_flags_or_control _ _)
  rw [Psr.ofWord_flags_or_control, hflags, hcontrol, mergePsr, Bool.and_true]
  cases fmask.getLsbD 3 <;> cases fmask.getLsbD 0 <;> rfl

/-- Settles O26: one SPSR is set, to the merged one, whose word is known. -/
theorem msrSpsr : Obligations.MsrSpsr := by
  refine ⟨fun c fmask m s i v hi hpc => ?_, fun c r fmask m s he => exec_msrReg_pc he⟩
  obtain ⟨-, hexec⟩ := exec_msr hi
  rw [hexec]
  refine ⟨writePsr_spsr_none, fun n hn => ?written⟩
  case written =>
    rw [writePsr_spsr (s := { s with userLdm := false }) hn]
    refine ⟨_, advance_of_notAtTop hpc, ?word, fun k hk => Spsrs.get_set_other _ _ hk, rfl, rfl, rfl, keepsMemory_of rfl rfl,
      ⟨rfl, rfl⟩, rfl, rfl⟩
    case word => exact (congrArg Psr.toWord (Spsrs.get_set_same ..)).trans (toWord_mergePsr ..)

end Sys2Proof.Machine
end

section
/-! PROOFS. O46 to O49, O51 to O53 and O55. An instruction that traps takes its exception from the state the instruction starts in, and
what taking an exception does field by field is `entered_takeException`. At the boundary, with no exception due, stands the fetch. -/

namespace Sys2Proof.Machine

/-! ## Instructions that trap -/

section Traps

variable {c : Cond} {m : Mode} {s : State}

/-- An instruction executes for part of the names it executes for. -/
theorem executes.mono {names names' : List Reg} (h : executes c names m s) (hsub : ∀ i ∈ names', i ∈ names) :
    executes c names' m s := by
  obtain ⟨ht, hm, hc, hbanked⟩ := h
  exact ⟨ht, hm, hc, fun hl i hi => hbanked hl i (hsub i hi)⟩

/-- SWI that executes (R320). -/
theorem exec_swi {number : BitVec 24} (he : executes c [] m s) :
    exec (.swi c number) s = .next (State.takeException { s with userLdm := false } .softwareInterrupt (s.pc + 4)) := by
  change execSwi c number s = _
  exact whenExecuted_executes he _

/-- The instructions no coprocessor accepts, and the words of the undefined space, that execute: none looks at its fields (R334, R340). -/
theorem exec_undefined {i : Instr} {names : List Reg} (he : executes c names m s)
    (hi : (∃ hi lo, i = .undefined c hi lo) ∨ (∃ op1 crn crd cp op2 crm, i = .cdp c op1 crn crd cp op2 crm)
      ∨ (∃ p u n w rn crd cp off, names = [rn] ∧ (i = .ldc c p u n w rn crd cp off ∨ i = .stc c p u n w rn crd cp off))
      ∨ (∃ op1 crn rd cp op2 crm, names = [rd] ∧ (i = .mcr c op1 crn rd cp op2 crm ∨ i = .mrc c op1 crn rd cp op2 crm))) :
    exec i s = .next (State.takeException { s with userLdm := false } .undefinedInstruction (s.pc + 4)) := by
  have hnone : executes c [] m s := he.mono (by simp)
  obtain ⟨hi, lo, rfl⟩ | ⟨op1, crn, crd, cp, op2, crm, rfl⟩ | ⟨p, u, n, w, rn, crd, cp, off, rfl, rfl | rfl⟩
    | ⟨op1, crn, rd, cp, op2, crm, rfl, rfl | rfl⟩ := hi
  case inl | inr.inl => exact whenExecuted_executes hnone _
  all_goals exact whenExecuted_executes he _

end Traps

/-- Settles O46: the exception taken, and its fields under their own names. -/
theorem softwareInterrupt : Obligations.SoftwareInterrupt := fun _ _ _ s he =>
  ⟨_, exec_swi he, entered_takeException .softwareInterrupt (s.pc + 4) { s with userLdm := false }, rfl, rfl, rfl, rfl, rfl⟩

/-- Settles O47: as O46. -/
theorem undefinedInstructions : Obligations.UndefinedInstructions := fun _ _ s _ _ he hi =>
  ⟨_, exec_undefined he hi, entered_takeException .undefinedInstruction (s.pc + 4) { s with userLdm := false }, rfl, rfl, rfl, rfl, rfl⟩

/-- `MOVS pc, lr` that executes in a mode with an SPSR returns to r14, if that and the saved CPSR allow it (R358): a case of O19. -/
theorem exec_movs_pc_lr {m : Mode} {n : SpsrName} {s : State} {a : Word} (he : executes .al [0, 15, 14] m s) (hn : m.spsr = some n)
    (hlink : s.readReg m 14 = a) (ha : field a 0 2 = 0) (ht : (s.spsrs.get n).t = false)
    (hmode : (Mode.ofBits s.platform.hasV4 (s.spsrs.get n).m).isSome = true) :
    exec (.movShiftImm .al 0 15 true 0 .lsl 14) s = .next { s with cpsr := s.spsrs.get n, pc := a, userLdm := false } := by
  obtain ⟨-, -, -, hreturn⟩ := dataProcessingToPc .mov .al 0 (.shiftImm 0 .lsl 14) m s a rfl he rfl hlink.symm
  obtain ⟨-, -, -, hreturns⟩ := hreturn n _ hn rfl
  exact hreturns ha ht hmode

/-- Settles O48: the handler finds the CPSR of the caller in spsr_svc and the address after the SWI in r14_svc. -/
theorem softwareInterruptReturns : Obligations.SoftwareInterruptReturns := by
  intro c number m s he hpc
  have ⟨harm, hm, _, _⟩ := he
  have hlegal : (Mode.ofBits s.platform.hasV4 s.cpsr.m).isSome = true := Option.isSome_of_eq_some hm
  have hafter : field (s.pc + 4) 0 2 = 0 := aligned_word_iff.mp (aligned_word_add_four (aligned_word_iff.mpr hpc))
  have hhandler : executes .al [0, 15, 14] .supervisor
      (State.takeException { s with userLdm := false } .softwareInterrupt (s.pc + 4)) :=
    ⟨rfl, State.takeException_mode .., rfl, nofun⟩
  refine ⟨_, _, exec_swi he, exec_movs_pc_lr hhandler (n := .svc) rfl rfl hafter harm hlegal, rfl, rfl, hm, keepsMemory_of rfl rfl,
    fun r hr => Regs.get_set_other s.regs _ hr⟩

/-! ## The vector table -/

/-- Settles O49: the table is read off, and no vector is 0x14. -/
theorem vectorTable : Obligations.VectorTable := by
  refine ⟨rfl, fun s e ra => ⟨rfl, ?unused, State.takeException_mode s e ra⟩⟩
  case unused =>
    change e.vector ≠ 0x14
    cases e <;> decide

/-! ## Exceptions at the boundary -/

/-- Settles O51: the interrupt is taken in the state whose sample is used up. -/
theorem interruptEntry : Obligations.InterruptEntry := by
  intro s p ps m hpins ht hm hr e he
  refine ⟨_, step_of_done ((arrive_of_pins hpins).trans ?taken), entered_takeException e (s.pc + 4) { s with pins := ps }⟩
  case taken =>
    obtain ⟨rfl, hp, hf⟩ | ⟨rfl, hp, hi, hf⟩ := he
    · exact boundary_fiq (s := { s with pins := ps }) hr ht hm hp hf
    · exact boundary_irq (s := { s with pins := ps }) hr ht hm hp hi hf

theorem boundary_reset {p : Pins} (s : State) (h : p.reset = true) : boundary p s = .done (.next s.takeReset) := if_pos h

/-- Settles O53: the first test at the boundary is that of the reset input. -/
theorem resetInput : Obligations.ResetInput := by
  intro s p ps hpins hr
  exact ⟨_, step_of_done ((arrive_of_pins hpins).trans (boundary_reset _ hr)), rfl, rfl, rfl, rfl, rfl,
    fun r hne => Regs.get_set_other s.regs _ hne, fun n hne => Spsrs.get_set_other s.spsrs _ hne, keepsMemory_of rfl rfl, rfl, rfl⟩

section Fetches

variable {s : State} {p : Pins} {m : Mode}

/-- With no exception due there is the fetch (R361, R364). -/
theorem boundary_of_notDue (hr : p.reset = false) (ht : s.cpsr.t = false) (hm : s.mode = some m)
    (hf : p.fiq = false ∨ s.cpsr.f = true) (hi : p.irq = false ∨ s.cpsr.i = true) : boundary p s = fetch m s := by
  have hnofiq : (p.fiq && !s.cpsr.f) = false := by
    obtain hf | hf := hf <;> simp [hf]
  have hnoirq : (p.irq && !s.cpsr.i) = false := by
    obtain hi | hi := hi <;> simp [hi]
  simp [boundary, hr, ht, hm, hnofiq, hnoirq]

theorem fetch_rejected (ha : aligned .word s.pc = true) (hk : answer s .fetch m.privileged s.pc .word = .abort) :
    fetch m s = .done (.next (s.takeException .prefetchAbort (s.pc + 4))) := by
  rw [answer] at hk
  simp [fetch, ha, hk]

/-- An accepted fetch of a word that decodes, and that the program has not stored to, runs the instruction (R86, R101). -/
theorem fetch_accepted {i : Instr} (ha : aligned .word s.pc = true) (hk : answer s .fetch m.privileged s.pc .word = .ok)
    (hstored : s.pc.toNat / 4 ∉ s.stored) (hd : decode (Memory.read s.platform.bigEnd s.mem s.pc .word) = .ok i) :
    fetch m s = .run i s := by
  rw [answer] at hk
  simp [fetch, ha, hk, hstored, fetchedWord, hd]

end Fetches

/-- Settles O52: the fetch is rejected before the word is looked at. -/
theorem prefetchAbort : Obligations.PrefetchAbort := by
  intro s m ht hm hr hf hi hpc hk
  have hdone : arrive s = .done (.next (s.sampled.takeException .prefetchAbort (s.pc + 4))) :=
    (boundary_of_notDue (s := s.sampled) hr ht hm hf hi).trans (fetch_rejected (s := s.sampled) (aligned_word_iff.mpr hpc) hk)
  exact ⟨_, step_of_done hdone, entered_takeException .prefetchAbort (s.pc + 4) s.sampled, rfl⟩

/-- Settles O55: the boundary, the fetch and the decoder each answer with the instruction. -/
theorem stepRunsDecoded : Obligations.StepRunsDecoded := by
  intro s m i ht hm hr hf hi hpc hk hstored hd
  have hrun : arrive s = .run i s.sampled :=
    (boundary_of_notDue (s := s.sampled) hr ht hm hf hi).trans
      (fetch_accepted (s := s.sampled) (aligned_word_iff.mpr hpc) hk hstored hd)
  rw [step, hrun]

end Sys2Proof.Machine
end
